-- ==== Sys2Proof/Word.lean ====
section
/-! DEFINITION. The value types of spec 00_scope R8 and R10: words, bytes, and exact division rounding up. -/

namespace Sys2Proof

/-- A 32-bit register (10_state R20) or a pixel word (00_scope R10). -/
abbrev Word := BitVec 32

/-- 00_scope R10: `Byte`, 0..255. -/
abbrev Byte := BitVec 8

/-- 00_scope R8: `ceil_div(a, b)` on naturals, used with `b > 0` only. -/
def ceilDiv (a b : Nat) : Nat := (a + b - 1) / b

end Sys2Proof
end

