-- ==== Sys2Proof/Config.lean ====
section
/-! DEFINITION. What an implementation fixes (00_scope R7), the colour type its `COLOR_BITS` gives, and the values the spec leaves open: the latter are
constants with no body, so that nothing can be proved of their value. -/

namespace Sys2Proof

/-- The two memory spaces of 20_memory R50. -/
inductive Space where
  | pix   -- pixel buffers A and B
  | str   -- encoded byte sequences
  deriving DecidableEq, Repr

/-- The compression methods the port knows (45_selector R226). Method None never reaches the port. -/
inductive ComprMethod where
  | lz4
  | zstd
  | zlib
  | bzip2
  deriving DecidableEq, Repr

/-- The byte orders a 32-bit word can have in memory or in a payload (R7 `PIX_WORD_ORDER`, `PAYLOAD_WORD_ORDER`). -/
inductive WordOrder where
  | bigEndian
  | littleEndian
  deriving DecidableEq, Repr

/-! ### Parameters with the spec's value (00_scope R7)

The constants of the encodings are abbreviations that `simp` replaces by their values. -/

/-- R7 `PIXEL_BYTES`. -/
def Config.pixelBytes : Nat := 4

/-- R7 `COLOR_BITS`. -/
@[simp] abbrev Config.colorBits : Nat := 24

/-- 00_scope R10: `Color`, 0..2^24 − 1. -/
abbrev Color := BitVec Config.colorBits

/-- R7 `TILE_SIDE`, decision D8. -/
def Config.tileSide : Nat := 64

/-- R7 `TILE_MAX_COLORS`. -/
def Config.tileMaxColors : Nat := 128

/-- R7 `TILE_PACKED_MAX`. -/
def Config.tilePackedMax : Nat := 16

/-- R7 `TILE_HDR_REUSE_PACKED`. -/
@[simp] abbrev Config.tileHdrReusePacked : Byte := 127

/-- R7 `TILE_HDR_PLAIN_RLE`. -/
@[simp] abbrev Config.tileHdrPlainRle : Byte := 128

/-- R7 `TILE_HDR_REUSE_RLE`. -/
@[simp] abbrev Config.tileHdrReuseRle : Byte := 129

/-- R7 `RLE_FLAG`, in a header byte and in an index byte. -/
@[simp] abbrev Config.rleFlag : Nat := 0x80

/-- R7 `RLE_CONT`: the continuation byte, and what it is worth. -/
@[simp] abbrev Config.rleCont : Nat := 0xFF

/-- R7 `QT_COLOR_WIDTHS`. -/
@[simp] abbrev Config.qtColorWidths : List Nat := [0, 1, 2, 4, 8, 16, 32]

/-- R7 `QT_RAW_BYTES`. -/
@[simp] abbrev Config.qtRawBytes : Nat := 4

/-- R7 `ENC_*`: None. -/
@[simp] abbrev Config.encNone : BitVec 16 := 0

/-- R7 `ENC_*`: Diff. -/
@[simp] abbrev Config.encDiff : BitVec 16 := 1

/-- R7 `ENC_*`: TRLE-tile. -/
@[simp] abbrev Config.encTrle : BitVec 16 := 2

/-- R7 `ENC_*`: QuadTree, the last assigned tag. -/
@[simp] abbrev Config.encQuadtree : BitVec 16 := 3

/-- R7 `COMPR_*`: None. -/
@[simp] abbrev Config.comprNone : BitVec 16 := 0

/-- R7 `COMPR_*`: LZ4. -/
@[simp] abbrev Config.comprLz4 : BitVec 16 := 1

/-- R7 `COMPR_*`: ZSTD. -/
@[simp] abbrev Config.comprZstd : BitVec 16 := 2

/-- R7 `COMPR_*`: ZLIB. -/
@[simp] abbrev Config.comprZlib : BitVec 16 := 3

/-- R7 `COMPR_*`: BZIP2, the last assigned tag. -/
@[simp] abbrev Config.comprBzip2 : BitVec 16 := 4

/-- R7 `PAYLOAD_WORD_ORDER`, decision D6: the 32-bit fields inside diff and quadtree payloads. -/
@[simp] abbrev Config.payloadWordOrder : WordOrder := .bigEndian

/-- R7 `PIX_WORD_ORDER`, decision D5: a pixel word in PIX. -/
@[simp] abbrev Config.pixWordOrder : WordOrder := .littleEndian

/-- R7 `DIFF_MAX_GAP`. -/
def Config.diffMaxGap : Nat := 255

/-- R7 `MAX_BITCOUNT`, decision D9. -/
def Config.maxBitCount : Nat := 32

/-- R7 `MAX_RECT_BYTES`, decision D27. -/
def Config.maxRectBytes : Nat := 2 ^ 32 - 1

/-- 41_palette R124, R128: the cap of a palette scan that cannot be reached. -/
def Config.palMax : Nat := 2 ^ Config.colorBits + 1

/-- R7 `TILE_REUSE_EN` is open and held in `CFG_MODE`: the bit that holds it (10_state R24, decision D14). Its value is
an argument of the tile encoder, never a constant of the model. -/
@[simp] abbrev Config.tileReuseEnBit : Nat := 0

/-- 20_memory R50: addresses are 32 bits, so a space has 2^32 bytes. -/
def Config.spaceSize : Nat := 2 ^ 32

/-! ### Open values -/

/-- R7 `WIRE_MAGIC`: OPEN, decision D7 (log 8). -/
opaque Config.wireMagic : Word

/-- The open part of `HASH_MASK`: its `k` less 1 (log 21). -/
opaque Config.hashSize : Nat

/-- R7 `HASH_MASK`: OPEN and not observable, decision D34, a value `2^k − 1` with `k ≥ 1` (log 21). -/
def Config.hashMask : Nat := 2 ^ (Config.hashSize + 1) - 1

/-- 20_memory R58 `REG_BASE`: where the register window sits. Read by no rule (log 21). -/
opaque Config.regBase : Word

/-- 45_selector R226 `Compress(method, src, level)`: uninterpreted; `none` is `Error` (log 9). -/
opaque Config.compress : ComprMethod → List Byte → Word → Option (List Byte)

/-- 45_selector R226 `Decompress(method, data, expectedSize)`: uninterpreted; `none` is `Error` (log 9). -/
opaque Config.decompress : ComprMethod → List Byte → Nat → Option (List Byte)

/-- What a byte reads as that holds no specified value (20_memory R59, 60_exceptions R264, decision D33): a free
value for each space, each count of times the byte became unspecified, and each address (logs 4 and 5). -/
opaque Config.unspecifiedByte : Space → Nat → Nat → Byte

/-- 45_selector R227: the ONE property a claim may assume of the port, always as a named hypothesis. -/
def Config.CompressorInverse : Prop :=
  ∀ (m : ComprMethod) (src c : List Byte) (level : Word),
    Config.compress m src level = some c → Config.decompress m c src.length = some src

end Sys2Proof
end

