-- ==== Sys2Proof/Machine/Layout.lean ====
section
/-! DEFINITION. Byte orders, bit order, the run flag and the two width functions of the stream formats (20_memory R54,
40_bitstream R101, 30_encoding R80, R87 and R90): what the encoder, the decoder and the commands share. -/

namespace Sys2Proof

/-! ### Byte orders (00_scope R9, 20_memory R54) -/

/-- `be16(v)`: most significant byte first. -/
def be16 (v : BitVec 16) : List Byte := [v.extractLsb' 8 8, v.extractLsb' 0 8]

/-- `be32(v)`: most significant byte first. -/
def be32 (v : Word) : List Byte := [v.extractLsb' 24 8, v.extractLsb' 16 8, v.extractLsb' 8 8, v.extractLsb' 0 8]

/-- `le32(v)`: the byte at the lowest address holds bits 7:0. -/
def le32 (v : Word) : List Byte := [v.extractLsb' 0 8, v.extractLsb' 8 8, v.extractLsb' 16 8, v.extractLsb' 24 8]

/-- `c3(c)`: the low, middle and high byte of a colour, in that order (42_tile R138). -/
def c3 (c : Color) : List Byte := [c.extractLsb' 0 8, c.extractLsb' 8 8, c.extractLsb' 16 8]

/-- `from_be16` of two bytes. -/
def fromBe16 : List Byte → BitVec 16
  | [b0, b1] => b0 ++ b1
  | _ => 0

/-- `from_be32` of four bytes. -/
def fromBe32 : List Byte → Word
  | [b0, b1, b2, b3] => b0 ++ b1 ++ b2 ++ b3
  | _ => 0

/-- The inverse of `le32`. -/
def fromLe32 : List Byte → Word
  | [b0, b1, b2, b3] => b3 ++ b2 ++ b1 ++ b0
  | _ => 0

/-- `from_c3` of three bytes. -/
def fromC3 : List Byte → Color
  | [b0, b1, b2] => b2 ++ b1 ++ b0
  | _ => 0

/-- The bytes of a word in a given order. -/
def wordBytes : WordOrder → Word → List Byte
  | .bigEndian => be32
  | .littleEndian => le32

/-- The word that four bytes stand for in a given order. -/
def fromWordBytes : WordOrder → List Byte → Word
  | .bigEndian => fromBe32
  | .littleEndian => fromLe32

/-- A 32-bit field of a diff or quadtree payload, in the order of R7 `PAYLOAD_WORD_ORDER` (decision D6). -/
def payload32 (v : Word) : List Byte := wordBytes Config.payloadWordOrder v

/-- The inverse of `payload32`. -/
def fromPayload32 (bs : List Byte) : Word := fromWordBytes Config.payloadWordOrder bs

/-- A pixel word in PIX, in the order of R7 `PIX_WORD_ORDER` (20_memory R53, decision D5). -/
def pix32 (v : Word) : List Byte := wordBytes Config.pixWordOrder v

/-- The inverse of `pix32`. -/
def fromPix32 (bs : List Byte) : Word := fromWordBytes Config.pixWordOrder bs

/-- The 32-bit payload fields of a byte sequence; a rest of fewer than four bytes is dropped. -/
def fields32 : List Byte → List Word
  | b0 :: b1 :: b2 :: b3 :: rest => fromPayload32 [b0, b1, b2, b3] :: fields32 rest
  | _ => []

/-- `color(p) = p & 0xFFFFFF` (20_memory R55): the low `COLOR_BITS` bits. -/
def color (p : Word) : Color := p.setWidth Config.colorBits

/-- `zext_32` of a colour: bits 31:24 are 0 (20_memory R55). -/
def pixelOf (c : Color) : Word := c.setWidth 32

/-! ### Bit order (40_bitstream R101) -/

/-- The low `n` bits of a value in writing order: most significant first. -/
def bitsOf (n v : Nat) : List Bool := (List.range n).map fun i => v.testBit (n - 1 - i)

/-- The number a sequence of bits stands for, first bit most significant. -/
def natOfBits (bits : List Bool) : Nat := bits.foldl (fun v b => 2 * v + b.toNat) 0

/-- One byte of a bit stream from the bits that start there; missing low bits are 0 (40_bitstream R103). -/
def byteOfBits (bits : List Bool) : Byte :=
  BitVec.ofNat 8 (natOfBits ((List.range 8).map fun i => bits.getD i false))

/-- `bw_fin`: the `ceil_div(len, 8)` bytes of a bit sequence, the last one padded with zero bits (R103). -/
def packBits (bits : List Bool) : List Byte :=
  (List.range (ceilDiv bits.length 8)).map fun i => byteOfBits (bits.drop (8 * i))

/-- Stream bit number `p` of a segment whose bytes are given by a function: byte `p div 8`, position
`7 − p mod 8` (R101). -/
def streamBit (byteAt : Nat → Byte) (p : Nat) : Bool := (byteAt (p / 8)).getLsbD (7 - p % 8)

/-- The value of `n` stream bits from bit position `p` on (the loop of 40_bitstream R107). -/
def streamBits (byteAt : Nat → Byte) (p n : Nat) : Nat :=
  natOfBits ((List.range n).map fun i => streamBit byteAt (p + i))

/-! ### The run flag and the widths -/

/-- `RLE_FLAG` set in a header byte or an index byte (30_encoding R90 (a), (b)). -/
def hasRleFlag (b : Byte) : Bool := b &&& BitVec.ofNat 8 Config.rleFlag != 0

/-- `tile_width(count)` of 30_encoding R80. -/
def tileWidth (count : Nat) : Nat :=
  if count ≤ 1 then 0 else if count ≤ 2 then 1 else if count ≤ 4 then 2 else if count ≤ Config.tilePackedMax then 4 else 8

/-- `qt_width(n)` of 30_encoding R87: the smallest legal width that can index `n` entries, else the largest. -/
def qtWidth (n : Nat) : Nat :=
  (Config.qtColorWidths.find? fun b => decide (n ≤ 2 ^ b)).getD (Config.qtColorWidths.getLastD 0)

/-- `colorBits` of a quadtree container (30_encoding R87). -/
def qtColorBits (paletteSize : Nat) : Nat := if paletteSize = 0 then 8 * Config.qtRawBytes else qtWidth paletteSize

end Sys2Proof
end

