-- ==== Sys2Proof/Syntax.lean ====
section
/-! DEFINITION. The instructions: one constructor per row of spec/opcode_table.json, in the table's order. The first
23 are the host commands (30_encoding R71), then the reset write (10_state R28), then the tokens the decoders
interpret (30_encoding R74 to R92). -/

namespace Sys2Proof

inductive Instr where
  -- host commands: no operand stands in the word (30_encoding R70)
  | nop
  | bswInit
  | bswPut
  | bswFin
  | bsrInit
  | bsrGet
  | bsrFin
  | palBuild
  | palLookup
  | palGet
  | tileEnc
  | tileDec
  | trleEnc
  | trleDec
  | trleRst
  | qtEnc
  | qtDec
  | diffEnc
  | diffDec
  | rawPack
  | rawUnpack
  | selEnc
  | selDec
  /-- A write to `CTRL` with bit 0 set; bits 31:1 are ignored (10_state R28). -/
  | reset (ignored : BitVec 31)
  -- the wire rectangle header
  /-- 30_encoding R74 after the magic marker: `srclen` is absent (here 0) when `encMethod` is 0. -/
  | wireHdr (encMethod comprMethod : BitVec 16) (complen srclen : Word)
  | encNone
  | encDiff
  | encTrle
  | encQuadtree
  | comprNone
  | comprLz4
  | comprZstd
  | comprZlib
  | comprBzip2
  /-- 30_encoding R89: the bytes of the rectangle, row by row. -/
  | rawPayload (bytes : List Byte)
  -- tile header bytes (30_encoding R78)
  | tileRaw
  | tilePlainRle
  | tileReusePacked
  | tileReuseRle
  | tileSolid
  /-- Headers 2..16. -/
  | tilePacked (count : BitVec 7)
  /-- Headers 17..126. -/
  | tilePalRleLow (count : BitVec 7)
  /-- Headers 130..255, `count` = h & 0x7F. -/
  | tilePalRle (count : BitVec 7)
  -- elements of a tile record
  | palEntry (c : Color)
  | rawPixel (c : Color)
  /-- 30_encoding R80: an index of `w` bits. -/
  | packedIndex (w : Nat) (k : BitVec 4)
  | run1 (k : BitVec 7)
  | runN (k : BitVec 7)
  | runLenCont
  | runLenFinal (f : Byte)
  | plainRun (c : Color)
  -- the quadtree container and its streams
  /-- 30_encoding R85: the palette entries as they stand in the container, the leaf count, the two streams. -/
  | qtBlob (palette : List Word) (leafCount : Word) (colourStream splitStream : List Byte)
  | split0
  | split1
  /-- 30_encoding R86: a colour-stream entry of `colorBits` bits. -/
  | qtColor (colorBits : Nat) (v : Word)
  -- the diff stream
  | diffW (gap : Byte) (color : Color)
  deriving DecidableEq, Repr

end Sys2Proof
end

