-- ==== Sys2Proof/WellFormed.lean ====
section
/-! DEFINITION. Which terms of `Instr` the encodings of 30_encoding admit. -/

namespace Sys2Proof

/-- 30_encoding R80: the widths a packed body can have. -/
def packedWidths : List Nat := [1, 2, 4]

/-- The operands stand in their ranges. -/
def Instr.wf : Instr → Bool
  | .wireHdr e c _ sl => decide (e.toNat ≤ Config.encQuadtree.toNat) && decide (c.toNat ≤ Config.comprBzip2.toNat) && (e != 0 || sl == 0)
  | .tilePacked n => decide (2 ≤ n.toNat) && decide (n.toNat ≤ Config.tilePackedMax)
  | .tilePalRleLow n => decide (Config.tilePackedMax < n.toNat) && decide (n.toNat < Config.tileHdrReusePacked.toNat)
  | .tilePalRle n => decide (2 ≤ n.toNat)
  | .packedIndex w k => packedWidths.contains w && decide (k.toNat < 2 ^ w)
  | .runLenFinal f => f.toNat != Config.rleCont
  | .qtBlob pal lc cs _ =>
      decide (pal.length < 2 ^ 32) &&
        decide (cs.length = ceilDiv (lc.toNat * qtColorBits pal.length) 8)
  | .qtColor b v => Config.qtColorWidths.contains b && decide (v.toNat < 2 ^ b)
  | .nop | .bswInit | .bswPut | .bswFin | .bsrInit | .bsrGet | .bsrFin | .palBuild | .palLookup | .palGet
  | .tileEnc | .tileDec | .trleEnc | .trleDec | .trleRst | .qtEnc | .qtDec | .diffEnc | .diffDec
  | .rawPack | .rawUnpack | .selEnc | .selDec | .reset _
  | .encNone | .encDiff | .encTrle | .encQuadtree
  | .comprNone | .comprLz4 | .comprZstd | .comprZlib | .comprBzip2
  | .rawPayload _ | .tileRaw | .tilePlainRle | .tileReusePacked | .tileReuseRle | .tileSolid
  | .palEntry _ | .rawPixel _ | .run1 _ | .runN _ | .runLenCont | .plainRun _
  | .split0 | .split1 | .diffW _ _ => true

end Sys2Proof
end

