-- ==== Sys2Proof/Decode.lean ====
section
/-! DEFINITION. The decoder, total and rejecting by name, and after it the encoder (30_encoding R70 to R92). A token
is recognised by its place in the enclosing format, so the decoder is told the place: its `Channel`. -/

namespace Sys2Proof

/-- Where a word, a byte or a bit field is read: it decides which rows of the opcode table apply. -/
inductive Channel where
  | cmd                      -- a host write to `CMD` (R70)
  | ctrl                     -- a host write to `CTRL` (10_state R28)
  | wire                     -- the wire header (R74)
  | encTag                   -- R75
  | comprTag                 -- R76
  | rawBody (size : Nat)     -- R89
  | tileHdr                  -- R78
  | palEntry                 -- R79
  | rawPixel                 -- R84
  | packed (w : Nat)         -- R80
  | runToken                 -- R81
  | runLen                   -- R82
  | plainRun                 -- R83
  | qt                       -- R85
  | split                    -- R86
  | qtColor (bits : Nat)     -- R86
  | diff                     -- R88
  deriving DecidableEq, Repr

/-- An encoded instruction: a number of so many bits, numbered as spec/opcode_table.json numbers them, or, for the
rows with no fixed width, the bytes themselves. -/
inductive Code where
  | word (nbits value : Nat)
  | bytes (bs : List Byte)
  deriving DecidableEq, Repr

/-- Why the decoder rejects. -/
inductive Reject where
  /-- A command word outside 30_encoding R71 (R72). -/
  | illegalCommand (w : Word)
  /-- A write to `CTRL` with bit 0 clear: no instruction (10_state R28). -/
  | noReset
  /-- The first four bytes are not `WIRE_MAGIC` (45_selector R224). -/
  | badMagic (m : Word)
  /-- An unassigned `encMethod` (R75). -/
  | badEncMethod (e : BitVec 16)
  /-- An unassigned `comprMethod` (R76). -/
  | badComprMethod (c : BitVec 16)
  /-- Fewer bytes than the format needs; the offset of the part that is missing (60_exceptions R252). -/
  | truncated (offset : Nat)
  /-- Not of the width this channel reads. -/
  | wrongShape
  deriving DecidableEq, Repr

/-- 30_encoding R71: the opcode of every command. -/
def commandTable : List (Nat × Instr) :=
  [(0x00, .nop), (0x01, .bswInit), (0x02, .bswPut), (0x03, .bswFin), (0x04, .bsrInit), (0x05, .bsrGet),
   (0x06, .bsrFin), (0x08, .palBuild), (0x09, .palLookup), (0x0A, .palGet), (0x10, .tileEnc), (0x11, .tileDec),
   (0x12, .trleEnc), (0x13, .trleDec), (0x14, .trleRst), (0x20, .qtEnc), (0x21, .qtDec), (0x30, .diffEnc),
   (0x31, .diffDec), (0x40, .rawPack), (0x41, .rawUnpack), (0x50, .selEnc), (0x51, .selDec)]

/-- 30_encoding R70 to R72: the whole 32-bit word is matched, so `rsv ≠ 0` is illegal. -/
def decodeCommand (w : Word) : Except Reject Instr :=
  match commandTable.lookup w.toNat with
  | some i => .ok i
  | none => .error (.illegalCommand w)

/-- 10_state R28: bit 0 decides, bits 31:1 are ignored. -/
def decodeCtrl (w : Word) : Except Reject Instr :=
  if w.getLsbD 0 then .ok (.reset (w.extractLsb' 1 31)) else .error .noReset

/-- 30_encoding R75. -/
def decodeEncTag (e : BitVec 16) : Except Reject Instr :=
  if e = Config.encNone then .ok .encNone else if e = Config.encDiff then .ok .encDiff
  else if e = Config.encTrle then .ok .encTrle else if e = Config.encQuadtree then .ok .encQuadtree
  else .error (.badEncMethod e)

/-- 30_encoding R76. -/
def decodeComprTag (c : BitVec 16) : Except Reject Instr :=
  if c = Config.comprNone then .ok .comprNone else if c = Config.comprLz4 then .ok .comprLz4
  else if c = Config.comprZstd then .ok .comprZstd else if c = Config.comprZlib then .ok .comprZlib
  else if c = Config.comprBzip2 then .ok .comprBzip2 else .error (.badComprMethod c)

/-- 30_encoding R78, all 256 values, in the decoder's order: 0, 128, 127 or 129, everything else; R90 (a) for the
count. -/
def decodeTileHdr (h : Byte) : Instr :=
  if h = 0 then .tileRaw
  else if h = Config.tileHdrPlainRle then .tilePlainRle
  else if h = Config.tileHdrReusePacked then .tileReusePacked
  else if h = Config.tileHdrReuseRle then .tileReuseRle
  else if h = 1 then .tileSolid
  else if h.toNat ≤ Config.tilePackedMax then .tilePacked (h.setWidth 7)
  else if h.toNat < Config.tileHdrReusePacked.toNat then .tilePalRleLow (h.setWidth 7)
  else .tilePalRle (h.setWidth 7)

/-- 30_encoding R81, R90 (b): `k = b[6:0]`, run flag `b[7]`. -/
def decodeRunToken (b : Byte) : Instr :=
  if hasRleFlag b then .runN (b.setWidth 7) else .run1 (b.setWidth 7)

/-- 30_encoding R82. -/
def decodeRunLen (b : Byte) : Instr := if b.toNat = Config.rleCont then .runLenCont else .runLenFinal b

/-- 30_encoding R88, R90 (d): `gap = word[31:24]`, `color = word[23:0]`. -/
def decodeDiffW (w : Word) : Instr := .diffW (w.extractLsb' Config.colorBits 8) (w.extractLsb' 0 Config.colorBits)

/-- The `n` bytes at an offset of a sequence (00_scope R9 `take`, with the cursor as the offset). -/
def takeAt (bs : List Byte) (off n : Nat) : Except Reject (List Byte) :=
  if off + n ≤ bs.length then .ok ((bs.drop off).take n) else .error (.truncated off)

/-- 45_selector R224, the header's fields and the checks on them in its order; what follows the header is left. -/
def parseWire (bs : List Byte) : Except Reject Instr := do
  let magic := fromBe32 (← takeAt bs 0 4)
  if magic ≠ Config.wireMagic then .error (.badMagic magic) else
  let e := fromBe16 (← takeAt bs 4 2)
  let c := fromBe16 (← takeAt bs 6 2)
  if Config.encQuadtree.toNat < e.toNat then .error (.badEncMethod e) else
  if Config.comprBzip2.toNat < c.toNat then .error (.badComprMethod c) else
  let complen := fromBe32 (← takeAt bs 8 4)
  if e = Config.encNone then .ok (.wireHdr e c complen 0) else
  let srclen := fromBe32 (← takeAt bs 12 4)
  .ok (.wireHdr e c complen srclen)

/-- 43_quadtree R186: the split stream is all that remains. -/
def parseQt (bs : List Byte) : Except Reject Instr := do
  let n := (fromPayload32 (← takeAt bs 0 4)).toNat
  let palette := fields32 (← takeAt bs 4 (4 * n))
  let leafCount := fromPayload32 (← takeAt bs (4 + 4 * n) 4)
  let csLen := ceilDiv (leafCount.toNat * qtColorBits n) 8
  let cs ← takeAt bs (8 + 4 * n) csLen
  .ok (.qtBlob palette leafCount cs (bs.drop (8 + 4 * n + csLen)))

/-- The length of a wire header (30_encoding R74). -/
def wireHdrLen (e : BitVec 16) : Nat := if e = Config.encNone then 12 else 16

/-- A number of the channel's width, or a rejection. -/
def ofWidth (n nbits value : Nat) (i : Instr) : Except Reject Instr :=
  if nbits = n ∧ value < 2 ^ n then .ok i else .error .wrongShape

/-- The decoder: total on every channel and every code. -/
def decode : Channel → Code → Except Reject Instr
  | .cmd, .word n v => if n = 32 ∧ v < 2 ^ 32 then decodeCommand (BitVec.ofNat 32 v) else .error .wrongShape
  | .ctrl, .word n v => if n = 32 ∧ v < 2 ^ 32 then decodeCtrl (BitVec.ofNat 32 v) else .error .wrongShape
  | .encTag, .word n v => if n = 16 ∧ v < 2 ^ 16 then decodeEncTag (BitVec.ofNat 16 v) else .error .wrongShape
  | .comprTag, .word n v => if n = 16 ∧ v < 2 ^ 16 then decodeComprTag (BitVec.ofNat 16 v) else .error .wrongShape
  | .tileHdr, .word n v => ofWidth 8 n v (decodeTileHdr (BitVec.ofNat 8 v))
  | .palEntry, .word n v => ofWidth Config.colorBits n v (.palEntry (BitVec.ofNat Config.colorBits v))
  | .rawPixel, .word n v => ofWidth Config.colorBits n v (.rawPixel (BitVec.ofNat Config.colorBits v))
  | .packed w, .word n v =>
      if packedWidths.contains w then ofWidth w n v (.packedIndex w (BitVec.ofNat 4 v)) else .error .wrongShape
  | .runToken, .word n v => ofWidth 8 n v (decodeRunToken (BitVec.ofNat 8 v))
  | .runLen, .word n v => ofWidth 8 n v (decodeRunLen (BitVec.ofNat 8 v))
  | .plainRun, .word n v => ofWidth Config.colorBits n v (.plainRun (BitVec.ofNat Config.colorBits v))
  | .split, .word n v => ofWidth 1 n v (if v = 0 then .split0 else .split1)
  | .qtColor b, .word n v =>
      if Config.qtColorWidths.contains b then ofWidth b n v (.qtColor b (BitVec.ofNat 32 v)) else .error .wrongShape
  | .diff, .word n v => ofWidth 32 n v (decodeDiffW (BitVec.ofNat 32 v))
  | .wire, .bytes bs =>
      match parseWire bs with
      | .ok (.wireHdr e c cl sl) => if bs.length = wireHdrLen e then .ok (.wireHdr e c cl sl) else .error .wrongShape
      | .ok _ => .error .wrongShape
      | .error r => .error r
  | .rawBody n, .bytes bs => if bs.length = n then .ok (.rawPayload bs) else .error .wrongShape
  | .qt, .bytes bs => parseQt bs
  | .cmd, .bytes _ | .ctrl, .bytes _ | .encTag, .bytes _ | .comprTag, .bytes _ | .tileHdr, .bytes _
  | .palEntry, .bytes _ | .rawPixel, .bytes _ | .packed _, .bytes _ | .runToken, .bytes _ | .runLen, .bytes _
  | .plainRun, .bytes _ | .split, .bytes _ | .qtColor _, .bytes _ | .diff, .bytes _
  | .wire, .word _ _ | .rawBody _, .word _ _ | .qt, .word _ _ => .error .wrongShape

/-! ### The encoder -/

/-- The channel an instruction is read on. -/
def Instr.channel : Instr → Channel
  | .nop | .bswInit | .bswPut | .bswFin | .bsrInit | .bsrGet | .bsrFin | .palBuild | .palLookup | .palGet
  | .tileEnc | .tileDec | .trleEnc | .trleDec | .trleRst | .qtEnc | .qtDec | .diffEnc | .diffDec
  | .rawPack | .rawUnpack | .selEnc | .selDec => .cmd
  | .reset _ => .ctrl
  | .wireHdr _ _ _ _ => .wire
  | .encNone | .encDiff | .encTrle | .encQuadtree => .encTag
  | .comprNone | .comprLz4 | .comprZstd | .comprZlib | .comprBzip2 => .comprTag
  | .rawPayload bs => .rawBody bs.length
  | .tileRaw | .tilePlainRle | .tileReusePacked | .tileReuseRle | .tileSolid
  | .tilePacked _ | .tilePalRleLow _ | .tilePalRle _ => .tileHdr
  | .palEntry _ => .palEntry
  | .rawPixel _ => .rawPixel
  | .packedIndex w _ => .packed w
  | .run1 _ | .runN _ => .runToken
  | .runLenCont | .runLenFinal _ => .runLen
  | .plainRun _ => .plainRun
  | .qtBlob _ _ _ _ => .qt
  | .split0 | .split1 => .split
  | .qtColor b _ => .qtColor b
  | .diffW _ _ => .diff

/-- 45_selector R223, 30_encoding R74: the header's bytes. -/
def wireHdrBytes (e c : BitVec 16) (complen srclen : Word) : List Byte :=
  be32 Config.wireMagic ++ be16 e ++ be16 c ++ be32 complen ++ (if e = Config.encNone then [] else be32 srclen)

/-- 43_quadtree R182, 30_encoding R85: the container's bytes. -/
def qtBlobBytes (palette : List Word) (leafCount : Word) (cs ss : List Byte) : List Byte :=
  payload32 (BitVec.ofNat 32 palette.length) ++ palette.flatMap payload32 ++ payload32 leafCount ++ cs ++ ss

/-- The encoder, from the same tables: 30_encoding R70 to R88. -/
def encode : Instr → Code
  | .nop => .word 32 0x00
  | .bswInit => .word 32 0x01
  | .bswPut => .word 32 0x02
  | .bswFin => .word 32 0x03
  | .bsrInit => .word 32 0x04
  | .bsrGet => .word 32 0x05
  | .bsrFin => .word 32 0x06
  | .palBuild => .word 32 0x08
  | .palLookup => .word 32 0x09
  | .palGet => .word 32 0x0A
  | .tileEnc => .word 32 0x10
  | .tileDec => .word 32 0x11
  | .trleEnc => .word 32 0x12
  | .trleDec => .word 32 0x13
  | .trleRst => .word 32 0x14
  | .qtEnc => .word 32 0x20
  | .qtDec => .word 32 0x21
  | .diffEnc => .word 32 0x30
  | .diffDec => .word 32 0x31
  | .rawPack => .word 32 0x40
  | .rawUnpack => .word 32 0x41
  | .selEnc => .word 32 0x50
  | .selDec => .word 32 0x51
  | .reset ign => .word 32 (2 * ign.toNat + 1)
  | .wireHdr e c cl sl => .bytes (wireHdrBytes e c cl sl)
  | .encNone => .word 16 Config.encNone.toNat
  | .encDiff => .word 16 Config.encDiff.toNat
  | .encTrle => .word 16 Config.encTrle.toNat
  | .encQuadtree => .word 16 Config.encQuadtree.toNat
  | .comprNone => .word 16 Config.comprNone.toNat
  | .comprLz4 => .word 16 Config.comprLz4.toNat
  | .comprZstd => .word 16 Config.comprZstd.toNat
  | .comprZlib => .word 16 Config.comprZlib.toNat
  | .comprBzip2 => .word 16 Config.comprBzip2.toNat
  | .rawPayload bs => .bytes bs
  | .tileRaw => .word 8 0
  | .tilePlainRle => .word 8 Config.tileHdrPlainRle.toNat
  | .tileReusePacked => .word 8 Config.tileHdrReusePacked.toNat
  | .tileReuseRle => .word 8 Config.tileHdrReuseRle.toNat
  | .tileSolid => .word 8 1
  | .tilePacked n => .word 8 n.toNat
  | .tilePalRleLow n => .word 8 n.toNat
  | .tilePalRle n => .word 8 (Config.rleFlag + n.toNat)
  | .palEntry c => .word Config.colorBits c.toNat
  | .rawPixel c => .word Config.colorBits c.toNat
  | .packedIndex w k => .word w k.toNat
  | .run1 k => .word 8 k.toNat
  | .runN k => .word 8 (Config.rleFlag + k.toNat)
  | .runLenCont => .word 8 Config.rleCont
  | .runLenFinal f => .word 8 f.toNat
  | .plainRun c => .word Config.colorBits c.toNat
  | .qtBlob p lc cs ss => .bytes (qtBlobBytes p lc cs ss)
  | .split0 => .word 1 0
  | .split1 => .word 1 1
  | .qtColor b v => .word b v.toNat
  | .diffW g c => .word 32 (g.toNat * 2 ^ Config.colorBits + c.toNat)

/-! ### The host's question: one word, no place given -/

/-- The bytes of a number, the first one its least significant bits. -/
def bytesOfNat : Nat → Nat → List Byte
  | 0, _ => []
  | n + 1, v => BitVec.ofNat 8 v :: bytesOfNat n (v / 256)

/-- The channels a word of so many bits may be read on, most specific rows of the opcode table first: a word alone
does not say where it stands (log 15). -/
def tableChannels (nbits : Nat) : List Channel :=
  if nbits = 32 then [.cmd, .ctrl, .diff]
  else if nbits = 16 then [.encTag, .comprTag]
  else if nbits = 8 then [.tileHdr]
  else if nbits = Config.colorBits then [.palEntry]
  else if nbits = 1 then [.split]
  else if nbits = 96 ∨ nbits = 128 then [.wire]
  else []

/-- The code of a word on a channel. -/
def tableCode (ch : Channel) (nbits w : Nat) : Code :=
  match ch with
  | .wire => .bytes (bytesOfNat (nbits / 8) w)
  | _ => .word nbits w

/-- The first channel of a list on which the word decodes, with its instruction. -/
def firstDecoding (nbits w : Nat) : List Channel → Option (Channel × Instr)
  | [] => none
  | ch :: rest =>
    match decode ch (tableCode ch nbits w) with
    | .ok i => some (ch, i)
    | .error _ => firstDecoding nbits w rest

/-- The instruction the decoder reads from a word of spec/opcode_table.json, numbered as the table numbers it. -/
def decodeTableWord (nbits w : Nat) : Option Instr := (firstDecoding nbits w (tableChannels nbits)).map (·.2)

end Sys2Proof
end

