-- ==== Sys2Proof/Machine/State.lean ====
section
/-! DEFINITION. The machine's state as plain data: everything 10_state and 20_memory give it, its value after reset,
and the reasons a step can stop. -/

namespace Sys2Proof.Machine

/-! ### The block's own faults (60_exceptions R250) -/

/-- The causes of 60_exceptions R250, in its order. -/
inductive FaultCode where
  | illegalCmd
  | rect
  | format
  | outCap
  | palArg
  | bsState
  | bsCount
  | bsOverflow
  | bsUnderflow
  | trunc
  | length
  | index
  | run
  | noPalette
  | leaf
  | diffRange
  | diffCount
  | magic
  | method
  | compressor
  | qtInternal
  deriving DecidableEq, Repr

/-- The arguments of `raise Fault(code, info)` (00_scope R9); `info` is the exact value, before `sat32`. -/
structure Raise where
  code : FaultCode
  info : Nat
  deriving DecidableEq, Repr

/-! ### Registers (10_state R20) -/

/-- The names of the 29 registers, in index order. -/
inductive Reg where
  | rectX | rectY | rectW | rectH
  | pixaBase | pixaStride | pixaBpp
  | pixbBase | pixbStride | pixbValid
  | inBase | inLen | outBase | outCap
  | arg0 | arg1
  | cfgEnc | cfgCompr | cfgLevel | cfgMode
  | cmd | ctrl | status | fault | faultInfo
  | outLen | inUsed | res0 | res1
  deriving DecidableEq, Repr

/-- The 28 registers that are held as words; `STATUS` is held as its flags. -/
structure Regs where
  rectX : Word
  rectY : Word
  rectW : Word
  rectH : Word
  pixaBase : Word
  pixaStride : Word
  pixaBpp : Word
  pixbBase : Word
  pixbStride : Word
  pixbValid : Word
  inBase : Word
  inLen : Word
  outBase : Word
  outCap : Word
  arg0 : Word
  arg1 : Word
  cfgEnc : Word
  cfgCompr : Word
  cfgLevel : Word
  cfgMode : Word
  cmd : Word
  ctrl : Word
  fault : Word
  faultInfo : Word
  outLen : Word
  inUsed : Word
  res0 : Word
  res1 : Word
  deriving DecidableEq, Repr

/-- The flags of `STATUS` (10_state R26); bits 31:7 read as 0 and cannot be written (log 18). -/
structure Status where
  done : Bool
  fault : Bool
  notWorth : Bool
  palOvf : Bool
  bswOpen : Bool
  bsrOpen : Bool
  sessValid : Bool
  deriving DecidableEq, Repr

/-! ### Bit-stream contexts -/

/-- `W0` (10_state R32, 40_bitstream R100): `bitpos` is the length of `bits`, `acc` its part past the last whole
byte (log 16). -/
structure Writer where
  base : Word
  budget : Word
  bits : List Bool
  deriving DecidableEq, Repr

/-- `R0` (10_state R33). -/
structure Reader where
  base : Word
  budget : Word
  bitpos : Nat
  deriving DecidableEq, Repr

/-! ### The cursors of a decoding command (10_state R29; log 2) -/

/-- Which decoding command runs. -/
inductive DecKind where
  | tile    -- `TILE.DEC`
  | trle    -- `TRLE.DEC`
  | qt      -- `QT.DEC`
  | diff    -- `DIFF.DEC`
  | raw     -- `RAW.UNPACK`
  | sel     -- `SEL.DEC`
  deriving DecidableEq, Repr

/-- What the decoder expects next. -/
inductive Pos where
  /-- The wire header (45_selector R224). -/
  | wire
  /-- The header's `encMethod`, already read. -/
  | enc
  /-- The header's `comprMethod`, already read. -/
  | compr
  /-- The raw payload. -/
  | raw
  /-- A tile header byte (42_tile R158). -/
  | tile
  /-- A palette entry; `left ≥ 1` are still to come. -/
  | palette (rle : Bool) (left : Nat)
  /-- A pixel of a raw tile. -/
  | rawPixel
  /-- An element of a plain-RLE body. -/
  | plain
  /-- A run token of an RLE-index body. -/
  | rle
  /-- A run-length byte for a run of colour `c`; the body it belongs to goes on afterwards. -/
  | runLen (plain : Bool) (c : Color) (extra : Nat)
  /-- An index of a packed body. -/
  | packed (w : Nat)
  /-- The quadtree container (43_quadtree R186). -/
  | qt
  /-- The split bit of node `(l, r, c)`, `l ≥ 1` (43_quadtree R187). -/
  | split (l r c : Nat)
  /-- The colour of leaf `(l, r, c)`. -/
  | leaf (l r c : Nat)
  /-- A diff word (44_diff R207). -/
  | diff
  /-- The stream is decoded. -/
  | fin
  /-- A fault was raised. -/
  | raised (r : Raise)
  deriving DecidableEq, Repr

/-- The cursors of 10_state R29 and what a decoder keeps with them for the length of one command. -/
structure Dec where
  kind : DecKind
  pos : Pos
  /-- The input bytes from the cursor on. A body that is read bit by bit stays here while `bitpos` walks it. -/
  inp : List Byte
  /-- The input byte cursor `ip`. -/
  ip : Nat
  /-- `RECT_W`, `RECT_H`, sampled at the `CMD` write (70_reset R289). -/
  w : Nat
  h : Nat
  /-- `rawSize` of 45_selector R221. -/
  rawSize : Nat
  /-- The `E_FORMAT` that a structural method raises on this buffer; `none` when `fmt_ok` (45_selector R224). -/
  badFormat : Option Raise
  /-- The wire header's fields. -/
  enc : BitVec 16
  compr : BitVec 16
  complen : Nat
  srclen : Nat
  /-- Bytes of the wire record (45_selector R224). -/
  recLen : Nat
  /-- The tile being decoded, in the order of 42_tile R136, and how many of its pixels are made. -/
  tile : Nat
  made : Nat
  /-- The last tile header byte. -/
  hdr : Byte
  /-- The palette in use: of the tile, or of the quadtree container. -/
  pal : List Color
  /-- The tile session (42_tile R139). -/
  sess : List Color
  /-- The cursor `bitpos` in a packed body or in the colour stream, which stand at the input's start. -/
  bitpos : Nat
  /-- The cursor `bitpos` in the split stream, which follows the colour stream. -/
  splitpos : Nat
  leafCount : Nat
  leaves : Nat
  /-- The quadtree nodes still to visit: `(level, row, column)`. -/
  stack : List (Nat × Nat × Nat)
  /-- The diff decoder's `pos`. -/
  cursor : Nat
  /-- Pixels decided since the last write to PIX: row-major position in the rectangle and colour, newest first. -/
  px : List (Nat × Color)
  /-- Raw bytes decided since the last write to PIX. -/
  rawBytes : List Byte
  deriving DecidableEq, Repr

/-! ### Memory and the host's transactions -/

/-- One memory space (20_memory R50): the bytes that hold a specified value, addresses strictly rising. An address
that is not listed holds none (R36, R59). -/
abbrev Memory := List Host.Cell

/-- Rows of bytes in PIX: a rectangle of 20_memory R53 or of 45_selector R221. -/
structure Area where
  /-- Address of the rectangle's first byte. -/
  start : Nat
  stride : Nat
  rowLen : Nat
  rows : Nat
  deriving DecidableEq, Repr

/-- A range of bytes that became unspecified (60_exceptions R264, 20_memory R52, decision D33). -/
inductive Lost where
  /-- The rectangle of a decoding command. -/
  | pix (r : Area)
  /-- The addresses `lo .. hi − 1` of the output buffer. -/
  | str (lo hi : Nat)
  deriving DecidableEq, Repr

/-- What the host does between commands (30_encoding R73; log 1). -/
inductive HostAction where
  /-- A register write; `CMD` and `CTRL` are the triggers (10_state R20). `HostAction.writeOffset` gives it by the
  register's byte offset in the window. -/
  | write (r : Reg) (v : Word)
  /-- A byte stored into PIX. -/
  | storePix (a : Word) (b : Byte)
  /-- A byte stored into STR. -/
  | storeStr (a : Word) (b : Byte)
  deriving DecidableEq, Repr

/-- The whole state. -/
structure State where
  regs : Regs
  status : Status
  /-- `PAL[0 .. PAL_COUNT−1]` (10_state R30). -/
  pal : List Color
  /-- `SESS_PAL[0 .. SESS_COUNT−1]` (10_state R31). -/
  sess : List Color
  w0 : Writer
  r0 : Reader
  pix : Memory
  str : Memory
  /-- The model's own: the host's pending transactions, oldest first (log 1). -/
  host : List HostAction
  /-- The model's own: a decoding command run token by token (log 2). -/
  dec : Option Dec
  /-- The model's own: the ranges that became unspecified so far, newest first. It counts, for each byte, the free
  values it has held (log 4). -/
  lost : List Lost
  deriving DecidableEq, Repr

/-- 70_reset R280: every register is 0. -/
def Regs.zero : Regs :=
  { rectX := 0, rectY := 0, rectW := 0, rectH := 0, pixaBase := 0, pixaStride := 0, pixaBpp := 0, pixbBase := 0,
    pixbStride := 0, pixbValid := 0, inBase := 0, inLen := 0, outBase := 0, outCap := 0, arg0 := 0, arg1 := 0,
    cfgEnc := 0, cfgCompr := 0, cfgLevel := 0, cfgMode := 0, cmd := 0, ctrl := 0, fault := 0, faultInfo := 0,
    outLen := 0, inUsed := 0, res0 := 0, res1 := 0 }

/-- 70_reset R280: `STATUS = 0`. -/
def Status.zero : Status :=
  { done := false, fault := false, notWorth := false, palOvf := false, bswOpen := false, bsrOpen := false,
    sessValid := false }

/-- The machine at power-up (10_state R36, 70_reset R280): every register 0, no palette, no session, the contexts
dead, no memory byte holding a value, nothing pending. -/
def State.reset : State :=
  { regs := Regs.zero, status := Status.zero, pal := [], sess := [],
    w0 := { base := 0, budget := 0, bits := [] }, r0 := { base := 0, budget := 0, bitpos := 0 },
    pix := [], str := [], host := [], dec := none, lost := [] }

/-! ### Why a step stops -/

/-- The faults that stop the model. The block's own faults (`FaultCode`) are no stop: taking one is a next state. -/
inductive Fault where
  /-- A command whose input, output or pixel addresses reach 2^32: "a model should refuse this rather than wrap"
  (20_memory R53, R64, 70_reset R285, U16). Raised by the launch checks of Machine/Operands.lean. Safe: the model
  stops where the spec gives no behaviour. -/
  | addressBeyondSpace
  deriving DecidableEq, Repr

/-- What the model gives no meaning to. -/
inductive Refusal where
  /-- An instruction whose arm of `exec` has no meaning yet. Raised by `exec` only. Safe. -/
  | notModelled (mnemonic : String)
  /-- A stride shorter than the rectangle's right edge: "a model should refuse such launches" (70_reset R285, U15).
  Raised by the launch checks. Safe. -/
  | strideTooShort
  /-- Buffers A and B of a diff encode overlap without being the same buffer: `refuse` (70_reset R290, U14). Raised
  by the launch checks. Safe. -/
  | buffersOverlap
  /-- A stream token executed where the decoder expects no token of its kind (log 3): tokens are "recognised by
  position in the enclosing format". Raised by the token meanings. Safe: no decoder meets it. -/
  | tokenOutOfPlace
  deriving DecidableEq, Repr

end Sys2Proof.Machine
end

