-- ==== Sys2Proof/Machine/Flags.lean ====
section
/-! DEFINITION. The flags of `STATUS` (10_state R26): the word a host reads, and every way a rule changes a flag. -/

namespace Sys2Proof.Machine

/-- The word a read of `STATUS` returns: the bit positions of 10_state R26, bits 31:7 read as 0. -/
def Status.word (f : Status) : Word :=
  BitVec.ofNat 32 (f.done.toNat + 2 * f.fault.toNat + 4 * f.notWorth.toNat + 8 * f.palOvf.toNat
    + 16 * f.bswOpen.toNat + 32 * f.bsrOpen.toNat + 64 * f.sessValid.toNat)

/-- 10_state R25: what the start of every command clears. -/
def Status.start (f : Status) : Status := { f with done := false, notWorth := false }

/-- 10_state R25: the successful end of a command. -/
def Status.complete (f : Status) : Status := { f with done := true }

/-- 60_exceptions R264. -/
def Status.raise (f : Status) : Status := { f with fault := true }

def Status.setNotWorth (f : Status) (b : Bool) : Status := { f with notWorth := b }

def Status.setPalOvf (f : Status) (b : Bool) : Status := { f with palOvf := b }

def Status.setBswOpen (f : Status) (b : Bool) : Status := { f with bswOpen := b }

def Status.setBsrOpen (f : Status) (b : Bool) : Status := { f with bsrOpen := b }

/-- 10_state R31: `SESS_VALID = 1` exactly when `SESS_COUNT ≥ 1`. -/
def Status.setSession (f : Status) (sess : List Color) : Status := { f with sessValid := decide (1 ≤ sess.length) }

end Sys2Proof.Machine
end

