-- ==== Sys2Proof/Machine/Ops.lean ====
section
/-! DEFINITION. The named operations: memory, registers, the frame of a command (10_state R25), taking a fault
(60_exceptions R264) and the reset that is the only way out of it (70_reset R280). -/

namespace Sys2Proof.Machine

/-- The outcome of one step of this machine. -/
abbrev Outcome := Host.Outcome State Fault Refusal

/-! ### Memory (20_memory R50, R57, R59) -/

/-- The byte listed at an address; `none` where none is. -/
def Memory.get? : Memory → Nat → Option Byte
  | [], _ => none
  | (a, b) :: m, x => if x = a then some b else Memory.get? m x

/-- Store one byte, keeping the addresses strictly rising. -/
def Memory.put : Memory → Nat → Byte → Memory
  | [], x, v => [(x, v)]
  | (a, b) :: m, x, v =>
    if x < a then (x, v) :: (a, b) :: m else if x = a then (x, v) :: m else (a, b) :: Memory.put m x v

/-- Store bytes at rising addresses. -/
def Memory.putBytes : Memory → Nat → List Byte → Memory
  | m, _, [] => m
  | m, x, v :: vs => Memory.putBytes (m.put x v) (x + 1) vs

/-- The bytes at the addresses of a range no longer hold a specified value. -/
def Memory.forget (p : Nat → Bool) (m : Memory) : Memory := m.filter fun cell => !p cell.1

/-- The addresses of a list of cells strictly rise. -/
def Memory.rising : Memory → Bool
  | [] => true
  | [_] => true
  | (a, _) :: (a', b') :: m => decide (a < a') && Memory.rising ((a', b') :: m)

/-- The canonical form: addresses strictly rising. Every listed byte differs from what an unlisted address reads as,
which is no value. -/
def Memory.wf (m : Memory) : Bool := Memory.rising m

/-- Every listed address lies in the space (20_memory R50). -/
def Memory.inSpace (m : Memory) : Bool := m.all fun cell => decide (cell.1 < Config.spaceSize)

/-- A space of the state. -/
def State.mem (s : State) : Space → Memory
  | .pix => s.pix
  | .str => s.str

/-- The address of the first byte of a row. -/
def Area.row (r : Area) (j : Nat) : Nat := r.start + j * r.stride

/-- The last row that starts at or below an address, among the rows there are. -/
def Area.rowAt (r : Area) (a : Nat) : Nat := min ((a - r.start) / r.stride) (r.rows - 1)

/-- Whether a byte address belongs to the rectangle. -/
def Area.contains (r : Area) (a : Nat) : Bool :=
  decide (0 < r.rows) && decide (r.start ≤ a) && decide (a < r.row (r.rowAt a) + r.rowLen)

/-- The addresses `lo .. hi − 1`. -/
def inRange (lo hi a : Nat) : Bool := decide (lo ≤ a) && decide (a < hi)

/-- Whether a range that became unspecified holds a byte. -/
def Lost.covers : Lost → Space → Nat → Bool
  | .pix r, .pix, a => r.contains a
  | .str lo hi, .str, a => inRange lo hi a
  | .pix _, .str, _ | .str _ _, .pix, _ => false

/-- How often a byte became unspecified: the number of its present free value, should it have one. -/
def State.draws (s : State) (sp : Space) (a : Nat) : Nat := s.lost.countP fun l => l.covers sp a

/-- What a read of one byte returns: the listed byte, or a free value where none is listed (20_memory R59). -/
def State.byte (s : State) (sp : Space) (a : Nat) : Byte :=
  match (s.mem sp).get? a with
  | some b => b
  | none => Config.unspecifiedByte sp (s.draws sp a) a

/-- `MemRead(space, a, n)` (00_scope R9). -/
def State.readBytes (s : State) (sp : Space) (a n : Nat) : List Byte :=
  (List.range n).map fun i => s.byte sp (a + i)

/-- `MemWrite(PIX, a, len, bytes)` (00_scope R9). -/
def State.writePix (s : State) (a : Nat) (bytes : List Byte) : State := { s with pix := s.pix.putBytes a bytes }

/-- `MemWrite(STR, a, len, bytes)` (00_scope R9). -/
def State.writeStr (s : State) (a : Nat) (bytes : List Byte) : State := { s with str := s.str.putBytes a bytes }

/-- The rectangle of a decoding command becomes unspecified (60_exceptions R264, U10). -/
def State.forgetPix (s : State) (r : Area) : State :=
  { s with pix := s.pix.forget r.contains, lost := .pix r :: s.lost }

/-- The bytes `lo .. hi − 1` of STR become unspecified (60_exceptions R264, decision D33, U11, U12). -/
def State.forgetStr (s : State) (lo hi : Nat) : State :=
  { s with str := s.str.forget (inRange lo hi), lost := .str lo hi :: s.lost }

/-! ### Registers (10_state R20) -/

/-- What a host read of a register returns; reads have no side effect (20_memory R57). -/
def State.readReg (s : State) : Reg → Word
  | .rectX => s.regs.rectX
  | .rectY => s.regs.rectY
  | .rectW => s.regs.rectW
  | .rectH => s.regs.rectH
  | .pixaBase => s.regs.pixaBase
  | .pixaStride => s.regs.pixaStride
  | .pixaBpp => s.regs.pixaBpp
  | .pixbBase => s.regs.pixbBase
  | .pixbStride => s.regs.pixbStride
  | .pixbValid => s.regs.pixbValid
  | .inBase => s.regs.inBase
  | .inLen => s.regs.inLen
  | .outBase => s.regs.outBase
  | .outCap => s.regs.outCap
  | .arg0 => s.regs.arg0
  | .arg1 => s.regs.arg1
  | .cfgEnc => s.regs.cfgEnc
  | .cfgCompr => s.regs.cfgCompr
  | .cfgLevel => s.regs.cfgLevel
  | .cfgMode => s.regs.cfgMode
  | .cmd => s.regs.cmd
  | .ctrl => s.regs.ctrl
  | .status => s.status.word
  | .fault => s.regs.fault
  | .faultInfo => s.regs.faultInfo
  | .outLen => s.regs.outLen
  | .inUsed => s.regs.inUsed
  | .res0 => s.regs.res0
  | .res1 => s.regs.res1

/-- The registers in the order of 10_state R20. -/
def Reg.all : List Reg :=
  [.rectX, .rectY, .rectW, .rectH, .pixaBase, .pixaStride, .pixaBpp, .pixbBase, .pixbStride, .pixbValid, .inBase, .inLen,
   .outBase, .outCap, .arg0, .arg1, .cfgEnc, .cfgCompr, .cfgLevel, .cfgMode, .cmd, .ctrl, .status, .fault, .faultInfo,
   .outLen, .inUsed, .res0, .res1]

/-- The index of a register (10_state R20). -/
def Reg.index (r : Reg) : Nat := Reg.all.idxOf r

/-- "Register `n` is at byte offset `4*n` of the block's register window" (10_state R20). -/
def Reg.offset (r : Reg) : Nat := 4 * r.index

/-- Where a platform with `REG_BASE` sees the register (20_memory R58). -/
def Reg.address (r : Reg) : Nat := Config.regBase.toNat + r.offset

/-- The register at a byte offset of the window; none elsewhere: "there are no banks, windows, aliases" (10_state
R20). -/
def Reg.atOffset (off : Nat) : Option Reg := if off % 4 = 0 then Reg.all[off / 4]? else none

/-- A host read at a byte offset of the register window. -/
def State.readOffset (s : State) (off : Nat) : Option Word := (Reg.atOffset off).map s.readReg

/-- The host's transaction that stores a word at a byte offset of the register window. -/
def HostAction.writeOffset (off : Nat) (v : Word) : Option HostAction := (Reg.atOffset off).map fun r => .write r v

/-- A host write of a register that triggers nothing: an `RW` register takes any value (10_state R24), a write of an
`RO` register is ignored (R20). The triggers `CMD` and `CTRL` are Machine/Fetch.lean's. -/
def Regs.hostWrite (r : Regs) (v : Word) : Reg → Regs
  | .rectX => { r with rectX := v }
  | .rectY => { r with rectY := v }
  | .rectW => { r with rectW := v }
  | .rectH => { r with rectH := v }
  | .pixaBase => { r with pixaBase := v }
  | .pixaStride => { r with pixaStride := v }
  | .pixaBpp => { r with pixaBpp := v }
  | .pixbBase => { r with pixbBase := v }
  | .pixbStride => { r with pixbStride := v }
  | .pixbValid => { r with pixbValid := v }
  | .inBase => { r with inBase := v }
  | .inLen => { r with inLen := v }
  | .outBase => { r with outBase := v }
  | .outCap => { r with outCap := v }
  | .arg0 => { r with arg0 := v }
  | .arg1 => { r with arg1 := v }
  | .cfgEnc => { r with cfgEnc := v }
  | .cfgCompr => { r with cfgCompr := v }
  | .cfgLevel => { r with cfgLevel := v }
  | .cfgMode => { r with cfgMode := v }
  | .cmd | .ctrl | .status | .fault | .faultInfo | .outLen | .inUsed | .res0 | .res1 => r

/-- The state after such a write. -/
def State.hostWriteReg (s : State) (r : Reg) (v : Word) : State := { s with regs := s.regs.hostWrite v r }

/-! ### Faults (60_exceptions R250, R264) -/

/-- The numbers of 60_exceptions R250. -/
def FaultCode.number : FaultCode → Nat
  | .illegalCmd => 1
  | .rect => 2
  | .format => 3
  | .outCap => 4
  | .palArg => 5
  | .bsState => 6
  | .bsCount => 7
  | .bsOverflow => 8
  | .bsUnderflow => 9
  | .trunc => 10
  | .length => 11
  | .index => 12
  | .run => 13
  | .noPalette => 14
  | .leaf => 15
  | .diffRange => 16
  | .diffCount => 17
  | .magic => 18
  | .method => 19
  | .compressor => 20
  | .qtInternal => 21

/-- `sat32(v) = min(v, 2^32 − 1)` (60_exceptions R250). -/
def sat32 (v : Nat) : Word := BitVec.ofNat 32 (min v (2 ^ 32 - 1))

/-- Taking a fault, shared by every rule that raises one (60_exceptions R264): `STATUS.FAULT`, `FAULT` and
`FAULT_INFO`; `DONE` and `NOT_WORTH` stay 0 since the command's start cleared them. -/
def State.raise (s : State) (r : Raise) : State :=
  { s with
    status := s.status.raise
    regs.fault := BitVec.ofNat 32 r.code.number
    regs.faultInfo := sat32 r.info }

/-- The fault of a rejected code (60_exceptions R250, R252, R257, R261). `WIREHDR` and `QTBLOB` are decoded from the
start of their input, so the offset of a missing part is the input cursor. -/
def rejectRaise : Reject → Raise
  | .illegalCommand w => ⟨.illegalCmd, w.toNat⟩
  | .badMagic m => ⟨.magic, m.toNat⟩
  | .badEncMethod e => ⟨.method, e.toNat⟩
  | .badComprMethod c => ⟨.method, 0x10000 + c.toNat⟩
  | .truncated off => ⟨.trunc, off⟩
  | .noReset => ⟨.illegalCmd, 0⟩
  | .wrongShape => ⟨.trunc, 0⟩

/-! ### The frame of a command (10_state R25) -/

/-- The start of a command whose word is `w`: `CMD` holds the word, `DONE` and `NOT_WORTH` are cleared. -/
def State.start (s : State) (w : Word) : State := { s with regs.cmd := w, status := s.status.start }

/-- The successful end of a command. -/
def State.complete (s : State) : State := { s with status := s.status.complete }

/-- A host write of a legal command word: ignored entirely while `STATUS.FAULT = 1` (10_state R25, 60_exceptions
R265), else the command runs to its end. -/
def command (w : Word) (body : State → Outcome) (s : State) : Outcome :=
  if s.status.fault then .next s else body (s.start w)

/-- A host write of any other word to `CMD` (60_exceptions R257; log 13). -/
def illegalCommand (w : Word) (s : State) : State :=
  if s.status.fault then s else (s.start w).raise ⟨.illegalCmd, w.toNat⟩

/-- `session <- sess` (10_state R31). -/
def State.setSession (s : State) (sess : List Color) : State :=
  { s with sess := sess, status := s.status.setSession sess }

/-- `PAL_COUNT <- 0 ; STATUS.PAL_OVF <- 0` (10_state R30). -/
def State.dropPalette (s : State) : State := { s with pal := [], status := s.status.setPalOvf false }

/-! ### Reset (70_reset R280) -/

/-- Every register, flag, count and context is as after power-up; PIX and STR are not touched, and what the host has
still to send is the host's. -/
def State.resetBlock (s : State) : State :=
  { State.reset with pix := s.pix, str := s.str, host := s.host, lost := s.lost }

end Sys2Proof.Machine
end

