-- ==== Sys2Proof/Machine/Bits.lean ====
section
/-! DEFINITION. The bit-stream functions of 40_bitstream R100 to R108. -/

namespace Sys2Proof.Machine

/-- `bw_put` (40_bitstream R102) on a writer of so many bytes that holds `bits`: the new bits, or the fault. The test
is made on the whole transfer before any bit is appended. -/
def bwPut (budget : Nat) (bits : List Bool) (value n : Nat) : Except Raise (List Bool) :=
  if Config.maxBitCount < n then .error ⟨.bsCount, n⟩
  else if 8 * budget < bits.length + n then .error ⟨.bsOverflow, bits.length + n⟩
  else .ok (bits ++ bitsOf n value)

/-- `br_get` (40_bitstream R107) on a reader of `budget` bytes at bit position `p`: the value, or the fault. -/
def brGet (budget : Nat) (byteAt : Nat → Byte) (p n : Nat) : Except Raise Nat :=
  if Config.maxBitCount < n then .error ⟨.bsCount, n⟩
  else if 8 * budget < p + n then .error ⟨.bsUnderflow, p + n⟩
  else .ok (streamBits byteAt p n)

/-- `br_consumed` (40_bitstream R108). -/
def brConsumed (p : Nat) : Nat := ceilDiv p 8

/-- `W0.bitpos` (10_state R32). -/
def Writer.bitpos (w : Writer) : Nat := w.bits.length

/-- `W0.acc`: the bits of the current partial byte (10_state R32). -/
def Writer.acc (w : Writer) : List Bool := w.bits.drop (8 * (w.bits.length / 8))

/-- The bytes a transfer completes, from byte number `k` of the segment on (40_bitstream R104): the whole bytes of
the bits that the bits before it did not fill. -/
def completedBytes (k : Nat) (bits : List Bool) : List Byte :=
  (List.range (bits.length / 8 - k)).map fun i => byteOfBits (bits.drop (8 * (k + i)))

end Sys2Proof.Machine
end

