-- ==== Sys2Proof/Machine/Operands.lean ====
section
/-! DEFINITION. The operands of the commands: rectangle and buffers (10_state R21, R22, 20_memory R53), input and
output buffers (R23), the checks on them (60_exceptions R258, R259, 45_selector R221) and the launches the spec asks
a model to refuse (20_memory R64, 70_reset R285, R290). -/

namespace Sys2Proof.Machine

/-! ### The bytes of a rectangle in a buffer -/

/-- The rectangle in a buffer with the given base, stride and bytes per pixel; the products and sums are exact. -/
def State.area (s : State) (base stride : Word) (bpp : Nat) : Area :=
  { start := base.toNat + s.regs.rectY.toNat * stride.toNat + s.regs.rectX.toNat * bpp
    stride := stride.toNat
    rowLen := s.regs.rectW.toNat * bpp
    rows := s.regs.rectH.toNat }

/-- The rectangle in buffer A at 4 bytes per pixel (20_memory R53). -/
def State.areaA (s : State) : Area := s.area s.regs.pixaBase s.regs.pixaStride Config.pixelBytes

/-- The rectangle in buffer B at 4 bytes per pixel (20_memory R53, 44_diff R210). -/
def State.areaB (s : State) : Area := s.area s.regs.pixbBase s.regs.pixbStride Config.pixelBytes

/-- The rectangle in buffer A at `PIXA_BPP` bytes per pixel (45_selector R221). -/
def State.areaRaw (s : State) : Area := s.area s.regs.pixaBase s.regs.pixaStride s.regs.pixaBpp.toNat

/-- One past the last byte of the rectangle. -/
def Area.bound (r : Area) : Nat := r.row (r.rows - 1) + r.rowLen

/-- Whether some byte of `lo .. lo + len − 1` belongs to the rectangle. -/
def Area.meets (r : Area) (lo len : Nat) : Bool :=
  decide (0 < r.rows) && decide (0 < len) && decide (0 < r.rowLen) && decide (r.start < lo + len) &&
    decide (lo < r.row (r.rowAt (lo + len - 1)) + r.rowLen)

/-- Whether two rectangles have a byte in common. -/
def Area.overlaps (r q : Area) : Bool := (List.range r.rows).any fun j => q.meets (r.row j) r.rowLen

/-! ### Pixels (20_memory R53) -/

/-- The address of the pixel at column `i`, row `j` of the rectangle. -/
def Area.pixel (r : Area) (i j : Nat) : Nat := r.row j + i * Config.pixelBytes

/-- `PixRead`. -/
def State.pixRead (s : State) (r : Area) (i j : Nat) : Word :=
  fromPix32 (s.readBytes .pix (r.pixel i j) Config.pixelBytes)

/-- The colours of `Grid(B)`: row-major, every pixel word masked by `color` before anything else (20_memory R53,
R55). -/
def State.grid (s : State) (r : Area) : List Color :=
  (List.range s.regs.rectH.toNat).flatMap fun j =>
    (List.range s.regs.rectW.toNat).map fun i => color (s.pixRead r i j)

/-- `raw_pack()` (45_selector R221). -/
def State.rawPack (s : State) : List Byte :=
  (List.range s.areaRaw.rows).flatMap fun j => s.readBytes .pix (s.areaRaw.row j) s.areaRaw.rowLen

/-- `rawSize` (45_selector R221). -/
def State.rawSize (s : State) : Nat := s.regs.rectW.toNat * s.regs.rectH.toNat * s.regs.pixaBpp.toNat

/-- The input byte sequence (10_state R23). -/
def State.input (s : State) : List Byte := s.readBytes .str s.regs.inBase.toNat s.regs.inLen.toNat

/-- `CFG_MODE.REUSE_EN` (10_state R24): R7 `TILE_REUSE_EN`, as the host set it. -/
def State.reuseEn (s : State) : Bool := s.regs.cfgMode.getLsbD Config.tileReuseEnBit

/-- `PIXB_VALID` bit 0 (10_state R22). -/
def State.prevValid (s : State) : Bool := s.regs.pixbValid.getLsbD 0

/-! ### Checks that raise a fault -/

/-- The first check that fails, in the order written (60_exceptions R263). -/
def firstSome {α : Type} : List (Option α) → Option α
  | [] => none
  | some r :: _ => some r
  | none :: rest => firstSome rest

/-- A check: the fault if the condition holds. -/
def raiseIf (c : Bool) (code : FaultCode) (info : Nat) : Option Raise := if c then some ⟨code, info⟩ else none

/-- `check_rect()` (60_exceptions R259). -/
def checkRect (s : State) : Option Raise :=
  firstSome
    [raiseIf (s.regs.rectW == 0) .rect 1,
     raiseIf (s.regs.rectH == 0) .rect 2,
     raiseIf (decide (Config.maxRectBytes < s.regs.rectW.toNat * s.regs.rectH.toNat * Config.pixelBytes)) .rect 3]

/-- `check_format_A()` (60_exceptions R258). -/
def checkFormatA (s : State) : Option Raise :=
  firstSome
    [raiseIf (s.regs.pixaBpp.toNat != Config.pixelBytes) .format 1,
     raiseIf (s.regs.pixaStride.toNat % 4 != 0) .format 2]

/-- `check_format_B()` (60_exceptions R258). -/
def checkFormatB (s : State) : Option Raise :=
  firstSome
    [raiseIf (!s.prevValid) .format 3,
     raiseIf (s.regs.pixbStride.toNat % 4 != 0) .format 4]

/-- `check_raw()` (45_selector R221). -/
def checkRaw (s : State) : Option Raise :=
  firstSome
    [raiseIf (s.regs.pixaBpp == 0) .format 1,
     raiseIf (decide (Config.maxRectBytes < s.rawSize)) .rect 3]

/-- The tile's own limit (42_tile R160, 60_exceptions R259). -/
def checkTileSide (s : State) : Option Raise :=
  raiseIf (decide (Config.tileSide < s.regs.rectW.toNat) || decide (Config.tileSide < s.regs.rectH.toNat)) .rect 4

/-- `maxColors` of `PAL.BUILD` (41_palette R128). -/
def checkMaxColors (s : State) : Option Raise :=
  raiseIf (s.regs.arg0 == 0 || decide (Config.palMax < s.regs.arg0.toNat)) .palArg s.regs.arg0.toNat

/-- The method registers of `SEL.ENC` (45_selector R231). -/
def checkMethods (s : State) : Option Raise :=
  firstSome
    [raiseIf (decide (Config.encQuadtree.toNat < s.regs.cfgEnc.toNat)) .method s.regs.cfgEnc.toNat,
     raiseIf (decide (Config.comprBzip2.toNat < s.regs.cfgCompr.toNat)) .method (0x10000 + s.regs.cfgCompr.toNat % 0x10000)]

/-! ### Launches that stop the model (log 6) -/

/-- Why a launch is outside the modelled domain. -/
inductive Stop where
  | fault (f : Fault)
  | refused (r : Refusal)
  deriving DecidableEq, Repr

def Stop.outcome : Stop → Outcome
  | .fault f => .fault f
  | .refused r => .refused r

/-- Every address below 2^32 (20_memory R53, R64). -/
def stopBound (bound : Nat) : Option Stop :=
  if Config.spaceSize < bound then some (.fault .addressBeyondSpace) else none

/-- The stride reaches the rectangle's right edge (70_reset R285). -/
def stopStride (s : State) (stride : Word) (bpp : Nat) : Option Stop :=
  if stride.toNat < (s.regs.rectX.toNat + s.regs.rectW.toNat) * bpp then some (.refused .strideTooShort) else none

/-- Buffer A at 4 bytes per pixel. -/
def stopAreaA (s : State) : Option Stop :=
  firstSome [stopStride s s.regs.pixaStride Config.pixelBytes, stopBound s.areaA.bound]

/-- Buffer A at `PIXA_BPP` bytes per pixel. -/
def stopAreaRaw (s : State) : Option Stop :=
  firstSome [stopStride s s.regs.pixaStride s.regs.pixaBpp.toNat, stopBound s.areaRaw.bound]

/-- Buffer B, and its overlap with buffer A (70_reset R290): none, or the same buffer. -/
def stopAreaB (s : State) : Option Stop :=
  firstSome
    [stopStride s s.regs.pixbStride Config.pixelBytes,
     stopBound s.areaB.bound,
     if s.areaA ≠ s.areaB ∧ s.areaA.overlaps s.areaB then some (.refused .buffersOverlap) else none]

/-- The input buffer (20_memory R64). -/
def stopInput (s : State) : Option Stop := stopBound (s.regs.inBase.toNat + s.regs.inLen.toNat)

/-- The output buffer (20_memory R64). -/
def stopOutput (s : State) : Option Stop := stopBound (s.regs.outBase.toNat + s.regs.outCap.toNat)

/-- A command's launch: its checks in order, then the launches that stop the model (log 7), then its operation.
`esc` takes a fault the way the command's kind does. -/
def launch (s : State) (checks : List (Option Raise)) (stops : List (Option Stop)) (esc : State → Raise → State)
    (go : State → State) : Outcome :=
  match firstSome checks with
  | some r => .next (esc s r)
  | none =>
    match firstSome stops with
    | some st => st.outcome
    | none => .next (go s)

/-! ### The ends of a command -/

/-- A fault of an encoding command: the output buffer is unspecified (60_exceptions R264, U11). -/
def State.raiseEncode (s : State) (r : Raise) : State :=
  (s.forgetStr s.regs.outBase.toNat (s.regs.outBase.toNat + s.regs.outCap.toNat)).raise r

/-- A fault of a decoding command: the rectangle's pixels in buffer A are unspecified (60_exceptions R264, U10). -/
def State.raiseDecode (s : State) (area : Area) (r : Raise) : State :=
  { ((s.forgetPix area).raise r) with dec := none }

/-- The successful part of `write_out` (45_selector R236): the bytes and `OUT_LEN`; what follows them in the output
buffer is unspecified (20_memory R52, decision D33, U12). -/
def State.storeOut (s : State) (bytes : List Byte) : State :=
  { ((s.forgetStr (s.regs.outBase.toNat + bytes.length)
      (s.regs.outBase.toNat + s.regs.outCap.toNat)).writeStr s.regs.outBase.toNat bytes) with
    regs.outLen := BitVec.ofNat 32 bytes.length }

/-- `write_out(bytes)` and what the command does after it (45_selector R236). -/
def State.writeOut (s : State) (bytes : List Byte) (after : State → State) : State :=
  if s.regs.outCap.toNat < bytes.length then s.raiseEncode ⟨.outCap, bytes.length⟩
  else (after (s.storeOut bytes)).complete

end Sys2Proof.Machine
end

