-- ==== Sys2Proof/Machine/BitStream.lean ====
section
/-! DEFINITION. The bit-stream commands (40_bitstream R110 to R115) and `NOP`, `RESET`. -/

namespace Sys2Proof.Machine

/-- `NOP` (45_selector R235). -/
def execNop : State → Outcome := command 0x00 fun s => .next s.complete

/-- A write to `CTRL` with bit 0 set (10_state R28, 70_reset R280); it also ends a fault (60_exceptions R265). -/
def execReset (_ignored : BitVec 31) (s : State) : Outcome := .next s.resetBlock

/-- `BSW.INIT` (40_bitstream R110). -/
def execBswInit : State → Outcome :=
  command 0x01 fun s =>
    launch s [raiseIf (decide (s.regs.outCap.toNat < s.regs.arg0.toNat)) .outCap s.regs.arg0.toNat] [stopOutput s]
      State.raise fun s =>
        { s with
          w0 := { base := s.regs.outBase, budget := s.regs.arg0, bits := [] }
          status := s.status.setBswOpen true }.complete

/-- The state after a transfer: the bits, and the bytes it completes (40_bitstream R104). -/
def State.putBits (s : State) (bits : List Bool) : State :=
  { (s.writeStr (s.w0.base.toNat + s.w0.bits.length / 8) (completedBytes (s.w0.bits.length / 8) bits)) with
    w0 := { s.w0 with bits := bits } }

/-- `BSW.PUT` (40_bitstream R111). -/
def execBswPut : State → Outcome :=
  command 0x02 fun s =>
    .next (if !s.status.bswOpen then s.raise ⟨.bsState, 0x02⟩
      else match bwPut s.w0.budget.toNat s.w0.bits s.regs.arg0.toNat s.regs.arg1.toNat with
        | .error r => s.raise r
        | .ok bits => (s.putBits bits).complete)

/-- `BSW.FIN` (40_bitstream R112). -/
def execBswFin : State → Outcome :=
  command 0x03 fun s =>
    .next (if !s.status.bswOpen then s.raise ⟨.bsState, 0x03⟩
      else
        { (s.writeStr s.w0.base.toNat (packBits s.w0.bits)) with
          regs.outLen := BitVec.ofNat 32 (packBits s.w0.bits).length
          status := s.status.setBswOpen false }.complete)

/-- `BSR.INIT` (40_bitstream R113). -/
def execBsrInit : State → Outcome :=
  command 0x04 fun s =>
    launch s [] [stopInput s] State.raise fun s =>
      { s with
        r0 := { base := s.regs.inBase, budget := s.regs.inLen, bitpos := 0 }
        status := s.status.setBsrOpen true }.complete

/-- `BSR.GET` (40_bitstream R114): the bytes are those in memory now. -/
def execBsrGet : State → Outcome :=
  command 0x05 fun s =>
    .next (if !s.status.bsrOpen then s.raise ⟨.bsState, 0x05⟩
      else match brGet s.r0.budget.toNat (fun i => s.byte .str (s.r0.base.toNat + i)) s.r0.bitpos s.regs.arg1.toNat with
        | .error r => s.raise r
        | .ok v =>
          { s with
            r0 := { s.r0 with bitpos := s.r0.bitpos + s.regs.arg1.toNat }
            regs.res0 := BitVec.ofNat 32 v }.complete)

/-- `BSR.FIN` (40_bitstream R115). -/
def execBsrFin : State → Outcome :=
  command 0x06 fun s =>
    .next (if !s.status.bsrOpen then s.raise ⟨.bsState, 0x06⟩
      else
        { s with
          regs.inUsed := BitVec.ofNat 32 (brConsumed s.r0.bitpos)
          status := s.status.setBsrOpen false }.complete)

end Sys2Proof.Machine
end

