-- ==== Sys2Proof/Machine/Palette.lean ====
section
/-! DEFINITION. Colour palettes (41_palette): the scan, the index, the hash, and the commands `PAL.BUILD`,
`PAL.LOOKUP`, `PAL.GET`. -/

namespace Sys2Proof.Machine

/-- The scan of 41_palette R121, with the palette found so far in first-seen order. -/
def palScan (maxColors : Nat) : List Color → List Color → List Color × Bool
  | pal, [] => (pal, false)
  | pal, c :: rest =>
    if c ∈ pal then palScan maxColors pal rest
    else if maxColors ≤ (pal ++ [c]).length then (pal ++ [c], true)
    else palScan maxColors (pal ++ [c]) rest

/-- `pal_build(pixels, maxColors)` (41_palette R121) on pixels already masked by `color`. -/
def palBuild (cols : List Color) (maxColors : Nat) : List Color × Bool := palScan maxColors [] cols

/-- `pal_index` (41_palette R122); the palette's length stands for "absent". -/
def palIndex (pal : List Color) (c : Color) : Nat := pal.idxOf c

/-- `h(c)` (41_palette R123). No rule's result depends on it (decision D34): the palette is the list above. -/
def paletteHash (mask : Nat) (c : Color) : Nat := (c.toNat + c.toNat / 2 ^ 8 + c.toNat / 2 ^ 16) &&& mask

/-- A fault of `PAL.BUILD` leaves the palette array invalid (41_palette R128; log 11). -/
def State.raisePalBuild (s : State) (r : Raise) : State := { s with pal := [] }.raise r

/-- What a scan's result does (41_palette R128). -/
def State.keepPalette (s : State) (p : List Color × Bool) : State :=
  { s with
    pal := p.1
    regs.res0 := BitVec.ofNat 32 p.1.length
    status := s.status.setPalOvf p.2 }

/-- `PAL.BUILD` (41_palette R128). -/
def execPalBuild : State → Outcome :=
  command 0x08 fun s =>
    launch s [checkRect s, checkFormatA s, checkMaxColors s] [stopAreaA s] State.raisePalBuild fun s =>
      (s.keepPalette (palBuild (s.grid s.areaA) s.regs.arg0.toNat)).complete

/-- The answer of a lookup (41_palette R129). -/
def State.answer (s : State) (v0 v1 : Word) : State := { s with regs.res0 := v0, regs.res1 := v1 }

/-- `PAL.LOOKUP` (41_palette R129). -/
def execPalLookup : State → Outcome :=
  command 0x09 fun s =>
    .next (if color s.regs.arg0 ∈ s.pal then
        (s.answer (BitVec.ofNat 32 (palIndex s.pal (color s.regs.arg0))) 1).complete
      else (s.answer 0 0).complete)

/-- `PAL.GET` (41_palette R130). -/
def execPalGet : State → Outcome :=
  command 0x0A fun s =>
    .next (match s.pal[s.regs.arg0.toNat]? with
      | some c => { s with regs.res0 := pixelOf c }.complete
      | none => s.raise ⟨.palArg, s.regs.arg0.toNat⟩)

end Sys2Proof.Machine
end

