-- ==== Sys2Proof/Machine/QuadEncoder.lean ====
section
/-! DEFINITION. The quadtree of 43_quadtree R171 to R174 and its encoder (R177 to R184), and `QT.ENC`. -/

namespace Sys2Proof.Machine

/-- `levelCount` (43_quadtree R171): the smallest `L ≥ 1` with `2^(L−1) ≥ m`, for `m = max(w, h)`. -/
def levelCount (m : Nat) : Nat := if m ≤ 1 then 1 else Nat.log2 (m - 1) + 2

/-- A node `(l, r, c)` is present (43_quadtree R172). -/
def present (w h l r c : Nat) : Bool := decide (c * 2 ^ l < w) && decide (r * 2 ^ l < h)

/-- The children of a node at level `l + 1`, as `(row, column)` at level `l`, in the order of 43_quadtree R172. -/
def children (w h l r c : Nat) : List (Nat × Nat) :=
  [(2 * r, 2 * c), (2 * r, 2 * c + 1), (2 * r + 1, 2 * c), (2 * r + 1, 2 * c + 1)].filter
    fun p => present w h l p.1 p.2

/-- The values of a node (43_quadtree R173). -/
structure QNode where
  uniform : Bool
  color : Color
  squareCount : Nat
  squareBits : Nat
  deriving DecidableEq, Repr

/-- A parent from its present children (43_quadtree R173). -/
def joinNodes (ch : List QNode) : QNode :=
  let c := (ch.map (·.color)).headD 0
  if ch.all fun n => n.uniform && n.color == c then
    { uniform := true, color := c, squareCount := 1, squareBits := 1 }
  else
    { uniform := false, color := c
      squareCount := (ch.map (·.squareCount)).sum, squareBits := 1 + (ch.map (·.squareBits)).sum }

/-- `node(l, r, c)` (43_quadtree R173). -/
def qtNode (grid : List Color) (w h : Nat) : Nat → Nat → Nat → QNode
  | 0, r, c => { uniform := true, color := grid.getD (r * w + c) 0, squareCount := 1, squareBits := 0 }
  | l + 1, r, c => joinNodes ((children w h l r c).map fun p => qtNode grid w h l p.1 p.2)

/-- `visit(l, r, c)` (43_quadtree R181): the split bits and the leaves' colours it writes, in order. -/
def qtVisit (grid : List Color) (w h : Nat) : Nat → Nat → Nat → List Bool × List Color
  | 0, r, c => ([], [(qtNode grid w h 0 r c).color])
  | l + 1, r, c =>
    let n := qtNode grid w h (l + 1) r c
    if n.uniform then ([false], [n.color])
    else
      let parts := (children w h l r c).map fun p => qtVisit grid w h l p.1 p.2
      (true :: parts.flatMap (·.1), parts.flatMap (·.2))

/-- What the encoder decides before it writes anything (43_quadtree R174, R177, R178). -/
structure QtPlan where
  leafCount : Nat
  rootSquareBits : Nat
  pal : List Color
  usePalette : Bool
  colorBits : Nat
  est : Nat
  deriving DecidableEq, Repr

/-- The plan of a rectangle (43_quadtree R178): on equal estimates no palette is used. -/
def qtPlan (grid : List Color) (w h : Nat) : QtPlan :=
  let root := qtNode grid w h (levelCount (max w h) - 1) 0 0
  let pal := (palBuild grid Config.palMax).1
  let estWith := 4 * pal.length + ceilDiv (root.squareCount * qtWidth pal.length) 8
  let estWithout := root.squareCount * Config.qtRawBytes
  { leafCount := root.squareCount, rootSquareBits := root.squareBits, pal := pal
    usePalette := decide (estWith < estWithout)
    colorBits := if estWith < estWithout then qtWidth pal.length else 8 * Config.qtRawBytes
    est := min estWith estWithout }

/-- `put_colour(c)` (43_quadtree R181). -/
def qtColourBits (p : QtPlan) (c : Color) : List Bool :=
  bitsOf p.colorBits (if p.usePalette then palIndex p.pal c else c.toNat)

/-- The palette the container carries (43_quadtree R182). -/
def QtPlan.written (p : QtPlan) : List Color := if p.usePalette then p.pal else []

/-- The results an encoder can have. -/
inductive QtResult where
  | notWorth
  | stream (bytes : List Byte)
  | failed (r : Raise)
  deriving DecidableEq, Repr

/-- `qt_enc(grid, w, h)` (43_quadtree R184), the self-check of R183 included: a stream that does not fill its budget
exactly is `E_QT_INTERNAL`. -/
def qtEnc (grid : List Color) (w h : Nat) : QtResult :=
  let p := qtPlan grid w h
  if w * h * Config.pixelBytes ≤ p.est then .notWorth
  else
    let (splits, leaves) := qtVisit grid w h (levelCount (max w h) - 1) 0 0
    let cs := packBits (leaves.flatMap (qtColourBits p))
    let ss := packBits splits
    if cs.length ≠ ceilDiv (p.leafCount * p.colorBits) 8 ∨ ss.length ≠ ceilDiv p.rootSquareBits 8 then
      .failed ⟨.qtInternal, 0⟩
    else .stream (qtBlobBytes (p.written.map pixelOf) (BitVec.ofNat 32 p.leafCount) cs ss)

/-- `QT.ENC` (43_quadtree R190). Not worth it: a normal end, `OUT_LEN = 0`, no STR byte written (log 19). -/
def execQtEnc : State → Outcome :=
  command 0x20 fun s =>
    launch s [checkRect s, checkFormatA s] [stopAreaA s, stopOutput s] State.raiseEncode fun s =>
      let p := qtPlan (s.grid s.areaA) s.regs.rectW.toNat s.regs.rectH.toNat
      let t := s.dropPalette
      match qtEnc (s.grid s.areaA) s.regs.rectW.toNat s.regs.rectH.toNat with
      | .failed r => t.raiseEncode r
      | .notWorth =>
        { t with
          regs.res0 := BitVec.ofNat 32 p.leafCount
          regs.outLen := 0
          regs.res1 := 0
          status := t.status.setNotWorth true }.complete
      | .stream bytes =>
        { t with regs.res0 := BitVec.ofNat 32 p.leafCount }.writeOut bytes fun u =>
          { u with regs.res1 := BitVec.ofNat 32 p.written.length }

end Sys2Proof.Machine
end

