-- ==== Sys2Proof/Machine/TileEncoder.lean ====
section
/-! DEFINITION. The palette and RLE tile encoder (42_tile R136 to R150) and the commands `TILE.ENC`, `TRLE.ENC`,
`TRLE.RST`. -/

namespace Sys2Proof.Machine

/-! ### Tiles of a rectangle (42_tile R136, R137) -/

/-- Tile columns of a rectangle of width `w`. -/
def tileCols (w : Nat) : Nat := ceilDiv w Config.tileSide

/-- Tiles of a `w × h` rectangle. -/
def tileCount (w h : Nat) : Nat := tileCols w * ceilDiv h Config.tileSide

/-- The width of tile number `t`, tiles counted row-major. -/
def tileW (w t : Nat) : Nat := min Config.tileSide (w - t % tileCols w * Config.tileSide)

/-- The height of tile number `t`. -/
def tileH (w h t : Nat) : Nat := min Config.tileSide (h - t / tileCols w * Config.tileSide)

/-- The row-major position in the rectangle of pixel `n` of tile `t` (42_tile R137). -/
def tilePos (w t n : Nat) : Nat :=
  (t / tileCols w * Config.tileSide + n / tileW w t) * w + (t % tileCols w * Config.tileSide + n % tileW w t)

/-- The pixel list of tile `t` of a grid. -/
def tilePixels (grid : List Color) (w h t : Nat) : List Color :=
  (List.range (tileW w t * tileH w h t)).map fun n => grid.getD (tilePos w t n) 0

/-! ### One tile -/

/-- The maximal runs of equal consecutive indices, with their lengths (42_tile R145). -/
def runsOf : List Nat → List (Nat × Nat)
  | [] => []
  | k :: rest =>
    match runsOf rest with
    | (k', n) :: runs => if k = k' then (k', n + 1) :: runs else (k, 1) :: (k', n) :: runs
    | [] => [(k, 1)]

/-- The run-length field of `extra` (30_encoding R82). -/
def runLenField (extra : Nat) : List Byte :=
  List.replicate (extra / Config.rleCont) (BitVec.ofNat 8 Config.rleCont) ++ [BitVec.ofNat 8 (extra % Config.rleCont)]

/-- One run of an RLE-index body (42_tile R145): a run of 1 is the bare index. -/
def runToken (k n : Nat) : List Byte :=
  if n = 1 then [BitVec.ofNat 8 k] else BitVec.ofNat 8 (k ||| Config.rleFlag) :: runLenField (n - 1)

/-- `rle(ix)` (42_tile R145). -/
def rleBody (ix : List Nat) : List Byte := (runsOf ix).flatMap fun r => runToken r.1 r.2

/-- The packed-index body (42_tile R148, 30_encoding R80). -/
def packedBody (w : Nat) (ix : List Nat) : List Byte := packBits (ix.flatMap (bitsOf w))

/-- The choice between an RLE and a packed body (42_tile R145): ties go to packed. -/
def useRle (count : Nat) (ix : List Nat) : Bool :=
  decide (Config.tilePackedMax < count) ||
    decide ((rleBody ix).length < ceilDiv (tileWidth count * ix.length) 8)

/-- Header and palette of a palette tile (42_tile R146, R147). -/
def tileHead (pal : List Color) (reuse rle : Bool) : List Byte :=
  if reuse then [if rle then Config.tileHdrReuseRle else Config.tileHdrReusePacked]
  else BitVec.ofNat 8 (pal.length ||| (if rle then Config.rleFlag else 0)) :: pal.flatMap c3

/-- `tile_enc(pix, sess, reuse_en)` (42_tile R149): the record and the new session. -/
def tileEnc (pix sess : List Color) (reuseEn : Bool) : List Byte × List Color :=
  let (pal, ovf) := palBuild pix Config.tileMaxColors
  if ovf then (0 :: pix.flatMap c3, sess)
  else if pal.length = 1 then (1 :: pal.flatMap c3, pal)
  else
    let ix := pix.map (palIndex pal)
    let rle := useRle pal.length ix
    let body := if rle then rleBody ix else packedBody (tileWidth pal.length) ix
    (tileHead pal (reuseEn && pal == sess) rle ++ body, pal)

/-- The records of a list of tiles, the session passed along (42_tile R150). -/
def tilesEnc (reuseEn : Bool) : List Color → List (List Color) → List Byte × List Color
  | sess, [] => ([], sess)
  | sess, pix :: rest =>
    let (record, sess1) := tileEnc pix sess reuseEn
    let (stream, sess2) := tilesEnc reuseEn sess1 rest
    (record ++ stream, sess2)

/-- `trle_enc(grid, w, h, reuse_en)` (42_tile R150): the stream and the session after the last tile. -/
def trleEnc (grid : List Color) (w h : Nat) (reuseEn : Bool) : List Byte × List Color :=
  tilesEnc reuseEn [] ((List.range (tileCount w h)).map (tilePixels grid w h))

/-! ### The commands -/

/-- `TILE.ENC` (42_tile R160): the session changes only if no fault occurs. -/
def execTileEnc : State → Outcome :=
  command 0x10 fun s =>
    launch s [checkRect s, checkFormatA s, checkTileSide s] [stopAreaA s, stopOutput s] State.raiseEncode fun s =>
      let r := tileEnc (s.grid s.areaA) s.sess s.reuseEn
      s.dropPalette.writeOut r.1 fun t => { t.setSession r.2 with regs.res0 := (r.1.headD 0).setWidth 32 }

/-- `TRLE.ENC` (42_tile R162): the session is the block's own while the tiles are coded (log 10). -/
def execTrleEnc : State → Outcome :=
  command 0x12 fun s =>
    launch s [checkRect s, checkFormatA s] [stopAreaA s, stopOutput s] State.raiseEncode fun s =>
      let r := trleEnc (s.grid s.areaA) s.regs.rectW.toNat s.regs.rectH.toNat s.reuseEn
      (s.dropPalette.setSession r.2).writeOut r.1 id

/-- `TRLE.RST` (42_tile R164). -/
def execTrleRst : State → Outcome := command 0x14 fun s => .next (s.setSession []).complete

end Sys2Proof.Machine
end

