-- ==== Sys2Proof/Machine/Decoder.lean ====
section
/-! DEFINITION. The decoders as one machine over tokens (42_tile R151 to R159, 43_quadtree R185 to R189, 44_diff R207,
45_selector R224): what each token does to the cursors, how the next token is fetched, and the loop of a command.
A token's function is `none` where the decoder expects no token of its kind. -/

namespace Sys2Proof.Machine

/-- `raise Fault(code, info)` inside a decoder. -/
def Dec.raise (d : Dec) (code : FaultCode) (info : Nat) : Dec := { d with pos := .raised ⟨code, info⟩ }

/-- `take(n)` of 60_exceptions R252, where what follows needs the bytes to be there: `E_TRUNC` at the cursor. -/
def Dec.need (d : Dec) (n : Nat) (k : Dec → Dec) : Dec := if d.inp.length < n then d.raise .trunc d.ip else k d

/-- The input without its next `n` bytes. -/
def Dec.drop (d : Dec) (n : Nat) : Dec := { d with inp := d.inp.drop n, ip := d.ip + n }

/-! ### Tiles (42_tile R158) -/

/-- `npix` of the tile being decoded. -/
def Dec.npix (d : Dec) : Nat := tileW d.w d.tile * tileH d.w d.h d.tile

/-- After a tile (42_tile R159): the next one, or the end; a rectangle's stream must be used up. -/
def Dec.nextTile (d : Dec) : Dec :=
  if d.tile + 1 < tileCount d.w d.h then { d with tile := d.tile + 1, made := 0, pos := .tile }
  else if d.kind = .tile ∨ d.inp = [] then { d with pos := .fin }
  else d.raise .length d.ip

/-- The bytes of a packed body of `w`-bit indices (42_tile R157). -/
def Dec.bodyLen (d : Dec) (w : Nat) : Nat := ceilDiv (w * d.npix) 8

/-- The tile's pixels are made: a packed body, read by bits, is now behind the cursor. -/
def Dec.endTile (d : Dec) : Dec :=
  match d.pos with
  | .packed w => (d.drop (d.bodyLen w)).nextTile
  | _ => d.nextTile

/-- Produce `run` pixels of one colour (42_tile R153, R156): `E_RUN` past the tile's end. -/
def Dec.emitRun (d : Dec) (c : Color) (run : Nat) : Dec :=
  if d.npix < d.made + run then d.raise .run run
  else
    let px := (List.range run).foldl (fun l n => (tilePos d.w d.tile (d.made + n), c) :: l) d.px
    let e := { d with px := px, made := d.made + run }
    if e.made = d.npix then e.endTile else e

/-- The body of a palette tile (42_tile R156, R157): RLE, or nothing to read for one colour, or a packed body that
must be there whole before any index is looked at. -/
def Dec.startBody (d : Dec) (rle : Bool) : Dec :=
  if rle ∨ Config.tilePackedMax < d.pal.length then { d with pos := .rle }
  else if tileWidth d.pal.length = 0 then d.emitRun (d.pal.headD 0) d.npix
  else
    d.need (d.bodyLen (tileWidth d.pal.length)) fun d => { d with bitpos := 0, pos := .packed (tileWidth d.pal.length) }

/-- A literal palette header (42_tile R155): the palette bytes must be there. -/
def Dec.startPalette (d : Dec) (h : Byte) (count : Nat) : Dec :=
  { d with hdr := h }.need (3 * count) fun d => { d with pal := [], pos := .palette (hasRleFlag h) count }

/-- A reuse marker (42_tile R154). -/
def Dec.reuse (d : Dec) (h : Byte) : Dec :=
  if d.sess = [] then { d with hdr := h }.raise .noPalette h.toNat
  else { d with hdr := h, pal := d.sess }.startBody (hasRleFlag h)

/-- `TILE_RAW` (42_tile R152): the body is taken whole. -/
def Dec.tileRaw (d : Dec) : Option Dec :=
  if d.pos = .tile then some ({ d with hdr := 0 }.need (3 * d.npix) fun d => { d with pos := .rawPixel }) else none

/-- `TILE_PLAIN_RLE` (42_tile R153). -/
def Dec.tilePlainRle (d : Dec) : Option Dec :=
  if d.pos = .tile then some { d with hdr := Config.tileHdrPlainRle, pos := .plain } else none

/-- `TILE_REUSE_PACKED` (42_tile R154). -/
def Dec.tileReusePacked (d : Dec) : Option Dec :=
  if d.pos = .tile then some (d.reuse Config.tileHdrReusePacked) else none

/-- `TILE_REUSE_RLE` (42_tile R154). -/
def Dec.tileReuseRle (d : Dec) : Option Dec :=
  if d.pos = .tile then some (d.reuse Config.tileHdrReuseRle) else none

/-- `TILE_SOLID` (42_tile R155, R157): one palette entry, no body. -/
def Dec.tileSolid (d : Dec) : Option Dec := if d.pos = .tile then some (d.startPalette 1 1) else none

/-- `TILE_PACKED` (42_tile R155). -/
def Dec.tilePacked (count : BitVec 7) (d : Dec) : Option Dec :=
  if d.pos = .tile then some (d.startPalette (count.setWidth 8) count.toNat) else none

/-- `TILE_PAL_RLE_LOW` (42_tile R155, decision D15): more than 16 colours force RLE. -/
def Dec.tilePalRleLow (count : BitVec 7) (d : Dec) : Option Dec :=
  if d.pos = .tile then some (d.startPalette (count.setWidth 8) count.toNat) else none

/-- `TILE_PAL_RLE` (42_tile R155). -/
def Dec.tilePalRle (count : BitVec 7) (d : Dec) : Option Dec :=
  if d.pos = .tile then some (d.startPalette (count.setWidth 8 ||| BitVec.ofNat 8 Config.rleFlag) count.toNat) else none

/-- `PAL_ENTRY` (42_tile R155): with the last entry the palette is the new session and the body starts. -/
def Dec.palEntry (c : Color) (d : Dec) : Option Dec :=
  match d.pos with
  | .palette rle left =>
    let pal := d.pal ++ [c]
    some (if left ≤ 1 then { d with pal := pal, sess := pal }.startBody rle
      else { d with pal := pal, pos := .palette rle (left - 1) })
  | _ => none

/-- `RAW_PIXEL` (42_tile R152). -/
def Dec.rawPixel (c : Color) (d : Dec) : Option Dec := if d.pos = .rawPixel then some (d.emitRun c 1) else none

/-- A pixel or a run of palette index `k` (42_tile R156, R157): `E_INDEX` outside the palette. -/
def Dec.withIndex (d : Dec) (k : Nat) (f : Color → Dec) : Dec :=
  match d.pal[k]? with
  | some c => f c
  | none => d.raise .index k

/-- `PACKED_INDEX` (42_tile R157). -/
def Dec.packedIndex (w : Nat) (k : BitVec 4) (d : Dec) : Option Dec :=
  if d.pos = .packed w then some (d.withIndex k.toNat fun c => d.emitRun c 1) else none

/-- `RUN1` (42_tile R156). -/
def Dec.run1 (k : BitVec 7) (d : Dec) : Option Dec :=
  if d.pos = .rle then some (d.withIndex k.toNat fun c => d.emitRun c 1) else none

/-- `RUNN` (42_tile R156): the index is tested before the run length is read. -/
def Dec.runN (k : BitVec 7) (d : Dec) : Option Dec :=
  if d.pos = .rle then some (d.withIndex k.toNat fun c => { d with pos := .runLen false c 0 }) else none

/-- `RUNLEN_CONT` (30_encoding R82, `read_runlen` of 42_tile R153). -/
def Dec.runLenCont (d : Dec) : Option Dec :=
  match d.pos with
  | .runLen plain c extra => some { d with pos := .runLen plain c (extra + Config.rleCont) }
  | _ => none

/-- `RUNLEN_FINAL` (30_encoding R82): the run is `1 + extra` pixels. -/
def Dec.runLenFinal (f : Byte) (d : Dec) : Option Dec :=
  match d.pos with
  | .runLen plain c extra => some ({ d with pos := if plain then .plain else .rle }.emitRun c (1 + (extra + f.toNat)))
  | _ => none

/-- `PLAIN_RUN` (42_tile R153): a run-length field always follows (decision D16). -/
def Dec.plainRun (c : Color) (d : Dec) : Option Dec :=
  if d.pos = .plain then some { d with pos := .runLen true c 0 } else none

/-! ### Quadtree (43_quadtree R186 to R188) -/

/-- The bytes of the colour stream (43_quadtree R186). -/
def Dec.colorLen (d : Dec) : Nat := ceilDiv (d.leafCount * qtColorBits d.pal.length) 8

/-- The bytes of the split stream: all that follows the colour stream (43_quadtree R186). -/
def Dec.splitLen (d : Dec) : Nat := d.inp.length - d.colorLen

/-- The next node, or the end checks (43_quadtree R188). -/
def Dec.nextNode (d : Dec) : Dec :=
  match d.stack with
  | (0, r, c) :: rest => { d with pos := .leaf 0 r c, stack := rest }
  | (l + 1, r, c) :: rest => { d with pos := .split (l + 1) r c, stack := rest }
  | [] =>
    if d.leaves ≠ d.leafCount then d.raise .leaf d.leaves
    else if brConsumed d.splitpos ≠ d.splitLen then d.raise .length (brConsumed d.splitpos)
    else { d with pos := .fin }

/-- `QTBLOB` (43_quadtree R186): the cursor passes the header fields and the palette, whose entries lose their top
byte; the two streams are read by bits. -/
def Dec.qtBlob (palette : List Word) (leafCount : Word) (cs ss : List Byte) (d : Dec) : Option Dec :=
  if d.pos = .qt then
    some { d with
      pal := palette.map color, leafCount := leafCount.toNat, leaves := 0
      inp := cs ++ ss, ip := d.ip + (8 + 4 * palette.length), bitpos := 0, splitpos := 0
      stack := [(levelCount (max d.w d.h) - 1, 0, 0)] }.nextNode
  else none

/-- `SPLIT0` (43_quadtree R187): a uniform leaf, its colour follows. -/
def Dec.split0 (d : Dec) : Option Dec :=
  match d.pos with
  | .split l r c => some { d with pos := .leaf l r c }
  | _ => none

/-- `SPLIT1` (43_quadtree R187): the present children, in order, before everything else. -/
def Dec.split1 (d : Dec) : Option Dec :=
  match d.pos with
  | .split (l + 1) r c =>
    some { d with stack := (children d.w d.h l r c).map (fun p : Nat × Nat => (l, p.1, p.2)) ++ d.stack }.nextNode
  | _ => none

/-- The row-major positions of the clipped square of node `(l, r, c)` (43_quadtree R171, R187). -/
def squarePositions (w h l r c : Nat) : List Nat :=
  (List.range' (r * 2 ^ l) (min ((r + 1) * 2 ^ l) h - r * 2 ^ l)).flatMap fun row =>
    (List.range' (c * 2 ^ l) (min ((c + 1) * 2 ^ l) w - c * 2 ^ l)).map fun col => row * w + col

/-- The leaf's colour from its entry (43_quadtree R187): `E_INDEX` outside the palette; without palette the entry is
the colour, masked to 24 bits. -/
def Dec.leafColor (d : Dec) (v : Word) : Option Color := if d.pal = [] then some (color v) else d.pal[v.toNat]?

/-- `QT_COLOR` (43_quadtree R187): the leaf's square is written. -/
def Dec.qtColor (bits : Nat) (v : Word) (d : Dec) : Option Dec :=
  match d.pos with
  | .leaf l r c =>
    if bits = qtColorBits d.pal.length then
      some (match d.leafColor v with
        | some col =>
          { d with
            leaves := d.leaves + 1
            px := (squarePositions d.w d.h l r c).foldl (fun px p => (p, col) :: px) d.px }.nextNode
        | none => d.raise .index v.toNat)
    else none
  | _ => none

/-! ### Diff (44_diff R207) -/

/-- The next word, or the end check. -/
def Dec.nextWord (d : Dec) : Dec :=
  if d.inp = [] then (if d.cursor ≠ d.w * d.h then d.raise .diffCount d.cursor else { d with pos := .fin })
  else { d with pos := .diff }

/-- The start of a diff stream: its length is a multiple of 4. -/
def Dec.startDiff (d : Dec) : Dec :=
  if d.inp.length % 4 ≠ 0 then d.raise .length d.inp.length else { d with cursor := 0 }.nextWord

/-- `DIFFW` (44_diff R207): write, then advance by `gap + 1`; the skipped pixels are not touched. -/
def Dec.diffW (gap : Byte) (c : Color) (d : Dec) : Option Dec :=
  if d.pos = .diff then
    some (if d.w * d.h ≤ d.cursor then d.raise .diffRange d.cursor
      else
        let e := { d with px := (d.cursor, c) :: d.px, cursor := d.cursor + gap.toNat + 1 }
        if d.w * d.h < e.cursor then e.raise .diffRange e.cursor else e.nextWord)
  else none

/-! ### Wire record (45_selector R224) -/

/-- `RAW_PAYLOAD` (45_selector R221): exactly `rawSize` bytes. -/
def Dec.rawPayload (bytes : List Byte) (d : Dec) : Option Dec :=
  if d.pos = .raw ∧ bytes.length = d.rawSize then some { d with rawBytes := bytes, pos := .fin } else none

/-- `WIREHDR` (45_selector R224): the fields; its tags are the next two tokens. -/
def Dec.wireHdr (e c : BitVec 16) (complen srclen : Word) (d : Dec) : Option Dec :=
  if d.pos = .wire then
    some { d with
      enc := e, compr := c, complen := complen.toNat, srclen := srclen.toNat
      recLen := wireHdrLen e + complen.toNat, pos := .enc }
  else none

/-- An `encMethod` tag (45_selector R224): a structural method needs a legal format; without one `srclen` is the raw
size. -/
def Dec.encTag (tag : BitVec 16) (d : Dec) : Option Dec :=
  if d.pos = .enc ∧ d.enc = tag then
    some (if tag = Config.encNone then { d with srclen := d.rawSize, pos := .compr }
      else match d.badFormat with
        | some r => { d with pos := .raised r }
        | none => { d with pos := .compr })
  else none

/-- `ENC_NONE` (30_encoding R75). -/
def Dec.encNone : Dec → Option Dec := Dec.encTag Config.encNone

/-- `ENC_DIFF` (30_encoding R75). -/
def Dec.encDiff : Dec → Option Dec := Dec.encTag Config.encDiff

/-- `ENC_TRLE` (30_encoding R75). -/
def Dec.encTrle : Dec → Option Dec := Dec.encTag Config.encTrle

/-- `ENC_QUADTREE` (30_encoding R75). -/
def Dec.encQuadtree : Dec → Option Dec := Dec.encTag Config.encQuadtree

/-- The dispatch on `encMethod` (45_selector R224): the structural decoder runs on `src`, its cursor at 0. -/
def Dec.dispatch (d : Dec) (src : List Byte) : Dec :=
  let e := { d with inp := src, ip := 0 }
  if d.enc = Config.encNone then { e with pos := .raw }
  else if d.enc = Config.encDiff then e.startDiff
  else if d.enc = Config.encTrle then { e with pos := .tile }
  else { e with pos := .qt }

/-- `COMPR_NONE` (45_selector R224): the payload is the source, of the same length. -/
def Dec.comprNone (d : Dec) : Option Dec :=
  if d.pos = .compr ∧ d.compr = Config.comprNone then
    some (d.need d.complen fun d =>
      if d.complen ≠ d.srclen then d.raise .length d.complen else d.dispatch (d.inp.take d.complen))
  else none

/-- A compression tag (45_selector R224): the port's answer must be of the declared length. -/
def Dec.comprTag (tag : BitVec 16) (m : ComprMethod) (d : Dec) : Option Dec :=
  if d.pos = .compr ∧ d.compr = tag then
    some (d.need d.complen fun d =>
      match Config.decompress m (d.inp.take d.complen) d.srclen with
      | none => d.raise .compressor 2
      | some src => if src.length ≠ d.srclen then d.raise .compressor 3 else d.dispatch src)
  else none

/-- `COMPR_LZ4` (30_encoding R76). -/
def Dec.comprLz4 : Dec → Option Dec := Dec.comprTag Config.comprLz4 .lz4

/-- `COMPR_ZSTD` (30_encoding R76). -/
def Dec.comprZstd : Dec → Option Dec := Dec.comprTag Config.comprZstd .zstd

/-- `COMPR_ZLIB` (30_encoding R76). -/
def Dec.comprZlib : Dec → Option Dec := Dec.comprTag Config.comprZlib .zlib

/-- `COMPR_BZIP2` (30_encoding R76). -/
def Dec.comprBzip2 : Dec → Option Dec := Dec.comprTag Config.comprBzip2 .bzip2

/-! ### Fetching a token: its bytes or bits are consumed here -/

/-- A decoded token with the context after it, or the fault of a rejected one. -/
def Dec.fetched (d : Dec) (r : Except Reject Instr) : Option Instr × Dec :=
  match r with
  | .ok i => (some i, d)
  | .error e => (none, { d with pos := .raised (rejectRaise e) })

/-- A token of one byte. -/
def Dec.fetchByte (d : Dec) (ch : Channel) : Option Instr × Dec :=
  match d.inp with
  | b :: _ => (d.drop 1).fetched (decode ch (.word 8 b.toNat))
  | [] => (none, d.raise .trunc d.ip)

/-- A token that is one colour of a tile stream. -/
def Dec.fetchColor (d : Dec) (ch : Channel) : Option Instr × Dec :=
  if d.inp.length < 3 then (none, d.raise .trunc d.ip)
  else (d.drop 3).fetched (decode ch (.word Config.colorBits (fromC3 (d.inp.take 3)).toNat))

/-- `br_get` (40_bitstream R107) on `budget` bytes of the input from offset `off` on, at bit position `p`. -/
def Dec.getBits (d : Dec) (off budget p n : Nat) : Except Raise Nat := brGet budget (fun i => d.inp.getD (off + i) 0) p n

/-- A token of `n` bits from the colour stream or a packed body, of so many bytes. -/
def Dec.fetchBits (d : Dec) (n budget : Nat) (ch : Channel) : Option Instr × Dec :=
  match d.getBits 0 budget d.bitpos n with
  | .ok v => { d with bitpos := d.bitpos + n }.fetched (decode ch (.word n v))
  | .error r => (none, { d with pos := .raised r })

/-- A split bit. -/
def Dec.fetchSplit (d : Dec) : Option Instr × Dec :=
  match d.getBits d.colorLen d.splitLen d.splitpos 1 with
  | .ok v => { d with splitpos := d.splitpos + 1 }.fetched (decode .split (.word 1 v))
  | .error r => (none, { d with pos := .raised r })

/-- The next token where the decoder stands (30_encoding R91), or the fault of reading it. -/
def Dec.fetch (d : Dec) : Option Instr × Dec :=
  match d.pos with
  | .wire => (d.drop (wireHdrLen (fromBe16 ((d.inp.drop 4).take 2)))).fetched (parseWire d.inp)
  | .enc => d.fetched (decodeEncTag d.enc)
  | .compr => d.fetched (decodeComprTag d.compr)
  | .raw =>
    if d.inp.length < d.rawSize then (none, d.raise .trunc d.ip)
    else (d.drop d.rawSize).fetched (decode (.rawBody d.rawSize) (.bytes (d.inp.take d.rawSize)))
  | .tile => d.fetchByte .tileHdr
  | .palette _ _ => d.fetchColor .palEntry
  | .rawPixel => d.fetchColor .rawPixel
  | .plain => d.fetchColor .plainRun
  | .rle => d.fetchByte .runToken
  | .runLen _ _ _ => d.fetchByte .runLen
  | .packed w => d.fetchBits w (d.bodyLen w) (.packed w)
  | .qt => d.fetched (parseQt d.inp)
  | .split _ _ _ => d.fetchSplit
  | .leaf _ _ _ =>
    if d.leaves = d.leafCount then (none, d.raise .leaf d.leaves)
    else d.fetchBits (qtColorBits d.pal.length) d.colorLen (.qtColor (qtColorBits d.pal.length))
  | .diff =>
    if d.inp.length < 4 then (none, d.raise .trunc d.ip)
    else (d.drop 4).fetched (decode .diff (.word 32 (fromPayload32 (d.inp.take 4)).toNat))
  | .fin => (none, d)
  | .raised _ => (none, d)

/-! ### The loop of a command -/

/-- What a token does to the cursors; `none` for a command and for a token out of place. -/
def Dec.apply (d : Dec) : Instr → Option Dec
  | .wireHdr e c cl sl => d.wireHdr e c cl sl
  | .encNone => d.encNone
  | .encDiff => d.encDiff
  | .encTrle => d.encTrle
  | .encQuadtree => d.encQuadtree
  | .comprNone => d.comprNone
  | .comprLz4 => d.comprLz4
  | .comprZstd => d.comprZstd
  | .comprZlib => d.comprZlib
  | .comprBzip2 => d.comprBzip2
  | .rawPayload bs => d.rawPayload bs
  | .tileRaw => d.tileRaw
  | .tilePlainRle => d.tilePlainRle
  | .tileReusePacked => d.tileReusePacked
  | .tileReuseRle => d.tileReuseRle
  | .tileSolid => d.tileSolid
  | .tilePacked n => d.tilePacked n
  | .tilePalRleLow n => d.tilePalRleLow n
  | .tilePalRle n => d.tilePalRle n
  | .palEntry c => d.palEntry c
  | .rawPixel c => d.rawPixel c
  | .packedIndex w k => d.packedIndex w k
  | .run1 k => d.run1 k
  | .runN k => d.runN k
  | .runLenCont => d.runLenCont
  | .runLenFinal f => d.runLenFinal f
  | .plainRun c => d.plainRun c
  | .qtBlob p lc cs ss => d.qtBlob p lc cs ss
  | .split0 => d.split0
  | .split1 => d.split1
  | .qtColor b v => d.qtColor b v
  | .diffW g c => d.diffW g c
  | .nop | .bswInit | .bswPut | .bswFin | .bsrInit | .bsrGet | .bsrFin | .palBuild | .palLookup | .palGet
  | .tileEnc | .tileDec | .trleEnc | .trleDec | .trleRst | .qtEnc | .qtDec | .diffEnc | .diffDec
  | .rawPack | .rawUnpack | .selEnc | .selDec | .reset _ => none

/-- Whether a token is still to come. -/
def Dec.running (d : Dec) : Bool :=
  match d.pos with
  | .fin | .raised _ => false
  | _ => true

/-- One token: fetched, then applied. -/
def Dec.next (d : Dec) : Dec :=
  match d.fetch with
  | (some i, e) => (e.apply i).getD e
  | (none, e) => e

/-- At most `n` tokens. -/
def Dec.run : Nat → Dec → Dec
  | 0, d => d
  | n + 1, d => if d.running then Dec.run n d.next else d

/-- A bound on the tokens still to come once the wire header and its two tags are done. -/
def Dec.fuel (d : Dec) : Nat :=
  80 * d.inp.length +
    match d.pos with
    | .packed _ => d.npix - d.made
    | .split _ _ _ | .leaf _ _ _ => 10 * (8 * d.splitLen - d.splitpos) + 2 * d.stack.length + 1
    | .raw | .qt => 1
    | _ => 0

/-- The whole decoding: the header's three tokens, then all the others (70_reset R297: every command terminates). -/
def Dec.decode (d : Dec) : Dec := Dec.run ((Dec.run 3 d).fuel + 1) (Dec.run 3 d)

/-- The cursors at the start of a decoding command. -/
def State.begin (s : State) (kind : DecKind) : Dec :=
  { kind := kind
    pos := match kind with
      | .tile | .trle => .tile
      | .qt => .qt
      | .diff => .diff
      | .raw => .raw
      | .sel => .wire
    inp := s.input, ip := 0, w := s.regs.rectW.toNat, h := s.regs.rectH.toNat, rawSize := s.rawSize
    badFormat := checkFormatA s, enc := 0, compr := 0, complen := 0, srclen := 0, recLen := 0
    tile := 0, made := 0, hdr := 0, pal := []
    sess := match kind with
      | .tile => s.sess
      | _ => []
    bitpos := 0, splitpos := 0
    leafCount := 0, leaves := 0, stack := [], cursor := 0, px := [], rawBytes := [] }

/-! ### What the decoder does to the machine -/

/-- The rectangle a decoding command writes: R53's pixels, or the raw rows of 45_selector R221. -/
def State.target (s : State) : DecKind → Area
  | .raw | .sel => s.areaRaw
  | .tile | .trle | .qt | .diff => s.areaA

/-- `PixWrite` of a colour at a row-major position of the rectangle; the high byte is 0 (20_memory R55). -/
def State.putPixel (s : State) (pos : Nat) (c : Color) : State :=
  s.writePix (s.areaA.pixel (pos % s.regs.rectW.toNat) (pos / s.regs.rectW.toNat)) (pix32 (pixelOf c))

/-- `raw_unpack(src)` (45_selector R221). -/
def State.rawUnpack (s : State) (src : List Byte) : State :=
  (List.range s.areaRaw.rows).foldl
    (fun t j => t.writePix (s.areaRaw.row j) ((src.drop (j * s.areaRaw.rowLen)).take s.areaRaw.rowLen)) s

/-- The pixels and bytes the decoder has decided go to PIX, oldest first. -/
def State.flush (s : State) (d : Dec) : State :=
  let t := d.px.foldr (fun p t => t.putPixel p.1 p.2) s
  if d.rawBytes = [] then t else t.rawUnpack d.rawBytes

/-- The results of a decoding command that ends well (42_tile R161, R163, 43_quadtree R191, 44_diff R211,
45_selector R232, R234). -/
def State.decoded (s : State) (d : Dec) : State :=
  match d.kind with
  | .tile => { s.setSession d.sess with regs.inUsed := BitVec.ofNat 32 d.ip, regs.res0 := d.hdr.setWidth 32 }
  | .trle => { s.setSession d.sess with regs.inUsed := s.regs.inLen }
  | .qt | .diff => { s with regs.inUsed := s.regs.inLen }
  | .raw => { s with regs.inUsed := BitVec.ofNat 32 s.rawSize }
  | .sel =>
    { s.setSession d.sess with
      regs.inUsed := BitVec.ofNat 32 d.recLen
      regs.res0 := d.enc.setWidth 32
      regs.res1 := d.compr.setWidth 32 }

/-- The session a fault leaves: `TRLE.DEC` and `SEL.DEC` work on the block's session, `TILE.DEC` assigns it at its
end only (42_tile R139, R155, R161; log 10). -/
def State.faultSession (s : State) (d : Dec) : State :=
  match d.kind with
  | .trle | .sel => s.setSession d.sess
  | .tile | .qt | .diff | .raw => s

/-- The machine once the cursors stand at `d`: the command has ended, has raised, or goes on. -/
def State.settle (s : State) (d : Dec) : State :=
  match d.pos with
  | .fin => { ((s.flush d).decoded d).complete with dec := none }
  | .raised r => (s.faultSession d).raiseDecode (s.target d.kind) r
  | _ => { s.flush d with dec := some { d with px := [], rawBytes := [] } }

/-- A whole decoding command (10_state R25: it runs to its end), from given cursors. -/
def State.runDecoder (s : State) (d : Dec) : State := s.settle d.decode

/-! ### The decoding commands of the tile, quadtree and diff codecs -/

/-- `TILE.DEC` (42_tile R161). -/
def execTileDec : State → Outcome :=
  command 0x11 fun s =>
    launch s [checkRect s, checkFormatA s, checkTileSide s] [stopAreaA s, stopInput s]
      (fun s r => s.raiseDecode s.areaA r) fun s => s.runDecoder (s.begin .tile)

/-- `TRLE.DEC` (42_tile R163). -/
def execTrleDec : State → Outcome :=
  command 0x13 fun s =>
    launch s [checkRect s, checkFormatA s] [stopAreaA s, stopInput s]
      (fun s r => s.raiseDecode s.areaA r) fun s => s.runDecoder (s.begin .trle)

/-- `QT.DEC` (43_quadtree R191). -/
def execQtDec : State → Outcome :=
  command 0x21 fun s =>
    launch s [checkRect s, checkFormatA s] [stopAreaA s, stopInput s]
      (fun s r => s.raiseDecode s.areaA r) fun s => s.runDecoder (s.begin .qt)

/-- `DIFF.DEC` (44_diff R211). -/
def execDiffDec : State → Outcome :=
  command 0x31 fun s =>
    launch s [checkRect s, checkFormatA s] [stopAreaA s, stopInput s]
      (fun s r => s.raiseDecode s.areaA r) fun s => s.runDecoder (s.begin .diff).startDiff

end Sys2Proof.Machine
end

