-- ==== Sys2Proof/Machine/DiffEncoder.lean ====
section
/-! DEFINITION. The diff encoder (44_diff R201 to R204) and `DIFF.ENC`. -/

namespace Sys2Proof.Machine

/-- One word of the diff stream on the wire (30_encoding R88): `gap` in bits 31:24. -/
def diffWord (gap : Nat) (c : Color) : List Byte := payload32 (BitVec.ofNat 8 gap ++ c)

/-- The scan of 44_diff R202 after position 0, with the open run's `gap` and `pendingColor`; each element is the
current and the previous colour of one position. -/
def diffScan : Nat → Color → List (Color × Color) → List Byte
  | gap, pending, [] => diffWord gap pending
  | gap, pending, (cur, prev) :: rest =>
    if cur = prev ∧ gap < Config.diffMaxGap then diffScan (gap + 1) pending rest
    else diffWord gap pending ++ diffScan 0 cur rest

/-- `diff_enc(cur, prev, N)` (44_diff R202): position 0 always opens a run. -/
def diffEnc (cur prev : List Color) : List Byte :=
  match cur.zip prev with
  | [] => diffWord 0 0
  | (c, _) :: rest => diffScan 0 c rest

/-- `DIFF.ENC` (44_diff R210): the stream is written even when it is not worth it. -/
def execDiffEnc : State → Outcome :=
  command 0x30 fun s =>
    launch s [checkRect s, checkFormatA s, checkFormatB s] [stopAreaA s, stopAreaB s, stopOutput s] State.raiseEncode
      fun s =>
        let out := diffEnc (s.grid s.areaA) (s.grid s.areaB)
        s.writeOut out fun t =>
          { t with
            regs.res0 := BitVec.ofNat 32 (out.length / 4)
            status := t.status.setNotWorth
              (decide (s.regs.rectW.toNat * s.regs.rectH.toNat * Config.pixelBytes ≤ out.length)) }

end Sys2Proof.Machine
end

