-- ==== Sys2Proof/Machine/Selector.lean ====
section
/-! DEFINITION. The codec selector (45_selector R215 to R225), the raw copy and their commands `RAW.PACK`,
`RAW.UNPACK`, `SEL.ENC`, `SEL.DEC`. -/

namespace Sys2Proof.Machine

/-- `fmt_ok` (45_selector R217). -/
def State.fmtOk (s : State) : Bool := (checkFormatA s).isNone

/-- The encoding method after steps 1 and 2 (45_selector R217, R218). -/
def State.encMethod (s : State) : Nat :=
  let enc := if s.fmtOk then s.regs.cfgEnc.toNat else Config.encNone.toNat
  if enc = Config.encDiff.toNat ∧ (!s.prevValid ∨ s.regs.pixbStride.toNat % 4 ≠ 0) then Config.encNone.toNat else enc

/-- What step 3 produces (45_selector R219, R220): the source bytes, the final method, the session left. -/
structure Structural where
  srcBytes : List Byte
  enc : Nat
  sess : List Color
  deriving DecidableEq, Repr

/-- Step 3 with its fallbacks (45_selector R219, R220). -/
def State.structural (s : State) : Except Raise Structural :=
  let raw : Structural := { srcBytes := s.rawPack, enc := Config.encNone.toNat, sess := [] }
  if s.encMethod = Config.encDiff.toNat then
    let src := diffEnc (s.grid s.areaA) (s.grid s.areaB)
    .ok (if s.rawSize ≤ src.length then raw else { srcBytes := src, enc := Config.encDiff.toNat, sess := [] })
  else if s.encMethod = Config.encTrle.toNat then
    let r := trleEnc (s.grid s.areaA) s.regs.rectW.toNat s.regs.rectH.toNat s.reuseEn
    .ok { srcBytes := r.1, enc := Config.encTrle.toNat, sess := r.2 }
  else if s.encMethod = Config.encQuadtree.toNat then
    match qtEnc (s.grid s.areaA) s.regs.rectW.toNat s.regs.rectH.toNat with
    | .failed r => .error r
    | .notWorth => .ok raw
    | .stream src => .ok { srcBytes := src, enc := Config.encQuadtree.toNat, sess := [] }
  else .ok raw

/-- "The size limit keeps `rawSize`, `srclen` and `complen` inside their 32-bit wire fields" (60_exceptions R259): a
source that would not fit is excluded by a check that faults first (00_scope R8, decision D35; log 25). -/
def checkSource (src : List Byte) : Option Raise := raiseIf (decide (Config.maxRectBytes < src.length)) .rect 3

/-- The port's method for a tag of 1 to 4 (30_encoding R76). -/
def comprMethod (tag : Nat) : ComprMethod :=
  if tag = Config.comprLz4.toNat then .lz4 else if tag = Config.comprZstd.toNat then .zstd
  else if tag = Config.comprZlib.toNat then .zlib else .bzip2

/-- Step 4 (45_selector R222): the payload and the final method; compression never inflates. -/
def compressStep (tag : Nat) (src : List Byte) (level : Word) : Except Raise (List Byte × Nat) :=
  if tag = Config.comprNone.toNat then .ok (src, Config.comprNone.toNat)
  else match Config.compress (comprMethod tag) src level with
    | none => .error ⟨.compressor, 1⟩
    | some c => .ok (if src.length ≤ c.length then (src, Config.comprNone.toNat) else (c, tag))

/-- Step 4, and the check on the source of a compressed record. An uncompressed record of a source that does not fit
is longer than any `OUT_CAP`, so `writeOut` excludes it. -/
def State.payload (s : State) (src : List Byte) : Except Raise (List Byte × Nat) :=
  match compressStep s.regs.cfgCompr.toNat src s.regs.cfgLevel with
  | .error r => .error r
  | .ok (payload, compr) =>
    match if compr = Config.comprNone.toNat then none else checkSource src with
    | some r => .error r
    | none => .ok (payload, compr)

/-- Step 5 (45_selector R223): the wire record. -/
def wireRecord (enc compr : Nat) (srclen : Nat) (payload : List Byte) : List Byte :=
  wireHdrBytes (BitVec.ofNat 16 enc) (BitVec.ofNat 16 compr) (BitVec.ofNat 32 payload.length)
    (BitVec.ofNat 32 srclen) ++ payload

/-- Buffer B is a part of the launch only when the diff method runs (45_selector R231). -/
def stopPrev (s : State) : Option Stop := if s.encMethod = Config.encDiff.toNat then stopAreaB s else none

/-- `SEL.ENC` (45_selector R231). -/
def execSelEnc : State → Outcome :=
  command 0x50 fun s =>
    launch s [checkMethods s, checkRect s, checkRaw s] [stopAreaRaw s, stopPrev s, stopOutput s] State.raiseEncode
      fun s =>
        match s.structural with
        | .error r => (s.dropPalette.setSession []).raiseEncode r
        | .ok st =>
          let t := s.dropPalette.setSession st.sess
          match s.payload st.srcBytes with
          | .error r => t.raiseEncode r
          | .ok (payload, compr) =>
            t.writeOut (wireRecord st.enc compr st.srcBytes.length payload) fun u =>
              { u with regs.res0 := BitVec.ofNat 32 st.enc, regs.res1 := BitVec.ofNat 32 compr }

/-- `SEL.DEC` (45_selector R232). -/
def execSelDec : State → Outcome :=
  command 0x51 fun s =>
    launch s [checkRect s, checkRaw s] [stopAreaRaw s, stopInput s]
      (fun s r => s.raiseDecode s.areaRaw r) fun s => s.runDecoder (s.begin .sel)

/-- `RAW.PACK` (45_selector R233). -/
def execRawPack : State → Outcome :=
  command 0x40 fun s =>
    launch s [checkRect s, checkRaw s] [stopAreaRaw s, stopOutput s] State.raiseEncode fun s =>
      s.writeOut s.rawPack id

/-- `RAW.UNPACK` (45_selector R234). -/
def execRawUnpack : State → Outcome :=
  command 0x41 fun s =>
    launch s [checkRect s, checkRaw s] [stopAreaRaw s, stopInput s]
      (fun s r => s.raiseDecode s.areaRaw r) fun s => s.runDecoder (s.begin .raw)

end Sys2Proof.Machine
end

