-- ==== Sys2Proof/Machine/Tokens.lean ====
section
/-! DEFINITION. The stream tokens as instructions: each applies its function of Machine/Decoder.lean to the cursors
that State holds, and the machine follows (log 2). Where no decoder expects the token it is out of place (log 3). -/

namespace Sys2Proof.Machine

/-- One token at the cursors the state holds. -/
def onToken (f : Dec → Option Dec) (s : State) : Outcome :=
  match s.dec with
  | none => .refused .tokenOutOfPlace
  | some d =>
    match f d with
    | some e => .next (s.settle e)
    | none => .refused .tokenOutOfPlace

/-- `WIREHDR` (45_selector R224). -/
def execWireHdr (e c : BitVec 16) (complen srclen : Word) (s : State) : Outcome := onToken (Dec.wireHdr e c complen srclen) s

/-- `ENC_NONE` (30_encoding R75, 45_selector R224). -/
def execEncNone (s : State) : Outcome := onToken Dec.encNone s

/-- `ENC_DIFF` (30_encoding R75, 45_selector R224). -/
def execEncDiff (s : State) : Outcome := onToken Dec.encDiff s

/-- `ENC_TRLE` (30_encoding R75, 45_selector R224). -/
def execEncTrle (s : State) : Outcome := onToken Dec.encTrle s

/-- `ENC_QUADTREE` (30_encoding R75, 45_selector R224). -/
def execEncQuadtree (s : State) : Outcome := onToken Dec.encQuadtree s

/-- `COMPR_NONE` (30_encoding R76, 45_selector R224). -/
def execComprNone (s : State) : Outcome := onToken Dec.comprNone s

/-- `COMPR_LZ4` (30_encoding R76, 45_selector R224). -/
def execComprLz4 (s : State) : Outcome := onToken Dec.comprLz4 s

/-- `COMPR_ZSTD` (30_encoding R76, 45_selector R224). -/
def execComprZstd (s : State) : Outcome := onToken Dec.comprZstd s

/-- `COMPR_ZLIB` (30_encoding R76, 45_selector R224). -/
def execComprZlib (s : State) : Outcome := onToken Dec.comprZlib s

/-- `COMPR_BZIP2` (30_encoding R76, 45_selector R224). -/
def execComprBzip2 (s : State) : Outcome := onToken Dec.comprBzip2 s

/-- `RAW_PAYLOAD` (45_selector R221). -/
def execRawPayload (bytes : List Byte) (s : State) : Outcome := onToken (Dec.rawPayload bytes) s

/-- `TILE_RAW` (42_tile R152). -/
def execTileRaw (s : State) : Outcome := onToken Dec.tileRaw s

/-- `TILE_PLAIN_RLE` (42_tile R153). -/
def execTilePlainRle (s : State) : Outcome := onToken Dec.tilePlainRle s

/-- `TILE_REUSE_PACKED` (42_tile R154). -/
def execTileReusePacked (s : State) : Outcome := onToken Dec.tileReusePacked s

/-- `TILE_REUSE_RLE` (42_tile R154). -/
def execTileReuseRle (s : State) : Outcome := onToken Dec.tileReuseRle s

/-- `TILE_SOLID` (42_tile R155). -/
def execTileSolid (s : State) : Outcome := onToken Dec.tileSolid s

/-- `TILE_PACKED` (42_tile R155). -/
def execTilePacked (count : BitVec 7) (s : State) : Outcome := onToken (Dec.tilePacked count) s

/-- `TILE_PAL_RLE_LOW` (42_tile R155). -/
def execTilePalRleLow (count : BitVec 7) (s : State) : Outcome := onToken (Dec.tilePalRleLow count) s

/-- `TILE_PAL_RLE` (42_tile R155). -/
def execTilePalRle (count : BitVec 7) (s : State) : Outcome := onToken (Dec.tilePalRle count) s

/-- `PAL_ENTRY` (42_tile R155). -/
def execPalEntry (c : Color) (s : State) : Outcome := onToken (Dec.palEntry c) s

/-- `RAW_PIXEL` (42_tile R152). -/
def execRawPixel (c : Color) (s : State) : Outcome := onToken (Dec.rawPixel c) s

/-- `PACKED_INDEX` (42_tile R157). -/
def execPackedIndex (w : Nat) (k : BitVec 4) (s : State) : Outcome := onToken (Dec.packedIndex w k) s

/-- `RUN1` (42_tile R156). -/
def execRun1 (k : BitVec 7) (s : State) : Outcome := onToken (Dec.run1 k) s

/-- `RUNN` (42_tile R156). -/
def execRunN (k : BitVec 7) (s : State) : Outcome := onToken (Dec.runN k) s

/-- `RUNLEN_CONT` (30_encoding R82). -/
def execRunLenCont (s : State) : Outcome := onToken Dec.runLenCont s

/-- `RUNLEN_FINAL` (30_encoding R82). -/
def execRunLenFinal (f : Byte) (s : State) : Outcome := onToken (Dec.runLenFinal f) s

/-- `PLAIN_RUN` (42_tile R153). -/
def execPlainRun (c : Color) (s : State) : Outcome := onToken (Dec.plainRun c) s

/-- `QTBLOB` (43_quadtree R186). -/
def execQtBlob (palette : List Word) (leafCount : Word) (cs ss : List Byte) (s : State) : Outcome := onToken (Dec.qtBlob palette leafCount cs ss) s

/-- `SPLIT0` (43_quadtree R187). -/
def execSplit0 (s : State) : Outcome := onToken Dec.split0 s

/-- `SPLIT1` (43_quadtree R187). -/
def execSplit1 (s : State) : Outcome := onToken Dec.split1 s

/-- `QT_COLOR` (43_quadtree R187). -/
def execQtColor (bits : Nat) (v : Word) (s : State) : Outcome := onToken (Dec.qtColor bits v) s

/-- `DIFFW` (44_diff R207). -/
def execDiffW (gap : Byte) (c : Color) (s : State) : Outcome := onToken (Dec.diffW gap c) s

end Sys2Proof.Machine
end

