-- ==== Sys2Proof/Machine/Dispatch.lean ====
section
/-! DEFINITION. One arm per instruction of Syntax.lean, each a direct call of its meaning. -/

namespace Sys2Proof.Machine

def exec (i : Instr) (s : State) : Host.Outcome State Fault Refusal :=
  match i with
  | .nop => Sys2Proof.Machine.execNop s
  | .bswInit => Sys2Proof.Machine.execBswInit s
  | .bswPut => Sys2Proof.Machine.execBswPut s
  | .bswFin => Sys2Proof.Machine.execBswFin s
  | .bsrInit => Sys2Proof.Machine.execBsrInit s
  | .bsrGet => Sys2Proof.Machine.execBsrGet s
  | .bsrFin => Sys2Proof.Machine.execBsrFin s
  | .palBuild => Sys2Proof.Machine.execPalBuild s
  | .palLookup => Sys2Proof.Machine.execPalLookup s
  | .palGet => Sys2Proof.Machine.execPalGet s
  | .tileEnc => Sys2Proof.Machine.execTileEnc s
  | .tileDec => Sys2Proof.Machine.execTileDec s
  | .trleEnc => Sys2Proof.Machine.execTrleEnc s
  | .trleDec => Sys2Proof.Machine.execTrleDec s
  | .trleRst => Sys2Proof.Machine.execTrleRst s
  | .qtEnc => Sys2Proof.Machine.execQtEnc s
  | .qtDec => Sys2Proof.Machine.execQtDec s
  | .diffEnc => Sys2Proof.Machine.execDiffEnc s
  | .diffDec => Sys2Proof.Machine.execDiffDec s
  | .rawPack => Sys2Proof.Machine.execRawPack s
  | .rawUnpack => Sys2Proof.Machine.execRawUnpack s
  | .selEnc => Sys2Proof.Machine.execSelEnc s
  | .selDec => Sys2Proof.Machine.execSelDec s
  | .reset ign => Sys2Proof.Machine.execReset ign s
  | .wireHdr e c complen srclen => Sys2Proof.Machine.execWireHdr e c complen srclen s
  | .encNone => Sys2Proof.Machine.execEncNone s
  | .encDiff => Sys2Proof.Machine.execEncDiff s
  | .encTrle => Sys2Proof.Machine.execEncTrle s
  | .encQuadtree => Sys2Proof.Machine.execEncQuadtree s
  | .comprNone => Sys2Proof.Machine.execComprNone s
  | .comprLz4 => Sys2Proof.Machine.execComprLz4 s
  | .comprZstd => Sys2Proof.Machine.execComprZstd s
  | .comprZlib => Sys2Proof.Machine.execComprZlib s
  | .comprBzip2 => Sys2Proof.Machine.execComprBzip2 s
  | .rawPayload bytes => Sys2Proof.Machine.execRawPayload bytes s
  | .tileRaw => Sys2Proof.Machine.execTileRaw s
  | .tilePlainRle => Sys2Proof.Machine.execTilePlainRle s
  | .tileReusePacked => Sys2Proof.Machine.execTileReusePacked s
  | .tileReuseRle => Sys2Proof.Machine.execTileReuseRle s
  | .tileSolid => Sys2Proof.Machine.execTileSolid s
  | .tilePacked count => Sys2Proof.Machine.execTilePacked count s
  | .tilePalRleLow count => Sys2Proof.Machine.execTilePalRleLow count s
  | .tilePalRle count => Sys2Proof.Machine.execTilePalRle count s
  | .palEntry c => Sys2Proof.Machine.execPalEntry c s
  | .rawPixel c => Sys2Proof.Machine.execRawPixel c s
  | .packedIndex w k => Sys2Proof.Machine.execPackedIndex w k s
  | .run1 k => Sys2Proof.Machine.execRun1 k s
  | .runN k => Sys2Proof.Machine.execRunN k s
  | .runLenCont => Sys2Proof.Machine.execRunLenCont s
  | .runLenFinal f => Sys2Proof.Machine.execRunLenFinal f s
  | .plainRun c => Sys2Proof.Machine.execPlainRun c s
  | .qtBlob palette leafCount cs ss => Sys2Proof.Machine.execQtBlob palette leafCount cs ss s
  | .split0 => Sys2Proof.Machine.execSplit0 s
  | .split1 => Sys2Proof.Machine.execSplit1 s
  | .qtColor bits v => Sys2Proof.Machine.execQtColor bits v s
  | .diffW gap c => Sys2Proof.Machine.execDiffW gap c s

end Sys2Proof.Machine
end

