-- ==== Sys2Proof/Machine/Fetch.lean ====
section
/-! DEFINITION. What comes next: the token a running decoder reads, or the host's next transaction (10_state R25,
R28, 20_memory R60, 30_encoding R73); and where a word of the opcode table is placed so that it comes next. -/

namespace Sys2Proof.Machine

/-- What a step finds. -/
inductive Fetched where
  /-- An instruction, and the state it runs in. -/
  | run (i : Instr) (s : State)
  /-- The whole effect: a memory store, a register write that triggers nothing, a rejected code, nothing pending. -/
  | done (s : State)
  deriving DecidableEq, Repr

/-- A host write to `CMD` (10_state R25). -/
def writeCmd (w : Word) (s : State) : Fetched :=
  match decode .cmd (.word 32 w.toNat) with
  | .ok i => .run i s
  | .error _ => .done (illegalCommand w s)

/-- A host write to `CTRL` (10_state R28). With bit 0 clear it triggers nothing; a read returns the word (R20;
log 14). -/
def writeCtrl (w : Word) (s : State) : Fetched :=
  match decode .ctrl (.word 32 w.toNat) with
  | .ok i => .run i s
  | .error _ => .done { s with regs.ctrl := w }

/-- One transaction of the host. -/
def hostTransaction (a : HostAction) (s : State) : Fetched :=
  match a with
  | .write .cmd w => writeCmd w s
  | .write .ctrl w => writeCtrl w s
  | .write r v => .done (s.hostWriteReg r v)
  | .storePix a b => .done (s.writePix a.toNat [b])
  | .storeStr a b => .done (s.writeStr a.toNat [b])

/-- The next token of the cursors the state holds. -/
def fetchToken (d : Dec) (s : State) : Fetched :=
  match d.fetch with
  | (some i, e) => .run i { s with dec := some e }
  | (none, e) => .done (s.settle e)

/-- What a step finds: a running decoder's token first, then the host's oldest transaction (20_memory R60: the host
waits while a command runs), else nothing: the block is idle (70_reset R280). -/
def fetchNext (s : State) : Fetched :=
  match s.dec with
  | some d => fetchToken d s
  | none =>
    match s.host with
    | a :: rest => hostTransaction a { s with host := rest }
    | [] => .done s

/-! ### Placing a word (log 1, log 15) -/

/-- The cursors of a decoder of a 1 × 1 rectangle whose stream is given. -/
def blankDec (kind : DecKind) (pos : Pos) (inp : List Byte) : Dec :=
  { kind := kind, pos := pos, inp := inp, ip := 0, w := 1, h := 1, rawSize := 4, badFormat := none
    enc := 0, compr := 0, complen := 0, srclen := 0, recLen := 0, tile := 0, made := 0, hdr := 0, pal := [], sess := []
    bitpos := 0, splitpos := 0
    leafCount := 1, leaves := 0, stack := [], cursor := 0, px := [], rawBytes := [] }

/-- The bytes that follow a placed token: zeros, enough for every tile record of a 1 × 1 tile. -/
def zeroTail : List Byte := List.replicate 512 0

/-- The cursors at which a word read on a stream channel is the next token. -/
def placedToken (ch : Channel) (nbits w : Nat) : Dec :=
  match ch with
  | .encTag => { blankDec .sel .enc zeroTail with enc := BitVec.ofNat 16 w, recLen := 16 }
  | .comprTag => { blankDec .sel .compr zeroTail with compr := BitVec.ofNat 16 w, recLen := 12 }
  | .palEntry => blankDec .tile (.palette false 1) (bytesOfNat (nbits / 8) w ++ zeroTail)
  | .split => blankDec .qt (.split 1 0 0) [0, 0, 0, 0, BitVec.ofNat 8 (128 * w)]
  | .diff => blankDec .diff .diff (payload32 (BitVec.ofNat 32 w))
  | .wire => blankDec .sel .wire (bytesOfNat (nbits / 8) w ++ zeroTail)
  | _ => blankDec .tile .tile (bytesOfNat (nbits / 8) w ++ zeroTail)

/-- The state in which the next step fetches this word: a command or a control word as the host's next transaction, a
token at the cursors of a decoder that expects it. -/
def State.place (s : State) (nbits w : Nat) : State :=
  match firstDecoding nbits w (tableChannels nbits) with
  | some (.cmd, _) => { s with dec := none, host := .write .cmd (BitVec.ofNat 32 w) :: s.host }
  | some (.ctrl, _) => { s with dec := none, host := .write .ctrl (BitVec.ofNat 32 w) :: s.host }
  | some (ch, _) => { s with dec := some (placedToken ch nbits w) }
  | none => { s with dec := none, host := .write .cmd (BitVec.ofNat 32 w) :: s.host }

end Sys2Proof.Machine
end

