-- ==== Sys2Proof/Machine/Step.lean ====
section
/-! DEFINITION. One step of the machine. -/

namespace Sys2Proof.Machine

/-- One step: what comes next, and the instruction if it is one. -/
def step (s : State) : Host.Outcome State Fault Refusal :=
  match fetchNext s with
  | .run i t => exec i t
  | .done t => .next t

/-- The state in which the next step fetches and runs a word of the opcode table (logs 1 and 15). -/
def State.withFetchWord (s : State) (nbits w : Nat) : State := s.place nbits w

end Sys2Proof.Machine
end

