-- ==== Sys2Proof/Safety.lean ====
section
/-! DEFINITION. What claims about the machine speak of: when a launch lies in the modelled domain (60_exceptions R258,
R259, 20_memory R64, 70_reset R285), what stays unchanged, how a decoding ends, the invariant every step keeps, and a safe run. -/

namespace Sys2Proof

/-- The commands of 30_encoding R71. -/
def Instr.isCommand (i : Instr) : Bool := commandTable.any fun p => p.2 == i

end Sys2Proof

namespace Sys2Proof.Machine

/-! ### Launches in the modelled domain -/

/-- The block accepts commands (10_state R25, 60_exceptions R265). -/
def State.ready (s : State) : Prop := s.status.fault = false

/-- `check_rect` raises nothing (60_exceptions R259). -/
def State.rectOk (s : State) : Prop :=
  0 < s.regs.rectW.toNat ∧ 0 < s.regs.rectH.toNat ∧
    s.regs.rectW.toNat * s.regs.rectH.toNat * Config.pixelBytes ≤ Config.maxRectBytes

/-- `check_format_A` raises nothing (60_exceptions R258). -/
def State.formatAOk (s : State) : Prop := s.regs.pixaBpp.toNat = 4 ∧ s.regs.pixaStride.toNat % 4 = 0

/-- `check_format_B` raises nothing (60_exceptions R258). -/
def State.formatBOk (s : State) : Prop := s.regs.pixbValid.getLsbD 0 = true ∧ s.regs.pixbStride.toNat % 4 = 0

/-- `check_raw` raises nothing (45_selector R221). -/
def State.rawOk (s : State) : Prop := 0 < s.regs.pixaBpp.toNat ∧ s.rawSize ≤ Config.maxRectBytes

/-- The tile's own limit (42_tile R160). -/
def State.tileOk (s : State) : Prop :=
  s.regs.rectW.toNat ≤ Config.tileSide ∧ s.regs.rectH.toNat ≤ Config.tileSide

/-- The rectangle lies in its buffer's rows and below 2^32 (70_reset R285). -/
def State.areaFits (s : State) (area : Area) (bpp : Nat) : Prop :=
  (s.regs.rectX.toNat + s.regs.rectW.toNat) * bpp ≤ area.stride ∧ area.bound ≤ Config.spaceSize

/-- The input buffer lies below 2^32 (20_memory R64). -/
def State.inputFits (s : State) : Prop := s.regs.inBase.toNat + s.regs.inLen.toNat ≤ Config.spaceSize

/-- The output buffer lies below 2^32 (20_memory R64). -/
def State.outputFits (s : State) : Prop := s.regs.outBase.toNat + s.regs.outCap.toNat ≤ Config.spaceSize

/-- What every structural codec command needs of its rectangle. -/
def State.codecLaunch (s : State) : Prop :=
  s.ready ∧ s.rectOk ∧ s.formatAOk ∧ s.areaFits s.areaA Config.pixelBytes

/-- What a structural encoding command needs. -/
def State.encodeLaunch (s : State) : Prop := s.codecLaunch ∧ s.outputFits

/-- What a structural decoding command needs. -/
def State.decodeLaunch (s : State) : Prop := s.codecLaunch ∧ s.inputFits

/-- What a raw copy needs of its rectangle. -/
def State.rawLaunch (s : State) : Prop :=
  s.ready ∧ s.rectOk ∧ s.rawOk ∧ s.areaFits s.areaRaw s.regs.pixaBpp.toNat

/-! ### What stays -/

/-- Every byte of a space at an address with the property reads after as before. -/
def SameBytes (sp : Space) (p : Nat → Prop) (s t : State) : Prop := ∀ a, p a → t.byte sp a = s.byte sp a

/-- The fields no codec command touches: the bit-stream contexts, what the host has pending, the token cursors. -/
def SameContexts (s t : State) : Prop := t.w0 = s.w0 ∧ t.r0 = s.r0 ∧ t.host = s.host ∧ t.dec = s.dec

/-- An address of the output buffer (20_memory R52). -/
def State.inOutput (s : State) (a : Nat) : Prop :=
  s.regs.outBase.toNat ≤ a ∧ a < s.regs.outBase.toNat + s.regs.outCap.toNat

/-- An address of an area's bytes: some byte `o` of some row `j` (20_memory R53, 45_selector R221). -/
def Area.holds (r : Area) (a : Nat) : Prop := ∃ j o, j < r.rows ∧ o < r.rowLen ∧ a = r.row j + o

/-! ### How a decoding ends -/

/-- The state a decoding command leaves when it ends well, its pixels already written in `s` (42_tile R161, R163,
43_quadtree R191, 44_diff R211, 45_selector R232). -/
def EndsWell (s : State) (d : Dec) (t : State) : Prop :=
  (d.kind = .tile → t = { s with
    dec := none, sess := d.sess
    regs := { s.regs with inUsed := BitVec.ofNat 32 d.ip, res0 := d.hdr.setWidth 32 }
    status := { s.status with done := true, sessValid := decide (1 ≤ d.sess.length) } }) ∧
  (d.kind = .trle → t = { s with
    dec := none, sess := d.sess
    regs := { s.regs with inUsed := s.regs.inLen }
    status := { s.status with done := true, sessValid := decide (1 ≤ d.sess.length) } }) ∧
  (d.kind = .qt ∨ d.kind = .diff → t = { s with
    dec := none, regs := { s.regs with inUsed := s.regs.inLen }, status := { s.status with done := true } }) ∧
  (d.kind = .sel → t = { s with
    dec := none, sess := d.sess
    regs := { s.regs with
      inUsed := BitVec.ofNat 32 d.recLen, res0 := d.enc.setWidth 32, res1 := d.compr.setWidth 32 }
    status := { s.status with done := true, sessValid := decide (1 ≤ d.sess.length) } })

/-- A decoding command ends in a fault of this number and detail, the detail held at `2^32 − 1` (60_exceptions R250,
R264). -/
def EndsInFault (t : State) (number : Word) (info : Nat) : Prop :=
  t.dec = none ∧ t.status.fault = true ∧ t.regs.fault = number ∧ t.regs.faultInfo.toNat = min info (2 ^ 32 - 1)

/-- The state after a tile whose pixels are already written in `s`, with the cursors `d` behind its record (42_tile
R159, R161): the next tile, the end, or `E_LENGTH` where a rectangle's stream goes on. -/
def AfterTile (s : State) (d : Dec) (t : State) : Prop :=
  (d.tile + 1 < tileCount d.w d.h → t = { s with dec := some { d with tile := d.tile + 1, made := 0, pos := .tile } }) ∧
  (tileCount d.w d.h ≤ d.tile + 1 →
    (d.kind = .tile ∨ d.inp = [] → EndsWell s d t) ∧ (d.kind ≠ .tile → d.inp ≠ [] → EndsInFault t 11 d.ip))

/-- `run` pixels of one colour from pixel `made` of the tile on, in the tile's row-major order (42_tile R137). -/
def State.fillTile (s : State) (d : Dec) (run : Nat) (c : Color) : State :=
  (List.range run).foldl (fun t n => t.putPixel (tilePos d.w d.tile (d.made + n)) c) s

/-! ### The invariant -/

/-- 10_state R26, R27, 60_exceptions R250, R264: the fault flag, the code and the other flags agree. -/
def State.faultInv (s : State) : Prop :=
  (s.status.fault = false → s.regs.fault = 0 ∧ s.regs.faultInfo = 0) ∧
    (s.status.fault = true →
      1 ≤ s.regs.fault.toNat ∧ s.regs.fault.toNat ≤ 21 ∧ s.status.done = false ∧ s.status.notWorth = false)

/-- 10_state R31: `SESS_VALID = 1` exactly when `SESS_COUNT ≥ 1`, and `SESS_COUNT` is in 0..127. -/
def State.sessionInv (s : State) : Prop :=
  s.status.sessValid = decide (1 ≤ s.sess.length) ∧ s.sess.length ≤ 127

/-- 10_state R32, R33: neither context passes its budget. -/
def State.contextInv (s : State) : Prop :=
  s.w0.bits.length ≤ 8 * s.w0.budget.toNat ∧ s.r0.bitpos ≤ 8 * s.r0.budget.toNat

/-- 10_state R30, 41_palette R121, R122: the colours of the palette array are pairwise distinct. -/
def State.paletteInv (s : State) : Prop := s.pal.Nodup

/-- How many palette entries a tile decoder still expects. -/
def Pos.paletteLeft : Pos → Nat
  | .palette _ left => max left 1
  | _ => 0

/-- What the invariant asks of a decoding that is under way: the block has not ended it, and no palette passes 127
colours (42_tile R139). -/
def State.decInv (s : State) : Prop :=
  ∀ d, s.dec = some d →
    s.status.fault = false ∧ s.status.done = false ∧ s.status.notWorth = false ∧
      d.sess.length ≤ 127 ∧ (0 < d.pos.paletteLeft → d.pal.length + d.pos.paletteLeft ≤ 127)

/-- The invariant of the machine: memories in canonical form and the rules above. -/
def State.Inv (s : State) : Prop :=
  s.pix.wf = true ∧ s.str.wf = true ∧ s.faultInv ∧ s.sessionInv ∧ s.contextInv ∧ s.paletteInv ∧ s.decInv

/-- Between commands (10_state R25, R29: cursors are "dead at command end"): no decoding is under way, every byte that
holds a value lies in its space, and so does the segment of the bit-stream writer (20_memory R64). -/
def State.Quiet (s : State) : Prop :=
  s.dec = none ∧ s.pix.inSpace = true ∧ s.str.inSpace = true ∧
    s.w0.base.toNat + s.w0.budget.toNat ≤ Config.spaceSize

/-! ### Safe runs -/

/-- A safe run: so many steps, none of which stops the machine, and no fault raised at the end. -/
def SafeRun (n : Nat) (s : State) : Prop := ∃ t, Sys2Proof.core.run n s = .next t ∧ t.status.fault = false

end Sys2Proof.Machine
end

