-- ==== Sys2Proof/Certificates/Slice0/Obligations.lean ====
section
/-! DEFINITION. The statements about the machine that are to be proved. -/

open Sys2Proof Sys2Proof.Machine

/-- Decoding the encoding of any well-formed instruction gives it back. Rests on 30_encoding R70 to R92, 45_selector
R223, 45_selector R224, 43_quadtree R182, 43_quadtree R186. -/
def Obligations.DecodeEncode : Prop :=
  ∀ i : Instr, i.wf = true → decode i.channel (encode i) = .ok i

/-- A command word decodes to the one command with that code or is illegal; each tile header byte has one meaning.
Rests on 30_encoding R70, 30_encoding R71, 30_encoding R72, 30_encoding R78, 30_encoding R92. -/
def Obligations.CodesExact : Prop :=
  (∀ w : Word,
    (∃ i : Instr, i.isCommand = true ∧ encode i = .word 32 w.toNat ∧ decodeCommand w = .ok i) ∨
      ((∀ i : Instr, i.isCommand = true → encode i ≠ .word 32 w.toNat) ∧
        decodeCommand w = .error (.illegalCommand w))) ∧
    (∀ h : Byte,
      (decodeTileHdr h).wf = true ∧ (decodeTileHdr h).channel = .tileHdr ∧ encode (decodeTileHdr h) = .word 8 h.toNat)

/-- A few words written out from the encodings decode to their instructions. Rests on 30_encoding R71, 30_encoding
R78, 30_encoding R81, 30_encoding R86, 30_encoding R88, 10_state R28. -/
def Obligations.DecodedWords : Prop :=
  decode .cmd (.word 32 0x02) = .ok .bswPut ∧ decode .cmd (.word 32 0x31) = .ok .diffDec ∧
    decode .cmd (.word 32 0x51) = .ok .selDec ∧ decode .ctrl (.word 32 1) = .ok (.reset 0) ∧
    decode .tileHdr (.word 8 0x05) = .ok (.tilePacked 5) ∧ decode .tileHdr (.word 8 0x7F) = .ok .tileReusePacked ∧
    decode .tileHdr (.word 8 0x91) = .ok (.tilePalRle 17) ∧ decode .runToken (.word 8 0x83) = .ok (.runN 3) ∧
    decode .diff (.word 32 0x36ABCDEF) = .ok (.diffW 0x36 0xABCDEF) ∧ decode .split (.word 1 1) = .ok .split1

/-- A step runs the decoded instruction; the idle step (log 1) and the token step (log 2) are the model's choice.
Rests on 10_state R25, 10_state R28, 20_memory R60, 30_encoding R73, 30_encoding R91. -/
def Obligations.StepRunsDecoded : Prop :=
  (∀ (s : State) (w : Word) (rest : List HostAction) (i : Instr), s.dec = none → s.host = .write .cmd w :: rest →
      decode .cmd (.word 32 w.toNat) = .ok i → step s = exec i { s with host := rest }) ∧
    (∀ (s : State) (w : Word) (rest : List HostAction) (i : Instr), s.dec = none → s.host = .write .ctrl w :: rest →
      decode .ctrl (.word 32 w.toNat) = .ok i → step s = exec i { s with host := rest }) ∧
    (∀ (s : State) (d e : Dec) (i : Instr), s.dec = some d → d.fetch = (some i, e) →
      step s = exec i { s with dec := some e }) ∧
    (∀ s : State, s.dec = none → s.host = [] → step s = .next s)

/-- A host register write sets an RW register, leaves an RO register, starts nothing (CTRL with bit 0 clear: log
14). Rests on 10_state R20, 10_state R24, 10_state R28, 20_memory R57, 20_memory R60. -/
def Obligations.HostWritesAndReads : Prop :=
  (∀ (s : State) (r : Reg) (v : Word) (rest : List HostAction), s.dec = none → s.host = .write r v :: rest →
      r ≠ .cmd → r ≠ .ctrl →
      ∃ t, step s = .next t ∧
        (∀ q : Reg, t.readReg q =
          if q = r ∧ r ∉ [Reg.status, .fault, .faultInfo, .outLen, .inUsed, .res0, .res1] then v else s.readReg q) ∧
        t = { s with regs := t.regs, host := rest }) ∧
    (∀ (s : State) (a : Word) (b : Byte) (rest : List HostAction), s.dec = none → s.host = .storePix a b :: rest →
      ∃ t, step s = .next t ∧ t = { s with pix := t.pix, host := rest } ∧
        ∀ x, t.byte .pix x = if x = a.toNat then b else s.byte .pix x) ∧
    (∀ (s : State) (a : Word) (b : Byte) (rest : List HostAction), s.dec = none → s.host = .storeStr a b :: rest →
      ∃ t, step s = .next t ∧ t = { s with str := t.str, host := rest } ∧
        ∀ x, t.byte .str x = if x = a.toNat then b else s.byte .str x) ∧
    (∀ (s : State) (w : Word) (rest : List HostAction), s.dec = none → s.host = .write .ctrl w :: rest →
      w.getLsbD 0 = false → step s = .next { s with host := rest, regs := { s.regs with ctrl := w } })

/-- A CMD write of a word outside the table raises E_ILLEGAL_CMD (CMD, DONE, NOT_WORTH as in log 13). Rests on
60_exceptions R257, 30_encoding R72, 10_state R25. -/
def Obligations.IllegalCommandFaults : Prop :=
  ∀ (s : State) (w : Word) (rest : List HostAction), s.dec = none → s.host = .write .cmd w :: rest →
    s.status.fault = false → (∀ i : Instr, i.isCommand = true → encode i ≠ .word 32 w.toNat) →
    step s = .next { s with
      host := rest
      regs := { s.regs with cmd := w, fault := 1, faultInfo := w }
      status := { s.status with fault := true, done := false, notWorth := false } }

/-- While a fault is set a write to CMD has no effect and RW registers can still be written. Rests on R265. -/
def Obligations.FaultedCommandsIgnored : Prop :=
  ∀ s : State, s.status.fault = true →
    (∀ i : Instr, i.isCommand = true → exec i s = .next s) ∧
    (∀ (w : Word) (rest : List HostAction), s.dec = none → s.host = .write .cmd w :: rest →
      step s = .next { s with host := rest }) ∧
    (∀ (r : Reg) (v : Word) (rest : List HostAction), s.dec = none → s.host = .write r v :: rest →
      r ∉ [Reg.cmd, .ctrl, .status, .fault, .faultInfo, .outLen, .inUsed, .res0, .res1] →
      ∃ t, step s = .next t ∧ t.readReg r = v ∧ t.status = s.status) ∧
    (∀ ign : BitVec 31, ∃ t, exec (.reset ign) s = .next t ∧ t.status.fault = false)

/-- Between commands only a reset write clears a fault or changes its code. Rests on 60_exceptions R265,
60_exceptions R268, 10_state R26, 10_state R27, 10_state R28. -/
def Obligations.OnlyResetLeavesFault : Prop :=
  ∀ s t : State, s.dec = none → s.status.fault = true →
    (∀ (w : Word) (rest : List HostAction), s.host = .write .ctrl w :: rest → w.getLsbD 0 = false) →
    step s = .next t → t.status = s.status ∧ t.regs.fault = s.regs.fault ∧ t.regs.faultInfo = s.regs.faultInfo

/-- Raising a fault sets the flag, the code of R250 and the saturated detail, and nothing else. Rests on
60_exceptions R250, 60_exceptions R264. -/
def Obligations.FaultEntry : Prop :=
  ∀ (s : State) (r : Raise),
    (s.raise r).status = { s.status with fault := true } ∧
    (s.raise r).regs = { s.regs with fault := (s.raise r).regs.fault, faultInfo := (s.raise r).regs.faultInfo } ∧
    (s.raise r).regs.faultInfo.toNat = min r.info (2 ^ 32 - 1) ∧
    (s.raise r) = { s with regs := (s.raise r).regs, status := (s.raise r).status } ∧
    [FaultCode.illegalCmd, .rect, .format, .outCap, .palArg, .bsState, .bsCount, .bsOverflow, .bsUnderflow, .trunc,
      .length, .index, .run, .noPalette, .leaf, .diffRange, .diffCount, .magic, .method, .compressor,
      .qtInternal][(s.raise r).regs.fault.toNat - 1]? = some r.code ∧ 1 ≤ (s.raise r).regs.fault.toNat

/-- The operand checks raise E_RECT and E_FORMAT with every detail of R259, R258 and R221, before any stop of the
model (log 7). Rests on 60_exceptions R258, 60_exceptions R259, 60_exceptions R263, 20_memory R56, 42_tile R160,
44_diff R210, 45_selector R221. -/
def Obligations.RectAndFormatFaults : Prop :=
  (∀ (s : State) (i : Instr), s.status.fault = false →
      i ∈ [Instr.palBuild, .tileEnc, .tileDec, .trleEnc, .trleDec, .qtEnc, .qtDec, .diffEnc, .diffDec, .rawPack,
        .rawUnpack, .selDec] ∨ (i = .selEnc ∧ s.regs.cfgEnc.toNat ≤ 3 ∧ s.regs.cfgCompr.toNat ≤ 4) →
      (s.regs.rectW = 0 → ∃ t, exec i s = .next t ∧ t.status.fault = true ∧ t.regs.fault = 2 ∧ t.regs.faultInfo = 1) ∧
      (s.regs.rectW ≠ 0 → s.regs.rectH = 0 →
        ∃ t, exec i s = .next t ∧ t.status.fault = true ∧ t.regs.fault = 2 ∧ t.regs.faultInfo = 2) ∧
      (s.regs.rectW ≠ 0 → s.regs.rectH ≠ 0 → 2 ^ 32 - 1 < s.regs.rectW.toNat * s.regs.rectH.toNat * 4 →
        ∃ t, exec i s = .next t ∧ t.status.fault = true ∧ t.regs.fault = 2 ∧ t.regs.faultInfo = 3)) ∧
    (∀ (s : State) (i : Instr), s.status.fault = false → s.rectOk →
      i ∈ [Instr.palBuild, .tileEnc, .tileDec, .trleEnc, .trleDec, .qtEnc, .qtDec, .diffEnc, .diffDec] →
      (s.regs.pixaBpp ≠ 4 → ∃ t, exec i s = .next t ∧ t.status.fault = true ∧ t.regs.fault = 3 ∧ t.regs.faultInfo = 1) ∧
      (s.regs.pixaBpp = 4 → s.regs.pixaStride.toNat % 4 ≠ 0 →
        ∃ t, exec i s = .next t ∧ t.status.fault = true ∧ t.regs.fault = 3 ∧ t.regs.faultInfo = 2)) ∧
    (∀ (s : State) (i : Instr), s.status.fault = false → s.rectOk → s.formatAOk → i ∈ [Instr.tileEnc, .tileDec] →
      64 < s.regs.rectW.toNat ∨ 64 < s.regs.rectH.toNat →
      ∃ t, exec i s = .next t ∧ t.status.fault = true ∧ t.regs.fault = 2 ∧ t.regs.faultInfo = 4) ∧
    (∀ s : State, s.status.fault = false → s.rectOk → s.formatAOk →
      (s.regs.pixbValid.getLsbD 0 = false →
        ∃ t, exec .diffEnc s = .next t ∧ t.status.fault = true ∧ t.regs.fault = 3 ∧ t.regs.faultInfo = 3) ∧
      (s.regs.pixbValid.getLsbD 0 = true → s.regs.pixbStride.toNat % 4 ≠ 0 →
        ∃ t, exec .diffEnc s = .next t ∧ t.status.fault = true ∧ t.regs.fault = 3 ∧ t.regs.faultInfo = 4)) ∧
    (∀ (s : State) (i : Instr), s.status.fault = false → s.rectOk →
      i ∈ [Instr.rawPack, .rawUnpack, .selDec] ∨
        (i = .selEnc ∧ s.regs.cfgEnc.toNat ≤ 3 ∧ s.regs.cfgCompr.toNat ≤ 4) →
      (s.regs.pixaBpp = 0 → ∃ t, exec i s = .next t ∧ t.status.fault = true ∧ t.regs.fault = 3 ∧ t.regs.faultInfo = 1) ∧
      (s.regs.pixaBpp ≠ 0 → 2 ^ 32 - 1 < s.rawSize →
        ∃ t, exec i s = .next t ∧ t.status.fault = true ∧ t.regs.fault = 2 ∧ t.regs.faultInfo = 3))

/-- No command raises a code that the fault matrix does not list for it. Rests on R271. -/
def Obligations.FaultMatrix : Prop :=
  ∀ (i : Instr) (codes : List Nat) (s t : State),
    (i, codes) ∈ [(Instr.nop, []), (.trleRst, []), (.palLookup, []), (.bsrInit, []), (.bswInit, [4]),
      (.bswPut, [6, 7, 8]), (.bswFin, [6]), (.bsrFin, [6]), (.bsrGet, [6, 7, 9]), (.palBuild, [2, 3, 5]),
      (.palGet, [5]), (.tileEnc, [2, 3, 4]), (.trleEnc, [2, 3, 4]), (.tileDec, [2, 3, 10, 14, 12, 13]),
      (.trleDec, [2, 3, 10, 14, 12, 13, 11]), (.qtEnc, [2, 3, 4, 21]), (.qtDec, [2, 3, 10, 9, 15, 12, 11]),
      (.diffEnc, [2, 3, 4]), (.diffDec, [2, 3, 11, 16, 17]), (.rawPack, [2, 3, 4]), (.rawUnpack, [2, 3, 10]),
      (.selEnc, [19, 2, 3, 20, 4, 21]), (.selDec, [2, 3, 10, 18, 19, 11, 20, 14, 12, 13, 9, 15, 16, 17])] →
    (s.status.fault = false → exec i s = .next t → t.status.fault = true → t.regs.fault.toNat ∈ codes) ∧
      (∀ (w : Word) (rest : List HostAction), s.dec = none → s.status.fault = false → s.host = .write .cmd w :: rest →
        (∀ j : Instr, j.isCommand = true → encode j ≠ .word 32 w.toNat) → step s = .next t → t.regs.fault = 1)

/-- Reset zeroes every register, drops palette and session, closes the contexts and the token cursors (log 29),
keeps memory. Rests on 70_reset_and_hazards R280, 10_state R36. -/
def Obligations.ResetClearsBlock : Prop :=
  (∀ (s : State) (ign : BitVec 31), ∃ t, exec (.reset ign) s = .next t ∧ (∀ r : Reg, t.readReg r = 0) ∧ t.pal = [] ∧
      t.sess = [] ∧ t.status.bswOpen = false ∧ t.status.bsrOpen = false ∧ t.dec = none ∧
      ∀ (sp : Space) (a : Nat), t.byte sp a = s.byte sp a) ∧
    (∀ r : Reg, State.reset.readReg r = 0) ∧ State.reset.pal = [] ∧ State.reset.sess = [] ∧
    State.reset.status.bswOpen = false ∧ State.reset.status.bsrOpen = false

/-- NOP only sets DONE, TRLE.RST also empties the session; both are ignored while a fault is set. Rests on R164,
R235. -/
def Obligations.NopAndRstComplete : Prop :=
  ∀ s : State,
    exec .nop s = .next (if s.status.fault then s else
      { s with regs := { s.regs with cmd := 0 }, status := { s.status with done := true, notWorth := false } }) ∧
    exec .trleRst s = .next (if s.status.fault then s else
      { s with
        sess := []
        regs := { s.regs with cmd := 0x14 }
        status := { s.status with done := true, notWorth := false, sessValid := false } })

/-- BSW.INIT and BSR.INIT open their context; BSW.INIT faults past OUT_CAP, before any stop (log 7), memory kept
(log 12). Rests on 40_bitstream R110, 40_bitstream R113, 10_state R32, 10_state R33, 20_memory R64. -/
def Obligations.BitContextInit : Prop :=
  ∀ s : State, s.status.fault = false →
    (s.regs.outCap.toNat < s.regs.arg0.toNat →
      exec .bswInit s = .next { s with
        regs := { s.regs with cmd := 1, fault := 4, faultInfo := s.regs.arg0 }
        status := { s.status with fault := true, done := false, notWorth := false } }) ∧
    (s.regs.arg0.toNat ≤ s.regs.outCap.toNat → s.outputFits →
      exec .bswInit s = .next { s with
        w0 := { base := s.regs.outBase, budget := s.regs.arg0, bits := [] }
        regs := { s.regs with cmd := 1 }
        status := { s.status with done := true, notWorth := false, bswOpen := true } }) ∧
    (s.inputFits →
      exec .bsrInit s = .next { s with
        r0 := { base := s.regs.inBase, budget := s.regs.inLen, bitpos := 0 }
        regs := { s.regs with cmd := 4 }
        status := { s.status with done := true, notWorth := false, bsrOpen := true } })

/-- BSW.PUT appends the low ARG1 bits of ARG0 and writes exactly the bytes they complete. Rests on 40_bitstream
R101, 40_bitstream R102, 40_bitstream R104, 40_bitstream R111. -/
def Obligations.BswPutResult : Prop :=
  ∀ s : State, s.status.fault = false → s.status.bswOpen = true → s.regs.arg1.toNat ≤ 32 →
    s.w0.bits.length + s.regs.arg1.toNat ≤ 8 * s.w0.budget.toNat →
    ∃ t, exec .bswPut s = .next t ∧
      t = { s with
        str := t.str
        w0 := { s.w0 with bits := s.w0.bits ++
          (List.range s.regs.arg1.toNat).map fun i => s.regs.arg0.getLsbD (s.regs.arg1.toNat - 1 - i) }
        regs := { s.regs with cmd := 2 }
        status := { s.status with done := true, notWorth := false } } ∧
      (∀ k i, s.w0.bits.length / 8 ≤ k → k < t.w0.bits.length / 8 → i < 8 →
        (t.byte .str (s.w0.base.toNat + k)).getLsbD (7 - i) = t.w0.bits.getD (8 * k + i) false) ∧
      (∀ a, ¬ (s.w0.base.toNat + s.w0.bits.length / 8 ≤ a ∧ a < s.w0.base.toNat + t.w0.bits.length / 8) →
        t.byte .str a = s.byte .str a)

/-- BSW.FIN writes the padded stream, sets OUT_LEN and closes the context; with none open it faults, memory kept
(log 12). Rests on 40_bitstream R103, 40_bitstream R112. -/
def Obligations.BswFinResult : Prop :=
  ∀ s : State, s.status.fault = false →
    (s.status.bswOpen = true →
      ∃ t, exec .bswFin s = .next t ∧
        t = { s with
          str := t.str
          regs := { s.regs with cmd := 3, outLen := BitVec.ofNat 32 (ceilDiv s.w0.bits.length 8) }
          status := { s.status with done := true, notWorth := false, bswOpen := false } } ∧
        (∀ k i, k < ceilDiv s.w0.bits.length 8 → i < 8 →
          (t.byte .str (s.w0.base.toNat + k)).getLsbD (7 - i) = s.w0.bits.getD (8 * k + i) false) ∧
        (∀ a, ¬ (s.w0.base.toNat ≤ a ∧ a < s.w0.base.toNat + ceilDiv s.w0.bits.length 8) →
          t.byte .str a = s.byte .str a)) ∧
    (s.status.bswOpen = false →
      exec .bswFin s = .next { s with
        regs := { s.regs with cmd := 3, fault := 6, faultInfo := 3 }
        status := { s.status with fault := true, done := false, notWorth := false } })

/-- BSR.GET returns the next ARG1 stream bits, most significant first, and advances by them. Rests on 40_bitstream
R101, 40_bitstream R107, 40_bitstream R114. -/
def Obligations.BsrGetResult : Prop :=
  ∀ s : State, s.status.fault = false → s.status.bsrOpen = true → s.regs.arg1.toNat ≤ 32 →
    s.r0.bitpos + s.regs.arg1.toNat ≤ 8 * s.r0.budget.toNat →
    ∃ v : Word, exec .bsrGet s = .next { s with
        r0 := { s.r0 with bitpos := s.r0.bitpos + s.regs.arg1.toNat }
        regs := { s.regs with cmd := 5, res0 := v }
        status := { s.status with done := true, notWorth := false } } ∧
      ∀ i, v.getLsbD i = (decide (i < s.regs.arg1.toNat) &&
        (s.byte .str (s.r0.base.toNat + (s.r0.bitpos + (s.regs.arg1.toNat - 1 - i)) / 8)).getLsbD
          (7 - (s.r0.bitpos + (s.regs.arg1.toNat - 1 - i)) % 8))

/-- BSR.FIN reports the touched bytes and closes the context; with none open it faults. Rests on R115. -/
def Obligations.BsrFinResult : Prop :=
  ∀ s : State, s.status.fault = false →
    exec .bsrFin s = .next (if s.status.bsrOpen then
        { s with
          regs := { s.regs with cmd := 6, inUsed := BitVec.ofNat 32 (ceilDiv s.r0.bitpos 8) }
          status := { s.status with done := true, notWorth := false, bsrOpen := false } }
      else
        { s with
          regs := { s.regs with cmd := 6, fault := 6, faultInfo := 6 }
          status := { s.status with fault := true, done := false, notWorth := false } })

/-- BSW.PUT and BSR.GET fault on a closed context, on more than 32 bits and past the budget, moving nothing (STR:
log 12). Rests on 40_bitstream R102, 40_bitstream R107, 40_bitstream R111, 40_bitstream R114, 60_exceptions
R255, 60_exceptions R263. -/
def Obligations.BitTransferFaults : Prop :=
  ∀ (s : State) (n : Nat), s.status.fault = false → n = s.regs.arg1.toNat →
    (¬ (s.status.bswOpen = true ∧ n ≤ 32 ∧ s.w0.bits.length + n ≤ 8 * s.w0.budget.toNat) →
      exec .bswPut s = .next { s with
        regs := { s.regs with
          cmd := 2
          fault := if s.status.bswOpen = false then 6 else if 32 < n then 7 else 8
          faultInfo := if s.status.bswOpen = false then 2 else if 32 < n then s.regs.arg1
            else BitVec.ofNat 32 (min (s.w0.bits.length + n) (2 ^ 32 - 1)) }
        status := { s.status with fault := true, done := false, notWorth := false } }) ∧
    (¬ (s.status.bsrOpen = true ∧ n ≤ 32 ∧ s.r0.bitpos + n ≤ 8 * s.r0.budget.toNat) →
      exec .bsrGet s = .next { s with
        regs := { s.regs with
          cmd := 5
          fault := if s.status.bsrOpen = false then 6 else if 32 < n then 7 else 9
          faultInfo := if s.status.bsrOpen = false then 5 else if 32 < n then s.regs.arg1
            else BitVec.ofNat 32 (min (s.r0.bitpos + n) (2 ^ 32 - 1)) }
        status := { s.status with fault := true, done := false, notWorth := false } })

/-- Reading back a completed bit stream returns each value modulo 2^n. Rests on 40_bitstream R103, 40_bitstream
R107, 40_bitstream R116. -/
def Obligations.BitStreamRoundTrip : Prop :=
  ∀ (pre post : List Bool) (v n : Nat), n ≤ 32 →
    (packBits (pre ++ bitsOf n v ++ post)).length = ceilDiv (pre.length + n + post.length) 8 ∧
    brGet (packBits (pre ++ bitsOf n v ++ post)).length (fun i => (packBits (pre ++ bitsOf n v ++ post)).getD i 0)
      pre.length n = .ok (v % 2 ^ n)

/-- The palette scan keeps distinct colours in first-seen order and overflows on reaching maxColors. Rests on
41_palette R120, 41_palette R121, 41_palette R122. -/
def Obligations.PaletteScan : Prop :=
  ∀ (cols : List Color) (m : Nat), 1 ≤ m →
    (palBuild cols m).1.Nodup ∧ ((palBuild cols m).1.map fun c => cols.idxOf c).Pairwise (· < ·) ∧
    (∀ c ∈ (palBuild cols m).1, c ∈ cols) ∧
    ((palBuild cols m).2 = true ↔ m ≤ cols.toFinset.card) ∧
    ((palBuild cols m).2 = true → (palBuild cols m).1.length = m) ∧
    ((palBuild cols m).2 = false → ∀ c ∈ cols, c ∈ (palBuild cols m).1)

/-- PAL.BUILD leaves the scanned palette, its length in RES0 and the overflow flag; its fault keeps PAL_OVF (log
11). Rests on 41_palette R128, 60_exceptions R262. -/
def Obligations.PalBuildResult : Prop :=
  ∀ s : State, s.codecLaunch →
    (1 ≤ s.regs.arg0.toNat → s.regs.arg0.toNat ≤ 2 ^ 24 + 1 →
      exec .palBuild s = .next { s with
        pal := (palBuild (s.grid s.areaA) s.regs.arg0.toNat).1
        regs := { s.regs with
          cmd := 8, res0 := BitVec.ofNat 32 (palBuild (s.grid s.areaA) s.regs.arg0.toNat).1.length }
        status := { s.status with
          done := true, notWorth := false, palOvf := (palBuild (s.grid s.areaA) s.regs.arg0.toNat).2 } }) ∧
    (s.regs.arg0.toNat = 0 ∨ 2 ^ 24 + 1 < s.regs.arg0.toNat →
      exec .palBuild s = .next { s with
        pal := []
        regs := { s.regs with cmd := 8, fault := 5, faultInfo := s.regs.arg0 }
        status := { s.status with fault := true, done := false, notWorth := false } })

/-- PAL.LOOKUP answers the position of the masked colour, or not found. Rests on R129. -/
def Obligations.PalLookupResult : Prop :=
  ∀ s : State, s.status.fault = false →
    (∀ k : Nat, s.pal[k]? = some (s.regs.arg0.setWidth 24) → (∀ j < k, s.pal[j]? ≠ some (s.regs.arg0.setWidth 24)) →
      exec .palLookup s = .next { s with
        regs := { s.regs with cmd := 9, res0 := BitVec.ofNat 32 k, res1 := 1 }
        status := { s.status with done := true, notWorth := false } }) ∧
    ((∀ k : Nat, s.pal[k]? ≠ some (s.regs.arg0.setWidth 24)) →
      exec .palLookup s = .next { s with
        regs := { s.regs with cmd := 9, res0 := 0, res1 := 0 }
        status := { s.status with done := true, notWorth := false } })

/-- PAL.GET returns the colour at an index, or faults past the count. Rests on R130. -/
def Obligations.PalGetResult : Prop :=
  ∀ s : State, s.status.fault = false →
    (∀ c : Color, s.pal[s.regs.arg0.toNat]? = some c →
      exec .palGet s = .next { s with
        regs := { s.regs with cmd := 0x0A, res0 := BitVec.ofNat 32 c.toNat }
        status := { s.status with done := true, notWorth := false } }) ∧
    (s.pal.length ≤ s.regs.arg0.toNat →
      exec .palGet s = .next { s with
        regs := { s.regs with cmd := 0x0A, fault := 5, faultInfo := s.regs.arg0 }
        status := { s.status with fault := true, done := false, notWorth := false } })

/-- The encoders read each pixel of the rectangle at R53's address, masked to 24 bits. Rests on 20_memory R53,
20_memory R54, 20_memory R55. -/
def Obligations.GridReadsPixels : Prop :=
  ∀ (s : State) (area : Area) (base stride : Word),
    (area, base, stride) ∈ [(s.areaA, s.regs.pixaBase, s.regs.pixaStride), (s.areaB, s.regs.pixbBase, s.regs.pixbStride)] →
    (s.grid area).length = s.regs.rectW.toNat * s.regs.rectH.toNat ∧
    ∀ i j b k : Nat, i < s.regs.rectW.toNat → j < s.regs.rectH.toNat → b < 3 → k < 8 →
      ((s.grid area).getD (j * s.regs.rectW.toNat + i) 0).getLsbD (8 * b + k) =
        (s.byte .pix (base.toNat + (s.regs.rectY.toNat + j) * stride.toNat + (s.regs.rectX.toNat + i) * 4 + b)).getLsbD k

/-- TILE.ENC stores the tile record and its length, sets the session, drops the palette array. Rests on 42_tile
R149, 42_tile R160, 45_selector R236, 20_memory R52. -/
def Obligations.TileEncResult : Prop :=
  ∀ s : State, s.encodeLaunch → s.tileOk →
    ((tileEnc (s.grid s.areaA) s.sess s.reuseEn).1.length ≤ s.regs.outCap.toNat →
      ∃ t, exec .tileEnc s = .next t ∧
        t = { s with
          str := t.str, lost := t.lost, pal := []
          sess := (tileEnc (s.grid s.areaA) s.sess s.reuseEn).2
          regs := { s.regs with
            cmd := 0x10
            outLen := BitVec.ofNat 32 (tileEnc (s.grid s.areaA) s.sess s.reuseEn).1.length
            res0 := ((tileEnc (s.grid s.areaA) s.sess s.reuseEn).1.headD 0).setWidth 32 }
          status := { s.status with
            done := true, notWorth := false, palOvf := false
            sessValid := decide (1 ≤ (tileEnc (s.grid s.areaA) s.sess s.reuseEn).2.length) } } ∧
        t.readBytes .str s.regs.outBase.toNat (tileEnc (s.grid s.areaA) s.sess s.reuseEn).1.length =
          (tileEnc (s.grid s.areaA) s.sess s.reuseEn).1 ∧
        SameBytes .pix (fun _ => True) s t ∧ SameBytes .str (fun a => ¬ s.inOutput a) s t) ∧
    (s.regs.outCap.toNat < (tileEnc (s.grid s.areaA) s.sess s.reuseEn).1.length →
      ∃ t, exec .tileEnc s = .next t ∧ t.status.fault = true ∧ t.status.done = false ∧ t.regs.fault = 4 ∧
        t.regs.faultInfo.toNat = min (tileEnc (s.grid s.areaA) s.sess s.reuseEn).1.length (2 ^ 32 - 1) ∧
        t.regs.outLen = s.regs.outLen ∧ t.sess = s.sess)

/-- TRLE.ENC stores the tile stream coded from an empty session and leaves the last tile's session. Rests on 42_tile
R150, 42_tile R162, 45_selector R236, 20_memory R52. -/
def Obligations.TrleEncResult : Prop :=
  ∀ (s : State) (r : List Byte × List Color), s.encodeLaunch →
    r = trleEnc (s.grid s.areaA) s.regs.rectW.toNat s.regs.rectH.toNat s.reuseEn → r.1.length ≤ s.regs.outCap.toNat →
    ∃ t, exec .trleEnc s = .next t ∧
      t = { s with
        str := t.str, lost := t.lost, pal := [], sess := r.2
        regs := { s.regs with cmd := 0x12, outLen := BitVec.ofNat 32 r.1.length }
        status := { s.status with
          done := true, notWorth := false, palOvf := false, sessValid := decide (1 ≤ r.2.length) } } ∧
      t.readBytes .str s.regs.outBase.toNat r.1.length = r.1 ∧
      SameBytes .pix (fun _ => True) s t ∧ SameBytes .str (fun a => ¬ s.inOutput a) s t

/-- A tile record is raw on 128 colours, 4 bytes on one, else of the size R165 gives. Rests on 42_tile R142, 42_tile
R143, 42_tile R145, 42_tile R146, 42_tile R147, 42_tile R148, 42_tile R165. -/
def Obligations.TileRecordShapes : Prop :=
  ∀ (pix sess : List Color) (reuse : Bool), pix ≠ [] →
    (128 ≤ pix.toFinset.card →
      tileEnc pix sess reuse = (0 :: pix.flatMap c3, sess) ∧ (tileEnc pix sess reuse).1.length = 1 + 3 * pix.length) ∧
    (∀ c : Color, pix = List.replicate pix.length c → tileEnc pix sess reuse = (1 :: c3 c, [c])) ∧
    (∀ (pal : List Color) (ix : List Nat), 2 ≤ pix.toFinset.card → pix.toFinset.card ≤ 127 →
      pal = (palBuild pix 128).1 → ix = pix.map (palIndex pal) →
      (rleBody ix).length ≤ pix.length ∧
      (packedBody (tileWidth pal.length) ix).length = ceilDiv (tileWidth pal.length * pix.length) 8 ∧
      (tileEnc pix sess reuse).2 = pal ∧
      (tileEnc pix sess reuse).1.length =
        (if reuse = true ∧ pal = sess then 1 else 1 + 3 * pal.length) +
          (if 16 < pal.length ∨ (rleBody ix).length < ceilDiv (tileWidth pal.length * pix.length) 8
            then (rleBody ix).length else ceilDiv (tileWidth pal.length * pix.length) 8))

/-- TRLE.DEC of an encoded tile stream writes every pixel's colour and uses the stream exactly. Rests on 42_tile
R158, 42_tile R159, 42_tile R163, 42_tile R165, 20_memory R55. -/
def Obligations.TrleRoundTrip : Prop :=
  ∀ (s : State) (grid : List Color) (reuse : Bool), s.decodeLaunch →
    grid.length = s.regs.rectW.toNat * s.regs.rectH.toNat →
    s.input = (trleEnc grid s.regs.rectW.toNat s.regs.rectH.toNat reuse).1 →
    ∃ t, exec .trleDec s = .next t ∧ t.status.done = true ∧ t.status.fault = false ∧ t.regs.inUsed = s.regs.inLen ∧
      ∀ i j, i < s.regs.rectW.toNat → j < s.regs.rectH.toNat →
        t.pixRead t.areaA i j = pixelOf (grid.getD (j * s.regs.rectW.toNat + i) 0)

/-- A diff stream has one word per run, 1 to N runs, gaps that add up to N, current colours. Rests on R203. -/
def Obligations.DiffStreamProperties : Prop :=
  ∀ cur prev : List Color, cur.length = prev.length → 0 < cur.length →
    ∃ runs : List (Byte × Color),
      diffEnc cur prev = runs.flatMap (fun r => be32 (r.1 ++ r.2)) ∧
      (diffEnc cur prev).length = 4 * runs.length ∧ 1 ≤ runs.length ∧ runs.length ≤ cur.length ∧
      (runs.map fun r => r.1.toNat + 1).sum = cur.length ∧
      runs.head?.map (·.2) = cur.head? ∧
      ∀ (before after : List (Byte × Color)) (r : Byte × Color), runs = before ++ r :: after →
        cur[(before.map fun q => q.1.toNat + 1).sum]? = some r.2

/-- DIFF.ENC stores the run stream, counts its words and reports when it is not worth it. Rests on 44_diff R202,
44_diff R204, 44_diff R210, 45_selector R236, 20_memory R52. -/
def Obligations.DiffEncResult : Prop :=
  ∀ (s : State) (out : List Byte), s.encodeLaunch → s.formatBOk → s.areaFits s.areaB Config.pixelBytes →
    (s.areaA = s.areaB ∨ ∀ a, ¬ (s.areaA.holds a ∧ s.areaB.holds a)) →
    out = diffEnc (s.grid s.areaA) (s.grid s.areaB) → out.length ≤ s.regs.outCap.toNat →
    ∃ t, exec .diffEnc s = .next t ∧
      t = { s with
        str := t.str, lost := t.lost
        regs := { s.regs with
          cmd := 0x30, outLen := BitVec.ofNat 32 out.length, res0 := BitVec.ofNat 32 (out.length / 4) }
        status := { s.status with
          done := true, notWorth := decide (s.regs.rectW.toNat * s.regs.rectH.toNat * 4 ≤ out.length) } } ∧
      t.readBytes .str s.regs.outBase.toNat out.length = out ∧
      SameBytes .pix (fun _ => True) s t ∧ SameBytes .str (fun a => ¬ s.inOutput a) s t

/-- DIFF.DEC writes each word's colour at its run's start and leaves every skipped byte. Rests on 44_diff R205,
44_diff R207, 44_diff R211, 20_memory R51, 20_memory R53. -/
def Obligations.DiffDecResult : Prop :=
  ∀ (s : State) (runs : List (Byte × Color)), s.decodeLaunch → s.input = runs.flatMap (fun r => be32 (r.1 ++ r.2)) →
    (runs.map fun r => r.1.toNat + 1).sum = s.regs.rectW.toNat * s.regs.rectH.toNat →
    ∃ t, exec .diffDec s = .next t ∧
      t = { s with
        pix := t.pix, dec := none
        regs := { s.regs with cmd := 0x31, inUsed := s.regs.inLen }
        status := { s.status with done := true, notWorth := false } } ∧
      (∀ (before after : List (Byte × Color)) (r : Byte × Color), runs = before ++ r :: after →
        t.pixRead s.areaA ((before.map fun q => q.1.toNat + 1).sum % s.regs.rectW.toNat)
          ((before.map fun q => q.1.toNat + 1).sum / s.regs.rectW.toNat) = pixelOf r.2) ∧
      ∀ a, (∀ (before after : List (Byte × Color)) (r : Byte × Color) (b : Nat), runs = before ++ r :: after → b < 4 →
          a ≠ s.areaA.pixel ((before.map fun q => q.1.toNat + 1).sum % s.regs.rectW.toNat)
            ((before.map fun q => q.1.toNat + 1).sum / s.regs.rectW.toNat) + b) →
        t.byte .pix a = s.byte .pix a

/-- Applying an encoded difference to the previous frame gives the current frame. Rests on 44_diff R200, 44_diff
R202, 44_diff R207, 44_diff R211, 44_diff R212. -/
def Obligations.DiffRoundTrip : Prop :=
  ∀ (s : State) (cur prev : List Color), s.decodeLaunch →
    cur.length = s.regs.rectW.toNat * s.regs.rectH.toNat → prev.length = cur.length →
    s.input = diffEnc cur prev → s.grid s.areaA = prev →
    ∃ t, exec .diffDec s = .next t ∧ t.status.done = true ∧ t.status.fault = false ∧ t.grid t.areaA = cur

/-- leafCount lies in 1..w*h, rootSquareBits is 0 exactly for one level, a uniform rectangle has 1 and 1. Rests on
R174. -/
def Obligations.QtCountsBounds : Prop :=
  ∀ (grid : List Color) (w h : Nat), 0 < w → 0 < h →
    (qtPlan grid w h).leafCount = (qtNode grid w h (levelCount (max w h) - 1) 0 0).squareCount ∧
    (qtPlan grid w h).rootSquareBits = (qtNode grid w h (levelCount (max w h) - 1) 0 0).squareBits ∧
    (qtPlan grid w h).leafCount = (qtVisit grid w h (levelCount (max w h) - 1) 0 0).2.length ∧
    (qtPlan grid w h).rootSquareBits = (qtVisit grid w h (levelCount (max w h) - 1) 0 0).1.length ∧
    1 ≤ (qtPlan grid w h).leafCount ∧ (qtPlan grid w h).leafCount ≤ w * h ∧
    ((qtPlan grid w h).rootSquareBits = 0 ↔ levelCount (max w h) = 1) ∧
    (∀ c : Color, 2 ≤ levelCount (max w h) → grid = List.replicate (w * h) c →
      (qtPlan grid w h).leafCount = 1 ∧ (qtPlan grid w h).rootSquareBits = 1)

/-- The quadtree encoder's self-check never fails, its output has the length R192 gives, 13 bytes when uniform.
Rests on 43_quadtree R180, 43_quadtree R183, 43_quadtree R184, 43_quadtree R192, 60_exceptions R262. -/
def Obligations.QtSelfCheckDead : Prop :=
  ∀ (grid : List Color) (w h : Nat),
    (∀ r : Raise, qtEnc grid w h ≠ .failed r) ∧
    (qtEnc grid w h = .notWorth ↔ w * h * 4 ≤ (qtPlan grid w h).est) ∧
    (∀ bytes : List Byte, qtEnc grid w h = .stream bytes →
      bytes.length = 8 + (if (qtPlan grid w h).usePalette = true then 4 * (qtPlan grid w h).pal.length else 0) +
        ceilDiv ((qtPlan grid w h).leafCount * (qtPlan grid w h).colorBits) 8 +
        ceilDiv (qtPlan grid w h).rootSquareBits 8) ∧
    (∀ c : Color, 0 < w → 0 < h → 2 ≤ max w h → grid = List.replicate (w * h) c →
      qtEnc grid w h = .stream ([0, 0, 0, 0, 0, 0, 0, 1] ++ be32 (pixelOf c) ++ [0]))

/-- QT.ENC stores the container, or reports not worth it without writing a byte, the output buffer unchanged (log
19). Rests on 43_quadtree R180, 43_quadtree R184, 43_quadtree R190, 45_selector R236, 20_memory R52. -/
def Obligations.QtEncResult : Prop :=
  ∀ (s : State) (p : QtPlan) (r : QtResult), s.encodeLaunch →
    p = qtPlan (s.grid s.areaA) s.regs.rectW.toNat s.regs.rectH.toNat →
    r = qtEnc (s.grid s.areaA) s.regs.rectW.toNat s.regs.rectH.toNat →
    (r = .notWorth →
      exec .qtEnc s = .next { s with
        pal := []
        regs := { s.regs with cmd := 0x20, outLen := 0, res0 := BitVec.ofNat 32 p.leafCount, res1 := 0 }
        status := { s.status with done := true, notWorth := true, palOvf := false } }) ∧
    (∀ bytes : List Byte, r = .stream bytes → bytes.length ≤ s.regs.outCap.toNat →
      ∃ t, exec .qtEnc s = .next t ∧
        t = { s with
          str := t.str, lost := t.lost, pal := []
          regs := { s.regs with
            cmd := 0x20, outLen := BitVec.ofNat 32 bytes.length, res0 := BitVec.ofNat 32 p.leafCount
            res1 := if p.usePalette = true then BitVec.ofNat 32 p.pal.length else 0 }
          status := { s.status with done := true, notWorth := false, palOvf := false } } ∧
        t.readBytes .str s.regs.outBase.toNat bytes.length = bytes ∧
        SameBytes .pix (fun _ => True) s t ∧ SameBytes .str (fun a => ¬ s.inOutput a) s t)

/-- QT.DEC of an encoded quadtree writes every pixel's colour and uses the container exactly. Rests on 43_quadtree
R181, 43_quadtree R182, 43_quadtree R186, 43_quadtree R187, 43_quadtree R188, 43_quadtree R192. -/
def Obligations.QtRoundTrip : Prop :=
  ∀ (s : State) (grid : List Color), s.decodeLaunch →
    grid.length = s.regs.rectW.toNat * s.regs.rectH.toNat →
    qtEnc grid s.regs.rectW.toNat s.regs.rectH.toNat = .stream s.input →
    ∃ t, exec .qtDec s = .next t ∧ t.status.done = true ∧ t.status.fault = false ∧ t.regs.inUsed = s.regs.inLen ∧
      ∀ i j, i < s.regs.rectW.toNat → j < s.regs.rectH.toNat →
        t.pixRead t.areaA i j = pixelOf (grid.getD (j * s.regs.rectW.toNat + i) 0)

/-- Every decoding command ends: its token loop stops on every input. Rests on 70_reset_and_hazards R297,
30_encoding R91. -/
def Obligations.DecodersTerminate : Prop :=
  ∀ (s : State) (kind : DecKind),
    (s.begin kind).decode.running = false ∧ (s.begin kind).startDiff.decode.running = false

/-- A decoding command ends with the decoded pixels; TILE.DEC and SEL.DEC of an encoded record restore it, nothing
else changes. Rests on 42_tile R149, 42_tile R158, 42_tile R161, 42_tile R163, 43_quadtree R191, 44_diff R211,
45_selector R221, 45_selector R223, 45_selector R224, 45_selector R226, 45_selector R232, 45_selector R234. -/
def Obligations.DecodersEndWell : Prop :=
  (∀ (s : State) (d : Dec),
      (s.decodeLaunch → s.tileOk → d = (s.begin .tile).decode → d.pos = .fin →
        exec .tileDec s = .next { s with
          pix := (s.flush d).pix, sess := d.sess, dec := none
          regs := { s.regs with cmd := 0x11, inUsed := BitVec.ofNat 32 d.ip, res0 := d.hdr.setWidth 32 }
          status := { s.status with
            done := true, notWorth := false, sessValid := decide (1 ≤ d.sess.length) } }) ∧
      (s.decodeLaunch → d = (s.begin .trle).decode → d.pos = .fin →
        exec .trleDec s = .next { s with
          pix := (s.flush d).pix, sess := d.sess, dec := none
          regs := { s.regs with cmd := 0x13, inUsed := s.regs.inLen }
          status := { s.status with
            done := true, notWorth := false, sessValid := decide (1 ≤ d.sess.length) } }) ∧
      (s.decodeLaunch → d = (s.begin .qt).decode → d.pos = .fin →
        exec .qtDec s = .next { s with
          pix := (s.flush d).pix, dec := none
          regs := { s.regs with cmd := 0x21, inUsed := s.regs.inLen }
          status := { s.status with done := true, notWorth := false } }) ∧
      (s.decodeLaunch → d = (s.begin .diff).startDiff.decode → d.pos = .fin →
        exec .diffDec s = .next { s with
          pix := (s.flush d).pix, dec := none
          regs := { s.regs with cmd := 0x31, inUsed := s.regs.inLen }
          status := { s.status with done := true, notWorth := false } }) ∧
      (s.rawLaunch → s.inputFits → d = (s.begin .raw).decode → d.pos = .fin →
        exec .rawUnpack s = .next { s with
          pix := (s.flush d).pix, dec := none
          regs := { s.regs with cmd := 0x41, inUsed := BitVec.ofNat 32 s.rawSize }
          status := { s.status with done := true, notWorth := false } }) ∧
      (s.rawLaunch → s.inputFits → d = (s.begin .sel).decode → d.pos = .fin →
        exec .selDec s = .next { s with
          pix := (s.flush d).pix, sess := d.sess, dec := none
          regs := { s.regs with
            cmd := 0x51, inUsed := BitVec.ofNat 32 d.recLen, res0 := d.enc.setWidth 32, res1 := d.compr.setWidth 32 }
          status := { s.status with
            done := true, notWorth := false, sessValid := decide (1 ≤ d.sess.length) } })) ∧
    (∀ (s : State) (grid : List Color) (reuse : Bool) (r : List Byte × List Color) (rest : List Byte),
      s.decodeLaunch → s.tileOk → grid.length = s.regs.rectW.toNat * s.regs.rectH.toNat →
      r = tileEnc grid s.sess reuse → s.input = r.1 ++ rest →
      ∃ t, exec .tileDec s = .next t ∧
        t = { s with
          pix := t.pix, sess := r.2, dec := none
          regs := { s.regs with
            cmd := 0x11, inUsed := BitVec.ofNat 32 r.1.length, res0 := (r.1.headD 0).setWidth 32 }
          status := { s.status with done := true, notWorth := false, sessValid := decide (1 ≤ r.2.length) } } ∧
        (∀ i j, i < s.regs.rectW.toNat → j < s.regs.rectH.toNat →
          t.pixRead s.areaA i j = pixelOf (grid.getD (j * s.regs.rectW.toNat + i) 0)) ∧
        SameBytes .pix (fun a => ¬ s.areaA.holds a) s t) ∧
    (∀ (s : State) (e c : BitVec 16) (payload src rest : List Byte), s.rawLaunch → s.inputFits →
      s.input = be32 Config.wireMagic ++ be16 e ++ be16 c ++ be32 (BitVec.ofNat 32 payload.length) ++
        (if e = 0 then [] else be32 (BitVec.ofNat 32 src.length)) ++ payload ++ rest →
      src.length < 2 ^ 32 →
      (c = 0 ∧ src = payload) ∨
        (∃ m : ComprMethod, (c, m) ∈ [((1 : BitVec 16), ComprMethod.lz4), (2, .zstd), (3, .zlib), (4, .bzip2)] ∧
          Config.decompress m payload src.length = some src) →
      (e = 0 → src.length = s.rawSize →
        ∃ t, exec .selDec s = .next t ∧
          t = { s with
            pix := t.pix, sess := [], dec := none
            regs := { s.regs with
              cmd := 0x51, inUsed := BitVec.ofNat 32 (12 + payload.length), res0 := 0, res1 := c.setWidth 32 }
            status := { s.status with done := true, notWorth := false, sessValid := false } } ∧
          (∀ row o, row < s.regs.rectH.toNat → o < s.regs.rectW.toNat * s.regs.pixaBpp.toNat →
            t.byte .pix (s.regs.pixaBase.toNat + (s.regs.rectY.toNat + row) * s.regs.pixaStride.toNat +
                s.regs.rectX.toNat * s.regs.pixaBpp.toNat + o) =
              src.getD (row * (s.regs.rectW.toNat * s.regs.pixaBpp.toNat) + o) 0) ∧
          SameBytes .pix (fun a => ¬ s.areaRaw.holds a) s t) ∧
      (∀ grid sess : List Color, s.formatAOk → grid.length = s.regs.rectW.toNat * s.regs.rectH.toNat →
        (e = 1 ∧ src = diffEnc grid (s.grid s.areaA) ∧ sess = []) ∨
          (e = 2 ∧ ∃ reuse, (src, sess) = trleEnc grid s.regs.rectW.toNat s.regs.rectH.toNat reuse) ∨
          (e = 3 ∧ qtEnc grid s.regs.rectW.toNat s.regs.rectH.toNat = .stream src ∧ sess = []) →
        ∃ t, exec .selDec s = .next t ∧
          t = { s with
            pix := t.pix, sess := sess, dec := none
            regs := { s.regs with
              cmd := 0x51, inUsed := BitVec.ofNat 32 (16 + payload.length), res0 := e.setWidth 32
              res1 := c.setWidth 32 }
            status := { s.status with
              done := true, notWorth := false, sessValid := decide (1 ≤ sess.length) } } ∧
          t.grid s.areaA = grid ∧ SameBytes .pix (fun a => ¬ s.areaA.holds a) s t))

/-- A decoding command changes PIX only at bytes of the rectangle, and no byte of STR. Rests on 20_memory R51,
20_memory R67, 60_exceptions R264, 10_state R37. -/
def Obligations.DecodersStayInside : Prop :=
  ∀ (s t : State) (i : Instr) (area : Area),
    (i, area) ∈ [(Instr.tileDec, s.areaA), (.trleDec, s.areaA), (.qtDec, s.areaA), (.diffDec, s.areaA),
      (.rawUnpack, s.areaRaw), (.selDec, s.areaRaw)] →
    s.status.fault = false → exec i s = .next t →
    SameBytes .pix (fun a => ¬ area.holds a) s t ∧ SameBytes .str (fun _ => True) s t ∧
    t.regs = { s.regs with
      cmd := t.regs.cmd, fault := t.regs.fault, faultInfo := t.regs.faultInfo, inUsed := t.regs.inUsed
      res0 := t.regs.res0, res1 := t.regs.res1 } ∧
    t.pal = s.pal ∧ t.status.palOvf = s.status.palOvf ∧ t.w0 = s.w0 ∧ t.r0 = s.r0 ∧
    t.status.bswOpen = s.status.bswOpen ∧ t.status.bsrOpen = s.status.bsrOpen ∧ t.host = s.host

/-- An encoding command changes no PIX byte and STR only inside the output buffer. Rests on 20_memory R51, 20_memory
R52, 60_exceptions R264, 10_state R37. -/
def Obligations.EncodersStayInside : Prop :=
  ∀ (s t : State) (i : Instr), i ∈ [Instr.tileEnc, .trleEnc, .qtEnc, .diffEnc, .rawPack, .selEnc] →
    s.status.fault = false → exec i s = .next t →
    SameBytes .pix (fun _ => True) s t ∧ SameBytes .str (fun a => ¬ s.inOutput a) s t ∧
    t.regs = { s.regs with
      cmd := t.regs.cmd, fault := t.regs.fault, faultInfo := t.regs.faultInfo, outLen := t.regs.outLen
      res0 := t.regs.res0, res1 := t.regs.res1 } ∧
    SameContexts s t ∧ t.status.bswOpen = s.status.bswOpen ∧ t.status.bsrOpen = s.status.bsrOpen ∧
    (i = .diffEnc ∨ i = .rawPack → t.pal = s.pal ∧ t.sess = s.sess ∧ t.status.palOvf = s.status.palOvf ∧
      t.status.sessValid = s.status.sessValid) ∧
    (i = .qtEnc → t.sess = s.sess ∧ t.status.sessValid = s.status.sessValid)

/-- RAW.PACK stores the rectangle's bytes row by row, unchanged. Rests on 45_selector R221, 45_selector R233,
45_selector R236, 20_memory R67, 30_encoding R89. -/
def Obligations.RawPackResult : Prop :=
  ∀ s : State, s.rawLaunch → s.outputFits → s.rawSize ≤ s.regs.outCap.toNat →
    ∃ t, exec .rawPack s = .next t ∧
      t = { s with
        str := t.str, lost := t.lost
        regs := { s.regs with cmd := 0x40, outLen := BitVec.ofNat 32 s.rawSize }
        status := { s.status with done := true, notWorth := false } } ∧
      (∀ row o, row < s.regs.rectH.toNat → o < s.regs.rectW.toNat * s.regs.pixaBpp.toNat →
        t.byte .str (s.regs.outBase.toNat + row * (s.regs.rectW.toNat * s.regs.pixaBpp.toNat) + o) =
          s.byte .pix (s.regs.pixaBase.toNat + (s.regs.rectY.toNat + row) * s.regs.pixaStride.toNat +
            s.regs.rectX.toNat * s.regs.pixaBpp.toNat + o)) ∧
      SameBytes .pix (fun _ => True) s t ∧ SameBytes .str (fun a => ¬ s.inOutput a) s t

/-- RAW.UNPACK writes the input's bytes into the rectangle row by row, or faults when short. Rests on 45_selector
R221, 45_selector R234, 20_memory R67, 60_exceptions R252. -/
def Obligations.RawUnpackResult : Prop :=
  ∀ s : State, s.rawLaunch → s.inputFits →
    (s.rawSize ≤ s.regs.inLen.toNat →
      ∃ t, exec .rawUnpack s = .next t ∧
        t = { s with
          pix := t.pix, dec := none
          regs := { s.regs with cmd := 0x41, inUsed := BitVec.ofNat 32 s.rawSize }
          status := { s.status with done := true, notWorth := false } } ∧
        (∀ row o, row < s.regs.rectH.toNat → o < s.regs.rectW.toNat * s.regs.pixaBpp.toNat →
          t.byte .pix (s.regs.pixaBase.toNat + (s.regs.rectY.toNat + row) * s.regs.pixaStride.toNat +
              s.regs.rectX.toNat * s.regs.pixaBpp.toNat + o) =
            s.byte .str (s.regs.inBase.toNat + row * (s.regs.rectW.toNat * s.regs.pixaBpp.toNat) + o)) ∧
        SameBytes .pix (fun a => ¬ s.areaRaw.holds a) s t) ∧
    (s.regs.inLen.toNat < s.rawSize →
      ∃ t, exec .rawUnpack s = .next t ∧ t.status.fault = true ∧ t.status.done = false ∧ t.regs.fault = 10 ∧
        t.regs.faultInfo = 0)

/-- SEL.ENC with no compression stores the wire record of the method its policy leaves. Rests on 45_selector R217,
45_selector R218, 45_selector R219, 45_selector R220, 45_selector R222, 45_selector R223, 45_selector R231,
30_encoding R74. -/
def Obligations.SelEncResult : Prop :=
  ∀ (s : State) (st : Structural) (rec : List Byte), s.rawLaunch → s.outputFits →
    s.regs.cfgEnc.toNat ≤ 3 → s.regs.cfgCompr = 0 →
    (s.encMethod = 1 → s.areaFits s.areaB Config.pixelBytes ∧
      (s.areaA = s.areaB ∨ ∀ a, ¬ (s.areaA.holds a ∧ s.areaB.holds a))) →
    s.structural = .ok st →
    rec = be32 Config.wireMagic ++ be16 (BitVec.ofNat 16 st.enc) ++ be16 0 ++
      be32 (BitVec.ofNat 32 st.srcBytes.length) ++
      (if st.enc = 0 then [] else be32 (BitVec.ofNat 32 st.srcBytes.length)) ++ st.srcBytes →
    rec.length ≤ s.regs.outCap.toNat →
    ∃ t, exec .selEnc s = .next t ∧
      t = { s with
        str := t.str, lost := t.lost, pal := [], sess := st.sess
        regs := { s.regs with
          cmd := 0x50, outLen := BitVec.ofNat 32 rec.length, res0 := BitVec.ofNat 32 st.enc, res1 := 0 }
        status := { s.status with
          done := true, notWorth := false, palOvf := false, sessValid := decide (1 ≤ st.sess.length) } } ∧
      t.readBytes .str s.regs.outBase.toNat rec.length = rec ∧
      SameBytes .pix (fun _ => True) s t ∧ SameBytes .str (fun a => ¬ s.inOutput a) s t

/-- The selector's policy: the method asked for stays unless a fallback holds, a shorter answer of the port is used,
none inflates. Rests on 45_selector R217, 45_selector R218, 45_selector R219, 45_selector R220, 45_selector
R222, 45_selector R223, 45_selector R226, 45_selector R231, 45_selector R237. -/
def Obligations.SelPolicy : Prop :=
  (∀ s : State, ∃ st, s.structural = .ok st ∧ (st.enc = 0 ∨ st.enc = s.regs.cfgEnc.toNat) ∧
      (st.enc = 0 → 3 < s.regs.cfgEnc.toNat ∨ st.srcBytes = s.rawPack) ∧
      ((s.regs.pixaBpp ≠ 4 ∨ s.regs.pixaStride.toNat % 4 ≠ 0) → st.enc = 0) ∧
      (s.regs.cfgEnc.toNat = 1 → s.regs.pixbValid.getLsbD 0 = false ∨ s.regs.pixbStride.toNat % 4 ≠ 0 → st.enc = 0) ∧
      (st.enc = 1 → st.srcBytes = diffEnc (s.grid s.areaA) (s.grid s.areaB) ∧ st.srcBytes.length < s.rawSize) ∧
      (st.enc = 3 → qtEnc (s.grid s.areaA) s.regs.rectW.toNat s.regs.rectH.toNat = .stream st.srcBytes) ∧
      (st.enc = 2 →
        (st.srcBytes, st.sess) = trleEnc (s.grid s.areaA) s.regs.rectW.toNat s.regs.rectH.toNat s.reuseEn) ∧
      (st.enc ≠ 2 → st.sess = []) ∧
      (s.formatAOk →
        (s.regs.cfgEnc.toNat = 2 → st.enc = 2) ∧
        (∀ src, s.regs.cfgEnc.toNat = 3 →
          qtEnc (s.grid s.areaA) s.regs.rectW.toNat s.regs.rectH.toNat = .stream src → st.enc = 3 ∧ st.srcBytes = src) ∧
        (s.regs.cfgEnc.toNat = 1 → s.formatBOk → (diffEnc (s.grid s.areaA) (s.grid s.areaB)).length < s.rawSize →
          st.enc = 1))) ∧
    (∀ (tag : Nat) (src payload : List Byte) (level : Word) (compr : Nat),
      compressStep tag src level = .ok (payload, compr) →
      payload.length ≤ src.length ∧
        ((compr = 0 ∧ payload = src) ∨ (compr = tag ∧ tag ≠ 0 ∧ payload.length < src.length))) ∧
    (∀ (src : List Byte) (level : Word), compressStep 0 src level = .ok (src, 0)) ∧
    (∀ (tag : Nat) (m : ComprMethod) (src : List Byte) (level : Word),
      (tag, m) ∈ [(1, ComprMethod.lz4), (2, .zstd), (3, .zlib), (4, .bzip2)] →
      (Config.compress m src level = none → compressStep tag src level = .error ⟨.compressor, 1⟩) ∧
      (∀ c, Config.compress m src level = some c →
        (c.length < src.length → compressStep tag src level = .ok (c, tag)) ∧
        (src.length ≤ c.length → compressStep tag src level = .ok (src, 0)))) ∧
    (∀ (s : State) (st : Structural) (m : ComprMethod), s.rawLaunch → s.outputFits → s.regs.cfgEnc.toNat ≤ 3 →
      (s.regs.cfgCompr.toNat, m) ∈ [(1, ComprMethod.lz4), (2, .zstd), (3, .zlib), (4, .bzip2)] →
      (s.encMethod = 1 → s.areaFits s.areaB Config.pixelBytes ∧
        (s.areaA = s.areaB ∨ ∀ a, ¬ (s.areaA.holds a ∧ s.areaB.holds a))) →
      s.structural = .ok st → st.srcBytes.length < 2 ^ 32 →
      (Config.compress m st.srcBytes s.regs.cfgLevel = none →
        ∃ t, exec .selEnc s = .next t ∧ t.status.fault = true ∧ t.regs.fault = 20 ∧ t.regs.faultInfo = 1) ∧
      (∀ (payload rec : List Byte) (compr : Nat),
        compressStep s.regs.cfgCompr.toNat st.srcBytes s.regs.cfgLevel = .ok (payload, compr) →
        rec = be32 Config.wireMagic ++ be16 (BitVec.ofNat 16 st.enc) ++ be16 (BitVec.ofNat 16 compr) ++
          be32 (BitVec.ofNat 32 payload.length) ++
          (if st.enc = 0 then [] else be32 (BitVec.ofNat 32 st.srcBytes.length)) ++ payload →
        rec.length ≤ s.regs.outCap.toNat →
        ∃ t, exec .selEnc s = .next t ∧ t.status.done = true ∧ t.status.fault = false ∧
          t.readBytes .str s.regs.outBase.toNat rec.length = rec ∧ t.regs.outLen = BitVec.ofNat 32 rec.length ∧
          t.regs.res0 = BitVec.ofNat 32 st.enc ∧ t.regs.res1 = BitVec.ofNat 32 compr))

/-- Without compression, or under COMPRESSOR_INVERSE, SEL.DEC of a SEL.ENC record restores the source's colours.
Rests on 45_selector R224, 45_selector R227, 45_selector R231, 45_selector R232, 45_selector R237. -/
def Obligations.SelRoundTrip : Prop :=
  ∀ (s t u : State) (st : Structural), s.regs.cfgCompr = 0 ∨ Config.CompressorInverse →
    s.encodeLaunch → exec .selEnc s = .next t → t.status.fault = false →
    s.structural = .ok st → st.srcBytes.length < 2 ^ 32 →
    u.decodeLaunch → u.regs.rectW = s.regs.rectW → u.regs.rectH = s.regs.rectH →
    u.input = t.readBytes .str t.regs.outBase.toNat t.regs.outLen.toNat →
    (st.enc = 1 → u.grid u.areaA = s.grid s.areaB) →
    ∃ v, exec .selDec u = .next v ∧ v.status.done = true ∧ v.status.fault = false ∧
      v.regs.inUsed = t.regs.outLen ∧ v.regs.res0 = t.regs.res0 ∧ v.regs.res1 = t.regs.res1 ∧
      v.grid v.areaA = s.grid s.areaA

/-- A token the cursors fetch is never out of place; with no cursors open it is refused (model choice, log 3). Rests
on 30_encoding R91, 43_quadtree R187, 10_state R29. -/
def Obligations.TokensInPlace : Prop :=
  (∀ (d e : Dec) (i : Instr), (∀ r c, d.pos ≠ .split 0 r c) → d.fetch = (some i, e) →
      ∃ f, e.apply i = some f ∧ ∀ s : State, s.dec = some e → exec i s = .next (s.settle f)) ∧
    (∀ (i : Instr) (s : State), i.channel ≠ .cmd → i.channel ≠ .ctrl → s.dec = none →
      exec i s = .refused .tokenOutOfPlace)

/-- Token by token, the cursors of a decoding command's start end where the command ends (model choice, log 2).
Rests on 10_state R25, 10_state R29, 42_tile R158, 43_quadtree R187, 44_diff R207, 45_selector R224. -/
def Obligations.TokensRefineCommand : Prop :=
  ∀ (s : State) (kind : DecKind), (s.begin kind).decode.pos = .fin →
    ∃ n, Sys2Proof.core.run n { s with dec := some (s.begin kind) } = .next (s.settle (s.begin kind).decode)

/-- The wire header and then its method tags, tokens of their own (model choice, log 24), advance the cursors to the
next part. Rests on 45_selector R224, 30_encoding R74, 30_encoding R75, 30_encoding R76. -/
def Obligations.WireTokensComplete : Prop :=
  ∀ (s : State) (d : Dec), s.dec = some d → d.px = [] → d.rawBytes = [] →
    (∀ (e c : BitVec 16) (cl sl : Word), d.pos = .wire →
      exec (.wireHdr e c cl sl) s = .next { s with dec := some { d with
        enc := e, compr := c, complen := cl.toNat, srclen := sl.toNat
        recLen := (if e = 0 then 12 else 16) + cl.toNat, pos := .enc } }) ∧
    (d.pos = .enc → d.enc = 0 →
      exec .encNone s = .next { s with dec := some { d with srclen := d.rawSize, pos := .compr } }) ∧
    (d.pos = .enc → d.badFormat = none →
      (d.enc = 1 → exec .encDiff s = .next { s with dec := some { d with pos := .compr } }) ∧
      (d.enc = 2 → exec .encTrle s = .next { s with dec := some { d with pos := .compr } }) ∧
      (d.enc = 3 → exec .encQuadtree s = .next { s with dec := some { d with pos := .compr } })) ∧
    (d.pos = .compr → d.compr = 0 → d.complen ≤ d.inp.length → d.complen = d.srclen →
      (d.enc = 0 → exec .comprNone s = .next { s with dec := some { d with
        inp := d.inp.take d.complen, ip := 0, pos := .raw } }) ∧
      (d.enc = 2 → exec .comprNone s = .next { s with dec := some { d with
        inp := d.inp.take d.complen, ip := 0, pos := .tile } }) ∧
      (d.enc = 3 → exec .comprNone s = .next { s with dec := some { d with
        inp := d.inp.take d.complen, ip := 0, pos := .qt } }) ∧
      (d.enc = 1 → 0 < d.complen → d.complen % 4 = 0 → exec .comprNone s = .next { s with dec := some { d with
        inp := d.inp.take d.complen, ip := 0, cursor := 0, pos := .diff } }) ∧
      (d.enc = 1 → d.complen % 4 ≠ 0 → ∃ t, exec .comprNone s = .next t ∧ t.status.fault = true ∧ t.regs.fault = 11 ∧
        t.regs.faultInfo.toNat = min d.complen (2 ^ 32 - 1)))

/-- A compression tag hands the payload to the port and decodes its answer, or faults on it. Rests on 45_selector
R224, 45_selector R226, 60_exceptions R261, 30_encoding R76. -/
def Obligations.CompressionTagsComplete : Prop :=
  ∀ (s : State) (d : Dec) (i : Instr) (tag : BitVec 16) (m : ComprMethod),
    (i, tag, m) ∈ [(Instr.comprLz4, (1 : BitVec 16), ComprMethod.lz4), (.comprZstd, 2, .zstd), (.comprZlib, 3, .zlib),
      (.comprBzip2, 4, .bzip2)] →
    s.dec = some d → d.px = [] → d.rawBytes = [] → d.pos = .compr → d.compr = tag → d.complen ≤ d.inp.length →
    ∃ t, exec i s = .next t ∧
      (∀ src, Config.decompress m (d.inp.take d.complen) d.srclen = some src → src.length = d.srclen →
        (d.enc = 0 → t = { s with dec := some { d with inp := src, ip := 0, pos := .raw } }) ∧
        (d.enc = 2 → t = { s with dec := some { d with inp := src, ip := 0, pos := .tile } }) ∧
        (d.enc = 3 → t = { s with dec := some { d with inp := src, ip := 0, pos := .qt } }) ∧
        (d.enc = 1 → 0 < d.srclen → d.srclen % 4 = 0 →
          t = { s with dec := some { d with inp := src, ip := 0, cursor := 0, pos := .diff } })) ∧
      (Config.decompress m (d.inp.take d.complen) d.srclen = none →
        t.status.fault = true ∧ t.regs.fault = 20 ∧ t.regs.faultInfo = 2) ∧
      (∀ src, Config.decompress m (d.inp.take d.complen) d.srclen = some src → src.length ≠ d.srclen →
        t.status.fault = true ∧ t.regs.fault = 20 ∧ t.regs.faultInfo = 3)

/-- A raw payload of the raw size is copied into the rectangle and ends the command. Rests on 45_selector R221,
45_selector R224, 45_selector R232, 45_selector R234, 30_encoding R89. -/
def Obligations.RawPayloadCompletes : Prop :=
  ∀ (s : State) (d : Dec) (bytes : List Byte), s.dec = some d → d.px = [] → d.rawBytes = [] → d.pos = .raw →
    d.kind = .raw ∨ d.kind = .sel → bytes.length = d.rawSize → d.rawSize = s.areaRaw.rows * s.areaRaw.rowLen →
    s.areaRaw.rowLen ≤ s.areaRaw.stride →
    ∃ t, exec (.rawPayload bytes) s = .next t ∧ t.status.done = true ∧ t.status.fault = s.status.fault ∧ t.dec = none ∧
      t.str = s.str ∧
      (∀ j o, j < s.areaRaw.rows → o < s.areaRaw.rowLen →
        t.byte .pix (s.areaRaw.row j + o) = bytes.getD (j * s.areaRaw.rowLen + o) 0) ∧
      SameBytes .pix (fun a => ¬ s.areaRaw.holds a) s t

/-- A tile header token fixes the palette to come or to reuse and the body that follows, fills the tile, or faults.
Rests on 42_tile R151, 42_tile R152, 42_tile R153, 42_tile R154, 42_tile R155, 42_tile R157, 42_tile R158,
42_tile R159, 30_encoding R78, 60_exceptions R252. -/
def Obligations.TileHeaderTokensComplete : Prop :=
  ∀ (s : State) (d : Dec), s.dec = some d → d.px = [] → d.rawBytes = [] → d.pos = .tile →
    (3 * d.npix ≤ d.inp.length →
      exec .tileRaw s = .next { s with dec := some { d with hdr := 0, pos := .rawPixel } }) ∧
    (d.inp.length < 3 * d.npix → ∃ t, exec .tileRaw s = .next t ∧ EndsInFault t 10 d.ip) ∧
    exec .tilePlainRle s = .next { s with dec := some { d with hdr := 128, pos := .plain } } ∧
    (3 ≤ d.inp.length →
      exec .tileSolid s = .next { s with dec := some { d with hdr := 1, pal := [], pos := .palette false 1 } }) ∧
    (d.inp.length < 3 → ∃ t, exec .tileSolid s = .next t ∧ EndsInFault t 10 d.ip) ∧
    (∀ n : BitVec 7, 3 * n.toNat ≤ d.inp.length →
      exec (.tilePacked n) s = .next { s with dec := some { d with
        hdr := n.setWidth 8, pal := [], pos := .palette false n.toNat } } ∧
      exec (.tilePalRleLow n) s = .next { s with dec := some { d with
        hdr := n.setWidth 8, pal := [], pos := .palette false n.toNat } } ∧
      exec (.tilePalRle n) s = .next { s with dec := some { d with
        hdr := n.setWidth 8 ||| 0x80, pal := [], pos := .palette true n.toNat } }) ∧
    (∀ (n : BitVec 7) (i : Instr), i ∈ [Instr.tilePacked n, .tilePalRleLow n, .tilePalRle n] →
      d.inp.length < 3 * n.toNat → ∃ t, exec i s = .next t ∧ EndsInFault t 10 d.ip) ∧
    (d.sess ≠ [] →
      exec .tileReuseRle s = .next { s with dec := some { d with hdr := 129, pal := d.sess, pos := .rle } } ∧
      (16 < d.sess.length →
        exec .tileReusePacked s = .next { s with dec := some { d with hdr := 127, pal := d.sess, pos := .rle } }) ∧
      (2 ≤ d.sess.length → d.sess.length ≤ 16 →
        (ceilDiv (tileWidth d.sess.length * d.npix) 8 ≤ d.inp.length →
          exec .tileReusePacked s = .next { s with dec := some { d with
            hdr := 127, pal := d.sess, bitpos := 0, pos := .packed (tileWidth d.sess.length) } }) ∧
        (d.inp.length < ceilDiv (tileWidth d.sess.length * d.npix) 8 →
          ∃ t, exec .tileReusePacked s = .next t ∧ EndsInFault t 10 d.ip)) ∧
      (∀ c : Color, d.sess = [c] → d.made = 0 → ∃ t, exec .tileReusePacked s = .next t ∧
        AfterTile (s.fillTile d d.npix c) { d with hdr := 127, pal := [c], made := d.npix } t)) ∧
    (d.sess = [] → ∀ (i : Instr) (h : Word), (i, h) ∈ [(Instr.tileReusePacked, (127 : Word)), (.tileReuseRle, 129)] →
      ∃ t, exec i s = .next t ∧ EndsInFault t 14 h.toNat)

/-- Palette entries are appended; the last one sets the session and starts the body, or fills a tile of one colour.
Rests on 42_tile R155, 42_tile R156, 42_tile R157, 42_tile R158, 42_tile R159, 30_encoding R79, 30_encoding R80. -/
def Obligations.PaletteEntriesComplete : Prop :=
  ∀ (s : State) (d : Dec) (rle : Bool) (left : Nat) (c : Color), s.dec = some d → d.px = [] → d.rawBytes = [] →
    d.pos = .palette rle left →
    (2 ≤ left → exec (.palEntry c) s = .next { s with dec := some { d with
      pal := d.pal ++ [c], pos := .palette rle (left - 1) } }) ∧
    (left = 1 →
      (rle = true ∨ 16 < d.pal.length + 1 → exec (.palEntry c) s = .next { s with dec := some { d with
        pal := d.pal ++ [c], sess := d.pal ++ [c], pos := .rle } }) ∧
      (rle = false → 2 ≤ d.pal.length + 1 → d.pal.length + 1 ≤ 16 →
        (ceilDiv (tileWidth (d.pal.length + 1) * d.npix) 8 ≤ d.inp.length →
          exec (.palEntry c) s = .next { s with dec := some { d with
            pal := d.pal ++ [c], sess := d.pal ++ [c], bitpos := 0
            pos := .packed (tileWidth (d.pal.length + 1)) } }) ∧
        (d.inp.length < ceilDiv (tileWidth (d.pal.length + 1) * d.npix) 8 →
          ∃ t, exec (.palEntry c) s = .next t ∧ EndsInFault t 10 d.ip)) ∧
      (rle = false → d.pal = [] → d.made = 0 → ∃ t, exec (.palEntry c) s = .next t ∧
        AfterTile (s.fillTile d d.npix c) { d with pal := [c], sess := [c], made := d.npix } t))

/-- A pixel or index token writes the next pixel of the tile and moves one pixel on, or past the tile. Rests on
42_tile R137, 42_tile R152, 42_tile R156, 42_tile R157, 42_tile R159, 30_encoding R80, 30_encoding R81. -/
def Obligations.PixelTokensComplete : Prop :=
  ∀ (s : State) (d : Dec) (n : Nat), s.dec = some d → d.px = [] → d.rawBytes = [] → n = tilePos d.w d.tile d.made →
    (∀ (i : Instr) (c : Color),
      (d.pos = .rawPixel ∧ i = .rawPixel c) ∨
        (∃ (w : Nat) (k : BitVec 4), d.pos = .packed w ∧ i = .packedIndex w k ∧ d.pal[k.toNat]? = some c) ∨
        (∃ k : BitVec 7, d.pos = .rle ∧ i = .run1 k ∧ d.pal[k.toNat]? = some c) →
      (d.made + 1 < d.npix →
        exec i s = .next { s.putPixel n c with dec := some { d with made := d.made + 1 } }) ∧
      (d.made + 1 = d.npix → ∃ t, exec i s = .next t ∧
        ((∀ w, d.pos ≠ .packed w) → AfterTile (s.putPixel n c) { d with made := d.made + 1 } t) ∧
        (∀ w, d.pos = .packed w → AfterTile (s.putPixel n c) { d with
          made := d.made + 1
          inp := d.inp.drop (ceilDiv (w * d.npix) 8), ip := d.ip + ceilDiv (w * d.npix) 8 } t))) ∧
    (∀ (k : BitVec 7), d.pos = .rle → d.pal.length ≤ k.toNat →
      ∃ t, exec (.run1 k) s = .next t ∧ EndsInFault t 12 k.toNat) ∧
    (∀ (w : Nat) (k : BitVec 4), d.pos = .packed w → d.pal.length ≤ k.toNat →
      ∃ t, exec (.packedIndex w k) s = .next t ∧ EndsInFault t 12 k.toNat)

/-- Run tokens collect the length and then write 1 + extra pixels; a plain run has a mandatory length field
(PRESUMED, log 26). Rests on 42_tile R153, 42_tile R156, 42_tile R159, 30_encoding R81, 30_encoding R82,
30_encoding R83. -/
def Obligations.RunTokensComplete : Prop :=
  ∀ (s : State) (d : Dec), s.dec = some d → d.px = [] → d.rawBytes = [] →
    (∀ (k : BitVec 7) (c : Color), d.pos = .rle → d.pal[k.toNat]? = some c →
      exec (.runN k) s = .next { s with dec := some { d with pos := .runLen false c 0 } }) ∧
    (∀ (k : BitVec 7), d.pos = .rle → d.pal.length ≤ k.toNat →
      ∃ t, exec (.runN k) s = .next t ∧ EndsInFault t 12 k.toNat) ∧
    (∀ c : Color, d.pos = .plain →
      exec (.plainRun c) s = .next { s with dec := some { d with pos := .runLen true c 0 } }) ∧
    (∀ (plain : Bool) (c : Color) (extra : Nat), d.pos = .runLen plain c extra →
      exec .runLenCont s = .next { s with dec := some { d with pos := .runLen plain c (extra + 255) } } ∧
      ∀ f : Byte,
        (d.made + 1 + extra + f.toNat < d.npix →
          exec (.runLenFinal f) s = .next
            { s.fillTile d (1 + extra + f.toNat) c with
              dec := some { d with
                made := d.made + 1 + extra + f.toNat, pos := if plain = true then .plain else .rle } }) ∧
        (d.made + 1 + extra + f.toNat = d.npix →
          ∃ t, exec (.runLenFinal f) s = .next t ∧
            AfterTile (s.fillTile d (1 + extra + f.toNat) c) { d with
              made := d.npix, pos := if plain = true then .plain else .rle } t) ∧
        (d.npix < d.made + 1 + extra + f.toNat →
          ∃ t, exec (.runLenFinal f) s = .next t ∧ EndsInFault t 13 (1 + extra + f.toNat)))

/-- The quadtree container opens the root; split bits and colours walk the tree, and the last leaf checks the leaf
count and the split stream. Rests on 43_quadtree R172, 43_quadtree R186, 43_quadtree R187, 43_quadtree R188,
43_quadtree R191, 30_encoding R85, 30_encoding R86. -/
def Obligations.QuadTokensComplete : Prop :=
  ∀ (s : State) (d : Dec), s.dec = some d → d.px = [] → d.rawBytes = [] →
    (∀ (pal : List Word) (lc : Word) (cs ss : List Byte), d.pos = .qt →
      exec (.qtBlob pal lc cs ss) s = .next { s with dec := some { d with
        pal := pal.map color, leafCount := lc.toNat, leaves := 0
        inp := cs ++ ss, ip := d.ip + (8 + 4 * pal.length), bitpos := 0, splitpos := 0, stack := []
        pos := if levelCount (max d.w d.h) = 1 then .leaf 0 0 0 else .split (levelCount (max d.w d.h) - 1) 0 0 } }) ∧
    (∀ l r c : Nat, d.pos = .split l r c →
      exec .split0 s = .next { s with dec := some { d with pos := .leaf l r c } }) ∧
    (∀ l r c : Nat, d.pos = .split (l + 1) r c → present d.w d.h (l + 1) r c = true →
      exec .split1 s = .next { s with dec := some { d with
        stack := (children d.w d.h l r c).tail.map (fun p => (l, p.1, p.2)) ++ d.stack
        pos := if l = 0 then .leaf 0 (2 * r) (2 * c) else .split l (2 * r) (2 * c) } }) ∧
    (∀ (l r c : Nat) (v : Word), d.pos = .leaf l r c →
      (∀ col : Color, (if d.pal = [] then some (v.setWidth 24) else d.pal[v.toNat]?) = some col →
        (∀ (l' r' c' : Nat) (rest : List (Nat × Nat × Nat)), d.stack = (l', r', c') :: rest →
          exec (.qtColor (qtColorBits d.pal.length) v) s = .next
            { (squarePositions d.w d.h l r c).foldl (fun t n => t.putPixel n col) s with
              dec := some { d with
                leaves := d.leaves + 1, stack := rest
                pos := if l' = 0 then .leaf 0 r' c' else .split l' r' c' } }) ∧
        (d.stack = [] → ∃ t, exec (.qtColor (qtColorBits d.pal.length) v) s = .next t ∧
          (d.leaves + 1 ≠ d.leafCount → EndsInFault t 15 (d.leaves + 1)) ∧
          (d.leaves + 1 = d.leafCount →
            (ceilDiv d.splitpos 8 ≠ d.inp.length - ceilDiv (d.leafCount * qtColorBits d.pal.length) 8 →
              EndsInFault t 11 (ceilDiv d.splitpos 8)) ∧
            (ceilDiv d.splitpos 8 = d.inp.length - ceilDiv (d.leafCount * qtColorBits d.pal.length) 8 →
              EndsWell ((squarePositions d.w d.h l r c).foldl (fun t n => t.putPixel n col) s) d t)))) ∧
      (d.pal ≠ [] → d.pal.length ≤ v.toNat →
        ∃ t, exec (.qtColor (qtColorBits d.pal.length) v) s = .next t ∧ EndsInFault t 12 v.toNat))

/-- A diff word writes its colour at the cursor and advances it by gap + 1; the last word ends the command or
faults. Rests on 44_diff R205, 44_diff R207, 44_diff R211, 30_encoding R88. -/
def Obligations.DiffTokenCompletes : Prop :=
  ∀ (s : State) (d : Dec) (gap : Byte) (c : Color), s.dec = some d → d.px = [] → d.rawBytes = [] → d.pos = .diff →
    (d.cursor < d.w * d.h → d.cursor + gap.toNat + 1 ≤ d.w * d.h → d.inp ≠ [] →
      exec (.diffW gap c) s = .next { s.putPixel d.cursor c with
        dec := some { d with cursor := d.cursor + gap.toNat + 1 } }) ∧
    (d.cursor + gap.toNat + 1 = d.w * d.h → d.inp = [] →
      ∃ t, exec (.diffW gap c) s = .next t ∧ EndsWell (s.putPixel d.cursor c) d t) ∧
    (d.cursor + gap.toNat + 1 < d.w * d.h → d.inp = [] →
      ∃ t, exec (.diffW gap c) s = .next t ∧ EndsInFault t 17 (d.cursor + gap.toNat + 1)) ∧
    (d.w * d.h ≤ d.cursor → ∃ t, exec (.diffW gap c) s = .next t ∧ EndsInFault t 16 d.cursor) ∧
    (d.cursor < d.w * d.h → d.w * d.h < d.cursor + gap.toNat + 1 →
      ∃ t, exec (.diffW gap c) s = .next t ∧ EndsInFault t 16 (d.cursor + gap.toNat + 1))

/-- The invariant and the conditions between commands hold at reset. Rests on 70_reset_and_hazards R280, 10_state
R36. -/
def Obligations.InvAtReset : Prop :=
  State.reset.Inv ∧ State.reset.Quiet

/-- Every step keeps the invariant. Rests on 10_state R26, 10_state R27, 10_state R30, 10_state R31, 10_state R32,
10_state R33, 41_palette R122, 60_exceptions R264. -/
def Obligations.StepKeepsInv : Prop :=
  ∀ s t : State, s.Inv → step s = .next t → t.Inv

/-- Between commands stays between commands: every step ends its command and stays inside 2^32. Rests on 10_state
R25, 10_state R29, 20_memory R50, 20_memory R60, 20_memory R64, 40_bitstream R109. -/
def Obligations.StepKeepsQuiet : Prop :=
  ∀ s t : State, s.Inv → s.Quiet → step s = .next t → t.Quiet
end

