-- ==== Sys2Proof/Laws/State.lean ====
section
/-! SUPPORT. One lemma per field per update of the state, so that no proof unfolds a record update. -/

namespace Sys2Proof.Machine

/-! ### `start` -/

@[simp] theorem State.start_regs (s : State) (w : Word) : (s.start w).regs = { s.regs with cmd := w } := rfl
@[simp] theorem State.start_status (s : State) (w : Word) : (s.start w).status = s.status.start := rfl
@[simp] theorem State.start_pal (s : State) (w : Word) : (s.start w).pal = s.pal := rfl
@[simp] theorem State.start_sess (s : State) (w : Word) : (s.start w).sess = s.sess := rfl
@[simp] theorem State.start_w0 (s : State) (w : Word) : (s.start w).w0 = s.w0 := rfl
@[simp] theorem State.start_r0 (s : State) (w : Word) : (s.start w).r0 = s.r0 := rfl
@[simp] theorem State.start_pix (s : State) (w : Word) : (s.start w).pix = s.pix := rfl
@[simp] theorem State.start_str (s : State) (w : Word) : (s.start w).str = s.str := rfl
@[simp] theorem State.start_host (s : State) (w : Word) : (s.start w).host = s.host := rfl
@[simp] theorem State.start_dec (s : State) (w : Word) : (s.start w).dec = s.dec := rfl
@[simp] theorem State.start_lost (s : State) (w : Word) : (s.start w).lost = s.lost := rfl

/-! ### `complete` -/

@[simp] theorem State.complete_regs (s : State) : s.complete.regs = s.regs := rfl
@[simp] theorem State.complete_status (s : State) : s.complete.status = s.status.complete := rfl
@[simp] theorem State.complete_pal (s : State) : s.complete.pal = s.pal := rfl
@[simp] theorem State.complete_sess (s : State) : s.complete.sess = s.sess := rfl
@[simp] theorem State.complete_w0 (s : State) : s.complete.w0 = s.w0 := rfl
@[simp] theorem State.complete_r0 (s : State) : s.complete.r0 = s.r0 := rfl
@[simp] theorem State.complete_pix (s : State) : s.complete.pix = s.pix := rfl
@[simp] theorem State.complete_str (s : State) : s.complete.str = s.str := rfl
@[simp] theorem State.complete_host (s : State) : s.complete.host = s.host := rfl
@[simp] theorem State.complete_dec (s : State) : s.complete.dec = s.dec := rfl
@[simp] theorem State.complete_lost (s : State) : s.complete.lost = s.lost := rfl

/-! ### `raise` -/

@[simp] theorem State.raise_regs (s : State) (r : Raise) :
    (s.raise r).regs =
      { s.regs with fault := BitVec.ofNat 32 r.code.number, faultInfo := sat32 r.info } := rfl
@[simp] theorem State.raise_status (s : State) (r : Raise) : (s.raise r).status = s.status.raise := rfl
@[simp] theorem State.raise_pal (s : State) (r : Raise) : (s.raise r).pal = s.pal := rfl
@[simp] theorem State.raise_sess (s : State) (r : Raise) : (s.raise r).sess = s.sess := rfl
@[simp] theorem State.raise_w0 (s : State) (r : Raise) : (s.raise r).w0 = s.w0 := rfl
@[simp] theorem State.raise_r0 (s : State) (r : Raise) : (s.raise r).r0 = s.r0 := rfl
@[simp] theorem State.raise_pix (s : State) (r : Raise) : (s.raise r).pix = s.pix := rfl
@[simp] theorem State.raise_str (s : State) (r : Raise) : (s.raise r).str = s.str := rfl
@[simp] theorem State.raise_host (s : State) (r : Raise) : (s.raise r).host = s.host := rfl
@[simp] theorem State.raise_dec (s : State) (r : Raise) : (s.raise r).dec = s.dec := rfl
@[simp] theorem State.raise_lost (s : State) (r : Raise) : (s.raise r).lost = s.lost := rfl

/-! ### `setSession` -/

@[simp] theorem State.setSession_regs (s : State) (l : List Color) : (s.setSession l).regs = s.regs := rfl
@[simp] theorem State.setSession_status (s : State) (l : List Color) :
    (s.setSession l).status =
      s.status.setSession l := rfl
@[simp] theorem State.setSession_pal (s : State) (l : List Color) : (s.setSession l).pal = s.pal := rfl
@[simp] theorem State.setSession_sess (s : State) (l : List Color) : (s.setSession l).sess = l := rfl
@[simp] theorem State.setSession_w0 (s : State) (l : List Color) : (s.setSession l).w0 = s.w0 := rfl
@[simp] theorem State.setSession_r0 (s : State) (l : List Color) : (s.setSession l).r0 = s.r0 := rfl
@[simp] theorem State.setSession_pix (s : State) (l : List Color) : (s.setSession l).pix = s.pix := rfl
@[simp] theorem State.setSession_str (s : State) (l : List Color) : (s.setSession l).str = s.str := rfl
@[simp] theorem State.setSession_host (s : State) (l : List Color) : (s.setSession l).host = s.host := rfl
@[simp] theorem State.setSession_dec (s : State) (l : List Color) : (s.setSession l).dec = s.dec := rfl
@[simp] theorem State.setSession_lost (s : State) (l : List Color) : (s.setSession l).lost = s.lost := rfl

/-! ### `dropPalette` -/

@[simp] theorem State.dropPalette_regs (s : State) : s.dropPalette.regs = s.regs := rfl
@[simp] theorem State.dropPalette_status (s : State) : s.dropPalette.status = s.status.setPalOvf false := rfl
@[simp] theorem State.dropPalette_pal (s : State) : s.dropPalette.pal = [] := rfl
@[simp] theorem State.dropPalette_sess (s : State) : s.dropPalette.sess = s.sess := rfl
@[simp] theorem State.dropPalette_w0 (s : State) : s.dropPalette.w0 = s.w0 := rfl
@[simp] theorem State.dropPalette_r0 (s : State) : s.dropPalette.r0 = s.r0 := rfl
@[simp] theorem State.dropPalette_pix (s : State) : s.dropPalette.pix = s.pix := rfl
@[simp] theorem State.dropPalette_str (s : State) : s.dropPalette.str = s.str := rfl
@[simp] theorem State.dropPalette_host (s : State) : s.dropPalette.host = s.host := rfl
@[simp] theorem State.dropPalette_dec (s : State) : s.dropPalette.dec = s.dec := rfl
@[simp] theorem State.dropPalette_lost (s : State) : s.dropPalette.lost = s.lost := rfl

/-! ### `writePix` -/

@[simp] theorem State.writePix_regs (s : State) (a : Nat) (bs : List Byte) : (s.writePix a bs).regs = s.regs := rfl
@[simp] theorem State.writePix_status (s : State) (a : Nat) (bs : List Byte) :
    (s.writePix a bs).status =
      s.status := rfl
@[simp] theorem State.writePix_pal (s : State) (a : Nat) (bs : List Byte) : (s.writePix a bs).pal = s.pal := rfl
@[simp] theorem State.writePix_sess (s : State) (a : Nat) (bs : List Byte) : (s.writePix a bs).sess = s.sess := rfl
@[simp] theorem State.writePix_w0 (s : State) (a : Nat) (bs : List Byte) : (s.writePix a bs).w0 = s.w0 := rfl
@[simp] theorem State.writePix_r0 (s : State) (a : Nat) (bs : List Byte) : (s.writePix a bs).r0 = s.r0 := rfl
@[simp] theorem State.writePix_pix (s : State) (a : Nat) (bs : List Byte) :
    (s.writePix a bs).pix =
      s.pix.putBytes a bs := rfl
@[simp] theorem State.writePix_str (s : State) (a : Nat) (bs : List Byte) : (s.writePix a bs).str = s.str := rfl
@[simp] theorem State.writePix_host (s : State) (a : Nat) (bs : List Byte) : (s.writePix a bs).host = s.host := rfl
@[simp] theorem State.writePix_dec (s : State) (a : Nat) (bs : List Byte) : (s.writePix a bs).dec = s.dec := rfl
@[simp] theorem State.writePix_lost (s : State) (a : Nat) (bs : List Byte) : (s.writePix a bs).lost = s.lost := rfl

/-! ### `writeStr` -/

@[simp] theorem State.writeStr_regs (s : State) (a : Nat) (bs : List Byte) : (s.writeStr a bs).regs = s.regs := rfl
@[simp] theorem State.writeStr_status (s : State) (a : Nat) (bs : List Byte) :
    (s.writeStr a bs).status =
      s.status := rfl
@[simp] theorem State.writeStr_pal (s : State) (a : Nat) (bs : List Byte) : (s.writeStr a bs).pal = s.pal := rfl
@[simp] theorem State.writeStr_sess (s : State) (a : Nat) (bs : List Byte) : (s.writeStr a bs).sess = s.sess := rfl
@[simp] theorem State.writeStr_w0 (s : State) (a : Nat) (bs : List Byte) : (s.writeStr a bs).w0 = s.w0 := rfl
@[simp] theorem State.writeStr_r0 (s : State) (a : Nat) (bs : List Byte) : (s.writeStr a bs).r0 = s.r0 := rfl
@[simp] theorem State.writeStr_pix (s : State) (a : Nat) (bs : List Byte) : (s.writeStr a bs).pix = s.pix := rfl
@[simp] theorem State.writeStr_str (s : State) (a : Nat) (bs : List Byte) :
    (s.writeStr a bs).str =
      s.str.putBytes a bs := rfl
@[simp] theorem State.writeStr_host (s : State) (a : Nat) (bs : List Byte) : (s.writeStr a bs).host = s.host := rfl
@[simp] theorem State.writeStr_dec (s : State) (a : Nat) (bs : List Byte) : (s.writeStr a bs).dec = s.dec := rfl
@[simp] theorem State.writeStr_lost (s : State) (a : Nat) (bs : List Byte) : (s.writeStr a bs).lost = s.lost := rfl

/-! ### `forgetPix` -/

@[simp] theorem State.forgetPix_regs (s : State) (r : Area) : (s.forgetPix r).regs = s.regs := rfl
@[simp] theorem State.forgetPix_status (s : State) (r : Area) : (s.forgetPix r).status = s.status := rfl
@[simp] theorem State.forgetPix_pal (s : State) (r : Area) : (s.forgetPix r).pal = s.pal := rfl
@[simp] theorem State.forgetPix_sess (s : State) (r : Area) : (s.forgetPix r).sess = s.sess := rfl
@[simp] theorem State.forgetPix_w0 (s : State) (r : Area) : (s.forgetPix r).w0 = s.w0 := rfl
@[simp] theorem State.forgetPix_r0 (s : State) (r : Area) : (s.forgetPix r).r0 = s.r0 := rfl
@[simp] theorem State.forgetPix_pix (s : State) (r : Area) : (s.forgetPix r).pix = s.pix.forget r.contains := rfl
@[simp] theorem State.forgetPix_str (s : State) (r : Area) : (s.forgetPix r).str = s.str := rfl
@[simp] theorem State.forgetPix_host (s : State) (r : Area) : (s.forgetPix r).host = s.host := rfl
@[simp] theorem State.forgetPix_dec (s : State) (r : Area) : (s.forgetPix r).dec = s.dec := rfl
@[simp] theorem State.forgetPix_lost (s : State) (r : Area) : (s.forgetPix r).lost = .pix r :: s.lost := rfl

/-! ### `forgetStr` -/

@[simp] theorem State.forgetStr_regs (s : State) (lo hi : Nat) : (s.forgetStr lo hi).regs = s.regs := rfl
@[simp] theorem State.forgetStr_status (s : State) (lo hi : Nat) : (s.forgetStr lo hi).status = s.status := rfl
@[simp] theorem State.forgetStr_pal (s : State) (lo hi : Nat) : (s.forgetStr lo hi).pal = s.pal := rfl
@[simp] theorem State.forgetStr_sess (s : State) (lo hi : Nat) : (s.forgetStr lo hi).sess = s.sess := rfl
@[simp] theorem State.forgetStr_w0 (s : State) (lo hi : Nat) : (s.forgetStr lo hi).w0 = s.w0 := rfl
@[simp] theorem State.forgetStr_r0 (s : State) (lo hi : Nat) : (s.forgetStr lo hi).r0 = s.r0 := rfl
@[simp] theorem State.forgetStr_pix (s : State) (lo hi : Nat) : (s.forgetStr lo hi).pix = s.pix := rfl
@[simp] theorem State.forgetStr_str (s : State) (lo hi : Nat) :
    (s.forgetStr lo hi).str =
      s.str.forget (inRange lo hi) := rfl
@[simp] theorem State.forgetStr_host (s : State) (lo hi : Nat) : (s.forgetStr lo hi).host = s.host := rfl
@[simp] theorem State.forgetStr_dec (s : State) (lo hi : Nat) : (s.forgetStr lo hi).dec = s.dec := rfl
@[simp] theorem State.forgetStr_lost (s : State) (lo hi : Nat) : (s.forgetStr lo hi).lost = .str lo hi :: s.lost := rfl

/-! ### `answer` -/

@[simp] theorem State.answer_regs (s : State) (u v : Word) :
    (s.answer u v).regs =
      { s.regs with res0 := u, res1 := v } := rfl
@[simp] theorem State.answer_status (s : State) (u v : Word) : (s.answer u v).status = s.status := rfl
@[simp] theorem State.answer_pal (s : State) (u v : Word) : (s.answer u v).pal = s.pal := rfl
@[simp] theorem State.answer_sess (s : State) (u v : Word) : (s.answer u v).sess = s.sess := rfl
@[simp] theorem State.answer_w0 (s : State) (u v : Word) : (s.answer u v).w0 = s.w0 := rfl
@[simp] theorem State.answer_r0 (s : State) (u v : Word) : (s.answer u v).r0 = s.r0 := rfl
@[simp] theorem State.answer_pix (s : State) (u v : Word) : (s.answer u v).pix = s.pix := rfl
@[simp] theorem State.answer_str (s : State) (u v : Word) : (s.answer u v).str = s.str := rfl
@[simp] theorem State.answer_host (s : State) (u v : Word) : (s.answer u v).host = s.host := rfl
@[simp] theorem State.answer_dec (s : State) (u v : Word) : (s.answer u v).dec = s.dec := rfl
@[simp] theorem State.answer_lost (s : State) (u v : Word) : (s.answer u v).lost = s.lost := rfl

/-! ### `keepPalette` -/

@[simp] theorem State.keepPalette_regs (s : State) (p : List Color × Bool) :
    (s.keepPalette p).regs =
      { s.regs with res0 := BitVec.ofNat 32 p.1.length } := rfl
@[simp] theorem State.keepPalette_status (s : State) (p : List Color × Bool) :
    (s.keepPalette p).status =
      s.status.setPalOvf p.2 := rfl
@[simp] theorem State.keepPalette_pal (s : State) (p : List Color × Bool) : (s.keepPalette p).pal = p.1 := rfl
@[simp] theorem State.keepPalette_sess (s : State) (p : List Color × Bool) : (s.keepPalette p).sess = s.sess := rfl
@[simp] theorem State.keepPalette_w0 (s : State) (p : List Color × Bool) : (s.keepPalette p).w0 = s.w0 := rfl
@[simp] theorem State.keepPalette_r0 (s : State) (p : List Color × Bool) : (s.keepPalette p).r0 = s.r0 := rfl
@[simp] theorem State.keepPalette_pix (s : State) (p : List Color × Bool) : (s.keepPalette p).pix = s.pix := rfl
@[simp] theorem State.keepPalette_str (s : State) (p : List Color × Bool) : (s.keepPalette p).str = s.str := rfl
@[simp] theorem State.keepPalette_host (s : State) (p : List Color × Bool) : (s.keepPalette p).host = s.host := rfl
@[simp] theorem State.keepPalette_dec (s : State) (p : List Color × Bool) : (s.keepPalette p).dec = s.dec := rfl
@[simp] theorem State.keepPalette_lost (s : State) (p : List Color × Bool) : (s.keepPalette p).lost = s.lost := rfl

/-! ### `hostWriteReg` -/

@[simp] theorem State.hostWriteReg_regs (s : State) (r : Reg) (v : Word) :
    (s.hostWriteReg r v).regs =
      s.regs.hostWrite v r := rfl
@[simp] theorem State.hostWriteReg_status (s : State) (r : Reg) (v : Word) :
    (s.hostWriteReg r v).status =
      s.status := rfl
@[simp] theorem State.hostWriteReg_pal (s : State) (r : Reg) (v : Word) : (s.hostWriteReg r v).pal = s.pal := rfl
@[simp] theorem State.hostWriteReg_sess (s : State) (r : Reg) (v : Word) : (s.hostWriteReg r v).sess = s.sess := rfl
@[simp] theorem State.hostWriteReg_w0 (s : State) (r : Reg) (v : Word) : (s.hostWriteReg r v).w0 = s.w0 := rfl
@[simp] theorem State.hostWriteReg_r0 (s : State) (r : Reg) (v : Word) : (s.hostWriteReg r v).r0 = s.r0 := rfl
@[simp] theorem State.hostWriteReg_pix (s : State) (r : Reg) (v : Word) : (s.hostWriteReg r v).pix = s.pix := rfl
@[simp] theorem State.hostWriteReg_str (s : State) (r : Reg) (v : Word) : (s.hostWriteReg r v).str = s.str := rfl
@[simp] theorem State.hostWriteReg_host (s : State) (r : Reg) (v : Word) : (s.hostWriteReg r v).host = s.host := rfl
@[simp] theorem State.hostWriteReg_dec (s : State) (r : Reg) (v : Word) : (s.hostWriteReg r v).dec = s.dec := rfl
@[simp] theorem State.hostWriteReg_lost (s : State) (r : Reg) (v : Word) : (s.hostWriteReg r v).lost = s.lost := rfl

/-! ### `storeOut` -/

@[simp] theorem State.storeOut_regs (s : State) (bs : List Byte) :
    (s.storeOut bs).regs =
      { s.regs with outLen := BitVec.ofNat 32 bs.length } := rfl
@[simp] theorem State.storeOut_status (s : State) (bs : List Byte) : (s.storeOut bs).status = s.status := rfl
@[simp] theorem State.storeOut_pal (s : State) (bs : List Byte) : (s.storeOut bs).pal = s.pal := rfl
@[simp] theorem State.storeOut_sess (s : State) (bs : List Byte) : (s.storeOut bs).sess = s.sess := rfl
@[simp] theorem State.storeOut_w0 (s : State) (bs : List Byte) : (s.storeOut bs).w0 = s.w0 := rfl
@[simp] theorem State.storeOut_r0 (s : State) (bs : List Byte) : (s.storeOut bs).r0 = s.r0 := rfl
@[simp] theorem State.storeOut_pix (s : State) (bs : List Byte) : (s.storeOut bs).pix = s.pix := rfl
@[simp] theorem State.storeOut_str (s : State) (bs : List Byte) :
    (s.storeOut bs).str =
      (s.str.forget (inRange (s.regs.outBase.toNat + bs.length)
      (s.regs.outBase.toNat + s.regs.outCap.toNat))).putBytes s.regs.outBase.toNat bs := rfl
@[simp] theorem State.storeOut_host (s : State) (bs : List Byte) : (s.storeOut bs).host = s.host := rfl
@[simp] theorem State.storeOut_dec (s : State) (bs : List Byte) : (s.storeOut bs).dec = s.dec := rfl
@[simp] theorem State.storeOut_lost (s : State) (bs : List Byte) :
    (s.storeOut bs).lost =
      .str (s.regs.outBase.toNat + bs.length) (s.regs.outBase.toNat + s.regs.outCap.toNat) :: s.lost := rfl

/-! ### `raiseEncode` -/

@[simp] theorem State.raiseEncode_regs (s : State) (r : Raise) :
    (s.raiseEncode r).regs =
      { s.regs with fault := BitVec.ofNat 32 r.code.number, faultInfo := sat32 r.info } := rfl
@[simp] theorem State.raiseEncode_status (s : State) (r : Raise) : (s.raiseEncode r).status = s.status.raise := rfl
@[simp] theorem State.raiseEncode_pal (s : State) (r : Raise) : (s.raiseEncode r).pal = s.pal := rfl
@[simp] theorem State.raiseEncode_sess (s : State) (r : Raise) : (s.raiseEncode r).sess = s.sess := rfl
@[simp] theorem State.raiseEncode_w0 (s : State) (r : Raise) : (s.raiseEncode r).w0 = s.w0 := rfl
@[simp] theorem State.raiseEncode_r0 (s : State) (r : Raise) : (s.raiseEncode r).r0 = s.r0 := rfl
@[simp] theorem State.raiseEncode_pix (s : State) (r : Raise) : (s.raiseEncode r).pix = s.pix := rfl
@[simp] theorem State.raiseEncode_str (s : State) (r : Raise) :
    (s.raiseEncode r).str =
      s.str.forget (inRange s.regs.outBase.toNat (s.regs.outBase.toNat + s.regs.outCap.toNat)) := rfl
@[simp] theorem State.raiseEncode_host (s : State) (r : Raise) : (s.raiseEncode r).host = s.host := rfl
@[simp] theorem State.raiseEncode_dec (s : State) (r : Raise) : (s.raiseEncode r).dec = s.dec := rfl
@[simp] theorem State.raiseEncode_lost (s : State) (r : Raise) :
    (s.raiseEncode r).lost =
      .str s.regs.outBase.toNat (s.regs.outBase.toNat + s.regs.outCap.toNat) :: s.lost := rfl

/-! ### `raiseDecode` -/

@[simp] theorem State.raiseDecode_regs (s : State) (q : Area) (r : Raise) :
    (s.raiseDecode q r).regs =
      { s.regs with fault := BitVec.ofNat 32 r.code.number, faultInfo := sat32 r.info } := rfl
@[simp] theorem State.raiseDecode_status (s : State) (q : Area) (r : Raise) :
    (s.raiseDecode q r).status =
      s.status.raise := rfl
@[simp] theorem State.raiseDecode_pal (s : State) (q : Area) (r : Raise) : (s.raiseDecode q r).pal = s.pal := rfl
@[simp] theorem State.raiseDecode_sess (s : State) (q : Area) (r : Raise) : (s.raiseDecode q r).sess = s.sess := rfl
@[simp] theorem State.raiseDecode_w0 (s : State) (q : Area) (r : Raise) : (s.raiseDecode q r).w0 = s.w0 := rfl
@[simp] theorem State.raiseDecode_r0 (s : State) (q : Area) (r : Raise) : (s.raiseDecode q r).r0 = s.r0 := rfl
@[simp] theorem State.raiseDecode_pix (s : State) (q : Area) (r : Raise) :
    (s.raiseDecode q r).pix =
      s.pix.forget q.contains := rfl
@[simp] theorem State.raiseDecode_str (s : State) (q : Area) (r : Raise) : (s.raiseDecode q r).str = s.str := rfl
@[simp] theorem State.raiseDecode_host (s : State) (q : Area) (r : Raise) : (s.raiseDecode q r).host = s.host := rfl
@[simp] theorem State.raiseDecode_dec (s : State) (q : Area) (r : Raise) : (s.raiseDecode q r).dec = none := rfl
@[simp] theorem State.raiseDecode_lost (s : State) (q : Area) (r : Raise) :
    (s.raiseDecode q r).lost =
      .pix q :: s.lost := rfl

/-! ### `putPixel` -/

@[simp] theorem State.putPixel_regs (s : State) (n : Nat) (c : Color) : (s.putPixel n c).regs = s.regs := rfl
@[simp] theorem State.putPixel_status (s : State) (n : Nat) (c : Color) : (s.putPixel n c).status = s.status := rfl
@[simp] theorem State.putPixel_pal (s : State) (n : Nat) (c : Color) : (s.putPixel n c).pal = s.pal := rfl
@[simp] theorem State.putPixel_sess (s : State) (n : Nat) (c : Color) : (s.putPixel n c).sess = s.sess := rfl
@[simp] theorem State.putPixel_w0 (s : State) (n : Nat) (c : Color) : (s.putPixel n c).w0 = s.w0 := rfl
@[simp] theorem State.putPixel_r0 (s : State) (n : Nat) (c : Color) : (s.putPixel n c).r0 = s.r0 := rfl
@[simp] theorem State.putPixel_pix (s : State) (n : Nat) (c : Color) :
    (s.putPixel n c).pix =
      s.pix.putBytes (s.areaA.pixel (n % s.regs.rectW.toNat) (n / s.regs.rectW.toNat)) (le32 (pixelOf c)) := rfl
@[simp] theorem State.putPixel_str (s : State) (n : Nat) (c : Color) : (s.putPixel n c).str = s.str := rfl
@[simp] theorem State.putPixel_host (s : State) (n : Nat) (c : Color) : (s.putPixel n c).host = s.host := rfl
@[simp] theorem State.putPixel_dec (s : State) (n : Nat) (c : Color) : (s.putPixel n c).dec = s.dec := rfl
@[simp] theorem State.putPixel_lost (s : State) (n : Nat) (c : Color) : (s.putPixel n c).lost = s.lost := rfl

/-! ### `putBits` -/

@[simp] theorem State.putBits_regs (s : State) (bits : List Bool) : (s.putBits bits).regs = s.regs := rfl
@[simp] theorem State.putBits_status (s : State) (bits : List Bool) : (s.putBits bits).status = s.status := rfl
@[simp] theorem State.putBits_pal (s : State) (bits : List Bool) : (s.putBits bits).pal = s.pal := rfl
@[simp] theorem State.putBits_sess (s : State) (bits : List Bool) : (s.putBits bits).sess = s.sess := rfl
@[simp] theorem State.putBits_w0 (s : State) (bits : List Bool) :
    (s.putBits bits).w0 =
      { s.w0 with bits := bits } := rfl
@[simp] theorem State.putBits_r0 (s : State) (bits : List Bool) : (s.putBits bits).r0 = s.r0 := rfl
@[simp] theorem State.putBits_pix (s : State) (bits : List Bool) : (s.putBits bits).pix = s.pix := rfl
@[simp] theorem State.putBits_str (s : State) (bits : List Bool) :
    (s.putBits bits).str =
      s.str.putBytes (s.w0.base.toNat + s.w0.bits.length / 8) (completedBytes (s.w0.bits.length / 8) bits) := rfl
@[simp] theorem State.putBits_host (s : State) (bits : List Bool) : (s.putBits bits).host = s.host := rfl
@[simp] theorem State.putBits_dec (s : State) (bits : List Bool) : (s.putBits bits).dec = s.dec := rfl
@[simp] theorem State.putBits_lost (s : State) (bits : List Bool) : (s.putBits bits).lost = s.lost := rfl

/-! ### The register window (10_state R20) -/

@[simp] theorem Reg.all_length : Reg.all.length = 29 := rfl

/-- Each register is found at its offset. -/
@[simp] theorem Reg.atOffset_offset (r : Reg) : Reg.atOffset r.offset = some r := by cases r <;> rfl

/-- The window names each register once: a register found at an offset has that offset. -/
theorem Reg.offset_of_atOffset (off : Nat) (r : Reg) (h : Reg.atOffset off = some r) : r.offset = off := by
  simp only [Reg.atOffset] at h
  split at h
  · rename_i h4
    obtain ⟨hlt, rfl⟩ := List.getElem?_eq_some_iff.1 h
    have hn : Reg.all.Nodup := by decide
    rw [Reg.offset, Reg.index, hn.idxOf_getElem]
    omega
  · cases h

@[simp] theorem State.readOffset_offset (s : State) (r : Reg) : s.readOffset r.offset = some (s.readReg r) := by
  simp [State.readOffset]

@[simp] theorem HostAction.writeOffset_offset (r : Reg) (v : Word) :
    HostAction.writeOffset r.offset v = some (.write r v) := by
  simp [HostAction.writeOffset]

end Sys2Proof.Machine
end

