-- ==== Sys2Proof/Laws/Memory.lean ====
section
/-! SUPPORT. The laws of memory: a read after a write, writes elsewhere, what forgetting leaves, and that every memory
operation keeps the canonical form. -/

namespace Sys2Proof.Machine

/-! ### One byte -/

theorem Memory.get?_put (m : Memory) (x y : Nat) (v : Byte) :
    (m.put x v).get? y = if y = x then some v else m.get? y := by
  induction m with
  | nil => simp [Memory.put, Memory.get?]
  | cons cell m ih =>
    obtain ⟨a, b⟩ := cell
    simp only [Memory.put]
    split
    · simp [Memory.get?]
    · split
      · subst_vars
        by_cases h : y = a <;> simp [Memory.get?, h]
      · simp only [Memory.get?, ih]
        split <;> split <;> simp_all

theorem Memory.get?_putBytes (bs : List Byte) (m : Memory) (x y : Nat) :
    (m.putBytes x bs).get? y = if x ≤ y ∧ y < x + bs.length then bs[y - x]? else m.get? y := by
  induction bs generalizing m x with
  | nil =>
    rw [if_neg (by simp)]
    rfl
  | cons v vs ih =>
    simp only [Memory.putBytes, ih, Memory.get?_put, List.length_cons]
    by_cases h : y = x
    · subst h; simp
    · by_cases h' : x + 1 ≤ y ∧ y < x + 1 + vs.length
      · rw [if_pos h', if_pos (by omega)]
        obtain ⟨k, hk⟩ : ∃ k, y - x = k + 1 := ⟨y - x - 1, by omega⟩
        rw [hk, show y - (x + 1) = k by omega, List.getElem?_cons_succ]
      · rw [if_neg h', if_neg h, if_neg (by omega)]

theorem Memory.get?_forget (p : Nat → Bool) (m : Memory) (y : Nat) :
    (m.forget p).get? y = if p y = true then none else m.get? y := by
  induction m with
  | nil => simp [Memory.forget, Memory.get?]
  | cons cell m ih =>
    obtain ⟨a, b⟩ := cell
    simp only [Memory.forget] at ih
    simp only [Memory.forget, List.filter_cons]
    by_cases h : p a = true <;> by_cases hy : y = a <;> simp_all [Memory.get?]

/-! ### The canonical form -/

/-- The canonical form as Mathlib states it. -/
theorem Memory.rising_iff (m : Memory) : m.rising = true ↔ m.Pairwise fun c d => c.1 < d.1 := by
  induction m with
  | nil => simp [Memory.rising]
  | cons c m ih =>
    cases m with
    | nil => simp [Memory.rising]
    | cons d m =>
      rw [Memory.rising, Bool.and_eq_true, decide_eq_true_eq, ih, List.pairwise_cons (a := c)]
      constructor
      · rintro ⟨h, hm⟩
        refine ⟨fun e he => ?_, hm⟩
        rcases List.mem_cons.1 he with rfl | he
        · exact h
        · exact h.trans ((List.pairwise_cons.1 hm).1 e he)
      · rintro ⟨h, hm⟩
        exact ⟨h d (List.mem_cons_self ..), hm⟩

theorem Memory.wf_iff (m : Memory) : m.wf = true ↔ m.Pairwise fun c d => c.1 < d.1 := Memory.rising_iff m

theorem Memory.mem_put (m : Memory) (x : Nat) (v : Byte) (c : Host.Cell) (h : c ∈ m.put x v) :
    c = (x, v) ∨ c ∈ m := by
  induction m with
  | nil => simpa [Memory.put] using h
  | cons d m ih =>
    obtain ⟨a, b⟩ := d
    rw [Memory.put] at h
    split at h
    · simpa using h
    · split at h
      · rcases List.mem_cons.1 h with h | h
        · exact .inl h
        · exact .inr (List.mem_cons_of_mem _ h)
      · rcases List.mem_cons.1 h with h | h
        · exact .inr (h ▸ List.mem_cons_self ..)
        · rcases ih h with h | h
          · exact .inl h
          · exact .inr (List.mem_cons_of_mem _ h)

theorem Memory.wf_put (m : Memory) (x : Nat) (v : Byte) (h : m.wf = true) : (m.put x v).wf = true := by
  rw [Memory.wf_iff] at h ⊢
  induction m with
  | nil => simp [Memory.put]
  | cons c m ih =>
    obtain ⟨a, b⟩ := c
    rw [List.pairwise_cons] at h
    obtain ⟨ha, hm⟩ := h
    simp only [Memory.put]
    split
    · rename_i hx
      refine List.pairwise_cons.2 ⟨fun d hd => ?_, List.pairwise_cons.2 ⟨ha, hm⟩⟩
      rcases List.mem_cons.1 hd with rfl | hd
      · exact hx
      · exact Nat.lt_trans hx (ha d hd)
    · split
      · subst_vars
        exact List.pairwise_cons.2 ⟨ha, hm⟩
      · refine List.pairwise_cons.2 ⟨fun d hd => ?_, ih hm⟩
        rcases Memory.mem_put m x v d hd with rfl | hd
        · show a < x
          omega
        · exact ha d hd

theorem Memory.wf_putBytes (bs : List Byte) (m : Memory) (x : Nat) (h : m.wf = true) :
    (m.putBytes x bs).wf = true := by
  induction bs generalizing m x with
  | nil => exact h
  | cons v vs ih => exact ih _ _ (Memory.wf_put m x v h)

theorem Memory.wf_forget (p : Nat → Bool) (m : Memory) (h : m.wf = true) : (m.forget p).wf = true := by
  rw [Memory.wf_iff] at h ⊢
  exact h.filter _

/-- Reset leaves memory in canonical form. -/
theorem State.reset_wf : State.reset.pix.wf = true ∧ State.reset.str.wf = true := by decide

/-! ### The space -/

theorem Memory.inSpace_iff (m : Memory) : m.inSpace = true ↔ ∀ c ∈ m, c.1 < Config.spaceSize := by
  simp [Memory.inSpace]

theorem Memory.inSpace_put (m : Memory) (x : Nat) (v : Byte) (hx : x < Config.spaceSize) (h : m.inSpace = true) :
    (m.put x v).inSpace = true := by
  rw [Memory.inSpace_iff] at h ⊢
  intro c hc
  rcases Memory.mem_put m x v c hc with rfl | hc
  · exact hx
  · exact h c hc

theorem Memory.inSpace_putBytes (bs : List Byte) (m : Memory) (x : Nat) (hx : x + bs.length ≤ Config.spaceSize)
    (h : m.inSpace = true) : (m.putBytes x bs).inSpace = true := by
  induction bs generalizing m x with
  | nil => exact h
  | cons v vs ih =>
    rw [List.length_cons] at hx
    exact ih _ _ (by omega) (Memory.inSpace_put m x v (by omega) h)

theorem Memory.inSpace_forget (p : Nat → Bool) (m : Memory) (h : m.inSpace = true) :
    (m.forget p).inSpace = true := by
  rw [Memory.inSpace_iff] at h ⊢
  exact fun c hc => h c (List.mem_of_mem_filter hc)

/-! ### What a read returns -/

/-- A byte depends on the listing of its address and on the count of its free values only. -/
theorem State.byte_congr (s t : State) (sp : Space) (a : Nat) (hm : (t.mem sp).get? a = (s.mem sp).get? a)
    (hd : t.draws sp a = s.draws sp a) : t.byte sp a = s.byte sp a := by
  simp only [State.byte, hm, hd]

/-- Two states with equal memories and equal losses read alike. -/
theorem State.byte_eq (s t : State) (hp : t.pix = s.pix) (hs : t.str = s.str) (hl : t.lost = s.lost) (sp : Space)
    (a : Nat) : t.byte sp a = s.byte sp a := by
  cases sp <;> simp [State.byte, State.mem, State.draws, hp, hs, hl]

theorem State.byte_writePix (s : State) (x a : Nat) (bs : List Byte) :
    (s.writePix x bs).byte .pix a = if x ≤ a ∧ a < x + bs.length then bs.getD (a - x) 0 else s.byte .pix a := by
  simp only [State.byte, State.mem, State.writePix_pix, Memory.get?_putBytes, State.draws, State.writePix_lost]
  by_cases h : x ≤ a ∧ a < x + bs.length
  · rw [if_pos h, if_pos h, List.getElem?_eq_getElem (show a - x < bs.length by omega)]
    simp [List.getElem?_eq_getElem (show a - x < bs.length by omega)]
  · rw [if_neg h, if_neg h]

theorem State.byte_writePix_str (s : State) (x a : Nat) (bs : List Byte) :
    (s.writePix x bs).byte .str a = s.byte .str a := rfl

theorem State.byte_writeStr (s : State) (x a : Nat) (bs : List Byte) :
    (s.writeStr x bs).byte .str a = if x ≤ a ∧ a < x + bs.length then bs.getD (a - x) 0 else s.byte .str a := by
  simp only [State.byte, State.mem, State.writeStr_str, Memory.get?_putBytes, State.draws, State.writeStr_lost]
  by_cases h : x ≤ a ∧ a < x + bs.length
  · rw [if_pos h, if_pos h, List.getElem?_eq_getElem (show a - x < bs.length by omega)]
    simp [List.getElem?_eq_getElem (show a - x < bs.length by omega)]
  · rw [if_neg h, if_neg h]

theorem State.byte_writeStr_pix (s : State) (x a : Nat) (bs : List Byte) :
    (s.writeStr x bs).byte .pix a = s.byte .pix a := rfl

/-- Outside a rectangle that is forgotten every byte of PIX stays. -/
theorem State.byte_forgetPix (s : State) (r : Area) (a : Nat) (h : r.contains a = false) :
    (s.forgetPix r).byte .pix a = s.byte .pix a := by
  apply State.byte_congr
  · simp [State.mem, Memory.get?_forget, h]
  · simp [State.draws, Lost.covers, h]

theorem State.byte_forgetPix_str (s : State) (r : Area) (a : Nat) :
    (s.forgetPix r).byte .str a = s.byte .str a := by
  apply State.byte_congr
  · rfl
  · simp [State.draws, Lost.covers]

/-- Outside a range that is forgotten every byte of STR stays. -/
theorem State.byte_forgetStr (s : State) (lo hi a : Nat) (h : ¬ (lo ≤ a ∧ a < hi)) :
    (s.forgetStr lo hi).byte .str a = s.byte .str a := by
  have h' : inRange lo hi a = false := by
    rw [Bool.eq_false_iff]
    simpa [inRange] using h
  apply State.byte_congr
  · simp [State.mem, Memory.get?_forget, h']
  · simp [State.draws, Lost.covers, h']

theorem State.byte_forgetStr_pix (s : State) (lo hi a : Nat) :
    (s.forgetStr lo hi).byte .pix a = s.byte .pix a := by
  apply State.byte_congr
  · rfl
  · simp [State.draws, Lost.covers]

/-- Reading back a whole write. -/
theorem State.readBytes_writeStr (s : State) (x : Nat) (bs : List Byte) :
    (s.writeStr x bs).readBytes .str x bs.length = bs := by
  apply List.ext_getElem
  · simp [State.readBytes]
  · intro i h₁ h₂
    simp [State.readBytes, State.byte_writeStr, h₂]

theorem State.readBytes_length (s : State) (sp : Space) (x n : Nat) : (s.readBytes sp x n).length = n := by
  simp [State.readBytes]

theorem State.readBytes_congr (s t : State) (sp : Space) (x n : Nat)
    (h : ∀ a, x ≤ a → a < x + n → t.byte sp a = s.byte sp a) : t.readBytes sp x n = s.readBytes sp x n := by
  apply List.map_congr_left
  intro i hi
  exact h _ (by omega) (by have := List.mem_range.1 hi; omega)

end Sys2Proof.Machine
end

