-- ==== Sys2Proof/Laws/Command.lean ====
section
/-! SUPPORT. What the shared frame of a command can do: starting it, its checks, the launches that stop the model, and
its two ends. -/

namespace Sys2Proof.Machine

/-! ### Starting a command -/

theorem command_ready (w : Word) (body : State → Outcome) (s : State) (h : s.status.fault = false) :
    command w body s = body (s.start w) := by simp [command, h]

/-- A write of a command word does nothing while a fault is set (60_exceptions R265). -/
theorem command_faulted (w : Word) (body : State → Outcome) (s : State) (h : s.status.fault = true) :
    command w body s = .next s := by simp [command, h]

@[simp] theorem Status.start_fault (f : Status) : f.start.fault = f.fault := rfl
@[simp] theorem Status.start_done (f : Status) : f.start.done = false := rfl
@[simp] theorem Status.start_notWorth (f : Status) : f.start.notWorth = false := rfl
@[simp] theorem Status.start_palOvf (f : Status) : f.start.palOvf = f.palOvf := rfl
@[simp] theorem Status.start_bswOpen (f : Status) : f.start.bswOpen = f.bswOpen := rfl
@[simp] theorem Status.start_bsrOpen (f : Status) : f.start.bsrOpen = f.bsrOpen := rfl
@[simp] theorem Status.start_sessValid (f : Status) : f.start.sessValid = f.sessValid := rfl

@[simp] theorem State.start_areaA (s : State) (w : Word) : (s.start w).areaA = s.areaA := rfl
@[simp] theorem State.start_areaB (s : State) (w : Word) : (s.start w).areaB = s.areaB := rfl
@[simp] theorem State.start_areaRaw (s : State) (w : Word) : (s.start w).areaRaw = s.areaRaw := rfl
@[simp] theorem State.start_grid (s : State) (w : Word) (r : Area) : (s.start w).grid r = s.grid r := rfl
@[simp] theorem State.start_input (s : State) (w : Word) : (s.start w).input = s.input := rfl
@[simp] theorem State.start_rawPack (s : State) (w : Word) : (s.start w).rawPack = s.rawPack := rfl
@[simp] theorem State.start_rawSize (s : State) (w : Word) : (s.start w).rawSize = s.rawSize := rfl
@[simp] theorem State.start_byte (s : State) (w : Word) (sp : Space) (a : Nat) :
    (s.start w).byte sp a = s.byte sp a := rfl
@[simp] theorem checkRect_start (s : State) (w : Word) : checkRect (s.start w) = checkRect s := rfl
@[simp] theorem checkFormatA_start (s : State) (w : Word) : checkFormatA (s.start w) = checkFormatA s := rfl
@[simp] theorem checkFormatB_start (s : State) (w : Word) : checkFormatB (s.start w) = checkFormatB s := rfl
@[simp] theorem checkRaw_start (s : State) (w : Word) : checkRaw (s.start w) = checkRaw s := rfl
@[simp] theorem checkTileSide_start (s : State) (w : Word) : checkTileSide (s.start w) = checkTileSide s := rfl
@[simp] theorem checkMaxColors_start (s : State) (w : Word) : checkMaxColors (s.start w) = checkMaxColors s := rfl
@[simp] theorem checkMethods_start (s : State) (w : Word) : checkMethods (s.start w) = checkMethods s := rfl
@[simp] theorem stopAreaA_start (s : State) (w : Word) : stopAreaA (s.start w) = stopAreaA s := rfl
@[simp] theorem stopAreaB_start (s : State) (w : Word) : stopAreaB (s.start w) = stopAreaB s := rfl
@[simp] theorem stopAreaRaw_start (s : State) (w : Word) : stopAreaRaw (s.start w) = stopAreaRaw s := rfl
@[simp] theorem stopInput_start (s : State) (w : Word) : stopInput (s.start w) = stopInput s := rfl
@[simp] theorem stopOutput_start (s : State) (w : Word) : stopOutput (s.start w) = stopOutput s := rfl
@[simp] theorem stopPrev_start (s : State) (w : Word) : stopPrev (s.start w) = stopPrev s := rfl

/-! ### Checks and stops -/

@[simp] theorem firstSome_nil {α : Type} : firstSome ([] : List (Option α)) = none := rfl

theorem firstSome_cons {α : Type} (x : Option α) (l : List (Option α)) :
    firstSome (x :: l) = match x with | some r => some r | none => firstSome l := by cases x <;> rfl

theorem firstSome_eq_none {α : Type} (l : List (Option α)) : firstSome l = none ↔ ∀ x ∈ l, x = none := by
  induction l with
  | nil => simp
  | cons x l ih => cases x <;> simp [firstSome, ih]

/-- The first failure is one of the listed ones. -/
theorem firstSome_mem {α : Type} (l : List (Option α)) (r : α) (h : firstSome l = some r) : some r ∈ l := by
  induction l with
  | nil => simp at h
  | cons x l ih =>
    cases x with
    | none => exact List.mem_cons_of_mem _ (ih h)
    | some q => obtain rfl : q = r := by simpa [firstSome] using h
                exact List.mem_cons_self ..

theorem raiseIf_eq_none (c : Bool) (code : FaultCode) (info : Nat) : raiseIf c code info = none ↔ c = false := by
  cases c <;> simp [raiseIf]

/-- A check raises its own code only. -/
theorem raiseIf_eq_some (c : Bool) (code : FaultCode) (info : Nat) (r : Raise) (h : raiseIf c code info = some r) :
    c = true ∧ r = ⟨code, info⟩ := by
  cases c <;> simp_all [raiseIf]

theorem word_ne_zero (v : Word) : ¬ v = 0#32 ↔ 0 < v.toNat := by
  rw [← BitVec.toNat_inj, BitVec.toNat_ofNat]
  omega

theorem checkRect_eq_none (s : State) : checkRect s = none ↔ s.rectOk := by
  simp [checkRect, firstSome_eq_none, raiseIf_eq_none, State.rectOk, word_ne_zero]

theorem checkFormatA_eq_none (s : State) : checkFormatA s = none ↔ s.formatAOk := by
  simp [checkFormatA, firstSome_eq_none, raiseIf_eq_none, State.formatAOk, Config.pixelBytes]

theorem checkFormatB_eq_none (s : State) : checkFormatB s = none ↔ s.formatBOk := by
  simp [checkFormatB, firstSome_eq_none, raiseIf_eq_none, State.formatBOk, State.prevValid]

theorem checkRaw_eq_none (s : State) : checkRaw s = none ↔ s.rawOk := by
  simp [checkRaw, firstSome_eq_none, raiseIf_eq_none, State.rawOk, word_ne_zero]

theorem checkTileSide_eq_none (s : State) : checkTileSide s = none ↔ s.tileOk := by
  simp [checkTileSide, raiseIf_eq_none, State.tileOk]

theorem checkMaxColors_eq_none (s : State) :
    checkMaxColors s = none ↔ 1 ≤ s.regs.arg0.toNat ∧ s.regs.arg0.toNat ≤ Config.palMax := by
  simp only [checkMaxColors, raiseIf_eq_none, Bool.or_eq_false_iff, beq_eq_false_iff_ne, ne_eq,
    BitVec.ofNat_eq_ofNat, word_ne_zero, decide_eq_false_iff_not, Nat.not_lt, Nat.succ_le_iff, Nat.pos_iff_ne_zero]

theorem checkMethods_eq_none (s : State) :
    checkMethods s = none ↔ s.regs.cfgEnc.toNat ≤ 3 ∧ s.regs.cfgCompr.toNat ≤ 4 := by
  simp [checkMethods, firstSome_eq_none, raiseIf_eq_none]

/-- A source that passes has a length of 32 bits (00_scope R8). -/
theorem checkSource_eq_none (src : List Byte) : checkSource src = none ↔ src.length < 2 ^ 32 := by
  rw [checkSource, raiseIf_eq_none, decide_eq_false_iff_not]
  unfold Config.maxRectBytes
  omega

/-- Where the source's length fits its field, step 4 is that of 45_selector R222. -/
theorem State.payload_eq (s : State) (src : List Byte) (h : src.length < 2 ^ 32) :
    s.payload src = compressStep s.regs.cfgCompr.toNat src s.regs.cfgLevel := by
  rw [State.payload, (checkSource_eq_none src).2 h]
  cases compressStep s.regs.cfgCompr.toNat src s.regs.cfgLevel <;> simp

/-- A compressed payload comes with a source whose length fits its field (log 25). -/
theorem State.payload_fits (s : State) (src payload : List Byte) (compr : Nat)
    (h : s.payload src = .ok (payload, compr)) : compr = 0 ∨ src.length < 2 ^ 32 := by
  rw [State.payload] at h
  rcases hc : compressStep s.regs.cfgCompr.toNat src s.regs.cfgLevel with r | ⟨p, c⟩ <;> rw [hc] at h
  · cases h
  · by_cases h0 : c = 0
    · subst h0
      injection h with h
      injection h with _ h
      exact .inl h.symm
    · rcases hs : checkSource src with _ | r
      · exact .inr ((checkSource_eq_none src).1 hs)
      · simp [h0, hs, Config.comprNone] at h

theorem stopBound_eq_none (n : Nat) : stopBound n = none ↔ n ≤ Config.spaceSize := by
  simp [stopBound]

theorem stopAreaA_eq_none (s : State) : stopAreaA s = none ↔ s.areaFits s.areaA Config.pixelBytes := by
  simp [stopAreaA, firstSome_eq_none, stopBound_eq_none, stopStride, State.areaFits, State.areaA, State.area]

theorem stopAreaRaw_eq_none (s : State) : stopAreaRaw s = none ↔ s.areaFits s.areaRaw s.regs.pixaBpp.toNat := by
  simp [stopAreaRaw, firstSome_eq_none, stopBound_eq_none, stopStride, State.areaFits, State.areaRaw, State.area]

theorem stopAreaB_eq_none (s : State) :
    stopAreaB s = none ↔
      s.areaFits s.areaB Config.pixelBytes ∧ (s.areaA = s.areaB ∨ s.areaA.overlaps s.areaB = false) := by
  have h1 : stopStride s s.regs.pixbStride Config.pixelBytes = none ↔
      (s.regs.rectX.toNat + s.regs.rectW.toNat) * Config.pixelBytes ≤ s.areaB.stride := by
    simp [stopStride, State.areaB, State.area]
  have h2 : (if s.areaA ≠ s.areaB ∧ s.areaA.overlaps s.areaB then some (Stop.refused .buffersOverlap) else none) = none ↔
      (s.areaA = s.areaB ∨ s.areaA.overlaps s.areaB = false) := by
    by_cases h : s.areaA = s.areaB <;> simp [h]
  rw [stopAreaB, firstSome_eq_none]
  simp only [List.mem_cons, List.not_mem_nil, or_false, forall_eq_or_imp, forall_eq, h1, h2, stopBound_eq_none,
    State.areaFits, and_assoc]

theorem stopInput_eq_none (s : State) : stopInput s = none ↔ s.inputFits := by
  simp [stopInput, stopBound_eq_none, State.inputFits]

theorem stopOutput_eq_none (s : State) : stopOutput s = none ↔ s.outputFits := by
  simp [stopOutput, stopBound_eq_none, State.outputFits]

/-! ### The launch -/

/-- A launch whose checks and stops all pass runs its operation. -/
theorem launch_go (s : State) (checks : List (Option Raise)) (stops : List (Option Stop)) (esc : State → Raise → State)
    (go : State → State) (hc : ∀ x ∈ checks, x = none) (hs : ∀ x ∈ stops, x = none) :
    launch s checks stops esc go = .next (go s) := by
  simp [launch, (firstSome_eq_none checks).2 hc, (firstSome_eq_none stops).2 hs]

/-- All a launch can do when it answers a next state. -/
theorem launch_cases (s t : State) (checks : List (Option Raise)) (stops : List (Option Stop))
    (esc : State → Raise → State) (go : State → State) (h : launch s checks stops esc go = .next t) :
    (∃ r, firstSome checks = some r ∧ t = esc s r) ∨
      ((∀ x ∈ checks, x = none) ∧ (∀ x ∈ stops, x = none) ∧ t = go s) := by
  simp only [launch] at h
  split at h
  · rename_i r hr
    exact .inl ⟨r, hr, by simpa using h.symm⟩
  · rename_i hc
    split at h
    · rename_i st hst
      cases st <;> simp [Stop.outcome] at h
    · rename_i hst
      exact .inr ⟨(firstSome_eq_none _).1 hc, (firstSome_eq_none _).1 hst, by simpa using h.symm⟩

/-! ### The ends -/

theorem State.writeOut_fits (s : State) (bytes : List Byte) (after : State → State)
    (h : bytes.length ≤ s.regs.outCap.toNat) : s.writeOut bytes after = (after (s.storeOut bytes)).complete := by
  rw [State.writeOut, if_neg (by omega)]

theorem State.writeOut_full (s : State) (bytes : List Byte) (after : State → State)
    (h : s.regs.outCap.toNat < bytes.length) : s.writeOut bytes after = s.raiseEncode ⟨.outCap, bytes.length⟩ := by
  rw [State.writeOut, if_pos h]

/-- All the end of an encoding command can do. -/
theorem State.writeOut_cases (s : State) (bytes : List Byte) (after : State → State) :
    (bytes.length ≤ s.regs.outCap.toNat ∧ s.writeOut bytes after = (after (s.storeOut bytes)).complete) ∨
      (s.regs.outCap.toNat < bytes.length ∧ s.writeOut bytes after = s.raiseEncode ⟨.outCap, bytes.length⟩) := by
  rcases Nat.lt_or_ge s.regs.outCap.toNat bytes.length with h | h
  · exact .inr ⟨h, s.writeOut_full bytes after h⟩
  · exact .inl ⟨h, s.writeOut_fits bytes after h⟩

/-- The output holds the bytes (45_selector R236). -/
theorem State.storeOut_readBytes (s : State) (bytes : List Byte) :
    (s.storeOut bytes).readBytes .str s.regs.outBase.toNat bytes.length = bytes :=
  State.readBytes_writeStr _ _ _

/-- Outside the output buffer every byte of STR stays. -/
theorem State.storeOut_str_outside (s : State) (bytes : List Byte) (a : Nat)
    (h : bytes.length ≤ s.regs.outCap.toNat) (ha : ¬ s.inOutput a) :
    (s.storeOut bytes).byte .str a = s.byte .str a := by
  simp only [State.inOutput] at ha
  show (State.writeStr (s.forgetStr _ _) _ _).byte .str a = _
  rw [State.byte_writeStr, if_neg (by omega), State.byte_forgetStr _ _ _ _ (by omega)]

theorem State.storeOut_pix_byte (s : State) (bytes : List Byte) (a : Nat) :
    (s.storeOut bytes).byte .pix a = s.byte .pix a := by
  exact State.byte_forgetStr_pix s _ _ a

theorem State.raiseEncode_str_outside (s : State) (r : Raise) (a : Nat) (ha : ¬ s.inOutput a) :
    (s.raiseEncode r).byte .str a = s.byte .str a :=
  State.byte_forgetStr _ _ _ _ ha

theorem State.raiseEncode_pix_byte (s : State) (r : Raise) (a : Nat) :
    (s.raiseEncode r).byte .pix a = s.byte .pix a := State.byte_forgetStr_pix ..

theorem State.raiseDecode_pix_outside (s : State) (q : Area) (r : Raise) (a : Nat) (h : q.contains a = false) :
    (s.raiseDecode q r).byte .pix a = s.byte .pix a := State.byte_forgetPix _ _ _ h

theorem State.raiseDecode_str_byte (s : State) (q : Area) (r : Raise) (a : Nat) :
    (s.raiseDecode q r).byte .str a = s.byte .str a := State.byte_forgetPix_str ..

/-- The bytes the model forgets are those of the rectangle's rows. -/
theorem Area.contains_iff (r : Area) (a : Nat) : r.contains a = true ↔ r.holds a := by
  simp only [Area.contains, Bool.and_eq_true, decide_eq_true_eq, Area.holds]
  constructor
  · rintro ⟨⟨h0, h1⟩, h2⟩
    have hj : r.rowAt a * r.stride ≤ a - r.start :=
      (Nat.mul_le_mul_right _ (Nat.min_le_left ..)).trans (Nat.div_mul_le_self ..)
    refine ⟨r.rowAt a, a - r.row (r.rowAt a), ?_, ?_, ?_⟩
    · simp only [Area.rowAt]
      omega
    · simp only [Area.row] at h2 ⊢
      omega
    · simp only [Area.row]
      omega
  · rintro ⟨j, o, hj, ho, rfl⟩
    have h1 : j * r.stride ≤ r.rowAt (r.row j + o) * r.stride := by
      rcases Nat.eq_zero_or_pos r.stride with h0 | hpos
      · simp [h0]
      · apply Nat.mul_le_mul_right
        simp only [Area.rowAt, Area.row]
        refine Nat.le_min.2 ⟨?_, by omega⟩
        rw [Nat.le_div_iff_mul_le hpos]
        omega
    refine ⟨⟨by omega, by simp only [Area.row]; omega⟩, ?_⟩
    simp only [Area.row] at h1 ⊢
    omega

theorem Area.contains_eq_false (r : Area) (a : Nat) (h : ¬ r.holds a) : r.contains a = false := by
  rw [Bool.eq_false_iff]
  exact fun hc => h ((r.contains_iff a).1 hc)

/-- The overlap test of two areas looks at every byte of a row. -/
theorem Area.meets_iff (r : Area) (lo len : Nat) :
    r.meets lo len = true ↔ ∃ a, lo ≤ a ∧ a < lo + len ∧ r.holds a := by
  simp only [Area.meets, Bool.and_eq_true, decide_eq_true_eq, Area.holds]
  constructor
  · rintro ⟨⟨⟨⟨h1, h2⟩, h3⟩, h4⟩, h5⟩
    have hj : r.rowAt (lo + len - 1) * r.stride ≤ lo + len - 1 - r.start :=
      (Nat.mul_le_mul_right _ (Nat.min_le_left ..)).trans (Nat.div_mul_le_self ..)
    have hrow : r.row (r.rowAt (lo + len - 1)) ≤ lo + len - 1 := by
      simp only [Area.row]
      omega
    refine ⟨max lo (r.row (r.rowAt (lo + len - 1))), by omega, by omega, r.rowAt (lo + len - 1),
      max lo (r.row (r.rowAt (lo + len - 1))) - r.row (r.rowAt (lo + len - 1)), ?_, by omega, by omega⟩
    simp only [Area.rowAt]
    omega
  · rintro ⟨a, ha1, ha2, j, o, hj, ho, rfl⟩
    have h1 : j * r.stride ≤ r.rowAt (lo + len - 1) * r.stride := by
      rcases Nat.eq_zero_or_pos r.stride with h0 | hpos
      · simp [h0]
      · apply Nat.mul_le_mul_right
        simp only [Area.rowAt, Area.row] at *
        refine Nat.le_min.2 ⟨?_, by omega⟩
        rw [Nat.le_div_iff_mul_le hpos]
        omega
    simp only [Area.row] at *
    omega

/-- Two rectangles overlap exactly when they share a byte (70_reset R290). -/
theorem Area.overlaps_iff (r q : Area) : r.overlaps q = true ↔ ∃ a, r.holds a ∧ q.holds a := by
  simp only [Area.overlaps, List.any_eq_true, List.mem_range]
  constructor
  · rintro ⟨j, hj, hm⟩
    obtain ⟨a, h1, h2, h3⟩ := (Area.meets_iff _ _ _).1 hm
    exact ⟨a, ⟨j, a - r.row j, hj, by omega, by omega⟩, h3⟩
  · rintro ⟨a, ⟨j, o, hj, ho, rfl⟩, hq⟩
    exact ⟨j, hj, (Area.meets_iff _ _ _).2 ⟨_, by omega, by omega, hq⟩⟩

end Sys2Proof.Machine
end

