-- ==== Sys2Proof/Laws/Decoder.lean ====
section
/-! SUPPORT. What the decoders do to the machine: where the cursors stand decides, and only the rectangle's pixels are
written. One lemma per way a token can end. -/

namespace Sys2Proof.Machine

/-! ### Writing what has been decided -/

/-- The pixels of a list, oldest (last) first. -/
def State.putPixels (s : State) (px : List (Nat × Color)) : State := px.foldr (fun p t => t.putPixel p.1 p.2) s

@[simp] theorem State.putPixels_nil (s : State) : s.putPixels [] = s := rfl

@[simp] theorem State.putPixels_cons (s : State) (p : Nat × Color) (px : List (Nat × Color)) :
    s.putPixels (p :: px) = (s.putPixels px).putPixel p.1 p.2 := rfl

/-- Writing pixels changes PIX only. -/
theorem State.putPixels_eq (s : State) (px : List (Nat × Color)) :
    s.putPixels px = { s with pix := (s.putPixels px).pix } := by
  induction px with
  | nil => rfl
  | cons p px ih =>
    rw [State.putPixels_cons, ih]
    rfl

/-- A run that `emitRun` or `qtColor` collects is written in its own order. -/
theorem State.putPixels_foldl (s : State) (l : List Nat) (f : Nat → Nat) (c : Color) (px : List (Nat × Color)) :
    s.putPixels (l.foldl (fun q n => (f n, c) :: q) px) =
      l.foldl (fun t n => State.putPixel t (f n) c) (s.putPixels px) := by
  induction l generalizing px with
  | nil => rfl
  | cons x l ih =>
    rw [List.foldl_cons, ih]
    rfl

theorem State.flush_eq (s : State) (d : Dec) (h : d.rawBytes = []) : s.flush d = s.putPixels d.px := by
  simp [State.flush, State.putPixels, h]

theorem State.flush_nil (s : State) (d : Dec) (h1 : d.px = []) (h2 : d.rawBytes = []) : s.flush d = s := by
  rw [State.flush_eq s d h2, h1, State.putPixels_nil]

/-- A raw copy changes PIX only (45_selector R221). -/
theorem State.rawUnpack_eq (s : State) (src : List Byte) :
    s.rawUnpack src = { s with pix := (s.rawUnpack src).pix } := by
  have h : ∀ (l : List Nat) (t : State) (r : Area),
      l.foldl (fun t j => t.writePix (r.row j) ((src.drop (j * r.rowLen)).take r.rowLen)) t =
        { t with pix := (l.foldl (fun t j => t.writePix (r.row j) ((src.drop (j * r.rowLen)).take r.rowLen)) t).pix } := by
    intro l
    induction l with
    | nil => intro t r; rfl
    | cons j l ih =>
      intro t r
      rw [List.foldl_cons, ih]
      rfl
  exact h _ s s.areaRaw

/-- The machine's writes of a decoder change PIX only. -/
theorem State.flush_pix (s : State) (d : Dec) : s.flush d = { s with pix := (s.flush d).pix } := by
  unfold State.flush
  split
  · exact s.putPixels_eq d.px
  · have h : ∀ t u : State, t = { s with pix := t.pix } → u = { t with pix := u.pix } → u = { s with pix := u.pix } := by
      intro t u ht hu
      rw [hu, ht]
    exact h _ _ (s.putPixels_eq d.px) (State.rawUnpack_eq _ _)

/-! ### Where the cursors stand decides -/

theorem State.settle_fin (s : State) (d : Dec) (h : d.pos = .fin) :
    s.settle d = { ((s.flush d).decoded d).complete with dec := none } := by
  simp [State.settle, h]

theorem State.settle_raised (s : State) (d : Dec) (r : Raise) (h : d.pos = .raised r) :
    s.settle d = (s.faultSession d).raiseDecode (s.target d.kind) r := by
  simp [State.settle, h]

theorem State.settle_running (s : State) (d : Dec) (h : d.running = true) (hraw : d.rawBytes = []) :
    s.settle d = { s.putPixels d.px with dec := some { d with px := [], rawBytes := [] } } := by
  rw [← State.flush_eq s d hraw]
  unfold State.settle
  split
  · rename_i hp
    simp [Dec.running, hp] at h
  · rename_i hp
    simp [Dec.running, hp] at h
  · rfl

/-- Cursors that stand at a fault end the command in it. -/
theorem State.settle_raise (s : State) (d : Dec) (code : FaultCode) (info : Nat) :
    EndsInFault (s.settle (d.raise code info)) (BitVec.ofNat 32 code.number) info := by
  rw [State.settle_raised s _ _ rfl]
  refine ⟨rfl, rfl, rfl, ?_⟩
  show (sat32 info).toNat = _
  rw [sat32, BitVec.toNat_ofNat]
  omega

/-- Cursors that stand at the end of the stream end the command well, its pixels written. -/
theorem State.settle_endsWell (s : State) (d : Dec) (h : d.pos = .fin) (hr : d.rawBytes = []) :
    EndsWell (s.putPixels d.px) d (s.settle d) := by
  rw [State.settle_fin s d h, State.flush_eq s d hr, State.putPixels_eq]
  refine ⟨fun hk => ?_, fun hk => ?_, fun hk => ?_, fun hk => ?_⟩
  · simp only [State.decoded, hk]; rfl
  · simp only [State.decoded, hk]; rfl
  · rcases hk with hk | hk <;> simp only [State.decoded, hk] <;> rfl
  · simp only [State.decoded, hk]; rfl

/-- What the end of a tile leads to (42_tile R159, R161). -/
theorem State.settle_nextTile (s : State) (d : Dec) (hr : d.rawBytes = []) :
    AfterTile (s.putPixels d.px) { d with px := [] } (s.settle d.nextTile) := by
  refine ⟨fun h => ?_, fun h => ⟨fun h2 => ?_, fun h2 h3 => ?_⟩⟩
  · have e : d.nextTile = { d with tile := d.tile + 1, made := 0, pos := .tile } := by rw [Dec.nextTile, if_pos h]
    rw [e, State.settle_running s { d with tile := d.tile + 1, made := 0, pos := .tile } rfl hr]
    simp [hr]
  · have e : d.nextTile = { d with pos := .fin } := by
      rw [Dec.nextTile, if_neg (Nat.not_lt.2 h), if_pos h2]
    rw [e]
    exact State.settle_endsWell s { d with pos := .fin } rfl hr
  · have e : d.nextTile = d.raise .length d.ip := by
      rw [Dec.nextTile, if_neg (Nat.not_lt.2 h), if_neg fun h4 => h4.elim h2 h3]
    rw [e]
    exact State.settle_raise s d .length d.ip

/-- The pixels of a run, as `emitRun` collects them, fill the tile. -/
theorem State.putPixels_run (s : State) (d : Dec) (run : Nat) (c : Color) (h : d.px = []) :
    s.putPixels ((List.range run).foldl (fun l n => (tilePos d.w d.tile (d.made + n), c) :: l) d.px) =
      s.fillTile d run c := by
  rw [State.putPixels_foldl s _ fun n => tilePos d.w d.tile (d.made + n), h]
  rfl

/-! ### One token -/

/-- A token that the decoder expects. -/
theorem onToken_next (s : State) (d e : Dec) (f : Dec → Option Dec) (hs : s.dec = some d) (hf : f d = some e) :
    onToken f s = .next (s.settle e) := by
  simp [onToken, hs, hf]

/-- All a token can do. -/
theorem onToken_cases (s t : State) (f : Dec → Option Dec) (h : onToken f s = .next t) :
    ∃ d e, s.dec = some d ∧ f d = some e ∧ t = s.settle e := by
  unfold onToken at h
  split at h
  · cases h
  · rename_i d hd
    split at h
    · rename_i e he
      exact ⟨d, e, hd, he, by simpa using h.symm⟩
    · cases h

/-- All that producing pixels can do (42_tile R153, R156, R159). -/
theorem Dec.emitRun_cases (d : Dec) (c : Color) (run : Nat) :
    (d.npix < d.made + run ∧ d.emitRun c run = d.raise .run run) ∨
      ∃ e : Dec, d.made + run ≤ d.npix ∧
        e = { d with
          px := (List.range run).foldl (fun l n => (tilePos d.w d.tile (d.made + n), c) :: l) d.px
          made := d.made + run } ∧
        d.emitRun c run = if d.made + run = d.npix then e.endTile else e := by
  rcases Nat.lt_or_ge d.npix (d.made + run) with h | h
  · exact .inl ⟨h, by rw [Dec.emitRun, if_pos h]⟩
  · exact .inr ⟨_, h, rfl, by rw [Dec.emitRun, if_neg (by omega)]⟩

/-- All that the body of a palette tile can start with (42_tile R156, R157). -/
theorem Dec.startBody_cases (d : Dec) (rle : Bool) :
    ((rle = true ∨ Config.tilePackedMax < d.pal.length) ∧ d.startBody rle = { d with pos := .rle }) ∨
      (rle = false ∧ d.pal.length ≤ Config.tilePackedMax ∧
        ((tileWidth d.pal.length = 0 ∧ d.startBody rle = d.emitRun (d.pal.headD 0) d.npix) ∨
          (tileWidth d.pal.length ≠ 0 ∧ d.inp.length < d.bodyLen (tileWidth d.pal.length) ∧
            d.startBody rle = d.raise .trunc d.ip) ∨
          (tileWidth d.pal.length ≠ 0 ∧ d.bodyLen (tileWidth d.pal.length) ≤ d.inp.length ∧
            d.startBody rle = { d with bitpos := 0, pos := .packed (tileWidth d.pal.length) }))) := by
  unfold Dec.startBody Dec.need
  split
  · rename_i h
    exact .inl ⟨by simpa using h, rfl⟩
  · rename_i h
    simp only [Bool.not_eq_true, not_or, Nat.not_lt] at h
    refine .inr ⟨h.1, h.2, ?_⟩
    split
    · rename_i h0
      exact .inl ⟨h0, rfl⟩
    · rename_i h0
      split
      · rename_i hl
        exact .inr (.inl ⟨h0, hl, rfl⟩)
      · rename_i hl
        exact .inr (.inr ⟨h0, Nat.not_lt.1 hl, rfl⟩)

/-- The end of a tile is the end of its pixels, with a packed body behind the cursor (42_tile R157, R159). -/
theorem Dec.endTile_eq (d : Dec) :
    (∃ w, d.pos = .packed w ∧ d.endTile = (d.drop (d.bodyLen w)).nextTile) ∨
      ((∀ w, d.pos ≠ .packed w) ∧ d.endTile = d.nextTile) := by
  unfold Dec.endTile
  split
  · rename_i w h
    exact .inl ⟨w, h, rfl⟩
  · rename_i h
    exact .inr ⟨h, rfl⟩

/-- All that the next tile can do (42_tile R159). -/
theorem Dec.nextTile_cases (d : Dec) :
    (d.tile + 1 < tileCount d.w d.h ∧ d.nextTile = { d with tile := d.tile + 1, made := 0, pos := .tile }) ∨
      d.nextTile = { d with pos := .fin } ∨ (d.kind ≠ .tile ∧ d.nextTile = d.raise .length d.ip) := by
  unfold Dec.nextTile
  split
  · rename_i h
    exact .inl ⟨h, rfl⟩
  · split
    · exact .inr (.inl rfl)
    · rename_i h
      exact .inr (.inr ⟨fun hk => h (.inl hk), rfl⟩)

/-- All that the next node can be (43_quadtree R187, R188). -/
theorem Dec.nextNode_cases (d : Dec) :
    (∃ r c rest, d.stack = (0, r, c) :: rest ∧ d.nextNode = { d with pos := .leaf 0 r c, stack := rest }) ∨
      (∃ l r c rest, d.stack = (l + 1, r, c) :: rest ∧
        d.nextNode = { d with pos := .split (l + 1) r c, stack := rest }) ∨
      (d.stack = [] ∧ (d.nextNode = { d with pos := .fin } ∨ d.nextNode = d.raise .leaf d.leaves ∨
        d.nextNode = d.raise .length (brConsumed d.splitpos))) := by
  unfold Dec.nextNode
  split
  · rename_i r c rest h
    exact .inl ⟨r, c, rest, h, rfl⟩
  · rename_i l r c rest h
    exact .inr (.inl ⟨l, r, c, rest, h, rfl⟩)
  · rename_i h
    refine .inr (.inr ⟨h, ?_⟩)
    split
    · exact .inr (.inl rfl)
    · split
      · exact .inr (.inr rfl)
      · exact .inl rfl

/-- All that the next diff word can be (44_diff R207). -/
theorem Dec.nextWord_cases (d : Dec) :
    (d.inp ≠ [] ∧ d.nextWord = { d with pos := .diff }) ∨
      (d.inp = [] ∧ d.cursor = d.w * d.h ∧ d.nextWord = { d with pos := .fin }) ∨
      (d.inp = [] ∧ d.cursor ≠ d.w * d.h ∧ d.nextWord = d.raise .diffCount d.cursor) := by
  unfold Dec.nextWord
  split
  · rename_i h
    split
    · rename_i hc
      exact .inr (.inr ⟨h, hc, rfl⟩)
    · rename_i hc
      exact .inr (.inl ⟨h, by simpa using hc, rfl⟩)
  · rename_i h
    exact .inl ⟨h, rfl⟩

/-! ### No leftovers (10_state R29, R35; log 2) -/

/-- A decoding command starts from fresh cursors, whatever cursors the state holds. -/
@[simp] theorem State.begin_dec (s : State) (e : Option Dec) (kind : DecKind) :
    ({ s with dec := e }).begin kind = s.begin kind := rfl

/-- A decoding command ends with no cursors. -/
theorem State.runDecoder_dec (s : State) (d : Dec) (h : d.decode.running = false) : (s.runDecoder d).dec = none := by
  simp only [Dec.running] at h
  split at h
  · rename_i hp
    simp only [State.runDecoder, State.settle, hp]
  · rename_i r hp
    simp only [State.runDecoder, State.settle, hp, State.raiseDecode]
  · cases h

end Sys2Proof.Machine
end

