-- ==== Sys2Proof/Laws/Layout.lean ====
section
/-! SUPPORT. The laws of Machine/Layout.lean: the byte orders invert, and the bits of a value give it back. -/

namespace Sys2Proof

/-! ### Byte orders -/

@[simp] theorem be16_length (v : BitVec 16) : (be16 v).length = 2 := rfl
@[simp] theorem be32_length (v : Word) : (be32 v).length = 4 := rfl
@[simp] theorem le32_length (v : Word) : (le32 v).length = 4 := rfl
@[simp] theorem c3_length (c : Color) : (c3 c).length = 3 := rfl

@[simp] theorem fromBe16_be16 (v : BitVec 16) : fromBe16 (be16 v) = v := by
  simp only [fromBe16, be16]
  ext i hi
  simp only [BitVec.getElem_append, BitVec.getElem_extractLsb']
  split
  all_goals simp [BitVec.getElem_eq_testBit_toNat, BitVec.getLsbD] <;> congr 1 <;> omega

@[simp] theorem fromBe32_be32 (v : Word) : fromBe32 (be32 v) = v := by
  simp only [fromBe32, be32]
  ext i hi
  simp only [BitVec.getElem_append, BitVec.getElem_extractLsb']
  repeat' split
  all_goals simp [BitVec.getElem_eq_testBit_toNat, BitVec.getLsbD] <;> congr 1 <;> omega

@[simp] theorem fromLe32_le32 (v : Word) : fromLe32 (le32 v) = v := by
  simp only [fromLe32, le32]
  ext i hi
  simp only [BitVec.getElem_append, BitVec.getElem_extractLsb']
  repeat' split
  all_goals simp [BitVec.getElem_eq_testBit_toNat, BitVec.getLsbD] <;> congr 1 <;> omega

@[simp] theorem fromC3_c3 (c : Color) : fromC3 (c3 c) = c := by
  simp only [fromC3, c3]
  ext i hi
  simp only [BitVec.getElem_append, BitVec.getElem_extractLsb']
  repeat' split
  all_goals simp [BitVec.getElem_eq_testBit_toNat, BitVec.getLsbD] <;> congr 1 <;> omega

/-- R7 `PAYLOAD_WORD_ORDER` is big-endian. -/
@[simp] theorem payload32_eq (v : Word) : payload32 v = be32 v := rfl
@[simp] theorem fromPayload32_eq (bs : List Byte) : fromPayload32 bs = fromBe32 bs := rfl

/-- R7 `PIX_WORD_ORDER` is little-endian. -/
@[simp] theorem pix32_eq (v : Word) : pix32 v = le32 v := rfl
@[simp] theorem fromPix32_eq (bs : List Byte) : fromPix32 bs = fromLe32 bs := rfl

/-- R7 `RLE_FLAG` is bit 7 of a header byte and of an index byte. -/
theorem hasRleFlag_eq (b : Byte) : hasRleFlag b = b.getLsbD 7 := by
  revert b
  decide

/-- `qt_width` as 30_encoding R87 writes it out. -/
theorem qtWidth_eq (n : Nat) :
    qtWidth n = if n ≤ 1 then 0 else if n ≤ 2 then 1 else if n ≤ 4 then 2 else if n ≤ 16 then 4
      else if n ≤ 256 then 8 else if n ≤ 65536 then 16 else 32 := by
  simp only [qtWidth, Config.qtColorWidths, List.find?]
  repeat' split
  all_goals simp_all

/-- A width that is smaller cannot index the entries: `qt_width` is the smallest legal one (30_encoding R87). -/
theorem qtWidth_le (n b : Nat) (hb : b ∈ Config.qtColorWidths) (h : n ≤ 2 ^ b) : qtWidth n ≤ b := by
  rw [qtWidth_eq]
  simp only [Config.qtColorWidths, List.mem_cons, List.not_mem_nil, or_false] at hb
  rcases hb with rfl | rfl | rfl | rfl | rfl | rfl | rfl <;> norm_num at h <;> split_ifs <;> omega

@[simp] theorem color_pixelOf (c : Color) : color (pixelOf c) = c := by
  simp [color, pixelOf]

/-- 20_memory R55: the words a structural decoder writes have a zero high byte. -/
theorem pixelOf_high (c : Color) : (pixelOf c).extractLsb' 24 8 = 0 := by
  ext i hi
  simp [pixelOf, BitVec.getElem_extractLsb']

theorem fields32_be32 (l : List Word) : fields32 (l.flatMap be32) = l := by
  induction l with
  | nil => rfl
  | cons v l ih =>
    have h : (v :: l).flatMap be32 = be32 v ++ l.flatMap be32 := rfl
    rw [h]
    show fromBe32 (be32 v) :: fields32 (l.flatMap be32) = v :: l
    rw [fromBe32_be32, ih]

/-! ### Bits -/

@[simp] theorem bitsOf_length (n v : Nat) : (bitsOf n v).length = n := by simp [bitsOf]

theorem natOfBits_append (l : List Bool) (b : Bool) : natOfBits (l ++ [b]) = 2 * natOfBits l + b.toNat := by
  simp [natOfBits]

/-- 40_bitstream R107: the bits `bw_put` appends stand for the low `n` bits of the value. -/
theorem natOfBits_bitsOf (n v : Nat) : natOfBits (bitsOf n v) = v % 2 ^ n := by
  induction n generalizing v with
  | zero => simp [bitsOf, natOfBits, Nat.mod_one]
  | succ n ih =>
    have h : bitsOf (n + 1) v = bitsOf n (v / 2) ++ [v.testBit 0] := by
      simp only [bitsOf, List.range_succ, List.map_append, List.map_cons, List.map_nil]
      congr 1
      · apply List.map_congr_left
        intro i hi
        have := List.mem_range.1 hi
        rw [← Nat.testBit_succ]
        congr 1
        omega
      · simp
    rw [h, natOfBits_append, ih, Nat.pow_succ, Nat.mul_comm (2 ^ n) 2, Nat.mod_mul]
    simp only [Nat.testBit_zero]
    have : (decide (v % 2 = 1)).toNat = v % 2 := by
      rcases Nat.mod_two_eq_zero_or_one v with h | h <;> simp [h]
    omega

theorem natOfBits_lt (l : List Bool) : natOfBits l < 2 ^ l.length := by
  induction l using List.reverseRecOn with
  | nil => simp [natOfBits]
  | append_singleton l b ih =>
    rw [natOfBits_append, List.length_append, List.length_singleton, Nat.pow_succ]
    have := Bool.toNat_le b
    omega

theorem packBits_length (bits : List Bool) : (packBits bits).length = ceilDiv bits.length 8 := by
  simp [packBits]

/-- Bit `i` of the number a sequence of bits stands for. -/
theorem natOfBits_testBit (l : List Bool) (i : Nat) :
    (natOfBits l).testBit i = (decide (i < l.length) && l.getD (l.length - 1 - i) false) := by
  induction l using List.reverseRecOn generalizing i with
  | nil => simp [natOfBits]
  | append_singleton l b ih =>
    rw [natOfBits_append]
    cases i with
    | zero => cases b <;> simp [Nat.testBit_zero]
    | succ i =>
      have hd : (2 * natOfBits l + b.toNat) / 2 = natOfBits l := by
        cases b
        · simp
        · simp
          omega
      rw [Nat.testBit_succ, hd, ih]
      by_cases h : i < l.length
      · simp [h]
        rw [List.getElem_append_left (by omega), List.getElem?_eq_getElem (by omega)]
        have he : l.length - (i + 1) = l.length - 1 - i := by omega
        simp [he]
      · simp [h]

/-- Stream bit `i` of a byte stands at bit `7 − i` (40_bitstream R101). -/
theorem byteOfBits_getLsbD (l : List Bool) (i : Nat) (h : i < 8) :
    (byteOfBits l).getLsbD (7 - i) = l.getD i false := by
  rw [byteOfBits, BitVec.getLsbD_ofNat, natOfBits_testBit]
  simp only [List.length_map, List.length_range]
  have h1 : 8 - 1 - (7 - i) = i := by omega
  have h2 : 7 - i < 8 := by omega
  rw [h1, List.getD_eq_getElem?_getD, List.getElem?_map, List.getElem?_range h]
  simp [h2]

/-- Byte `k` of a completed stream (40_bitstream R101, R103). -/
theorem packBits_getD (bits : List Bool) (k : Nat) (h : k < ceilDiv bits.length 8) :
    (packBits bits).getD k 0 = byteOfBits (bits.drop (8 * k)) := by
  rw [packBits, List.getD_eq_getElem?_getD, List.getElem?_map, List.getElem?_range h]
  rfl

/-! ### Parts of a byte sequence -/

theorem takeAt_append (bs pre part post : List Byte) (off n : Nat) (h : bs = pre ++ part ++ post)
    (h1 : pre.length = off) (h2 : part.length = n) : takeAt bs off n = .ok part := by
  subst h h1 h2
  simp [takeAt]

/-- A wire header is read from the front of whatever follows it (45_selector R224). -/
theorem parseWire_append (e c : BitVec 16) (cl sl : Word) (rest : List Byte)
    (h : (Instr.wireHdr e c cl sl).wf = true) :
    parseWire (wireHdrBytes e c cl sl ++ rest) = .ok (.wireHdr e c cl sl) := by
  simp only [Instr.wf, Bool.and_eq_true, Bool.or_eq_true, decide_eq_true_eq, bne_iff_ne, beq_iff_eq] at h
  obtain ⟨⟨he, hc⟩, h0⟩ := h
  have h1 := takeAt_append (wireHdrBytes e c cl sl ++ rest) [] (be32 Config.wireMagic)
    (be16 e ++ be16 c ++ be32 cl ++ (if e = 0 then [] else be32 sl) ++ rest) 0 4
    (by simp [wireHdrBytes, List.append_assoc]) rfl rfl
  have h2 := takeAt_append (wireHdrBytes e c cl sl ++ rest) (be32 Config.wireMagic) (be16 e)
    (be16 c ++ be32 cl ++ (if e = 0 then [] else be32 sl) ++ rest) 4 2
    (by simp [wireHdrBytes, List.append_assoc]) rfl rfl
  have h3 := takeAt_append (wireHdrBytes e c cl sl ++ rest) (be32 Config.wireMagic ++ be16 e) (be16 c)
    (be32 cl ++ (if e = 0 then [] else be32 sl) ++ rest) 6 2
    (by simp [wireHdrBytes, List.append_assoc]) rfl rfl
  have h4 := takeAt_append (wireHdrBytes e c cl sl ++ rest) (be32 Config.wireMagic ++ be16 e ++ be16 c) (be32 cl)
    ((if e = 0 then [] else be32 sl) ++ rest) 8 4 (by simp [wireHdrBytes, List.append_assoc]) rfl rfl
  simp only [parseWire, h1, h2, h3, h4, Bind.bind, Except.bind, fromBe32_be32, fromBe16_be16]
  rw [if_neg (by simp), if_neg (by omega), if_neg (by omega)]
  by_cases hz : e = 0
  · rw [if_pos hz, h0.resolve_left (fun hn => hn hz)]
  · have h5 := takeAt_append (wireHdrBytes e c cl sl ++ rest)
      (be32 Config.wireMagic ++ be16 e ++ be16 c ++ be32 cl) (be32 sl) rest 12 4
      (by rw [wireHdrBytes, if_neg hz]) rfl rfl
    rw [if_neg hz, h5]
    simp only [fromBe32_be32]

end Sys2Proof
end

