-- ==== Sys2Proof/Laws/PerInstr.lean ====
section
/-! SUPPORT. Statements about every instruction as syntax, one lemma per constructor. -/

namespace Sys2Proof.Laws.CodeFits

/-- The encoded word of a well-formed instruction is a number of its declared width, of at most 32 bits; a wire header
has the 12 or 16 bytes of 30_encoding R74, a raw payload its own length, a quadtree container at least 8 bytes. -/
def Statement (i : Instr) : Prop :=
  i.wf = true →
    match encode i with
    | .word n v => n ≤ 32 ∧ v < 2 ^ n
    | .bytes bs =>
      match i.channel with
      | .wire => bs.length = 12 ∨ bs.length = 16
      | .rawBody n => bs.length = n
      | _ => 8 ≤ bs.length

theorem nop : Statement .nop := fun _ => ⟨by decide, by decide⟩

theorem bswInit : Statement .bswInit := fun _ => ⟨by decide, by decide⟩

theorem bswPut : Statement .bswPut := fun _ => ⟨by decide, by decide⟩

theorem bswFin : Statement .bswFin := fun _ => ⟨by decide, by decide⟩

theorem bsrInit : Statement .bsrInit := fun _ => ⟨by decide, by decide⟩

theorem bsrGet : Statement .bsrGet := fun _ => ⟨by decide, by decide⟩

theorem bsrFin : Statement .bsrFin := fun _ => ⟨by decide, by decide⟩

theorem palBuild : Statement .palBuild := fun _ => ⟨by decide, by decide⟩

theorem palLookup : Statement .palLookup := fun _ => ⟨by decide, by decide⟩

theorem palGet : Statement .palGet := fun _ => ⟨by decide, by decide⟩

theorem tileEnc : Statement .tileEnc := fun _ => ⟨by decide, by decide⟩

theorem tileDec : Statement .tileDec := fun _ => ⟨by decide, by decide⟩

theorem trleEnc : Statement .trleEnc := fun _ => ⟨by decide, by decide⟩

theorem trleDec : Statement .trleDec := fun _ => ⟨by decide, by decide⟩

theorem trleRst : Statement .trleRst := fun _ => ⟨by decide, by decide⟩

theorem qtEnc : Statement .qtEnc := fun _ => ⟨by decide, by decide⟩

theorem qtDec : Statement .qtDec := fun _ => ⟨by decide, by decide⟩

theorem diffEnc : Statement .diffEnc := fun _ => ⟨by decide, by decide⟩

theorem diffDec : Statement .diffDec := fun _ => ⟨by decide, by decide⟩

theorem rawPack : Statement .rawPack := fun _ => ⟨by decide, by decide⟩

theorem rawUnpack : Statement .rawUnpack := fun _ => ⟨by decide, by decide⟩

theorem selEnc : Statement .selEnc := fun _ => ⟨by decide, by decide⟩

theorem selDec : Statement .selDec := fun _ => ⟨by decide, by decide⟩

theorem reset (ign : BitVec 31) : Statement (.reset ign) := fun _ => ⟨by decide, by have := ign.isLt; omega⟩

theorem wireHdr (e c : BitVec 16) (cl sl : Word) : Statement (.wireHdr e c cl sl) := by
  intro _
  show _ = 12 ∨ _ = 16
  simp only [wireHdrBytes]
  split <;> simp

theorem encNone : Statement .encNone := fun _ => ⟨by decide, by decide⟩

theorem encDiff : Statement .encDiff := fun _ => ⟨by decide, by decide⟩

theorem encTrle : Statement .encTrle := fun _ => ⟨by decide, by decide⟩

theorem encQuadtree : Statement .encQuadtree := fun _ => ⟨by decide, by decide⟩

theorem comprNone : Statement .comprNone := fun _ => ⟨by decide, by decide⟩

theorem comprLz4 : Statement .comprLz4 := fun _ => ⟨by decide, by decide⟩

theorem comprZstd : Statement .comprZstd := fun _ => ⟨by decide, by decide⟩

theorem comprZlib : Statement .comprZlib := fun _ => ⟨by decide, by decide⟩

theorem comprBzip2 : Statement .comprBzip2 := fun _ => ⟨by decide, by decide⟩

theorem rawPayload (bs : List Byte) : Statement (.rawPayload bs) := fun _ => rfl

theorem tileRaw : Statement .tileRaw := fun _ => ⟨by decide, by decide⟩

theorem tilePlainRle : Statement .tilePlainRle := fun _ => ⟨by decide, by decide⟩

theorem tileReusePacked : Statement .tileReusePacked := fun _ => ⟨by decide, by decide⟩

theorem tileReuseRle : Statement .tileReuseRle := fun _ => ⟨by decide, by decide⟩

theorem tileSolid : Statement .tileSolid := fun _ => ⟨by decide, by decide⟩

theorem tilePacked (n : BitVec 7) : Statement (.tilePacked n) := fun _ => ⟨by decide, by have := n.isLt; omega⟩

theorem tilePalRleLow (n : BitVec 7) : Statement (.tilePalRleLow n) := fun _ => ⟨by decide, by have := n.isLt; omega⟩

theorem tilePalRle (n : BitVec 7) : Statement (.tilePalRle n) :=
  fun _ => ⟨by decide, by have := n.isLt; simp only [Config.rleFlag]; omega⟩

theorem palEntry (c : Color) : Statement (.palEntry c) := fun _ => ⟨by decide, c.isLt⟩

theorem rawPixel (c : Color) : Statement (.rawPixel c) := fun _ => ⟨by decide, c.isLt⟩

theorem packedIndex (w : Nat) (k : BitVec 4) : Statement (.packedIndex w k) := by
  intro h
  simp only [Instr.wf, packedWidths, Bool.and_eq_true, decide_eq_true_eq, List.contains_eq_mem, List.mem_cons,
    List.not_mem_nil, or_false] at h
  exact ⟨by omega, h.2⟩

theorem run1 (k : BitVec 7) : Statement (.run1 k) := fun _ => ⟨by decide, by have := k.isLt; omega⟩

theorem runN (k : BitVec 7) : Statement (.runN k) :=
  fun _ => ⟨by decide, by have := k.isLt; simp only [Config.rleFlag]; omega⟩

theorem runLenCont : Statement .runLenCont := fun _ => ⟨by decide, by decide⟩

theorem runLenFinal (f : Byte) : Statement (.runLenFinal f) := fun _ => ⟨by decide, f.isLt⟩

theorem plainRun (c : Color) : Statement (.plainRun c) := fun _ => ⟨by decide, c.isLt⟩

theorem qtBlob (p : List Word) (lc : Word) (cs ss : List Byte) : Statement (.qtBlob p lc cs ss) := by
  intro _
  show 8 ≤ (qtBlobBytes p lc cs ss).length
  simp only [qtBlobBytes, payload32_eq, List.length_append, be32_length]
  omega

theorem split0 : Statement .split0 := fun _ => ⟨by decide, by decide⟩

theorem split1 : Statement .split1 := fun _ => ⟨by decide, by decide⟩

theorem qtColor (b : Nat) (v : Word) : Statement (.qtColor b v) := by
  intro h
  simp only [Instr.wf, Config.qtColorWidths, Bool.and_eq_true, decide_eq_true_eq, List.contains_eq_mem, List.mem_cons,
    List.not_mem_nil, or_false] at h
  exact ⟨by omega, h.2⟩

theorem diffW (g : Byte) (c : Color) : Statement (.diffW g c) :=
  fun _ => ⟨by decide, by have := g.isLt; have : c.toNat < 2 ^ 24 := c.isLt; simp only [Config.colorBits]; omega⟩

end Sys2Proof.Laws.CodeFits
end

