-- ==== Sys2Proof/Tests/Slice0.lean ====
section
/-! SUPPORT. The model's own tests: ill-formed terms, words written out from the encodings, one step of each
instruction against the vectors of 95_test_vectors, and for every obligation with hypotheses a state that meets them. -/

namespace Sys2Proof.Tests

set_option Elab.async false

open Sys2Proof.Machine

/-! ### Helpers -/

/-- The colours `A`, `B`, `C` of 95_test_vectors. -/
def cA : Color := 0x112233
def cB : Color := 0x445566
def cC : Color := 0x778899

def bytes (l : List Nat) : List Byte := l.map (BitVec.ofNat 8)

/-- Listed bytes from an address on. -/
def cellsOf (a : Nat) (l : List Byte) : Memory := l.zipIdx.map fun p => (a + p.2, p.1)

def cells (a : Nat) (l : List Nat) : Memory := cellsOf a (bytes l)

/-- A 2 × 2 rectangle: buffer A at 0x1000 holds `A B B A`, buffer B at 0x2000 `A A A A`, 64 bytes of output. -/
def quad : State :=
  { State.reset with
    regs := { Regs.zero with
      rectW := 2, rectH := 2, pixaBase := 0x1000, pixaStride := 8, pixaBpp := 4, pixbBase := 0x2000
      pixbStride := 8, pixbValid := 1, outBase := 0x8000, outCap := 64, inBase := 0x9000 }
    pix := cells 0x1000 [0x33, 0x22, 0x11, 0xFF, 0x66, 0x55, 0x44, 0, 0x66, 0x55, 0x44, 0, 0x33, 0x22, 0x11, 0] ++
      cells 0x2000 [0x33, 0x22, 0x11, 0, 0x33, 0x22, 0x11, 0, 0x33, 0x22, 0x11, 0, 0x33, 0x22, 0x11, 0] }

/-- The same with an input stream. -/
def fed (l : List Byte) : State :=
  { quad with regs.inLen := BitVec.ofNat 32 l.length, str := cellsOf 0x9000 l }

/-- A 2 × 2 decoder at a position. -/
def cursors (kind : DecKind) (pos : Pos) (inp : List Nat) : Dec :=
  { blankDec kind pos (bytes inp) with w := 2, h := 2, rawSize := 16 }

/-- The state with these cursors open. -/
def open_ (d : Dec) : State := { quad with dec := some d }

/-- What holds after an instruction that answers a next state. -/
def after (o : Machine.Outcome) (p : State → Bool) : Bool :=
  match o with
  | .next t => p t
  | .fault _ | .refused _ => false

/-- The listed bytes of PIX at an address. -/
def pixAt (s : State) (a : Nat) (l : List Nat) : Bool :=
  (List.range l.length).all fun i => s.pix.get? (a + i) == ((bytes l)[i]?)

/-- The listed bytes of STR at an address. -/
def strAt (s : State) (a : Nat) (l : List Nat) : Bool :=
  (List.range l.length).all fun i => s.str.get? (a + i) == ((bytes l)[i]?)

/-- The position, palette and session the open cursors have. -/
def decAt (s : State) (p : Dec → Bool) : Bool :=
  match s.dec with
  | some d => p d
  | none => false

/-! ### WellFormed refuses -/

theorem wf_refuses_wire_enc : (Instr.wireHdr 4 0 0 0).wf = false := by decide
theorem wf_refuses_wire_compr : (Instr.wireHdr 1 5 0 0).wf = false := by decide
theorem wf_refuses_wire_srclen : (Instr.wireHdr 0 0 0 1).wf = false := by decide
theorem wf_refuses_tilePacked_low : (Instr.tilePacked 1).wf = false := by decide
theorem wf_refuses_tilePacked_high : (Instr.tilePacked 17).wf = false := by decide
theorem wf_refuses_tilePalRleLow_low : (Instr.tilePalRleLow 16).wf = false := by decide
theorem wf_refuses_tilePalRleLow_high : (Instr.tilePalRleLow 127).wf = false := by decide
theorem wf_refuses_tilePalRle : (Instr.tilePalRle 1).wf = false := by decide
theorem wf_refuses_packed_width : (Instr.packedIndex 3 0).wf = false := by decide
theorem wf_refuses_packed_index : (Instr.packedIndex 2 4).wf = false := by decide
theorem wf_refuses_runLenFinal : (Instr.runLenFinal 0xFF).wf = false := by decide
theorem wf_refuses_qtBlob_stream : (Instr.qtBlob [1, 2] 9 (bytes [0]) []).wf = false := by decide
theorem wf_refuses_qtColor_width : (Instr.qtColor 3 0).wf = false := by decide
theorem wf_refuses_qtColor_value : (Instr.qtColor 4 16).wf = false := by decide
theorem wf_accepts_boundaries :
    (Instr.tilePacked 16).wf = true ∧ (Instr.tilePalRleLow 17).wf = true ∧ (Instr.tilePalRleLow 126).wf = true ∧
      (Instr.tilePalRle 2).wf = true ∧ (Instr.packedIndex 4 15).wf = true ∧ (Instr.wireHdr 3 4 0 1).wf = true ∧
      (Instr.qtColor 32 0xFFFFFFFF).wf = true ∧ (Instr.qtColor 0 0).wf = true := by decide

/-! ### Words written out from the encodings (30_encoding R71, R75 to R89, 10_state R28) -/

theorem decode_commands :
    [0x00, 0x01, 0x02, 0x03, 0x04, 0x05, 0x06, 0x08, 0x09, 0x0A, 0x10, 0x11, 0x12, 0x13, 0x14, 0x20, 0x21, 0x30, 0x31,
      0x40, 0x41, 0x50, 0x51].map (fun v => decode .cmd (.word 32 v)) =
    [Instr.nop, .bswInit, .bswPut, .bswFin, .bsrInit, .bsrGet, .bsrFin, .palBuild, .palLookup, .palGet, .tileEnc,
      .tileDec, .trleEnc, .trleDec, .trleRst, .qtEnc, .qtDec, .diffEnc, .diffDec, .rawPack, .rawUnpack, .selEnc,
      .selDec].map Except.ok := by rfl

/-- K1, K2: an opcode of no command, and a nonzero `rsv`. -/
theorem decode_illegal :
    [0x07, 0x110, 0x0B, 0x52, 0x80000000].map (fun v => decode .cmd (.word 32 v)) =
      [0x07, 0x110, 0x0B, 0x52, 0x80000000].map fun v => .error (.illegalCommand v) := by rfl

theorem decode_reset :
    decode .ctrl (.word 32 0b101) = .ok (.reset 0b10) ∧ decode .ctrl (.word 32 0b110) = .error .noReset := by
  constructor <;> rfl

theorem decode_encTags :
    [0, 1, 2, 3, 4].map (fun v => decode .encTag (.word 16 v)) =
      [.ok .encNone, .ok .encDiff, .ok .encTrle, .ok .encQuadtree, .error (.badEncMethod 4)] := by rfl

theorem decode_comprTags :
    [0, 1, 2, 3, 4, 5].map (fun v => decode .comprTag (.word 16 v)) =
      [.ok .comprNone, .ok .comprLz4, .ok .comprZstd, .ok .comprZlib, .ok .comprBzip2, .error (.badComprMethod 5)] := by
  rfl

theorem decode_tileHeaders :
    [0x00, 0x01, 0x02, 0x10, 0x11, 0x7E, 0x7F, 0x80, 0x81, 0x82, 0xFF].map (fun v => decode .tileHdr (.word 8 v)) =
      [Instr.tileRaw, .tileSolid, .tilePacked 2, .tilePacked 16, .tilePalRleLow 17, .tilePalRleLow 126,
        .tileReusePacked, .tilePlainRle, .tileReuseRle, .tilePalRle 2, .tilePalRle 127].map Except.ok := by rfl

/-- `c3`: the low byte of the colour comes first, so `33 22 11` is `0x112233`. -/
theorem decode_colours :
    decode .palEntry (.word 24 0x112233) = .ok (.palEntry cA) ∧ decode .rawPixel (.word 24 0x112233) = .ok (.rawPixel cA) ∧
      decode .plainRun (.word 24 0x112233) = .ok (.plainRun cA) ∧ fromC3 (bytes [0x33, 0x22, 0x11]) = cA := by
  refine ⟨rfl, rfl, rfl, rfl⟩

theorem decode_runs :
    [0x05, 0x7F, 0x80, 0xFF].map (fun v => decode .runToken (.word 8 v)) =
        [Instr.run1 5, .run1 127, .runN 0, .runN 127].map Except.ok ∧
      [0x00, 0xFE, 0xFF].map (fun v => decode .runLen (.word 8 v)) =
        [Instr.runLenFinal 0, .runLenFinal 0xFE, .runLenCont].map Except.ok := by
  constructor <;> rfl

theorem decode_bits :
    decode (.packed 2) (.word 2 0b10) = .ok (.packedIndex 2 2) ∧ decode .split (.word 1 0) = .ok .split0 ∧
      decode .split (.word 1 1) = .ok .split1 ∧ decode (.qtColor 4) (.word 4 0b1010) = .ok (.qtColor 4 10) ∧
      decode (.packed 8) (.word 8 1) = .error .wrongShape := by
  refine ⟨rfl, rfl, rfl, rfl, rfl⟩

/-- F1's first word, `36 00 00 00`, and F3's second. -/
theorem decode_diff :
    decode .diff (.word 32 0x36000000) = .ok (.diffW 0x36 0) ∧ decode .diff (.word 32 0x00778899) = .ok (.diffW 0 cC) := by
  constructor <;> rfl

theorem decode_rawPayload :
    decode (.rawBody 3) (.bytes (bytes [1, 2, 3])) = .ok (.rawPayload (bytes [1, 2, 3])) := by rfl

/-- Q3's container: two palette entries, four leaves of one bit, the split stream. -/
theorem decode_qtBlob :
    decode .qt (.bytes (bytes [0, 0, 0, 2, 0, 0x11, 0x22, 0x33, 0, 0x44, 0x55, 0x66, 0, 0, 0, 4, 0x60, 0x80])) =
      .ok (.qtBlob [0x00112233, 0x00445566] 4 (bytes [0x60]) (bytes [0x80])) := by rfl

/-- X1's header: the marker, method TRLE, no compression, 8 bytes of payload and of source. -/
theorem decode_wireHdr :
    decode .wire (.bytes (be32 Config.wireMagic ++ bytes [0, 2, 0, 0, 0, 0, 0, 8, 0, 0, 0, 8])) =
      .ok (.wireHdr 2 0 8 8) := by
  have h := parseWire_append 2 0 8 8 [] (by decide)
  have e : be32 Config.wireMagic ++ bytes [0, 2, 0, 0, 0, 0, 0, 8, 0, 0, 0, 8] = wireHdrBytes 2 0 8 8 ++ [] := rfl
  rw [e]
  simp only [decode, h]
  rfl

/-- The host's question on words of several widths. -/
theorem table_words :
    decodeTableWord 32 0x12 = some .trleEnc ∧ decodeTableWord 8 0x81 = some .tileReuseRle ∧
      decodeTableWord 24 0x112233 = some (.palEntry cA) ∧ decodeTableWord 16 2 = some .encTrle ∧
      decodeTableWord 1 1 = some .split1 := by
  refine ⟨rfl, rfl, rfl, rfl, rfl⟩

/-- The same words, placed as the first thing after reset, run. -/
theorem table_words_run :
    after (step (State.reset.withFetchWord 32 0x14)) (fun t => t.regs.cmd == 0x14 && t.status.done) = true ∧
      after (step (State.reset.withFetchWord 8 0x00)) (fun t => decAt t fun d => d.pos == .rawPixel) = true ∧
      after (step (State.reset.withFetchWord 1 1)) (fun t => decAt t fun d => d.pos == .leaf 0 0 0) = true := by
  decide +kernel

/-- The register window (10_state R20): the register writes of 95_test_vectors P4 name `ARG1` as offset 3C; the last
register is at 70, no other offset names one. -/
theorem register_window :
    Reg.arg1.offset = 0x3C ∧ Reg.cmd.offset = 0x50 ∧ Reg.res1.offset = 0x70 ∧ Reg.atOffset 0x74 = none ∧
      Reg.atOffset 2 = none ∧ HostAction.writeOffset 0x54 1 = some (.write .ctrl 1) ∧ quad.readOffset 8 = some 2 := by decide

/-- R7 `COLOR_BITS` is the width of a colour, `HASH_MASK` one of `2^k − 1`. -/
theorem parameters :
    Color = BitVec 24 ∧ Config.colorBits = 24 ∧ Config.hashMask + 1 = 2 ^ (Config.hashSize + 1) := by
  refine ⟨rfl, rfl, ?_⟩
  have := Nat.one_le_two_pow (n := Config.hashSize + 1)
  simp only [Config.hashMask]
  omega

/-! ### One step of each command -/

/-- K1, K3, K4: an illegal word, then NOP while the fault stands, then a reset. -/
theorem step_illegal_then_reset :
    after (Host.Core.run Sys2Proof.core 1 { quad with host := [.write .cmd 7, .write .cmd 0, .write .ctrl 1] })
        (fun t => t.readReg .status == 2 && t.regs.fault == 1 && t.regs.faultInfo == 7) = true ∧
      after (Host.Core.run Sys2Proof.core 2 { quad with host := [.write .cmd 7, .write .cmd 0, .write .ctrl 1] })
        (fun t => t.readReg .status == 2 && t.readReg .cmd == 7) = true ∧
      after (Host.Core.run Sys2Proof.core 3 { quad with host := [.write .cmd 7, .write .cmd 0, .write .ctrl 1] })
        (fun t => t.readReg .status == 0 && t.readReg .cmd == 0 && pixAt t 0x1000 [0x33]) = true := by
  decide +kernel

theorem step_nop : after (exec .nop quad) (fun t => t.readReg .status == 1) = true := by decide +kernel

/-- The writer and the reader of P4. -/
def streams (bits : List Bool) : State :=
  { quad with
    w0 := { base := 0x100, budget := 2, bits := bits }
    r0 := { base := 0x100, budget := 2, bitpos := 0 }
    str := cells 0x100 [0xBF, 0xF0]
    status := { Status.zero with bswOpen := true, bsrOpen := true } }

def bits101 : List Bool := [true, false, true]

theorem step_bswInit :
    after (exec .bswInit { quad with regs.arg0 := 64 }) (fun t => t.readReg .status == 0x11 && t.w0.budget == 64) = true ∧
      after (exec .bswInit { quad with regs.arg0 := 65 }) (fun t => t.regs.fault == 4 && t.regs.faultInfo == 65) = true := by
  decide +kernel

/-- R111: 5 in 3 bits, then 0x1FF in 9 bits: the first byte is `BF`. -/
theorem step_bswPut :
    after (exec .bswPut { streams bits101 with regs.arg0 := 0x1FF, regs.arg1 := 9, str := [] })
      (fun t => t.w0.bits.length == 12 && t.str == cells 0x100 [0xBF]) = true := by decide +kernel

/-- K8: no context open. -/
theorem step_bswPut_closed :
    after (exec .bswPut quad) (fun t => t.regs.fault == 6 && t.regs.faultInfo == 2) = true := by decide +kernel

/-- R112: `BF F0`, `OUT_LEN = 2`. -/
theorem step_bswFin :
    after (exec .bswFin { streams (bits101 ++ List.replicate 9 true) with str := [] })
      (fun t => t.regs.outLen == 2 && strAt t 0x100 [0xBF, 0xF0] && t.readReg .status == 0x21) = true := by decide +kernel

theorem step_bsrInit :
    after (exec .bsrInit { quad with regs.inLen := 2 }) (fun t => t.readReg .status == 0x21 && t.r0.budget == 2) = true := by
  decide +kernel

/-- R114: the first 3 bits of `BF F0` are 5. -/
theorem step_bsrGet :
    after (exec .bsrGet { streams [] with regs.arg1 := 3 }) (fun t => t.regs.res0 == 5 && t.r0.bitpos == 3) = true ∧
      after (exec .bsrGet { streams [] with regs.arg1 := 33 }) (fun t => t.regs.fault == 7 && t.regs.faultInfo == 33) = true := by
  decide +kernel

/-- R115: one byte touched after 3 bits. -/
theorem step_bsrFin :
    after (exec .bsrFin { streams [] with r0.bitpos := 3 })
      (fun t => t.regs.inUsed == 1 && t.readReg .status == 0x11) = true := by
  decide +kernel

/-- PB1 and PB2 on `A B B A`. -/
theorem step_palBuild :
    after (exec .palBuild { quad with regs.arg0 := 128 })
        (fun t => t.pal == [cA, cB] && t.regs.res0 == 2 && t.readReg .status == 1) = true ∧
      after (exec .palBuild { quad with regs.arg0 := 2 })
        (fun t => t.pal == [cA, cB] && t.readReg .status == 9) = true := by decide +kernel

/-- R129: bits 31:24 of the colour are masked off. -/
theorem step_palLookup :
    after (exec .palLookup { quad with pal := [cA, cB], regs.arg0 := 0xAB445566 })
      (fun t => t.regs.res0 == 1 && t.regs.res1 == 1) = true := by decide +kernel

theorem step_palGet :
    after (exec .palGet { quad with pal := [cA, cB], regs.arg0 := 0 }) (fun t => t.regs.res0 == 0x00112233) = true ∧
      after (exec .palGet { quad with pal := [cA, cB], regs.arg0 := 2 })
        (fun t => t.regs.fault == 5 && t.regs.faultInfo == 2) = true := by decide +kernel

/-- H1: the hash. -/
theorem hash_H1 : paletteHash 0xFF cA = 0x66 ∧ paletteHash 0xFFF 0xFFFFFF = 0xFD := by decide

/-- T2 and T15. -/
theorem step_tileEnc :
    after (exec .tileEnc quad)
        (fun t => t.regs.outLen == 8 && strAt t 0x8000 [2, 0x33, 0x22, 0x11, 0x66, 0x55, 0x44, 0x60] &&
          t.regs.res0 == 2 && t.sess == [cA, cB] && t.readReg .status == 0x41) = true ∧
      after (exec .tileEnc { quad with sess := [cA, cB], status.sessValid := true, regs.cfgMode := 1 })
        (fun t => t.regs.outLen == 2 && strAt t 0x8000 [0x7F, 0x60]) = true := by decide +kernel

/-- T18 and T13: reuse with an RLE body; a tie goes to packed. -/
theorem tile_T18_T13 :
    tileEnc (List.replicate 63 cA ++ [cB]) [cA, cB] true = (bytes [0x81, 0x80, 0x3E, 1], [cA, cB]) ∧
      (tileEnc (List.replicate 23 cA ++ [cB]) [] false).1 = bytes [2, 0x33, 0x22, 0x11, 0x66, 0x55, 0x44, 0, 0, 1] := by
  decide +kernel

/-- U1: `A A A B` in plain RLE. -/
theorem step_tileDec :
    after (exec .tileDec (fed (bytes [0x80, 0x33, 0x22, 0x11, 2, 0x66, 0x55, 0x44, 0])))
      (fun t => pixAt t 0x1000 [0x33, 0x22, 0x11, 0, 0x33, 0x22, 0x11, 0, 0x33, 0x22, 0x11, 0, 0x66, 0x55, 0x44, 0] &&
        t.regs.inUsed == 9 && t.sess == []) = true := by decide +kernel

/-- U3: a run of 5 in 4 pixels; the rectangle holds no specified byte afterwards. -/
theorem step_tileDec_run :
    after (exec .tileDec (fed (bytes [0x80, 0x33, 0x22, 0x11, 4])))
      (fun t => t.regs.fault == 13 && t.regs.faultInfo == 5 && t.pix.get? 0x1000 == none &&
        pixAt t 0x2000 [0x33]) = true := by decide +kernel

theorem step_trleEnc :
    after (exec .trleEnc quad)
      (fun t => strAt t 0x8000 [2, 0x33, 0x22, 0x11, 0x66, 0x55, 0x44, 0x60] && t.readReg .status == 0x41) = true := by
  decide +kernel

/-- K5, and U12's body behind its literal palette. -/
theorem step_trleDec :
    after (exec .trleEnc { quad with regs.rectW := 0 }) (fun t => t.regs.fault == 2 && t.regs.faultInfo == 1) = true ∧
      after (exec .trleDec (fed (bytes [2, 0x33, 0x22, 0x11, 0x66, 0x55, 0x44, 0x60])))
        (fun t => pixAt t 0x1000 [0x33, 0x22, 0x11, 0, 0x66, 0x55, 0x44, 0] && t.regs.inUsed == 8 &&
          t.sess == [cA, cB]) = true := by decide +kernel

/-- R3: one byte left over, at cursor 8 here. -/
theorem step_trleDec_length :
    after (exec .trleDec (fed (bytes [2, 0x33, 0x22, 0x11, 0x66, 0x55, 0x44, 0x60, 0x7F])))
      (fun t => t.regs.fault == 11 && t.regs.faultInfo == 8) = true := by decide +kernel

theorem step_trleRst :
    after (exec .trleRst { quad with sess := [cA], status.sessValid := true })
      (fun t => t.sess == [] && t.readReg .status == 1) = true := by decide +kernel

/-- Q9: `A A / A B`, 18 bytes; Q0's outcome on a single pixel. -/
theorem step_qtEnc :
    after (exec .qtEnc { quad with pix := cells 0x1000 [0x33, 0x22, 0x11, 0, 0x33, 0x22, 0x11, 0, 0x33, 0x22, 0x11, 0,
        0x66, 0x55, 0x44, 0] })
        (fun t => strAt t 0x8000 [0, 0, 0, 2, 0, 0x11, 0x22, 0x33, 0, 0x44, 0x55, 0x66, 0, 0, 0, 4, 0x10, 0x80] &&
          t.regs.outLen == 18 && t.regs.res0 == 4 && t.regs.res1 == 2) = true ∧
      after (exec .qtEnc { quad with regs.rectW := 1, regs.rectH := 1 })
        (fun t => t.readReg .status == 5 && t.regs.outLen == 0) = true := by decide +kernel

/-- Q5: split bits and colours of a 5 × 3 rectangle. -/
theorem qt_Q5 :
    qtEnc [cA, cA, cB, cB, cC, cA, cA, cB, cB, cC, cB, cB, cC, cC, cA] 5 3 =
      .stream (bytes [0, 0, 0, 3, 0, 0x11, 0x22, 0x33, 0, 0x44, 0x55, 0x66, 0, 0x77, 0x88, 0x99, 0, 0, 0, 6, 0x16, 0x80,
        0xC2, 0]) := by decide +kernel

/-- Q-D1 and Q-D7. -/
theorem step_qtDec :
    after (exec .qtDec (fed (bytes [0, 0, 0, 2, 0, 0x11, 0x22, 0x33, 0, 0x44, 0x55, 0x66, 0, 0, 0, 1, 0x80, 0])))
        (fun t => pixAt t 0x1000 [0x66, 0x55, 0x44, 0, 0x66, 0x55, 0x44, 0, 0x66, 0x55, 0x44, 0, 0x66, 0x55, 0x44, 0] &&
          t.regs.inUsed == 18) = true ∧
      after (exec .qtDec (fed (bytes [0, 0, 0, 2, 0, 0x11, 0x22, 0x33, 0, 0x44, 0x55, 0x66, 0, 0, 0, 1, 0, 0x80])))
        (fun t => t.regs.fault == 15 && t.regs.faultInfo == 1) = true := by decide +kernel

/-- R202 by hand on `A B B A` over `A A A A`: three runs, 12 bytes of 16. -/
theorem step_diffEnc :
    after (exec .diffEnc quad)
      (fun t => strAt t 0x8000 [0, 0x11, 0x22, 0x33, 0, 0x44, 0x55, 0x66, 1, 0x44, 0x55, 0x66] && t.regs.res0 == 3 &&
        t.readReg .status == 1) = true := by decide +kernel

/-- F5: every pixel changed is not worth it. -/
theorem step_diffEnc_notWorth :
    after (exec .diffEnc { quad with regs.rectW := 1, regs.rectH := 1 }) (fun t => t.readReg .status == 5) = true := by
  decide +kernel

/-- F-D1 leaves the other pixels, high byte and all; F-F3. -/
theorem step_diffDec :
    after (exec .diffDec (fed (bytes [3, 0, 0, 1])))
        (fun t => pixAt t 0x1000 [1, 0, 0, 0, 0x66, 0x55, 0x44, 0, 0x66] && t.regs.inUsed == 4) = true ∧
      after (exec .diffDec (fed (bytes [4, 0, 0, 1]))) (fun t => t.regs.fault == 16 && t.regs.faultInfo == 5) = true := by
  decide +kernel

/-- X12: two words from column 1. -/
theorem step_rawPack :
    after (exec .rawPack { quad with
        regs.rectX := 1, regs.rectH := 1, regs.pixaStride := 16
        pix := cells 0x1000 [1, 0, 0, 0xAA, 2, 0, 0, 0xBB, 3, 0, 0, 0xCC, 4, 0, 0, 0xDD] })
      (fun t => strAt t 0x8000 [2, 0, 0, 0xBB, 3, 0, 0, 0xCC] && t.regs.outLen == 8) = true := by decide +kernel

theorem step_rawUnpack :
    after (exec .rawUnpack { fed (bytes [2, 0, 0, 0xBB, 3, 0, 0, 0xCC]) with regs.rectH := 1 })
        (fun t => pixAt t 0x1000 [2, 0, 0, 0xBB, 3, 0, 0, 0xCC] && t.regs.inUsed == 8) = true ∧
      after (exec .rawUnpack (fed (bytes [2, 0, 0]))) (fun t => t.regs.fault == 10 && t.regs.faultInfo == 0) = true := by
  decide +kernel

/-- X1 behind its marker, and X2. -/
theorem step_selEnc :
    after (exec .selEnc { quad with regs.cfgEnc := 2 })
        (fun t => strAt t 0x8004 [0, 2, 0, 0, 0, 0, 0, 8, 0, 0, 0, 8, 2, 0x33, 0x22, 0x11, 0x66, 0x55, 0x44, 0x60] &&
          t.regs.outLen == 24 && t.regs.res0 == 2 && t.regs.res1 == 0) = true ∧
      after (exec .selEnc { quad with regs.cfgEnc := 3, regs.rectH := 1 })
        (fun t => strAt t 0x8004 [0, 0, 0, 0, 0, 0, 0, 8, 0x33, 0x22, 0x11, 0xFF, 0x66, 0x55, 0x44, 0] &&
          t.regs.outLen == 20 && t.regs.res0 == 0) = true := by decide +kernel

/-- R224: no byte of the marker there. -/
theorem step_selDec_trunc :
    after (exec .selDec quad) (fun t => t.regs.fault == 10 && t.regs.faultInfo == 0) = true := by decide +kernel

theorem step_reset :
    after (exec (.reset 5) { quad with pal := [cA], sess := [cA] })
      (fun t => t.pal == [] && t.sess == [] && t.readReg .pixaBpp == 0 && pixAt t 0x1000 [0x33]) = true := by
  decide +kernel

/-- The launches the spec asks a model to refuse (20_memory R64, 70_reset R285, R290). -/
theorem launch_refused :
    exec .tileEnc { quad with regs.outBase := 0xFFFFFFC1 } = .fault .addressBeyondSpace ∧
      exec .tileEnc { quad with regs.pixaStride := 4 } = .refused .strideTooShort ∧
      exec .diffEnc { quad with regs.pixbBase := 0x1004 } = .refused .buffersOverlap := by
  refine ⟨rfl, rfl, rfl⟩

/-! ### One step of each token -/

theorem step_wireHdr :
    after (exec (.wireHdr 2 0 8 8) (open_ (cursors .sel .wire [])))
      (fun t => decAt t fun d => d.pos == .enc && d.complen == 8 && d.recLen == 24) = true := by decide +kernel

theorem step_encTags :
    [(Instr.encNone, (0 : BitVec 16)), (.encDiff, 1), (.encTrle, 2), (.encQuadtree, 3)].all (fun p =>
      after (exec p.1 (open_ { cursors .sel .enc [] with enc := p.2 })) fun t => decAt t fun d => d.pos == .compr) = true := by
  decide +kernel

/-- A structural method on a format it cannot have (45_selector R224). -/
theorem step_encTag_format :
    after (exec .encTrle (open_ { cursors .sel .enc [] with enc := 2, badFormat := some ⟨.format, 1⟩ }))
      (fun t => t.regs.fault == 3 && t.regs.faultInfo == 1) = true := by decide +kernel

/-- The payload of the declared length; X6's other length. -/
theorem step_comprNone :
    after (exec .comprNone (open_ { cursors .sel .compr [1, 2, 3] with enc := 2, complen := 2, srclen := 2 }))
        (fun t => decAt t fun d => d.pos == .tile && d.inp == bytes [1, 2] && d.ip == 0) = true ∧
      after (exec .comprNone (open_ { cursors .sel .compr [1, 2, 3] with enc := 2, complen := 2, srclen := 9 }))
        (fun t => t.regs.fault == 11 && t.regs.faultInfo == 2) = true := by decide +kernel

/-- A payload that is not there (60_exceptions R252): the port is not asked. -/
theorem step_comprTags_trunc :
    [(Instr.comprLz4, (1 : BitVec 16)), (.comprZstd, 2), (.comprZlib, 3), (.comprBzip2, 4)].all (fun p =>
      after (exec p.1 (open_ { cursors .sel .compr [1] with enc := 2, compr := p.2, complen := 2, ip := 16 }))
        fun t => t.regs.fault == 10 && t.regs.faultInfo == 16) = true := by decide +kernel

theorem step_rawPayload :
    after (exec (.rawPayload (bytes [1, 2, 3, 4, 5, 6, 7, 8, 9, 10, 11, 12, 13, 14, 15, 16])) (open_ (cursors .raw .raw [])))
      (fun t => pixAt t 0x1000 [1, 2, 3, 4, 5, 6, 7, 8, 9, 10, 11, 12, 13, 14, 15, 16] && t.dec.isNone &&
        t.regs.inUsed == 16) = true := by decide +kernel

/-- U16: a raw body needs 3 bytes a pixel. -/
theorem step_tileRaw :
    after (exec .tileRaw (open_ (cursors .tile .tile [1, 2, 3, 4, 5, 6, 7, 8, 9, 10, 11, 12])))
        (fun t => decAt t fun d => d.pos == .rawPixel && d.hdr == 0) = true ∧
      after (exec .tileRaw (open_ { cursors .tile .tile [1, 2, 3, 4, 5, 6, 7, 8, 9, 10, 11] with ip := 1 }))
        (fun t => t.regs.fault == 10 && t.regs.faultInfo == 1) = true := by decide +kernel

theorem step_tilePlainRle :
    after (exec .tilePlainRle (open_ (cursors .tile .tile []))) (fun t => decAt t fun d => d.pos == .plain) = true := by
  decide +kernel

/-- U12 and U5. -/
theorem step_tileReusePacked :
    after (exec .tileReusePacked (open_ { cursors .tile .tile [0x60] with sess := [cA, cB] }))
        (fun t => decAt t fun d => d.pos == .packed 1 && d.pal == [cA, cB] && d.bitpos == 0 && d.inp == bytes [0x60]) = true ∧
      after (exec .tileReusePacked (open_ (cursors .tile .tile [0x40])))
        (fun t => t.regs.fault == 14 && t.regs.faultInfo == 127) = true := by decide +kernel

/-- U14 and U6. -/
theorem step_tileReuseRle :
    after (exec .tileReuseRle (open_ { cursors .tile .tile [] with sess := [cA] }))
        (fun t => decAt t fun d => d.pos == .rle && d.pal == [cA]) = true ∧
      after (exec .tileReuseRle (open_ (cursors .tile .tile [])))
        (fun t => t.regs.fault == 14 && t.regs.faultInfo == 129) = true := by decide +kernel

theorem step_tileSolid :
    after (exec .tileSolid (open_ (cursors .tile .tile [0x33, 0x22, 0x11])))
      (fun t => decAt t fun d => d.pos == .palette false 1 && d.hdr == 1) = true := by decide +kernel

/-- U11: the palette bytes must be there. -/
theorem step_tilePacked :
    after (exec (.tilePacked 2) (open_ (cursors .tile .tile [1, 2, 3, 4, 5, 6])))
        (fun t => decAt t fun d => d.pos == .palette false 2) = true ∧
      after (exec (.tilePacked 2) (open_ { cursors .tile .tile [1, 2, 3, 4, 5] with ip := 1 }))
        (fun t => t.regs.fault == 10 && t.regs.faultInfo == 1) = true := by decide +kernel

theorem step_tilePalRleLow :
    after (exec (.tilePalRleLow 17) (open_ { cursors .tile .tile [] with inp := List.replicate 51 0 }))
      (fun t => decAt t fun d => d.pos == .palette false 17 && d.hdr == 17) = true := by decide +kernel

theorem step_tilePalRle :
    after (exec (.tilePalRle 2) (open_ (cursors .tile .tile [1, 2, 3, 4, 5, 6])))
      (fun t => decAt t fun d => d.pos == .palette true 2 && d.hdr == 0x82) = true := by decide +kernel

/-- The last entry sets the session; one colour fills the tile (42_tile R157). -/
theorem step_palEntry :
    after (exec (.palEntry cB) (open_ { cursors .tile (.palette true 1) [] with pal := [cA] }))
        (fun t => decAt t fun d => d.pos == .rle && d.sess == [cA, cB]) = true ∧
      after (exec (.palEntry cB) (open_ (cursors .tile (.palette false 1) [])))
        (fun t => pixAt t 0x1000 [0x66, 0x55, 0x44, 0] && pixAt t 0x100C [0x66, 0x55, 0x44, 0] && t.status.done &&
          t.sess == [cB]) = true := by decide +kernel

theorem step_rawPixel :
    after (exec (.rawPixel cC) (open_ { cursors .tile .rawPixel [] with made := 1 }))
      (fun t => pixAt t 0x1003 [0xFF, 0x99, 0x88, 0x77, 0, 0x66] && decAt t fun d => d.made == 2) = true := by
  decide +kernel

/-- U7: index 3 of three colours. -/
theorem step_packedIndex :
    after (exec (.packedIndex 2 2) (open_ { cursors .tile (.packed 2) [] with pal := [cA, cB, cC] }))
        (fun t => pixAt t 0x1000 [0x99, 0x88, 0x77, 0]) = true ∧
      after (exec (.packedIndex 2 3) (open_ { cursors .tile (.packed 2) [] with pal := [cA, cB, cC] }))
        (fun t => t.regs.fault == 12 && t.regs.faultInfo == 3) = true := by decide +kernel

/-- U12: the last index of a packed body; the byte after it is the next to take. -/
theorem step_packedIndex_last :
    after (exec (.packedIndex 1 1) (open_ { cursors .tile (.packed 1) [0x60, 9] with pal := [cA, cB], made := 3, ip := 1 }))
      (fun t => pixAt t 0x100C [0x66, 0x55, 0x44, 0] && t.regs.inUsed == 2 && t.status.done) = true := by decide +kernel

/-- U9: index 2 of two colours. -/
theorem step_run1 :
    after (exec (.run1 1) (open_ { cursors .tile .rle [] with pal := [cA, cB], made := 3 }))
        (fun t => pixAt t 0x100C [0x66, 0x55, 0x44, 0] && t.status.done) = true ∧
      after (exec (.run1 2) (open_ { cursors .tile .rle [] with pal := [cA, cB] }))
        (fun t => t.regs.fault == 12 && t.regs.faultInfo == 2) = true := by decide +kernel

theorem step_runN :
    after (exec (.runN 1) (open_ { cursors .tile .rle [] with pal := [cA, cB] }))
      (fun t => decAt t fun d => d.pos == .runLen false cB 0) = true := by decide +kernel

theorem step_runLenCont :
    after (exec .runLenCont (open_ (cursors .tile (.runLen true cA 255) [])))
      (fun t => decAt t fun d => d.pos == .runLen true cA 510) = true := by decide +kernel

/-- U8: a run of 5 in 4 pixels; a run of 3 leaves one. -/
theorem step_runLenFinal :
    after (exec (.runLenFinal 2) (open_ (cursors .tile (.runLen true cC 0) [])))
        (fun t => pixAt t 0x1008 [0x99, 0x88, 0x77, 0, 0x33] && decAt t fun d => d.made == 3 && d.pos == .plain) = true ∧
      after (exec (.runLenFinal 4) (open_ (cursors .tile (.runLen false cC 0) [])))
        (fun t => t.regs.fault == 13 && t.regs.faultInfo == 5) = true := by decide +kernel

theorem step_plainRun :
    after (exec (.plainRun cB) (open_ (cursors .tile .plain [])))
      (fun t => decAt t fun d => d.pos == .runLen true cB 0) = true := by decide +kernel

/-- Q-D6: the high byte of a palette entry is masked off. -/
theorem step_qtBlob :
    after (exec (.qtBlob [0xEE445566] 1 [] (bytes [0])) (open_ (cursors .qt .qt [])))
      (fun t => decAt t fun d => d.pos == .split 1 0 0 && d.pal == [cB] && d.leafCount == 1) = true := by decide +kernel

theorem step_split0 :
    after (exec .split0 (open_ (cursors .qt (.split 1 0 0) []))) (fun t => decAt t fun d => d.pos == .leaf 1 0 0) = true := by
  decide +kernel

/-- The four children in the order of 43_quadtree R172. -/
theorem step_split1 :
    after (exec .split1 (open_ (cursors .qt (.split 1 0 0) [])))
      (fun t => decAt t fun d => d.pos == .leaf 0 0 0 && d.stack == [(0, 0, 1), (0, 1, 0), (0, 1, 1)]) = true := by
  decide +kernel

theorem step_qtColor :
    after (exec (.qtColor 1 1) (open_ { cursors .qt (.leaf 0 1 0) [] with pal := [cA, cB], stack := [(0, 1, 1)] }))
        (fun t => pixAt t 0x1008 [0x66, 0x55, 0x44, 0, 0x33] && decAt t fun d => d.pos == .leaf 0 1 1 && d.leaves == 1) = true ∧
      after (exec (.qtColor 2 3) (open_ { cursors .qt (.leaf 0 1 0) [] with pal := [cA, cB, cC] }))
        (fun t => t.regs.fault == 12 && t.regs.faultInfo == 3) = true := by decide +kernel

/-- F-F2: a word with nowhere to write. -/
theorem step_diffW :
    after (exec (.diffW 1 cC) (open_ (cursors .diff .diff [1, 2, 3, 4])))
        (fun t => pixAt t 0x1000 [0x99, 0x88, 0x77, 0, 0x66] && decAt t fun d => d.cursor == 2) = true ∧
      after (exec (.diffW 0 2) (open_ { cursors .diff .diff [] with cursor := 4 }))
        (fun t => t.regs.fault == 16 && t.regs.faultInfo == 4) = true := by decide +kernel

/-! ### States that meet the hypotheses of the obligations -/

theorem quad_launches :
    quad.encodeLaunch ∧ quad.decodeLaunch ∧ quad.rawLaunch ∧ quad.tileOk ∧ quad.formatBOk ∧
      quad.areaFits quad.areaB Config.pixelBytes := by
  simp only [State.encodeLaunch, State.decodeLaunch, State.rawLaunch, State.codecLaunch, State.ready, State.rectOk,
    State.formatAOk, State.formatBOk, State.rawOk, State.tileOk, State.areaFits, State.outputFits, State.inputFits]
  decide +kernel

/-- A stream shorter than 2^16 bytes leaves the launch in its domain. -/
theorem fed_launches (l : List Byte) (h : l.length < 65536) : (fed l).decodeLaunch ∧ (fed l).rawLaunch ∧ (fed l).inputFits := by
  have hf : (fed l).inputFits := by
    show 0x9000 + (BitVec.ofNat 32 l.length).toNat ≤ 2 ^ 32
    rw [BitVec.toNat_ofNat]
    omega
  exact ⟨⟨quad_launches.1.1, hf⟩, quad_launches.2.2.1, hf⟩

/-- Buffers A and B of `quad` have no byte in common. -/
theorem quad_apart : ∀ a, ¬ (quad.areaA.holds a ∧ quad.areaB.holds a) := by
  intro a h
  have := (Area.overlaps_iff quad.areaA quad.areaB).2 ⟨a, h⟩
  exact absurd this (by decide)

/-- No command's word is one of these. -/
theorem illegal_words (w : Nat) (h : w ∈ [0x07, 0x52, 0x100, 0x110, 0x80000000]) :
    ∀ i : Instr, i.isCommand = true → encode i ≠ .word 32 w := by
  intro i hi he
  have hw : w ∉ commandTable.map fun p => p.1 := by
    simp only [List.mem_cons, List.not_mem_nil, or_false] at h
    rcases h with rfl | rfl | rfl | rfl | rfl <;> decide
  apply hw
  cases i <;> simp [Instr.isCommand, commandTable] at hi <;> simp only [encode, Code.word.injEq] at he <;>
    (obtain ⟨_, rfl⟩ := he; decide)

theorem meets_DecodeEncode :
    (Instr.tilePalRle 127).wf = true ∧ (Instr.packedIndex 4 15).wf = true ∧
      (Instr.qtBlob [1, 2] 4 (bytes [0x60]) (bytes [0x80])).wf = true ∧ (Instr.wireHdr 3 4 0xFFFFFFFF 0xFFFFFFFF).wf = true ∧
      (Instr.runLenFinal 0xFE).wf = true ∧ (Instr.reset 0x7FFFFFFF).wf = true := by decide

theorem meets_StepRunsDecoded :
    (quad.dec = none ∧ quad.host = [] ∧
      decode .cmd (.word 32 (0x51 : Word).toNat) = .ok .selDec ∧ decode .ctrl (.word 32 (3 : Word).toNat) = .ok (.reset 1)) ∧
    (cursors .tile .tile [0x81]).fetch = (some .tileReuseRle, { cursors .tile .tile [] with ip := 1 }) := by
  exact ⟨⟨rfl, rfl, rfl, rfl⟩, by decide +kernel⟩

/-- The last address of each space, the last register before `CMD`, a read-only one and a control word without bit 0. -/
theorem meets_HostWritesAndReads :
    quad.dec = none ∧ Reg.cfgMode ≠ .cmd ∧ Reg.cfgMode ≠ .ctrl ∧ Reg.status ≠ .cmd ∧ Reg.status ≠ .ctrl ∧
      (0xFFFFFFFE : Word).getLsbD 0 = false ∧
      step { quad with host := [.storePix 0xFFFFFFFF 1] } = .next (quad.writePix 0xFFFFFFFF [1]) := by
  refine ⟨rfl, by decide, by decide, by decide, by decide, by decide, rfl⟩

theorem meets_IllegalCommandFaults :
    ∃ s : State, s.dec = none ∧ s.host = [.write .cmd 0x100] ∧ s.status.fault = false ∧
      ∀ i : Instr, i.isCommand = true → encode i ≠ .word 32 (0x100 : Word).toNat :=
  ⟨{ quad with host := [.write .cmd 0x100] }, rfl, rfl, rfl, illegal_words _ (by decide)⟩

/-- `quad` after an illegal command. -/
def faulted : State :=
  { quad with regs.cmd := 7, regs.fault := 1, regs.faultInfo := 7, status.fault := true }

theorem meets_FaultedCommandsIgnored :
    faulted.status.fault = true ∧ Instr.nop.isCommand = true ∧ Instr.selDec.isCommand = true ∧ faulted.dec = none ∧
      Reg.res1 ∈ [Reg.cmd, .ctrl, .status, .fault, .faultInfo, .outLen, .inUsed, .res0, .res1] ∧
      Reg.cfgMode ∉ [Reg.cmd, .ctrl, .status, .fault, .faultInfo, .outLen, .inUsed, .res0, .res1] := by decide

theorem meets_OnlyResetLeavesFault :
    ∃ s t : State, s.dec = none ∧ s.status.fault = true ∧
      (∀ (w : Word) (rest : List HostAction), s.host = .write .ctrl w :: rest → w.getLsbD 0 = false) ∧ step s = .next t := by
  refine ⟨{ faulted with host := [.write .ctrl 0xFFFFFFFE] }, { faulted with regs.ctrl := 0xFFFFFFFE }, rfl, rfl, ?_, rfl⟩
  intro w rest h
  obtain ⟨rfl, _⟩ : w = 0xFFFFFFFE ∧ rest = [] := by simpa using h.symm
  decide

theorem meets_RectAndFormatFaults :
    ({ quad with regs.rectW := 0 }).status.fault = false ∧
      (quad.regs.cfgEnc.toNat ≤ 3 ∧ quad.regs.cfgCompr.toNat ≤ 4) ∧
      (quad.regs.rectW ≠ 0 ∧ ({ quad with regs.rectH := 0 }).regs.rectH = 0) ∧
      quad.rectOk ∧ ({ quad with regs.pixaBpp := 5 }).rectOk ∧ ({ quad with regs.pixaStride := 9 }).rectOk ∧
      ({ quad with regs.pixaStride := 9 }).regs.pixaStride.toNat % 4 ≠ 0 := by
  simp only [State.rectOk]
  decide

/-- One byte too many, a side of 65, no previous frame and one with a bad stride, no bytes per pixel and 2^32 of them
in all. -/
theorem meets_RectAndFormatFaults_more :
    2 ^ 32 - 1 < (0x8000 : Word).toNat * (0x8000 : Word).toNat * 4 ∧
      (({ quad with regs.rectW := 65 }).rectOk ∧ ({ quad with regs.rectW := 65 }).formatAOk) ∧
      ({ quad with regs.pixbValid := 2 }).regs.pixbValid.getLsbD 0 = false ∧
      (quad.regs.pixbValid.getLsbD 0 = true ∧ ({ quad with regs.pixbStride := 9 }).regs.pixbStride.toNat % 4 ≠ 0) ∧
      ({ quad with regs.pixaBpp := 0 }).rectOk ∧ ({ quad with regs.pixaBpp := 0x40000000 }).rectOk ∧
      2 ^ 32 - 1 < ({ quad with regs.pixaBpp := 0x40000000 }).rawSize := by
  simp only [State.rectOk, State.formatAOk]
  decide

theorem meets_FaultMatrix :
    (∃ t, exec .palGet quad = .next t ∧ t.status.fault = true ∧ quad.status.fault = false) ∧
      (∃ t, exec .selDec quad = .next t ∧ t.status.fault = true) ∧
      ∃ t, step { quad with host := [.write .cmd 0x52] } = .next t ∧
        ∀ j : Instr, j.isCommand = true → encode j ≠ .word 32 (0x52 : Word).toNat :=
  ⟨⟨_, rfl, rfl, rfl⟩, ⟨_, rfl, by decide +kernel⟩, ⟨_, rfl, illegal_words _ (by decide)⟩⟩

/-- The budget is exactly `OUT_CAP`, and one more. -/
theorem meets_BitContextInit :
    ({ quad with regs.arg0 := 65 }).regs.outCap.toNat < ({ quad with regs.arg0 := 65 }).regs.arg0.toNat ∧
      ({ quad with regs.arg0 := 64 }).regs.arg0.toNat ≤ quad.regs.outCap.toNat ∧
      ({ quad with regs.arg0 := 64 }).status.fault = false ∧ quad.outputFits ∧ quad.inputFits := by
  simp only [State.outputFits, State.inputFits]
  decide


/-- 32 bits, and exactly the budget; the byte they complete stands at 0x100. -/
theorem meets_BswPutResult :
    (∃ s : State, s.status.fault = false ∧ s.status.bswOpen = true ∧ s.regs.arg1.toNat = 13 ∧
        s.w0.bits.length + s.regs.arg1.toNat = 8 * s.w0.budget.toNat) ∧
      ∃ s : State, s.status.fault = false ∧ s.status.bswOpen = true ∧ s.regs.arg1.toNat = 32 ∧
        s.w0.bits.length + s.regs.arg1.toNat ≤ 8 * s.w0.budget.toNat :=
  ⟨⟨{ streams bits101 with regs.arg1 := 13 }, by decide⟩,
    ⟨{ streams [] with regs.arg1 := 32, w0.budget := 4 }, by decide⟩⟩

theorem meets_BswFinResult :
    (streams bits101).status.fault = false ∧ (streams bits101).status.bswOpen = true ∧ quad.status.fault = false ∧
      quad.status.bswOpen = false := by decide

theorem meets_BsrGetResult :
    ∃ s : State, s.status.fault = false ∧ s.status.bsrOpen = true ∧ s.regs.arg1.toNat = 16 ∧
      s.r0.bitpos + s.regs.arg1.toNat = 8 * s.r0.budget.toNat :=
  ⟨{ streams [] with regs.arg1 := 16 }, by decide⟩

theorem meets_BsrFinResult : (streams []).status.fault = false ∧ (streams []).status.bsrOpen = true := by decide

/-- One bit too many for either budget, 33 bits, and no context. -/
theorem meets_BitTransferFaults :
    (∃ s : State, s.status.fault = false ∧ s.regs.arg1.toNat = 14 ∧
        ¬ (s.status.bswOpen = true ∧ 14 ≤ 32 ∧ s.w0.bits.length + 14 ≤ 8 * s.w0.budget.toNat)) ∧
      (∃ s : State, s.status.fault = false ∧ s.regs.arg1.toNat = 17 ∧
        ¬ (s.status.bsrOpen = true ∧ 17 ≤ 32 ∧ s.r0.bitpos + 17 ≤ 8 * s.r0.budget.toNat)) ∧
      ∃ s : State, s.status.fault = false ∧ s.regs.arg1.toNat = 33 ∧ s.status.bswOpen = true ∧ s.status.bsrOpen = true :=
  ⟨⟨{ streams bits101 with regs.arg1 := 14 }, by decide⟩, ⟨{ streams [] with regs.arg1 := 17 }, by decide⟩,
    ⟨{ streams [] with regs.arg1 := 33 }, by decide⟩⟩

/-- 32 bits behind three. -/
theorem meets_BitStreamRoundTrip :
    32 ≤ 32 ∧ brGet (packBits (bits101 ++ bitsOf 32 0xFFFFFFFF ++ [])).length
      (fun i => (packBits (bits101 ++ bitsOf 32 0xFFFFFFFF ++ [])).getD i 0) 3 32 = .ok 0xFFFFFFFF := by decide +kernel

/-- One colour allowed: it is reached, and overflows. -/
theorem meets_PaletteScan : 1 ≤ 1 ∧ palBuild [cA, cB] 1 = ([cA], true) ∧ palBuild [cA, cB] 3 = ([cA, cB], false) := by
  decide

/-- The bounds of `maxColors`. -/
theorem meets_PalBuildResult :
    quad.codecLaunch ∧ (2 ^ 24 + 1 : Word).toNat ≤ 2 ^ 24 + 1 ∧ 1 ≤ (1 : Word).toNat ∧ (0 : Word).toNat = 0 ∧
      2 ^ 24 + 1 < (2 ^ 24 + 2 : Word).toNat :=
  ⟨quad_launches.1.1, by decide, by decide, by decide, by decide⟩

theorem meets_PalLookupResult :
    (∃ s : State, s.status.fault = false ∧ s.pal[1]? = some (s.regs.arg0.setWidth 24) ∧
        ∀ j < 1, s.pal[j]? ≠ some (s.regs.arg0.setWidth 24)) ∧
      quad.status.fault = false ∧ ∀ k : Nat, quad.pal[k]? ≠ some (quad.regs.arg0.setWidth 24) :=
  ⟨⟨{ quad with pal := [cA, cB], regs.arg0 := 0xAB445566 }, by decide⟩, rfl, fun k => by simp [quad, State.reset]⟩

theorem meets_PalGetResult :
    ∃ s : State, s.status.fault = false ∧ s.pal[(1 : Word).toNat]? = some cB ∧ s.pal.length ≤ (2 : Word).toNat :=
  ⟨{ quad with pal := [cA, cB] }, by decide⟩

/-- The last pixel's last bit: bit 7 of byte 2. -/
theorem meets_GridReadsPixels :
    1 < quad.regs.rectW.toNat ∧ 1 < quad.regs.rectH.toNat ∧ (quad.grid quad.areaA) = [cA, cB, cB, cA] ∧
      (quad.grid quad.areaB) = [cA, cA, cA, cA] := by decide +kernel

/-- An output buffer of exactly the record's 8 bytes, and one of 7. -/
theorem meets_TileEncResult :
    ({ quad with regs.outCap := 8 }).encodeLaunch ∧ ({ quad with regs.outCap := 7 }).encodeLaunch ∧ quad.tileOk ∧
      (tileEnc (quad.grid quad.areaA) quad.sess quad.reuseEn).1.length = 8 := by
  refine ⟨⟨quad_launches.1.1, ?_⟩, ⟨quad_launches.1.1, ?_⟩, quad_launches.2.2.2.1, by decide +kernel⟩
  · show (_ : Nat) ≤ _; decide
  · show (_ : Nat) ≤ _; decide

theorem meets_TrleEncResult :
    quad.encodeLaunch ∧
      (trleEnc (quad.grid quad.areaA) quad.regs.rectW.toNat quad.regs.rectH.toNat quad.reuseEn).1.length ≤
        quad.regs.outCap.toNat := ⟨quad_launches.1, by decide +kernel⟩

/-- 128 colours, one colour, and 2 and 127 of them. -/
theorem meets_TileRecordShapes :
    ((List.range 128).map (BitVec.ofNat 24)).toFinset.card = 128 ∧ [cA] = List.replicate 1 cA ∧
      [cA, cB, cB, cA].toFinset.card = 2 ∧ ((List.range 127).map (BitVec.ofNat 24)).toFinset.card = 127 := by
  decide +kernel

theorem meets_TrleRoundTrip :
    (fed (bytes [2, 0x33, 0x22, 0x11, 0x66, 0x55, 0x44, 0x60])).decodeLaunch ∧
      (fed (bytes [2, 0x33, 0x22, 0x11, 0x66, 0x55, 0x44, 0x60])).input = (trleEnc [cA, cB, cB, cA] 2 2 false).1 :=
  ⟨(fed_launches _ (by decide)).1, by decide +kernel⟩

theorem meets_DiffStreamProperties : [cA, cB].length = [cA, cA].length ∧ 0 < [cA, cB].length := by decide

/-- Buffers apart, the same buffer, and an output buffer of exactly the stream's 12 bytes. -/
theorem meets_DiffEncResult :
    ({ quad with regs.outCap := 12 }).encodeLaunch ∧ quad.formatBOk ∧ quad.areaFits quad.areaB Config.pixelBytes ∧
      (∀ a, ¬ (quad.areaA.holds a ∧ quad.areaB.holds a)) ∧
      ({ quad with regs.pixbBase := 0x1000 }).areaA = ({ quad with regs.pixbBase := 0x1000 }).areaB ∧
      (diffEnc (quad.grid quad.areaA) (quad.grid quad.areaB)).length = 12 := by
  refine ⟨⟨quad_launches.1.1, ?_⟩, quad_launches.2.2.2.2.1, quad_launches.2.2.2.2.2, quad_apart, by decide,
    by decide +kernel⟩
  show (_ : Nat) ≤ _; decide

/-- Two runs of 2 pixels. -/
theorem meets_DiffDecResult :
    (fed (bytes [1, 0x11, 0x22, 0x33, 1, 0x44, 0x55, 0x66])).decodeLaunch ∧
      (fed (bytes [1, 0x11, 0x22, 0x33, 1, 0x44, 0x55, 0x66])).input =
        [((1 : Byte), cA), (1, cB)].flatMap (fun r => be32 (r.1 ++ r.2)) ∧
      ([((1 : Byte), cA), (1, cB)].map fun r => r.1.toNat + 1).sum = quad.regs.rectW.toNat * quad.regs.rectH.toNat :=
  ⟨(fed_launches _ (by decide)).1, by decide +kernel, by decide⟩

/-- From `A B B A` to `A B C C`. -/
theorem meets_DiffRoundTrip :
    (fed (diffEnc [cA, cB, cC, cC] [cA, cB, cB, cA])).decodeLaunch ∧
      (fed (diffEnc [cA, cB, cC, cC] [cA, cB, cB, cA])).input = diffEnc [cA, cB, cC, cC] [cA, cB, cB, cA] ∧
      (fed (diffEnc [cA, cB, cC, cC] [cA, cB, cB, cA])).grid quad.areaA = [cA, cB, cB, cA] :=
  ⟨(fed_launches _ (by decide +kernel)).1, by decide +kernel, by decide +kernel⟩

theorem meets_QtCountsBounds :
    0 < 2 ∧ 0 < 1 ∧ 2 ≤ levelCount (max 2 1) ∧ [cA, cA] = List.replicate (2 * 1) cA ∧
      (qtPlan [cA, cA] 2 1).leafCount = 1 := by decide +kernel

theorem meets_QtSelfCheckDead :
    qtEnc [cA] 1 1 = .notWorth ∧ (∃ bytes, qtEnc [cA, cA, cA, cA] 2 2 = .stream bytes) ∧ 2 ≤ max 2 2 ∧
      [cA, cA, cA, cA] = List.replicate (2 * 2) cA :=
  ⟨by decide +kernel, ⟨_, rfl⟩, by decide, by decide⟩


/-- `A A / A B` and its 18 bytes of Q9; one pixel is not worth it. -/
def qtQuad : State :=
  { quad with pix := cells 0x1000 [0x33, 0x22, 0x11, 0, 0x33, 0x22, 0x11, 0, 0x33, 0x22, 0x11, 0, 0x66, 0x55, 0x44, 0] }

def qtBytes : List Byte := bytes [0, 0, 0, 2, 0, 0x11, 0x22, 0x33, 0, 0x44, 0x55, 0x66, 0, 0, 0, 4, 0x10, 0x80]

theorem meets_QtEncResult :
    ({ qtQuad with regs.outCap := 18 }).encodeLaunch ∧ qtEnc (qtQuad.grid qtQuad.areaA) 2 2 = .stream qtBytes ∧
      qtBytes.length = 18 ∧ qtEnc [cA] 1 1 = .notWorth := by
  refine ⟨⟨quad_launches.1.1, ?_⟩, by decide +kernel, by decide, by decide +kernel⟩
  show (_ : Nat) ≤ _; decide

theorem meets_QtRoundTrip :
    (fed qtBytes).decodeLaunch ∧ qtEnc [cA, cA, cA, cB] 2 2 = .stream (fed qtBytes).input :=
  ⟨(fed_launches _ (by decide)).1, by decide +kernel⟩

/-- The wire record of `A B B A` coded as tiles. -/
def wireTile : List Byte := wireHdrBytes 2 0 8 8 ++ bytes [2, 0x33, 0x22, 0x11, 0x66, 0x55, 0x44, 0x60]

theorem wire_input : (fed wireTile).input = wireTile := by rfl

/-- The header is read past its marker, whatever the marker is. -/
theorem wire_decoded : ((fed wireTile).begin .sel).decode.pos = .fin := by
  have hp : parseWire wireTile = .ok (.wireHdr 2 0 8 8) := parseWire_append 2 0 8 8 _ (by decide)
  have hf : ((fed wireTile).begin .sel).fetch = (((fed wireTile).begin .sel).drop 16).fetched (parseWire wireTile) := by rfl
  have hn : ((fed wireTile).begin .sel).next =
      { cursors .sel .enc [2, 0x33, 0x22, 0x11, 0x66, 0x55, 0x44, 0x60] with
        ip := 16, enc := 2, complen := 8, srclen := 8, recLen := 24, leafCount := 0 } := by
    rw [Dec.next, hf, hp]
    rfl
  have hr : Dec.run 3 ((fed wireTile).begin .sel) = Dec.run 2 ((fed wireTile).begin .sel).next := rfl
  rw [Dec.decode, hr, hn]
  decide +kernel

/-- One accepted stream for each decoding command. -/
theorem meets_DecodersEndWell :
    ((fed (bytes [2, 0x33, 0x22, 0x11, 0x66, 0x55, 0x44, 0x60, 9])).begin .tile).decode.pos = .fin ∧ quad.tileOk ∧
      ((fed (bytes [2, 0x33, 0x22, 0x11, 0x66, 0x55, 0x44, 0x60])).begin .trle).decode.pos = .fin ∧
      ((fed qtBytes).begin .qt).decode.pos = .fin ∧
      ((fed (bytes [3, 0, 0, 1])).begin .diff).startDiff.decode.pos = .fin ∧
      ((fed (List.replicate 16 7)).begin .raw).decode.pos = .fin ∧ ((fed wireTile).begin .sel).decode.pos = .fin ∧
      (∀ l : List Byte, l.length < 65536 → (fed l).decodeLaunch ∧ (fed l).rawLaunch ∧ (fed l).inputFits) :=
  ⟨by decide +kernel, quad_launches.2.2.2.1, by decide +kernel, by decide +kernel, by decide +kernel, by decide +kernel,
    wire_decoded, fed_launches⟩

/-- A tile record with a session that it reuses, and one byte behind it. -/
theorem meets_DecodersEndWell_tile :
    ∃ s : State, s.decodeLaunch ∧ s.tileOk ∧ s.sess = [cA, cB] ∧ s.input = (tileEnc [cA, cB, cB, cA] [cA, cB] true).1 ++ [9] ∧
      (tileEnc [cA, cB, cB, cA] [cA, cB] true).1 = bytes [0x7F, 0x60] :=
  ⟨{ fed (bytes [0x7F, 0x60, 9]) with sess := [cA, cB], status.sessValid := true }, (fed_launches _ (by decide)).1,
    quad_launches.2.2.2.1, rfl, by decide +kernel, by decide +kernel⟩

/-- A raw record, one byte behind it. -/
def wireRaw : List Byte := wireHdrBytes 0 0 16 0 ++ List.replicate 16 7

theorem meets_DecodersEndWell_sel :
    ((fed (wireRaw ++ [9])).rawLaunch ∧ (fed (wireRaw ++ [9])).inputFits ∧
        (fed (wireRaw ++ [9])).input = be32 Config.wireMagic ++ be16 0 ++ be16 0 ++
          be32 (BitVec.ofNat 32 (List.replicate 16 (7 : Byte)).length) ++ [] ++ List.replicate 16 7 ++ [9] ∧
        (List.replicate 16 (7 : Byte)).length = (fed (wireRaw ++ [9])).rawSize) ∧
      ((fed wireTile).rawLaunch ∧ (fed wireTile).inputFits ∧ (fed wireTile).formatAOk ∧
        (fed wireTile).input = be32 Config.wireMagic ++ be16 2 ++ be16 0 ++ be32 (BitVec.ofNat 32 8) ++
          be32 (BitVec.ofNat 32 8) ++ bytes [2, 0x33, 0x22, 0x11, 0x66, 0x55, 0x44, 0x60] ++ [] ∧
        (bytes [2, 0x33, 0x22, 0x11, 0x66, 0x55, 0x44, 0x60], [cA, cB]) = trleEnc [cA, cB, cB, cA] 2 2 false) := by
  refine ⟨⟨(fed_launches _ (by decide)).2.1, (fed_launches _ (by decide)).2.2, by rfl, by decide⟩,
    ⟨(fed_launches _ (by decide)).2.1, (fed_launches _ (by decide)).2.2, ⟨rfl, rfl⟩, by rfl, by decide +kernel⟩⟩

/-- The structural sources of the other two methods, on the same rectangle. -/
theorem meets_DecodersEndWell_sources :
    (diffEnc [cA, cB, cC, cC] (quad.grid quad.areaA)).length < 2 ^ 32 ∧ qtEnc [cA, cA, cA, cB] 2 2 = .stream qtBytes := by
  decide +kernel

/-- A fault of the operand checks, a fault of the stream and a success. -/
theorem meets_DecodersStayInside :
    (∃ t, exec .trleDec { quad with regs.rectH := 0 } = .next t ∧ t.status.fault = true) ∧
      (∃ t, exec .qtDec quad = .next t ∧ t.status.fault = true) ∧
      ∃ t, exec .diffDec (fed (bytes [3, 0, 0, 1])) = .next t ∧ t.status.done = true :=
  ⟨⟨_, rfl, rfl⟩, ⟨_, rfl, by decide +kernel⟩, ⟨_, rfl, by decide +kernel⟩⟩

theorem meets_EncodersStayInside :
    (∃ t, exec .diffEnc quad = .next t ∧ t.status.done = true) ∧ (∃ t, exec .qtEnc quad = .next t ∧ t.status.done = true) ∧
      ∃ t, exec .trleEnc { quad with regs.outCap := 7 } = .next t ∧ t.status.fault = true :=
  ⟨⟨_, rfl, by decide +kernel⟩, ⟨_, rfl, by decide +kernel⟩, ⟨_, rfl, by decide +kernel⟩⟩

/-- An output buffer of exactly the rectangle's 16 bytes. -/
theorem meets_RawPackResult :
    ({ quad with regs.outCap := 16 }).rawLaunch ∧ ({ quad with regs.outCap := 16 }).outputFits ∧ quad.rawSize = 16 := by
  refine ⟨quad_launches.2.2.1, ?_, by decide⟩
  show (_ : Nat) ≤ _; decide

/-- Exactly 16 bytes of input, and 15. -/
theorem meets_RawUnpackResult :
    ((fed (List.replicate 16 7)).rawLaunch ∧ (fed (List.replicate 16 7)).inputFits ∧
        (fed (List.replicate 16 7)).regs.inLen.toNat = (fed (List.replicate 16 7)).rawSize) ∧
      (fed (List.replicate 15 7)).rawLaunch ∧ (fed (List.replicate 15 7)).inputFits ∧
      (fed (List.replicate 15 7)).regs.inLen.toNat < (fed (List.replicate 15 7)).rawSize :=
  ⟨⟨(fed_launches _ (by decide)).2.1, (fed_launches _ (by decide)).2.2, by decide⟩,
    (fed_launches _ (by decide)).2.1, (fed_launches _ (by decide)).2.2, by decide⟩

/-- Methods None, diff and TRLE on `quad`; the wire record of 24 bytes fills the output buffer. -/
theorem meets_SelEncResult :
    quad.rawLaunch ∧ ({ quad with regs.outCap := 24 }).outputFits ∧
      quad.structural = .ok { srcBytes := quad.rawPack, enc := 0, sess := [] } ∧
      ({ quad with regs.cfgEnc := 1 }).encMethod = 1 ∧ quad.areaFits quad.areaB Config.pixelBytes ∧
      (∀ a, ¬ (quad.areaA.holds a ∧ quad.areaB.holds a)) ∧
      ({ quad with regs.cfgEnc := 2 }).structural =
        .ok { srcBytes := bytes [2, 0x33, 0x22, 0x11, 0x66, 0x55, 0x44, 0x60], enc := 2, sess := [cA, cB] } ∧
      wireTile.length = 24 := by
  refine ⟨quad_launches.2.2.1, ?_, by rfl, by decide +kernel, quad_launches.2.2.2.2.2, quad_apart, by decide +kernel,
    by decide +kernel⟩
  show (_ : Nat) ≤ _; decide

/-- Each condition that makes the selector fall back, and a compression that is none. -/
theorem meets_SelPolicy :
    ({ quad with regs.pixaBpp := 3 }).regs.pixaBpp ≠ 4 ∧ ({ quad with regs.pixaStride := 9 }).regs.pixaStride.toNat % 4 ≠ 0 ∧
      (({ quad with regs.pixbValid := 2 }).regs.pixbValid.getLsbD 0 = false) ∧
      (∃ st, ({ quad with regs.cfgEnc := 1 }).structural = .ok st ∧ st.enc = 1) ∧
      (∃ st, ({ qtQuad with regs.cfgEnc := 3, regs.rectW := 1, regs.rectH := 1 }).structural = .ok st ∧ st.enc = 0) ∧
      compressStep 0 [1] 9 = .ok ([1], 0) := by
  refine ⟨by decide, by decide, by decide, ⟨_, rfl, by decide +kernel⟩, ⟨_, rfl, by decide +kernel⟩, rfl⟩


/-- Each method that is kept, on a legal format; the conditions of a launch with a port method, whose answer is open. -/
theorem meets_SelPolicy_kept :
    quad.formatAOk ∧ quad.formatBOk ∧ (diffEnc (quad.grid quad.areaA) (quad.grid quad.areaB)).length < quad.rawSize ∧
      qtEnc (qtQuad.grid qtQuad.areaA) 2 2 ≠ .notWorth ∧
      ({ quad with regs.cfgEnc := 2, regs.cfgCompr := 4 }).rawLaunch ∧
      ({ quad with regs.cfgEnc := 2, regs.cfgCompr := 4 }).outputFits ∧
      (4, ComprMethod.bzip2) ∈ [(1, ComprMethod.lz4), (2, .zstd), (3, .zlib), (4, .bzip2)] ∧
      (∃ st, ({ quad with regs.cfgEnc := 2, regs.cfgCompr := 4 }).structural = .ok st ∧ st.enc = 2 ∧
        st.srcBytes.length = 8) ∧ quad.areaFits quad.areaB Config.pixelBytes ∧
      (∀ a, ¬ (quad.areaA.holds a ∧ quad.areaB.holds a)) :=
  ⟨⟨rfl, rfl⟩, quad_launches.2.2.2.2.1, by decide +kernel, by decide +kernel, quad_launches.2.2.1, quad_launches.1.2,
    by decide, ⟨_, rfl, by decide +kernel⟩, quad_launches.2.2.2.2.2, quad_apart⟩

/-- What a run leaves. -/
def result (o : Machine.Outcome) : State :=
  match o with
  | .next t => t
  | .fault _ | .refused _ => quad

/-- Method TRLE, no compression: the record `SEL.ENC` leaves is the stream `SEL.DEC` reads. -/
theorem meets_SelRoundTrip :
    ∃ (s t u : State) (st : Structural), (s.regs.cfgCompr = 0 ∨ Config.CompressorInverse) ∧ s.encodeLaunch ∧
      exec .selEnc s = .next t ∧ t.status.fault = false ∧ s.structural = .ok st ∧ st.srcBytes.length < 2 ^ 32 ∧
      u.decodeLaunch ∧ u.regs.rectW = s.regs.rectW ∧ u.regs.rectH = s.regs.rectH ∧
      u.input = t.readBytes .str t.regs.outBase.toNat t.regs.outLen.toNat ∧
      (st.enc = 1 → u.grid u.areaA = s.grid s.areaB) := by
  refine ⟨{ quad with regs.cfgEnc := 2 }, result (exec .selEnc { quad with regs.cfgEnc := 2 }), fed wireTile,
    { srcBytes := bytes [2, 0x33, 0x22, 0x11, 0x66, 0x55, 0x44, 0x60], enc := 2, sess := [cA, cB] }, .inl rfl,
    quad_launches.1, by rfl, by decide +kernel, by decide +kernel, by decide, (fed_launches _ (by decide)).1, rfl, rfl,
    by rfl, fun h => absurd h (by decide)⟩

/-- Method diff: the receiver's rectangle is the sender's previous frame. -/
theorem meets_SelRoundTrip_diff :
    ∃ (s u : State) (st : Structural), s.structural = .ok st ∧ st.enc = 1 ∧ u.grid u.areaA = s.grid s.areaB :=
  ⟨{ quad with regs.cfgEnc := 1 }, { quad with regs.pixaBase := 0x2000 }, _, rfl, by decide +kernel, by decide +kernel⟩

/-- A split bit above level 0, a diff word, a token with no cursors. -/
theorem meets_TokensInPlace :
    (∃ d e : Dec, (∀ r c, d.pos ≠ .split 0 r c) ∧ d.fetch = (some .split1, e)) ∧
      (cursors .diff .diff [1, 0, 0, 5]).fetch = (some (.diffW 1 5), { cursors .diff .diff [] with ip := 4 }) ∧
      Instr.split1.channel ≠ .cmd ∧ Instr.split1.channel ≠ .ctrl ∧ quad.dec = none :=
  ⟨⟨cursors .qt (.split 1 0 0) [0, 0, 0, 0, 0x80], _, fun r c h => (by cases h), rfl⟩,
    by decide +kernel, by decide, by decide, rfl⟩

theorem meets_TokensRefineCommand :
    ((fed qtBytes).begin .qt).decode.pos = .fin ∧ ((fed wireTile).begin .sel).decode.pos = .fin :=
  ⟨by decide +kernel, wire_decoded⟩

/-- The cursors of each group of tokens; `open_` gives the state that holds them. -/
theorem meets_tokens (d : Dec) : (open_ d).dec = some d := rfl

theorem meets_WireTokensComplete :
    (cursors .sel .wire []).pos = .wire ∧ (cursors .sel .enc []).pos = .enc ∧ (cursors .sel .enc []).enc = 0 ∧
      (∀ e, ({ cursors .sel .enc [] with enc := e }).badFormat = none ∧ ({ cursors .sel .enc [] with enc := e }).enc = e) ∧
      (cursors .sel .compr []).px = [] ∧ (cursors .sel .compr []).rawBytes = [] ∧
      (∃ d : Dec, d.pos = .compr ∧ d.enc = 1 ∧ d.compr = 0 ∧ d.complen = d.inp.length ∧ d.complen = d.srclen ∧
        d.complen % 4 ≠ 0) ∧
      ∀ e, ∃ d : Dec, d.pos = .compr ∧ d.px = [] ∧ d.rawBytes = [] ∧ d.enc = e ∧ d.compr = 0 ∧
        d.complen = d.inp.length ∧ d.complen = d.srclen ∧ 0 < d.complen ∧ d.complen % 4 = 0 :=
  ⟨rfl, rfl, rfl, fun _ => ⟨rfl, rfl⟩, rfl, rfl,
    ⟨{ cursors .sel .compr [1, 2, 3] with enc := 1, complen := 3, srclen := 3 }, by decide⟩,
    fun e => ⟨{ cursors .sel .compr [1, 2, 3, 4] with enc := e, complen := 4, srclen := 4 }, rfl, rfl, rfl, rfl, rfl, rfl,
      rfl, (by omega : 0 < 4), (by omega : 4 % 4 = 0)⟩⟩

/-- For each tag and method; of the port's three answers each call gives one, and the port is open. -/
theorem meets_CompressionTagsComplete (tag e : BitVec 16) (m : ComprMethod) :
    ∃ d : Dec, d.px = [] ∧ d.rawBytes = [] ∧ d.pos = .compr ∧ d.compr = tag ∧ d.enc = e ∧ d.complen ≤ d.inp.length ∧
      0 < d.srclen ∧ d.srclen % 4 = 0 ∧
      ((∃ src, Config.decompress m (d.inp.take d.complen) d.srclen = some src ∧ src.length = d.srclen) ∨
        Config.decompress m (d.inp.take d.complen) d.srclen = none ∨
        ∃ src, Config.decompress m (d.inp.take d.complen) d.srclen = some src ∧ src.length ≠ d.srclen) := by
  refine ⟨{ cursors .sel .compr [1, 2] with compr := tag, enc := e, complen := 2, srclen := 8 }, rfl, rfl, rfl, rfl, rfl,
    (by omega : 2 ≤ 2), (by omega : 0 < 8), (by omega : 8 % 4 = 0), ?_⟩
  show (∃ src, Config.decompress m (bytes [1, 2]) 8 = some src ∧ src.length = 8) ∨
    Config.decompress m (bytes [1, 2]) 8 = none ∨ ∃ src, Config.decompress m (bytes [1, 2]) 8 = some src ∧ src.length ≠ 8
  cases h : Config.decompress m (bytes [1, 2]) 8 with
  | none => exact .inr (.inl rfl)
  | some src => by_cases hl : src.length = 8
                · exact .inl ⟨src, rfl, hl⟩
                · exact .inr (.inr ⟨src, rfl, hl⟩)

theorem meets_RawPayloadCompletes :
    ∃ (s : State) (d : Dec) (l : List Byte), s.dec = some d ∧ d.px = [] ∧ d.rawBytes = [] ∧ d.pos = .raw ∧ d.kind = .raw ∧
      l.length = d.rawSize ∧ d.rawSize = s.areaRaw.rows * s.areaRaw.rowLen ∧ s.areaRaw.rowLen ≤ s.areaRaw.stride :=
  ⟨open_ (cursors .raw .raw []), _, List.replicate 16 7, rfl, rfl, rfl, rfl, rfl, rfl, rfl, by decide⟩

/-- The body or the palette is exactly what is left, or one byte short; a session of 1, 2, 16 and 17 colours, and
none. -/
theorem meets_TileHeaderTokensComplete :
    (cursors .tile .tile (List.replicate 12 0)).pos = .tile ∧ (cursors .tile .tile (List.replicate 12 0)).px = [] ∧
      (cursors .tile .tile (List.replicate 12 0)).rawBytes = [] ∧
      3 * (cursors .tile .tile (List.replicate 12 0)).npix = (cursors .tile .tile (List.replicate 12 0)).inp.length ∧
      3 * (cursors .tile .tile (List.replicate 11 0)).npix = (cursors .tile .tile (List.replicate 11 0)).inp.length + 1 ∧
      3 = (cursors .tile .tile [0, 0, 0]).inp.length ∧ (cursors .tile .tile [0, 0]).inp.length + 1 = 3 ∧
      3 * (127 : BitVec 7).toNat = (cursors .tile .tile (List.replicate 381 0)).inp.length ∧
      (cursors .tile .tile (List.replicate 380 0)).inp.length + 1 = 3 * (127 : BitVec 7).toNat ∧
      (∀ n ∈ [2, 16], ∃ d : Dec, d.pos = .tile ∧ d.sess.length = n ∧
        ceilDiv (tileWidth d.sess.length * d.npix) 8 = d.inp.length) ∧
      (∃ d : Dec, d.pos = .tile ∧ d.sess.length = 2 ∧ d.inp.length < ceilDiv (tileWidth d.sess.length * d.npix) 8) ∧
      16 < ({ cursors .tile .tile [] with sess := List.replicate 17 cA }).sess.length ∧
      ({ cursors .tile .tile [] with sess := [cA] }).made = 0 ∧ (cursors .tile .tile []).sess = [] := by
  refine ⟨rfl, rfl, rfl, by decide +kernel, by decide +kernel, rfl, rfl, by decide +kernel, by decide +kernel, ?_,
    ⟨{ cursors .tile .tile [] with sess := [cA, cB] }, rfl, rfl, by decide +kernel⟩, by decide, rfl, rfl⟩
  intro n hn
  simp only [List.mem_cons, List.not_mem_nil, or_false] at hn
  rcases hn with rfl | rfl
  · exact ⟨{ cursors .tile .tile [0x60] with sess := [cA, cB] }, rfl, rfl, by decide +kernel⟩
  · exact ⟨{ cursors .tile .tile [1, 2] with sess := List.replicate 16 cA }, rfl, rfl, by decide +kernel⟩

/-- Two entries to come; the last one of an RLE tile, of 17 colours, of 2 and 16 with the body there, of 2 without it,
and of one. -/
theorem meets_PaletteEntriesComplete :
    (cursors .tile (.palette false 2) []).pos = .palette false 2 ∧ (cursors .tile (.palette true 1) []).px = [] ∧
      (cursors .tile (.palette true 1) []).rawBytes = [] ∧
      16 < ({ cursors .tile (.palette false 1) [] with pal := List.replicate 16 cA }).pal.length + 1 ∧
      (∀ n ∈ [1, 15], ceilDiv (tileWidth ((List.replicate n cA).length + 1) *
          (cursors .tile (.palette false 1) [1, 2]).npix) 8 ≤ (cursors .tile (.palette false 1) [1, 2]).inp.length) ∧
      (cursors .tile (.palette false 1) []).inp.length <
        ceilDiv (tileWidth (1 + 1) * (cursors .tile (.palette false 1) []).npix) 8 ∧
      (cursors .tile (.palette false 1) []).pal = [] ∧ (cursors .tile (.palette false 1) []).made = 0 := by
  decide +kernel

/-- The last pixel but one, and the last. -/
theorem meets_PixelTokensComplete :
    (∃ d : Dec, d.px = [] ∧ d.rawBytes = [] ∧ d.made + 1 + 1 = d.npix ∧ d.pos = .rle ∧
      d.pal[(1 : BitVec 7).toNat]? = some cB ∧ d.pal.length = (2 : BitVec 7).toNat ∧
      ({ d with pos := .packed 1 }).pal[(1 : BitVec 4).toNat]? = some cB ∧
      ({ d with pos := .packed 1 }).pal.length ≤ (2 : BitVec 4).toNat ∧ ({ d with pos := .rawPixel }).pos = .rawPixel ∧
      ({ d with made := 3 }).made + 1 = ({ d with made := 3 }).npix) :=
  ⟨{ cursors .tile .rle [] with made := 2, pal := [cA, cB] }, by decide +kernel⟩

/-- A run that leaves one pixel, one that ends the tile, and one that passes the end by one. -/
theorem meets_RunTokensComplete :
    ∃ d : Dec, d.px = [] ∧ d.rawBytes = [] ∧ d.pos = .runLen true cC 0 ∧ d.made + 1 + 0 + (2 : Byte).toNat + 1 = d.npix ∧
      d.made + 1 + 0 + (3 : Byte).toNat = d.npix ∧
      d.npix + 1 = d.made + 1 + 0 + (4 : Byte).toNat ∧ ({ d with pos := .plain }).pos = .plain ∧
      ({ d with pos := .rle, pal := [cA] }).pal[(0 : BitVec 7).toNat]? = some cA ∧
      ({ d with pos := .rle, pal := [cA] }).pal.length ≤ (1 : BitVec 7).toNat :=
  ⟨cursors .tile (.runLen true cC 0) [], by decide +kernel⟩

/-- A leaf with a node to come, in both kinds of container; the last leaf with the split stream used up, with a byte
left and with a leaf too few; an entry outside the palette. -/
theorem meets_QuadTokensComplete :
    (cursors .qt .qt []).pos = .qt ∧ (cursors .qt .qt []).px = [] ∧ (cursors .qt .qt []).rawBytes = [] ∧
      (cursors .qt (.split 1 0 0) []).pos = .split (0 + 1) 0 0 ∧ present 2 2 (0 + 1) 0 0 = true ∧
      (∃ d : Dec, d.pos = .leaf 0 1 0 ∧ d.stack = (0, 1, 1) :: [] ∧
        (if d.pal = [] then some ((1 : Word).setWidth 24) else d.pal[(1 : Word).toNat]?) = some cB) ∧
      (∃ d : Dec, d.pos = .leaf 0 1 0 ∧ d.stack = (0, 1, 1) :: [] ∧
        (if d.pal = [] then some ((0xEE445566 : Word).setWidth 24) else d.pal[(1 : Word).toNat]?) = some cB) ∧
      (∀ n ∈ [1, 2], ∃ d : Dec, d.pos = .leaf 1 0 0 ∧ d.stack = [] ∧ d.leaves + 1 = d.leafCount ∧
        ceilDiv d.splitpos 8 + n = d.inp.length - ceilDiv (d.leafCount * qtColorBits d.pal.length) 8 + 1) ∧
      (∃ d : Dec, d.pos = .leaf 1 0 0 ∧ d.stack = [] ∧ d.leaves + 1 ≠ d.leafCount) ∧
      ∃ d : Dec, d.pos = .leaf 1 0 0 ∧ d.pal ≠ [] ∧ d.pal.length ≤ (1 : Word).toNat := by
  refine ⟨rfl, rfl, rfl, rfl, by decide +kernel, ⟨{ cursors .qt (.leaf 0 1 0) [] with pal := [cA, cB], stack := [(0, 1, 1)] },
    by decide⟩, ⟨{ cursors .qt (.leaf 0 1 0) [] with stack := [(0, 1, 1)] }, by decide⟩, ?_,
    ⟨{ cursors .qt (.leaf 1 0 0) [] with leafCount := 2 }, by decide⟩,
    ⟨{ cursors .qt (.leaf 1 0 0) [] with pal := [cA] }, by decide⟩⟩
  intro n hn
  simp only [List.mem_cons, List.not_mem_nil, or_false] at hn
  rcases hn with rfl | rfl
  · exact ⟨{ cursors .qt (.leaf 1 0 0) [0, 1, 2, 3, 0] with splitpos := 1 }, by decide +kernel⟩
  · exact ⟨{ cursors .qt (.leaf 1 0 0) [0, 1, 2, 3, 0, 0] with splitpos := 1 }, by decide +kernel⟩

/-- A gap that ends exactly at the rectangle's end, with words to come or none; the last word short of it; one more,
and a cursor already there. -/
theorem meets_DiffTokenCompletes :
    ∃ d : Dec, d.px = [] ∧ d.rawBytes = [] ∧ d.pos = .diff ∧ d.inp ≠ [] ∧ d.cursor < d.w * d.h ∧
      d.cursor + (3 : Byte).toNat + 1 = d.w * d.h ∧ d.w * d.h < d.cursor + (4 : Byte).toNat + 1 ∧
      ({ d with cursor := 4 }).w * ({ d with cursor := 4 }).h ≤ ({ d with cursor := 4 }).cursor ∧
      ({ d with inp := [] }).inp = [] ∧ d.cursor + (2 : Byte).toNat + 1 < d.w * d.h :=
  ⟨cursors .diff .diff [0, 0, 0, 1], by decide⟩

/-- A host write, and a token of a running decoder. -/
theorem meets_StepKeepsInv :
    (State.reset.Inv ∧ step State.reset = .next State.reset) ∧
      (open_ (cursors .tile .tile [0x80])).Inv ∧ ∃ t, step (open_ (cursors .tile .tile [0x80])) = .next t := by
  refine ⟨⟨?_, rfl⟩, ?_, _, rfl⟩
  · simp only [State.Inv, State.faultInv, State.sessionInv, State.contextInv, State.paletteInv, State.decInv]
    refine ⟨rfl, rfl, by decide, by decide, by decide, by decide, fun d h => by cases h⟩
  · simp only [State.Inv, State.faultInv, State.sessionInv, State.contextInv, State.paletteInv, State.decInv]
    refine ⟨by decide +kernel, rfl, by decide, by decide, by decide, by decide, fun d h => ?_⟩
    obtain rfl : cursors .tile .tile [0x80] = d := by simpa [open_] using h
    decide

/-- `quad` with a command pending. -/
theorem meets_StepKeepsQuiet :
    ({ quad with host := [.write .cmd 0x12] }).Inv ∧ ({ quad with host := [.write .cmd 0x12] }).Quiet ∧
      ∃ t, step { quad with host := [.write .cmd 0x12] } = .next t ∧ t.status.done = true := by
  refine ⟨?_, ?_, _, rfl, by decide +kernel⟩
  · simp only [State.Inv, State.faultInv, State.sessionInv, State.contextInv, State.paletteInv, State.decInv]
    refine ⟨by decide +kernel, rfl, by decide, by decide, by decide, by decide, fun d h => by cases h⟩
  · simp only [State.Quiet]
    decide +kernel

end Sys2Proof.Tests
end

section
/-! SUPPORT. What one token can do to the cursors, said once (`Dec.Move`): every claim about a running decoder is
derived from it. -/

namespace Sys2Proof.Machine

/-! ### Reading codes -/

theorem decode_tileHdr (b : Byte) : decode .tileHdr (.word 8 b.toNat) = .ok (decodeTileHdr b) := by
  simp [decode, ofWidth, b.isLt]

theorem decode_runToken (b : Byte) : decode .runToken (.word 8 b.toNat) = .ok (decodeRunToken b) := by
  simp [decode, ofWidth, b.isLt]

theorem decode_runLen (b : Byte) : decode .runLen (.word 8 b.toNat) = .ok (decodeRunLen b) := by
  simp [decode, ofWidth, b.isLt]

theorem decode_palEntry (c : Color) : decode .palEntry (.word Config.colorBits c.toNat) = .ok (.palEntry c) := by
  simpa [decode, ofWidth] using c.isLt

theorem decode_rawPixel (c : Color) : decode .rawPixel (.word Config.colorBits c.toNat) = .ok (.rawPixel c) := by
  simpa [decode, ofWidth] using c.isLt

theorem decode_plainRun (c : Color) : decode .plainRun (.word Config.colorBits c.toNat) = .ok (.plainRun c) := by
  simpa [decode, ofWidth] using c.isLt

theorem decode_diff (w : Word) : decode .diff (.word 32 w.toNat) = .ok (decodeDiffW w) := by
  simp [decode, ofWidth, w.isLt]

/-- A number of a fixed width is read as one instruction, or rejected. -/
theorem ofWidth_ok (n m v : Nat) (i j : Instr) (h : ofWidth n m v i = .ok j) : j = i := by
  unfold ofWidth at h
  split at h
  · cases h; rfl
  · cases h

theorem decode_packed_ok (w v : Nat) (i : Instr) (h : decode (.packed w) (.word w v) = .ok i) :
    i = .packedIndex w (BitVec.ofNat 4 v) := by
  rw [decode] at h
  split at h
  · exact ofWidth_ok _ _ _ _ _ h
  · cases h

theorem decode_qtColor_ok (b v : Nat) (i : Instr) (h : decode (.qtColor b) (.word b v) = .ok i) :
    i = .qtColor b (BitVec.ofNat 32 v) := by
  rw [decode] at h
  split at h
  · exact ofWidth_ok _ _ _ _ _ h
  · cases h

theorem decode_split_ok (v : Nat) (i : Instr) (h : decode .split (.word 1 v) = .ok i) : i = .split0 ∨ i = .split1 := by
  have hi := ofWidth_ok _ _ _ _ _ h
  split at hi
  · exact .inl hi
  · exact .inr hi

theorem decodeEncTag_ok (e : BitVec 16) (i : Instr) (h : decodeEncTag e = .ok i) :
    (e = Config.encNone ∧ i = .encNone) ∨ (e = Config.encDiff ∧ i = .encDiff) ∨
      (e = Config.encTrle ∧ i = .encTrle) ∨ (e = Config.encQuadtree ∧ i = .encQuadtree) := by
  unfold decodeEncTag at h
  split_ifs at h <;> cases h <;> simp_all

theorem decodeComprTag_ok (c : BitVec 16) (i : Instr) (h : decodeComprTag c = .ok i) :
    (c = Config.comprNone ∧ i = .comprNone) ∨ (c = Config.comprLz4 ∧ i = .comprLz4) ∨
      (c = Config.comprZstd ∧ i = .comprZstd) ∨ (c = Config.comprZlib ∧ i = .comprZlib) ∨
      (c = Config.comprBzip2 ∧ i = .comprBzip2) := by
  unfold decodeComprTag at h
  split_ifs at h <;> cases h <;> simp_all

/-- Every tile header byte starts a raw, a plain-RLE or a palette tile (30_encoding R78). -/
theorem decodeTileHdr_cases (b : Byte) :
    decodeTileHdr b = .tileRaw ∨ decodeTileHdr b = .tilePlainRle ∨ decodeTileHdr b = .tileReusePacked ∨
      decodeTileHdr b = .tileReuseRle ∨ decodeTileHdr b = .tileSolid ∨ (∃ n, decodeTileHdr b = .tilePacked n) ∨
      (∃ n, decodeTileHdr b = .tilePalRleLow n) ∨ (∃ n, decodeTileHdr b = .tilePalRle n) := by
  unfold decodeTileHdr
  split_ifs <;> simp

theorem takeAt_ok (bs part : List Byte) (off n : Nat) (h : takeAt bs off n = .ok part) :
    off + n ≤ bs.length ∧ part = (bs.drop off).take n := by
  unfold takeAt at h
  split at h
  · cases h
    exact ⟨‹_›, rfl⟩
  · cases h

/-- A wire header is all that `parseWire` reads. -/
theorem parseWire_ok (bs : List Byte) (i : Instr) (h : parseWire bs = .ok i) : ∃ e c cl sl, i = .wireHdr e c cl sl := by
  simp only [parseWire, Bind.bind, Except.bind] at h
  repeat' split at h
  all_goals cases h
  all_goals exact ⟨_, _, _, _, rfl⟩

/-- A quadtree container is all that `parseQt` reads, and its two streams are shorter than the input. -/
theorem parseQt_ok (bs : List Byte) (i : Instr) (h : parseQt bs = .ok i) :
    ∃ p lc cs ss, i = .qtBlob p lc cs ss ∧ (cs ++ ss).length < bs.length := by
  simp only [parseQt, Bind.bind, Except.bind] at h
  repeat' split at h
  all_goals cases h
  rename_i cs hcs
  obtain ⟨hl, rfl⟩ := takeAt_ok _ _ _ _ hcs
  refine ⟨_, _, _, _, rfl, ?_⟩
  simp only [List.length_append, List.length_take, List.length_drop]
  omega

/-! ### The relation -/

/-- What the cursors keep of the launch for the length of the command (70_reset R289). -/
def Dec.operands (d : Dec) : DecKind × Nat × Nat × Nat × Option Raise := (d.kind, d.w, d.h, d.rawSize, d.badFormat)

/-- What stays besides, but for the last palette entry of a tile and a raw payload. -/
def Dec.kept (d : Dec) : (DecKind × Nat × Nat × Nat × Option Raise) × List Color × List Byte :=
  (d.operands, d.sess, d.rawBytes)

/-- The cursors behind a token: `n` bytes, `b` bits of the body or colour stream, `sp` split bits are read. -/
def Dec.past (d : Dec) (n b sp : Nat) : Dec :=
  { d with inp := d.inp.drop n, ip := d.ip + n, bitpos := d.bitpos + b, splitpos := d.splitpos + sp }

/-- The positions of a tile stream at which whole bytes are read (42_tile R158). -/
def Pos.inTile : Pos → Bool
  | .tile | .palette _ _ | .rawPixel | .plain | .rle | .runLen _ _ _ => true
  | _ => false

/-- All that one token can do to the cursors, one case for each shape of a token. -/
inductive Dec.Move (d : Dec) : Dec → Prop
  /-- The token cannot be read, or its own checks fail. -/
  | fault (e : Dec) (r : Raise) (hk : e.kept = d.kept) : Move d { e with pos := .raised r }
  | wireHdr (n : Nat) (e c : BitVec 16) (cl sl rl : Nat) (hp : d.pos = .wire) :
      Move d { d.past n 0 0 with enc := e, compr := c, complen := cl, srclen := sl, recLen := rl, pos := .enc }
  | encTag (sl : Nat) (hp : d.pos = .enc) (hf : d.enc = Config.encNone ∨ d.badFormat = none) :
      Move d { d with srclen := sl, pos := .compr }
  | comprTag (src : List Byte) (hp : d.pos = .compr) : Move d (d.dispatch src)
  | rawPayload (bytes : List Byte) (hp : d.pos = .raw) :
      Move d { d.past d.rawSize 0 0 with rawBytes := bytes, pos := .fin }
  /-- A tile header or a part of a run: no pixel yet. -/
  | read (n : Nat) (h : Byte) (p : Pos) (hp : d.pos.inTile = true) (hn : 0 < n) (hl : n ≤ d.inp.length)
      (hq : p.inTile = true) (hq' : p.paletteLeft = 0) : Move d { d.past n 0 0 with hdr := h, pos := p }
  | reuse (h : Byte) (rle : Bool) (hp : d.pos = .tile) (hl : 1 ≤ d.inp.length) :
      Move d ({ d.past 1 0 0 with hdr := h, pal := d.sess }.startBody rle)
  | palette (h : Byte) (rle : Bool) (count : Nat) (hp : d.pos = .tile) (hl : 1 ≤ d.inp.length) (hc : count ≤ 127) :
      Move d { d.past 1 0 0 with hdr := h, pal := [], pos := .palette rle count }
  | palEntry (c : Color) (rle : Bool) (left : Nat) (hp : d.pos = .palette rle left) (hl : 3 ≤ d.inp.length)
      (h1 : 1 < left) : Move d { d.past 3 0 0 with pal := d.pal ++ [c], pos := .palette rle (left - 1) }
  | lastEntry (c : Color) (rle : Bool) (left : Nat) (hp : d.pos = .palette rle left) (hl : 3 ≤ d.inp.length) :
      Move d ({ d.past 3 0 0 with pal := d.pal ++ [c], sess := d.pal ++ [c], pos := .palette rle left }.startBody rle)
  /-- Pixels of one colour, in a body that is read by bytes. -/
  | pixels (n : Nat) (p : Pos) (c : Color) (run : Nat) (hp : d.pos.inTile = true) (hn : 0 < n) (hl : n ≤ d.inp.length)
      (hq : p.inTile = true) (hq' : p.paletteLeft = 0) : Move d ({ d.past n 0 0 with pos := p }.emitRun c run)
  | packedIndex (w : Nat) (c : Color) (hp : d.pos = .packed w) : Move d ((d.past 0 w 0).emitRun c 1)
  | qtBlob (pal : List Color) (leafCount n : Nat) (src : List Byte) (hp : d.pos = .qt)
      (hl : src.length < d.inp.length) :
      Move d { d with
        pal := pal, leafCount := leafCount, leaves := 0, inp := src, ip := n, bitpos := 0, splitpos := 0
        stack := [(levelCount (max d.w d.h) - 1, 0, 0)] }.nextNode
  | split0 (l r c : Nat) (hp : d.pos = .split l r c) (hb : d.splitpos + 1 ≤ 8 * d.splitLen) :
      Move d { d.past 0 0 1 with pos := .leaf l r c }
  | split1 (l r c : Nat) (hp : d.pos = .split (l + 1) r c) (hb : d.splitpos + 1 ≤ 8 * d.splitLen) :
      Move d { d.past 0 0 1 with
        stack := (children d.w d.h l r c).map (fun p : Nat × Nat => (l, p.1, p.2)) ++ d.stack }.nextNode
  | qtColor (l r c b : Nat) (col : Color) (hp : d.pos = .leaf l r c) :
      Move d { d.past 0 b 0 with
        leaves := d.leaves + 1
        px := (squarePositions d.w d.h l r c).foldl (fun px p => (p, col) :: px) d.px }.nextNode
  | diffW (c : Color) (k : Nat) (hp : d.pos = .diff) (hl : 4 ≤ d.inp.length) (hc : d.cursor < d.w * d.h) :
      Move d { d.past 4 0 0 with px := (d.cursor, c) :: d.px, cursor := k }.nextWord

/-- A fault where the cursors stand. -/
theorem Dec.Move.raise (d : Dec) (r : Raise) : d.Move { d with pos := .raised r } := .fault d r rfl

/-- A fault behind a token that was read. -/
theorem Dec.Move.raise_past (d : Dec) (n b sp : Nat) (r : Raise) : d.Move { d.past n b sp with pos := .raised r } :=
  .fault _ r rfl

/-- What fetching the next token finds: it cannot be read, or it is in its place and moves the cursors, or it splits a
node of level 0, which no decoder asks about. -/
def Dec.FetchSpec (d : Dec) : Option Instr × Dec → Prop
  | (none, e) => d.Move e
  | (some i, e) => (∃ f, e.apply i = some f ∧ d.Move f) ∨ e.apply i = none ∧ i = .split1 ∧ ∃ r c, d.pos = .split 0 r c

/-- A token that is read or rejected as a whole. -/
theorem Dec.FetchSpec.fetched (d : Dec) (n b sp : Nat) (x : Except Reject Instr)
    (h : ∀ i, x = .ok i → d.FetchSpec (some i, d.past n b sp)) : d.FetchSpec ((d.past n b sp).fetched x) := by
  cases x with
  | ok i => exact h i rfl
  | error r => exact .raise_past d n b sp _

theorem Dec.FetchSpec.apply (d e f : Dec) (i : Instr) (h : e.apply i = some f) (hm : d.Move f) :
    d.FetchSpec (some i, e) := .inl ⟨f, h, hm⟩

/-- A token of one byte, at a position that reads bytes. -/
theorem Dec.fetchByte_spec (d : Dec) (ch : Channel)
    (h : ∀ b : Byte, 1 ≤ d.inp.length → ∀ i, Sys2Proof.decode ch (.word 8 b.toNat) = .ok i →
      d.FetchSpec (some i, d.past 1 0 0)) :
    d.FetchSpec (d.fetchByte ch) := by
  unfold Dec.fetchByte
  split
  · rename_i b rest hb
    exact .fetched d 1 0 0 _ (h b (by simp [hb]))
  · exact .raise d _

/-- A token of one colour. -/
theorem Dec.fetchColor_spec (d : Dec) (ch : Channel)
    (h : ∀ c : Color, 3 ≤ d.inp.length → ∀ i, Sys2Proof.decode ch (.word Config.colorBits c.toNat) = .ok i →
      d.FetchSpec (some i, d.past 3 0 0)) : d.FetchSpec (d.fetchColor ch) := by
  unfold Dec.fetchColor
  split
  · exact .raise d _
  · rename_i hl
    exact .fetched d 3 0 0 _ (h _ (by omega))

/-- A token of `n` bits of a body or the colour stream. -/
theorem Dec.fetchBits_spec (d : Dec) (n budget : Nat) (ch : Channel)
    (h : ∀ v i, Sys2Proof.decode ch (.word n v) = .ok i → d.FetchSpec (some i, d.past 0 n 0)) :
    d.FetchSpec (d.fetchBits n budget ch) := by
  unfold Dec.fetchBits
  split
  · exact .fetched d 0 n 0 _ (h _)
  · exact .raise d _

/-! ### Each token -/

/-- A position of one colour or one byte in front of a run of pixels. -/
theorem Dec.withIndex_move (d e : Dec) (k : Nat) (f : Color → Dec) (hk : e.kept = d.kept)
    (hf : ∀ c, d.Move (f c)) : d.Move (e.withIndex k f) := by
  unfold Dec.withIndex
  split
  · exact hf _
  · exact .fault e _ hk

theorem Dec.startPalette_move (d : Dec) (h : Byte) (count : Nat) (hp : d.pos = .tile) (hl : 1 ≤ d.inp.length)
    (hc : count ≤ 127) : d.Move ((d.past 1 0 0).startPalette h count) := by
  unfold Dec.startPalette Dec.need
  split
  · exact .fault _ _ rfl
  · exact .palette h _ count hp hl hc

theorem Dec.reuse_move (d : Dec) (h : Byte) (hp : d.pos = .tile) (hl : 1 ≤ d.inp.length) :
    d.Move ((d.past 1 0 0).reuse h) := by
  unfold Dec.reuse
  split
  · exact .fault _ _ rfl
  · exact .reuse h _ hp hl

theorem Dec.fetchSpec_tileHdr (d : Dec) (b : Byte) (hp : d.pos = .tile) (hl : 1 ≤ d.inp.length) :
    d.FetchSpec (some (decodeTileHdr b), d.past 1 0 0) := by
  have hp' : (d.past 1 0 0).pos = .tile := hp
  have ht : d.pos.inTile = true := by rw [hp]; rfl
  have count_le (n : BitVec 7) : n.toNat ≤ 127 := by omega
  rcases decodeTileHdr_cases b with h | h | h | h | h | ⟨n, h⟩ | ⟨n, h⟩ | ⟨n, h⟩ <;> rw [h]
  · refine .apply d _ _ _ (if_pos hp') ?_
    unfold Dec.need
    split
    · exact .fault _ _ rfl
    · exact .read 1 0 .rawPixel ht Nat.one_pos hl rfl rfl
  · exact .apply d _ _ _ (if_pos hp') (.read 1 _ .plain ht Nat.one_pos hl rfl rfl)
  · exact .apply d _ _ _ (if_pos hp') (d.reuse_move _ hp hl)
  · exact .apply d _ _ _ (if_pos hp') (d.reuse_move _ hp hl)
  · exact .apply d _ _ _ (if_pos hp') (d.startPalette_move _ 1 hp hl (by omega))
  · exact .apply d _ _ _ (if_pos hp') (d.startPalette_move _ _ hp hl (count_le n))
  · exact .apply d _ _ _ (if_pos hp') (d.startPalette_move _ _ hp hl (count_le n))
  · exact .apply d _ _ _ (if_pos hp') (d.startPalette_move _ _ hp hl (count_le n))

theorem Dec.fetchSpec_palEntry (d : Dec) (c : Color) (rle : Bool) (left : Nat) (hp : d.pos = .palette rle left)
    (hl : 3 ≤ d.inp.length) : d.FetchSpec (some (.palEntry c), d.past 3 0 0) := by
  have hp' : (d.past 3 0 0).pos = .palette rle left := hp
  refine .apply d _ _ _ (by simp only [Dec.apply, Dec.palEntry, hp']; rfl) ?_
  split
  · exact .lastEntry c rle left hp hl
  · exact .palEntry c rle left hp hl (by omega)

theorem Dec.fetchSpec_runToken (d : Dec) (b : Byte) (hp : d.pos = .rle) (hl : 1 ≤ d.inp.length) :
    d.FetchSpec (some (decodeRunToken b), d.past 1 0 0) := by
  have hp' : (d.past 1 0 0).pos = .rle := hp
  have ht : d.pos.inTile = true := by rw [hp]; rfl
  unfold decodeRunToken
  split
  · exact .apply d _ _ _ (if_pos hp') (d.withIndex_move _ _ _ rfl fun c =>
      .read 1 d.hdr (.runLen false c 0) ht Nat.one_pos hl rfl rfl)
  · refine .apply d _ _ _ (if_pos hp') (d.withIndex_move _ _ _ rfl fun c => ?_)
    have hm := Dec.Move.pixels (d := d) 1 d.pos c 1 ht Nat.one_pos hl ht (by rw [hp]; rfl)
    exact hm

theorem Dec.fetchSpec_runLen (d : Dec) (b : Byte) (plain : Bool) (c : Color) (extra : Nat)
    (hp : d.pos = .runLen plain c extra) (hl : 1 ≤ d.inp.length) :
    d.FetchSpec (some (decodeRunLen b), d.past 1 0 0) := by
  have hp' : (d.past 1 0 0).pos = .runLen plain c extra := hp
  have ht : d.pos.inTile = true := by rw [hp]; rfl
  unfold decodeRunLen
  split
  · exact .apply d _ _ _ (by simp only [Dec.apply, Dec.runLenCont, hp']; rfl)
      (.read 1 d.hdr (.runLen plain c (extra + Config.rleCont)) ht Nat.one_pos hl rfl rfl)
  · exact .apply d _ _ _ (by simp only [Dec.apply, Dec.runLenFinal, hp']; rfl)
      (.pixels 1 _ c (1 + (extra + b.toNat)) ht Nat.one_pos hl (by cases plain <;> rfl) (by cases plain <;> rfl))

/-- The packed body's index. -/
theorem Dec.fetchSpec_packedIndex (d : Dec) (w : Nat) (k : BitVec 4) (hp : d.pos = .packed w) :
    d.FetchSpec (some (.packedIndex w k), d.past 0 w 0) :=
  .apply d _ _ _ (if_pos hp) (d.withIndex_move _ _ _ rfl fun c => .packedIndex w c hp)

theorem Dec.encTag_move (d : Dec) (tag : BitVec 16) (i : Instr) (hp : d.pos = .enc) (he : d.enc = tag)
    (hi : ∀ e : Dec, e.apply i = e.encTag tag) : d.FetchSpec (some i, d) := by
  refine .apply d _ _ _ ((hi d).trans (if_pos ⟨hp, he⟩)) ?_
  split
  · rename_i h
    exact .encTag d.rawSize hp (.inl (he.trans h))
  · split
    · exact .raise d _
    · rename_i h
      exact .encTag d.srclen hp (.inr h)

theorem Dec.comprTag_move (d : Dec) (tag : BitVec 16) (m : ComprMethod) (i : Instr) (hp : d.pos = .compr)
    (hc : d.compr = tag) (hi : ∀ e : Dec, e.apply i = e.comprTag tag m) : d.FetchSpec (some i, d) := by
  refine .apply d _ _ _ ((hi d).trans (if_pos ⟨hp, hc⟩)) ?_
  unfold Dec.need
  split
  · exact .raise d _
  · dsimp only
    split
    · exact .raise d _
    · split
      · exact .raise d _
      · exact .comprTag _ hp

theorem Dec.comprNone_move (d : Dec) (hp : d.pos = .compr) (hc : d.compr = Config.comprNone) :
    d.FetchSpec (some .comprNone, d) := by
  refine .apply d _ _ _ (if_pos ⟨hp, hc⟩) ?_
  unfold Dec.need
  split
  · exact .raise d _
  · dsimp only
    split
    · exact .raise d _
    · exact .comprTag _ hp

theorem Dec.fetchSpec_qtBlob (d : Dec) (p : List Word) (lc : Word) (cs ss : List Byte) (hp : d.pos = .qt)
    (hl : (cs ++ ss).length < d.inp.length) : d.FetchSpec (some (.qtBlob p lc cs ss), d) :=
  .apply d _ _ _ (if_pos hp) (.qtBlob (p.map color) lc.toNat _ (cs ++ ss) hp hl)

theorem Dec.fetchSpec_split (d : Dec) (i : Instr) (l r c : Nat) (hi : i = .split0 ∨ i = .split1)
    (hp : d.pos = .split l r c) (hb : d.splitpos + 1 ≤ 8 * d.splitLen) : d.FetchSpec (some i, d.past 0 0 1) := by
  have hp' : (d.past 0 0 1).pos = .split l r c := hp
  rcases hi with rfl | rfl
  · exact .apply d _ _ _ (by simp only [Dec.apply, Dec.split0, hp']) (.split0 l r c hp hb)
  · cases l with
    | zero => exact .inr ⟨by simp only [Dec.apply, Dec.split1, hp'], rfl, r, c, hp⟩
    | succ l => exact .apply d _ _ _ (by simp only [Dec.apply, Dec.split1, hp']; rfl) (.split1 l r c hp hb)

theorem Dec.fetchSpec_qtColor (d : Dec) (l r c : Nat) (v : Word) (hp : d.pos = .leaf l r c) :
    d.FetchSpec (some (.qtColor (qtColorBits d.pal.length) v), d.past 0 (qtColorBits d.pal.length) 0) := by
  have hp' : (d.past 0 (qtColorBits d.pal.length) 0).pos = .leaf l r c := hp
  refine .apply d _ _ _ (by simp only [Dec.apply, Dec.qtColor, hp']; exact if_pos rfl) ?_
  split
  · exact .qtColor l r c _ _ hp
  · exact .fault _ _ rfl

theorem Dec.fetchSpec_diffW (d : Dec) (gap : Byte) (c : Color) (hp : d.pos = .diff) (hl : 4 ≤ d.inp.length) :
    d.FetchSpec (some (.diffW gap c), d.past 4 0 0) := by
  have hp' : (d.past 4 0 0).pos = .diff := hp
  refine .apply d _ _ _ (if_pos hp') ?_
  split
  · exact .fault _ _ rfl
  · rename_i hc
    dsimp only
    split
    · exact .fault _ _ rfl
    · exact .diffW c _ hp hl (Nat.not_le.1 hc)

/-- What the decoder finds wherever it stands (30_encoding R91). -/
theorem Dec.fetch_spec (d : Dec) (hr : d.running = true) : d.FetchSpec d.fetch := by
  unfold Dec.fetch
  split
  case h_1 hp =>
    refine .fetched d _ 0 0 _ fun i hi => ?_
    obtain ⟨e, c, cl, sl, rfl⟩ := parseWire_ok _ _ hi
    exact .apply d _ _ _ (if_pos hp) (.wireHdr _ e c cl.toNat sl.toNat _ hp)
  case h_2 hp =>
    refine .fetched d 0 0 0 _ fun i hi => ?_
    rcases decodeEncTag_ok _ _ hi with ⟨he, rfl⟩ | ⟨he, rfl⟩ | ⟨he, rfl⟩ | ⟨he, rfl⟩ <;>
      exact d.encTag_move _ _ hp he fun _ => rfl
  case h_3 hp =>
    refine .fetched d 0 0 0 _ fun i hi => ?_
    rcases decodeComprTag_ok _ _ hi with ⟨hc, rfl⟩ | ⟨hc, rfl⟩ | ⟨hc, rfl⟩ | ⟨hc, rfl⟩ | ⟨hc, rfl⟩
    · exact d.comprNone_move hp hc
    · exact d.comprTag_move _ _ _ hp hc fun _ => rfl
    · exact d.comprTag_move _ _ _ hp hc fun _ => rfl
    · exact d.comprTag_move _ _ _ hp hc fun _ => rfl
    · exact d.comprTag_move _ _ _ hp hc fun _ => rfl
  case h_4 hp =>
    split
    · exact .raise d _
    · rename_i hl
      refine .fetched d d.rawSize 0 0 _ fun i hi => ?_
      have hlen : (d.inp.take d.rawSize).length = d.rawSize := List.length_take_of_le (Nat.not_lt.1 hl)
      simp only [Sys2Proof.decode, hlen, if_true] at hi
      cases hi
      exact .apply d _ _ _ (if_pos ⟨hp, hlen⟩) (.rawPayload _ hp)
  case h_5 hp =>
    refine d.fetchByte_spec _ fun b hl i hi => ?_
    rw [decode_tileHdr] at hi
    cases hi
    exact d.fetchSpec_tileHdr b hp hl
  case h_6 rle left hp =>
    refine d.fetchColor_spec _ fun c hl i hi => ?_
    rw [decode_palEntry] at hi
    cases hi
    exact d.fetchSpec_palEntry c rle left hp hl
  case h_7 hp =>
    refine d.fetchColor_spec _ fun c hl i hi => ?_
    rw [decode_rawPixel] at hi
    cases hi
    have ht : d.pos.inTile = true := by rw [hp]; rfl
    have hm := Dec.Move.pixels (d := d) 3 d.pos c 1 ht (by omega) hl ht (by rw [hp]; rfl)
    exact .apply d _ _ _ (if_pos hp) hm
  case h_8 hp =>
    refine d.fetchColor_spec _ fun c hl i hi => ?_
    rw [decode_plainRun] at hi
    cases hi
    exact .apply d _ _ _ (if_pos hp) (.read 3 d.hdr (.runLen true c 0) (by rw [hp]; rfl) (by omega) hl rfl rfl)
  case h_9 hp =>
    refine d.fetchByte_spec _ fun b hl i hi => ?_
    rw [decode_runToken] at hi
    cases hi
    exact d.fetchSpec_runToken b hp hl
  case h_10 plain c extra hp =>
    refine d.fetchByte_spec _ fun b hl i hi => ?_
    rw [decode_runLen] at hi
    cases hi
    exact d.fetchSpec_runLen b plain c extra hp hl
  case h_11 w hp =>
    refine d.fetchBits_spec _ _ _ fun v i hi => ?_
    rw [decode_packed_ok _ _ _ hi]
    exact d.fetchSpec_packedIndex w _ hp
  case h_12 hp =>
    refine .fetched d 0 0 0 _ fun i hi => ?_
    obtain ⟨p, lc, cs, ss, rfl, hl⟩ := parseQt_ok _ _ hi
    exact d.fetchSpec_qtBlob p lc cs ss hp hl
  case h_13 l r c hp =>
    unfold Dec.fetchSplit
    split
    · rename_i v hv
      refine .fetched d 0 0 1 _ fun i hi => d.fetchSpec_split i l r c (decode_split_ok _ _ hi) hp ?_
      simp only [Dec.getBits, brGet] at hv
      split_ifs at hv
      omega
    · exact .raise d _
  case h_14 l r c hp =>
    split
    · exact .raise d _
    · refine d.fetchBits_spec _ _ _ fun v i hi => ?_
      rw [decode_qtColor_ok _ _ _ hi]
      exact d.fetchSpec_qtColor l r c _ hp
  case h_15 hp =>
    split
    · exact .raise d _
    · rename_i hl
      refine .fetched d 4 0 0 _ fun i hi => ?_
      rw [decode_diff] at hi
      cases hi
      exact d.fetchSpec_diffW _ _ hp (by omega)
  case h_16 hp => simp [Dec.running, hp] at hr
  case h_17 hp => simp [Dec.running, hp] at hr

end Sys2Proof.Machine
end

section
/-! SUPPORT. The step of a machine with cursors open (10_state R29; log 2): it settles where `Dec.next` leaves them. -/

namespace Sys2Proof.Machine

/-! ### The token and the machine -/

/-- A token in its place settles the machine where it leaves the cursors. -/
theorem exec_token (s : State) (e f : Dec) (i : Instr) (hs : s.dec = some e) (h : e.apply i = some f) :
    exec i s = .next (s.settle f) := by
  cases i
  case nop | bswInit | bswPut | bswFin | bsrInit | bsrGet | bsrFin | palBuild | palLookup | palGet | tileEnc | tileDec
    | trleEnc | trleDec | trleRst | qtEnc | qtDec | diffEnc | diffDec | rawPack | rawUnpack | selEnc | selDec | reset =>
    cases h
  all_goals exact onToken_next s e f _ hs h

theorem State.putPixels_dec (s : State) (x : Option Dec) (px : List (Nat × Color)) :
    ({ s with dec := x }).putPixels px = { s.putPixels px with dec := x } := by
  induction px with
  | nil => rfl
  | cons p px ih =>
    rw [State.putPixels_cons, ih]
    rfl

theorem State.rawUnpack_dec (s : State) (x : Option Dec) (src : List Byte) :
    ({ s with dec := x }).rawUnpack src = { s.rawUnpack src with dec := x } := by
  have h : ∀ (l : List Nat) (t : State) (f : Nat → Nat) (g : Nat → List Byte),
      l.foldl (fun t j => t.writePix (f j) (g j)) { t with dec := x } =
        { l.foldl (fun t j => t.writePix (f j) (g j)) t with dec := x } := by
    intro l
    induction l with
    | nil => intros; rfl
    | cons j l ih => intro t f g; exact ih (t.writePix (f j) (g j)) f g
  exact h _ s _ _

/-- What the decoder writes does not depend on the cursors the state holds. -/
theorem State.flush_dec (s : State) (x : Option Dec) (d : Dec) :
    ({ s with dec := x }).flush d = { s.flush d with dec := x } := by
  have h := s.putPixels_dec x d.px
  simp only [State.putPixels] at h
  simp only [State.flush, h]
  split
  · rfl
  · exact State.rawUnpack_dec _ x _

/-- Where the machine settles does not depend on the cursors the state held. -/
theorem State.settle_dec (s : State) (x : Option Dec) (d : Dec) : ({ s with dec := x }).settle d = s.settle d := by
  unfold State.settle
  split
  · rw [State.flush_dec]
    cases hk : d.kind <;> simp only [State.decoded, hk] <;> rfl
  · cases hk : d.kind <;> simp only [State.faultSession, hk] <;> rfl
  · rw [State.flush_dec]

/-! ### The step -/

theorem Dec.fetch_stopped (d : Dec) (h : d.running = false) : d.fetch = (none, d) := by
  unfold Dec.running at h
  unfold Dec.fetch
  split at h
  · rename_i hp
    simp only [hp]
  · rename_i hp
    simp only [hp]
  · cases h

theorem Dec.next_of_fetch_none (d e : Dec) (h : d.fetch = (none, e)) : d.next = e := by simp only [Dec.next, h]

theorem Dec.next_of_fetch_some (d e : Dec) (i : Instr) (h : d.fetch = (some i, e)) :
    d.next = (e.apply i).getD e := by simp only [Dec.next, h]

theorem step_fetch_none (s : State) (d e : Dec) (hs : s.dec = some d) (h : d.fetch = (none, e)) :
    step s = .next (s.settle e) := by simp only [step, fetchNext, hs, fetchToken, h]

theorem step_fetch_some (s : State) (d e : Dec) (i : Instr) (hs : s.dec = some d) (h : d.fetch = (some i, e)) :
    step s = exec i { s with dec := some e } := by simp only [step, fetchNext, hs, fetchToken, h]

/-- A running decoder's token and the machine's step: a token that cannot be read or is in its place moves the cursors
and the machine follows; a split bit at level 0 is refused. -/
theorem step_token (s : State) (d : Dec) (hs : s.dec = some d) (hr : d.running = true) :
    (d.Move d.next ∧ step s = .next (s.settle d.next)) ∨
      ((∃ r c, d.pos = .split 0 r c) ∧ step s = .refused .tokenOutOfPlace) := by
  have hf := d.fetch_spec hr
  rcases hd : d.fetch with ⟨_ | i, e⟩ <;> rw [hd] at hf
  · rw [d.next_of_fetch_none e hd]
    exact .inl ⟨hf, step_fetch_none s d e hs hd⟩
  · rw [d.next_of_fetch_some e i hd, step_fetch_some s d e i hs hd]
    rcases hf with ⟨f, ha, hm⟩ | ⟨ha, rfl, hp⟩
    · rw [ha, exec_token _ e f i rfl ha, State.settle_dec]
      exact .inl ⟨hm, rfl⟩
    · refine .inr ⟨hp, ?_⟩
      simp only [exec, execSplit1, onToken, show e.split1 = none from ha]

theorem Dec.next_stopped (d : Dec) (h : d.running = false) : d.next = d :=
  d.next_of_fetch_none d (d.fetch_stopped h)

/-- Away from a split bit at level 0, one token moves the cursors as `Dec.Move` says. -/
theorem Dec.next_move (d : Dec) (hr : d.running = true) (hp : ∀ r c, d.pos ≠ .split 0 r c) : d.Move d.next := by
  have hf := d.fetch_spec hr
  rcases hd : d.fetch with ⟨_ | i, e⟩ <;> rw [hd] at hf
  · exact d.next_of_fetch_none e hd ▸ hf
  · rw [d.next_of_fetch_some e i hd]
    rcases hf with ⟨f, ha, hm⟩ | ⟨_, _, r, c, h⟩
    · rw [ha]
      exact hm
    · exact absurd h (hp r c)

/-- Every step of a machine with cursors open settles them behind the next token. -/
theorem step_open (s t : State) (d : Dec) (hs : s.dec = some d) (h : step s = .next t) :
    t = s.settle d.next ∧ (d.running = true → d.Move d.next) := by
  cases hr : d.running
  · rw [step_fetch_none s d d hs (d.fetch_stopped hr)] at h
    injection h with h
    exact ⟨by rw [d.next_stopped hr, h], fun h => by cases h⟩
  · rcases step_token s d hs hr with ⟨hm, hn⟩ | ⟨_, hn⟩ <;> rw [hn] at h
    · injection h with h
      exact ⟨h.symm, fun _ => hm⟩
    · cases h

end Sys2Proof.Machine
end

section
/-! SUPPORT. What every token keeps, from the cases of `Dec.Move`: the operands of the launch, where the cursors can
stand, and the bound on palettes. -/

namespace Sys2Proof.Machine

/-! ### The operands and the session -/

@[simp] theorem Dec.nextTile_kept (d : Dec) : d.nextTile.kept = d.kept := by
  rcases d.nextTile_cases with ⟨_, h⟩ | h | ⟨_, h⟩ <;> rw [h] <;> rfl

@[simp] theorem Dec.endTile_kept (d : Dec) : d.endTile.kept = d.kept := by
  rcases d.endTile_eq with ⟨w, _, h⟩ | ⟨_, h⟩
  · rw [h, Dec.nextTile_kept]
    rfl
  · rw [h, Dec.nextTile_kept]

@[simp] theorem Dec.emitRun_kept (d : Dec) (c : Color) (run : Nat) : (d.emitRun c run).kept = d.kept := by
  rcases d.emitRun_cases c run with ⟨_, h⟩ | ⟨e, _, rfl, h⟩ <;> rw [h]
  · rfl
  · split
    · exact Dec.endTile_kept _
    · rfl

@[simp] theorem Dec.startBody_kept (d : Dec) (rle : Bool) : (d.startBody rle).kept = d.kept := by
  rcases d.startBody_cases rle with ⟨_, h⟩ | ⟨_, _, ⟨_, h⟩ | ⟨_, _, h⟩ | ⟨_, _, h⟩⟩ <;> rw [h]
  · rfl
  · exact Dec.emitRun_kept ..
  · rfl
  · rfl

@[simp] theorem Dec.nextNode_kept (d : Dec) : d.nextNode.kept = d.kept := by
  rcases d.nextNode_cases with ⟨_, _, _, _, h⟩ | ⟨_, _, _, _, _, h⟩ | ⟨_, h | h | h⟩ <;> rw [h] <;> rfl

@[simp] theorem Dec.nextWord_kept (d : Dec) : d.nextWord.kept = d.kept := by
  rcases d.nextWord_cases with ⟨_, h⟩ | ⟨_, _, h⟩ | ⟨_, _, h⟩ <;> rw [h] <;> rfl

@[simp] theorem Dec.startDiff_kept (d : Dec) : d.startDiff.kept = d.kept := by
  unfold Dec.startDiff
  split
  · rfl
  · exact Dec.nextWord_kept _

@[simp] theorem Dec.dispatch_kept (d : Dec) (src : List Byte) : (d.dispatch src).kept = d.kept := by
  unfold Dec.dispatch
  repeat' split
  · rfl
  · exact Dec.startDiff_kept _
  · rfl
  · rfl

/-- No token changes the operands of the launch. -/
theorem Dec.Move.operands_eq {d f : Dec} (h : d.Move f) : f.operands = d.operands := by
  cases h with
  | fault e r hk => exact congrArg Prod.fst hk
  | comprTag src hp => exact congrArg Prod.fst (Dec.dispatch_kept d src)
  | reuse h rle hp hl => exact congrArg Prod.fst (Dec.startBody_kept ..)
  | lastEntry c rle left hp hl => exact congrArg Prod.fst (Dec.startBody_kept ..)
  | pixels n p c run hp hn hl hq hq' => exact congrArg Prod.fst (Dec.emitRun_kept ..)
  | packedIndex w c hp => exact congrArg Prod.fst (Dec.emitRun_kept ..)
  | qtBlob pal lc n src hp hl => exact congrArg Prod.fst (Dec.nextNode_kept _)
  | split1 l r c hp hb => exact congrArg Prod.fst (Dec.nextNode_kept _)
  | qtColor l r c b col hp => exact congrArg Prod.fst (Dec.nextNode_kept _)
  | diffW c k hp hl hc => exact congrArg Prod.fst (Dec.nextWord_kept _)
  | wireHdr | encTag | rawPayload | read | palette | palEntry | split0 => rfl

theorem Dec.sess_of_kept {d e : Dec} (h : e.kept = d.kept) : e.sess = d.sess := congrArg (·.2.1) h

theorem Dec.rawBytes_of_kept {d e : Dec} (h : e.kept = d.kept) : e.rawBytes = d.rawBytes := congrArg (·.2.2) h

/-- Raw bytes are decided with the end of the stream only. -/
theorem Dec.Move.rawBytes_eq {d f : Dec} (h : d.Move f) (hf : f.pos ≠ .fin) : f.rawBytes = d.rawBytes := by
  cases h with
  | fault e r hk => exact Dec.rawBytes_of_kept hk
  | comprTag src hp => exact Dec.rawBytes_of_kept (d.dispatch_kept src)
  | rawPayload bytes hp => exact absurd rfl hf
  | reuse h rle hp hl => exact Dec.rawBytes_of_kept (Dec.startBody_kept ..)
  | lastEntry c rle left hp hl => exact (Dec.rawBytes_of_kept (Dec.startBody_kept ..)).trans rfl
  | pixels n p c run hp hn hl hq hq' => exact Dec.rawBytes_of_kept (Dec.emitRun_kept ..)
  | packedIndex w c hp => exact Dec.rawBytes_of_kept (Dec.emitRun_kept ..)
  | qtBlob pal lc n src hp hl => exact Dec.rawBytes_of_kept (Dec.nextNode_kept _)
  | split1 l r c hp hb => exact Dec.rawBytes_of_kept (Dec.nextNode_kept _)
  | qtColor l r c b col hp => exact Dec.rawBytes_of_kept (Dec.nextNode_kept _)
  | diffW c k hp hl hc => exact Dec.rawBytes_of_kept (Dec.nextWord_kept _)
  | wireHdr | encTag | read | palette | palEntry | split0 => rfl

/-! ### Where the cursors stand after a token -/

/-- Not at a palette entry, at the wire header or one of its tags, nor at a split bit of level 0. -/
def Pos.inBody : Pos → Bool
  | .wire | .enc | .compr | .palette _ _ | .split 0 _ _ => false
  | _ => true

theorem Pos.paletteLeft_of_inBody (p : Pos) (h : p.inBody = true) : p.paletteLeft = 0 := by
  cases p with
  | palette rle left => cases h
  | _ => rfl

theorem Pos.inBody_of_inTile (p : Pos) (h : p.inTile = true) (h0 : p.paletteLeft = 0) : p.inBody = true := by
  cases p with
  | palette rle left => simp [Pos.paletteLeft] at h0
  | tile | rawPixel | plain | rle | runLen => rfl
  | _ => cases h

theorem Dec.nextTile_inBody (d : Dec) : d.nextTile.pos.inBody = true := by
  rcases d.nextTile_cases with ⟨_, h⟩ | h | ⟨_, h⟩ <;> rw [h] <;> rfl

theorem Dec.endTile_inBody (d : Dec) : d.endTile.pos.inBody = true := by
  rcases d.endTile_eq with ⟨w, _, h⟩ | ⟨_, h⟩ <;> rw [h] <;> exact Dec.nextTile_inBody _

theorem Dec.emitRun_inBody (d : Dec) (c : Color) (run : Nat) (hd : d.pos.inBody = true) :
    (d.emitRun c run).pos.inBody = true := by
  rcases d.emitRun_cases c run with ⟨_, h⟩ | ⟨e, _, rfl, h⟩ <;> rw [h]
  · rfl
  · split
    · exact Dec.endTile_inBody _
    · exact hd

/-- A tile of one colour is over at once. -/
theorem Dec.emitRun_npix (d : Dec) (c : Color) :
    d.emitRun c d.npix = d.raise .run d.npix ∨
      ∃ px, d.emitRun c d.npix = { d with px := px, made := d.npix }.endTile := by
  rcases d.emitRun_cases c d.npix with ⟨_, h⟩ | ⟨e, hm, rfl, h⟩
  · exact .inl h
  · have h0 : d.made + d.npix = d.npix := by omega
    rw [if_pos h0, h0] at h
    exact .inr ⟨_, h⟩

theorem Dec.startBody_inBody (d : Dec) (rle : Bool) : (d.startBody rle).pos.inBody = true := by
  rcases d.startBody_cases rle with ⟨_, h⟩ | ⟨_, _, ⟨_, h⟩ | ⟨_, _, h⟩ | ⟨_, _, h⟩⟩ <;> rw [h]
  · rfl
  · rcases d.emitRun_npix (d.pal.headD 0) with h | ⟨px, h⟩ <;> rw [h]
    · rfl
    · exact Dec.endTile_inBody _
  · rfl
  · rfl

theorem Dec.nextNode_inBody (d : Dec) : d.nextNode.pos.inBody = true := by
  rcases d.nextNode_cases with ⟨_, _, _, _, h⟩ | ⟨_, _, _, _, _, h⟩ | ⟨_, h | h | h⟩ <;> rw [h] <;> rfl

theorem Dec.nextWord_inBody (d : Dec) : d.nextWord.pos.inBody = true := by
  rcases d.nextWord_cases with ⟨_, h⟩ | ⟨_, _, h⟩ | ⟨_, _, h⟩ <;> rw [h] <;> rfl

theorem Dec.startDiff_inBody (d : Dec) : d.startDiff.pos.inBody = true := by
  unfold Dec.startDiff
  split
  · rfl
  · exact Dec.nextWord_inBody _

theorem Dec.dispatch_inBody (d : Dec) (src : List Byte) : (d.dispatch src).pos.inBody = true := by
  unfold Dec.dispatch
  repeat' split
  · rfl
  · exact Dec.startDiff_inBody _
  · rfl
  · rfl

/-- How many tokens of the wire header are still to come (45_selector R224; log 24). -/
def Pos.headerLeft : Pos → Nat
  | .wire => 3
  | .enc => 2
  | .compr => 1
  | _ => 0

theorem Pos.headerLeft_of_inBody (p : Pos) (h : p.inBody = true) : p.headerLeft = 0 := by
  cases p with
  | wire | enc | compr => cases h
  | _ => rfl

/-- Where a token can lead: into a body, or on in the palette or the wire header. -/
theorem Dec.Move.pos_cases {d f : Dec} (h : d.Move f) :
    f.pos.inBody = true ∨ (d.pos = .wire ∧ f.pos = .enc) ∨ (d.pos = .enc ∧ f.pos = .compr) ∨
      ∃ rle left, f.pos = .palette rle left := by
  cases h with
  | fault e r hk => exact .inl rfl
  | wireHdr n e c cl sl rl hp => exact .inr (.inl ⟨hp, rfl⟩)
  | encTag sl hp hf => exact .inr (.inr (.inl ⟨hp, rfl⟩))
  | comprTag src hp => exact .inl (d.dispatch_inBody src)
  | rawPayload bytes hp => exact .inl rfl
  | read n h p hp hn hl hq hq' => exact .inl (p.inBody_of_inTile hq hq')
  | reuse h rle hp hl => exact .inl (Dec.startBody_inBody ..)
  | palette h rle count hp hl hc => exact .inr (.inr (.inr ⟨_, _, rfl⟩))
  | palEntry c rle left hp hl h1 => exact .inr (.inr (.inr ⟨_, _, rfl⟩))
  | lastEntry c rle left hp hl => exact .inl (Dec.startBody_inBody ..)
  | pixels n p c run hp hn hl hq hq' => exact .inl (Dec.emitRun_inBody _ _ _ (p.inBody_of_inTile hq hq'))
  | packedIndex w c hp => exact .inl (Dec.emitRun_inBody _ _ _ (by show d.pos.inBody = true; rw [hp]; rfl))
  | qtBlob pal lc n src hp hl => exact .inl (Dec.nextNode_inBody _)
  | split0 l r c hp hb => exact .inl rfl
  | split1 l r c hp hb => exact .inl (Dec.nextNode_inBody _)
  | qtColor l r c b col hp => exact .inl (Dec.nextNode_inBody _)
  | diffW c k hp hl hc => exact .inl (Dec.nextWord_inBody _)

/-- A token of the wire header is behind, or there was none. -/
theorem Dec.Move.headerLeft_le {d f : Dec} (h : d.Move f) : f.pos.headerLeft ≤ d.pos.headerLeft - 1 := by
  rcases h.pos_cases with h | ⟨hd, hf⟩ | ⟨hd, hf⟩ | ⟨_, _, hf⟩
  · rw [f.pos.headerLeft_of_inBody h]
    exact Nat.zero_le _
  · rw [hd, hf]
    rfl
  · rw [hd, hf]
    rfl
  · rw [hf]
    exact Nat.zero_le _

/-- Nothing leads to a split bit of level 0 (43_quadtree R187). -/
theorem Dec.Move.not_split_zero {d f : Dec} (h : d.Move f) (r c : Nat) : f.pos ≠ .split 0 r c := by
  intro hf
  rcases h.pos_cases with h | ⟨_, h⟩ | ⟨_, h⟩ | ⟨_, _, h⟩ <;> rw [hf] at h <;> cases h

/-! ### Palettes (42_tile R139) -/

/-- No palette passes 127 colours. -/
def Dec.PalOk (d : Dec) : Prop :=
  d.sess.length ≤ 127 ∧ (0 < d.pos.paletteLeft → d.pal.length + d.pos.paletteLeft ≤ 127)

theorem Dec.PalOk.of_inBody {d : Dec} (hs : d.sess.length ≤ 127) (hb : d.pos.inBody = true) : d.PalOk :=
  ⟨hs, fun h => by rw [d.pos.paletteLeft_of_inBody hb] at h; cases h⟩

/-- What keeps the session and leaves the palette entries keeps the bound. -/
theorem Dec.PalOk.of_kept {d e : Dec} (hk : e.kept = d.kept) (hs : d.sess.length ≤ 127) (hb : e.pos.inBody = true) :
    e.PalOk := .of_inBody (Dec.sess_of_kept hk ▸ hs) hb

/-- No token makes a palette pass 127 colours. -/
theorem Dec.Move.palOk {d f : Dec} (h : d.Move f) (hd : d.PalOk) : f.PalOk := by
  obtain ⟨hs, hpal⟩ := hd
  cases h with
  | fault e r hk => exact .of_kept hk hs rfl
  | wireHdr | encTag => exact ⟨hs, fun h => by cases h⟩
  | comprTag src hp => exact .of_kept (d.dispatch_kept src) hs (d.dispatch_inBody src)
  | rawPayload | split0 => exact .of_inBody hs rfl
  | read n h p hp hn hl hq hq' => exact .of_inBody hs (p.inBody_of_inTile hq hq')
  | reuse h rle hp hl => exact .of_kept (Dec.startBody_kept ..) hs (Dec.startBody_inBody ..)
  | palette h rle count hp hl hc => exact ⟨hs, fun _ => by simp [Pos.paletteLeft]; omega⟩
  | palEntry c rle left hp hl h1 =>
    rw [hp] at hpal
    simp only [Pos.paletteLeft] at hpal
    refine ⟨hs, fun _ => ?_⟩
    simp only [Pos.paletteLeft, List.length_append, List.length_singleton]
    omega
  | lastEntry c rle left hp hl =>
    rw [hp] at hpal
    simp only [Pos.paletteLeft] at hpal
    refine .of_kept (Dec.startBody_kept ..) ?_ (Dec.startBody_inBody ..)
    rw [List.length_append, List.length_singleton]
    omega
  | pixels n p c run hp hn hl hq hq' =>
    exact .of_kept (Dec.emitRun_kept ..) hs (Dec.emitRun_inBody _ _ _ (p.inBody_of_inTile hq hq'))
  | packedIndex w c hp =>
    exact .of_kept (Dec.emitRun_kept ..) hs (Dec.emitRun_inBody _ _ _ (by show d.pos.inBody = true; rw [hp]; rfl))
  | qtBlob pal lc n src hp hl => exact .of_kept (Dec.nextNode_kept ..) hs (Dec.nextNode_inBody _)
  | split1 l r c hp hb => exact .of_kept (Dec.nextNode_kept ..) hs (Dec.nextNode_inBody _)
  | qtColor l r c b col hp => exact .of_kept (Dec.nextNode_kept ..) hs (Dec.nextNode_inBody _)
  | diffW c k hp hl hc => exact .of_kept (Dec.nextWord_kept ..) hs (Dec.nextWord_inBody _)

end Sys2Proof.Machine
end

section
/-! SUPPORT. Every decoding ends (70_reset R297): a measure that each token lowers, and that `Dec.fuel` bounds. -/

namespace Sys2Proof.Machine

/-- A bound on the tokens still to come behind the wire header: a byte of a tile stream is at most 8 of them, and a
packed body, read by bits, is paid for by the bytes it takes. A split bit adds at most four nodes. -/
def Dec.weight (d : Dec) : Nat :=
  match d.pos with
  | .tile | .palette _ _ | .rawPixel | .plain | .rle | .runLen _ _ _ | .diff => 8 * d.inp.length
  | .packed w => 8 * (d.inp.length - d.bodyLen w) + (d.npix - d.made)
  | .qt => 80 * d.inp.length + 1
  | .split _ _ _ | .leaf _ _ _ => 10 * (8 * d.splitLen - d.splitpos) + 2 * d.stack.length + 1
  | .wire | .enc | .compr | .raw | .fin | .raised _ => 0

theorem Dec.weight_inTile (d : Dec) (h : d.pos.inTile = true) : d.weight = 8 * d.inp.length := by
  unfold Dec.weight
  cases hp : d.pos with
  | tile | palette | rawPixel | plain | rle | runLen | diff => rfl
  | _ => rw [hp] at h; cases h

theorem Dec.weight_packed (d : Dec) (w : Nat) (h : d.pos = .packed w) :
    d.weight = 8 * (d.inp.length - d.bodyLen w) + (d.npix - d.made) := by simp only [Dec.weight, h]

theorem Dec.weight_le_fuel (d : Dec) : d.weight ≤ d.fuel := by
  unfold Dec.weight Dec.fuel
  cases d.pos <;> dsimp only <;> omega

/-! ### The parts of a token -/

theorem Dec.nextTile_weight (d : Dec) : d.nextTile.weight ≤ 8 * d.inp.length := by
  rcases d.nextTile_cases with ⟨_, h⟩ | h | ⟨_, h⟩ <;> rw [h] <;> simp [Dec.weight, Dec.raise]

theorem Dec.endTile_weight (d : Dec) : d.endTile.weight ≤ 8 * d.inp.length := by
  rcases d.endTile_eq with ⟨w, _, h⟩ | ⟨_, h⟩ <;> rw [h]
  · refine (Dec.nextTile_weight _).trans ?_
    simp only [Dec.drop, List.length_drop]
    omega
  · exact d.nextTile_weight

theorem Dec.endTile_weight_packed (d : Dec) (w : Nat) (hp : d.pos = .packed w) :
    d.endTile.weight ≤ 8 * (d.inp.length - d.bodyLen w) := by
  have h : d.endTile = (d.drop (d.bodyLen w)).nextTile := by simp only [Dec.endTile, hp]
  rw [h]
  refine (Dec.nextTile_weight _).trans ?_
  simp only [Dec.drop, List.length_drop]
  omega

theorem Dec.emitRun_weight (d : Dec) (c : Color) (run : Nat) (hp : d.pos.inTile = true) :
    (d.emitRun c run).weight ≤ 8 * d.inp.length := by
  rcases d.emitRun_cases c run with ⟨_, h⟩ | ⟨e, _, rfl, h⟩ <;> rw [h]
  · exact Nat.zero_le _
  · split
    · exact Dec.endTile_weight _
    · exact le_of_eq (Dec.weight_inTile _ (by exact hp))

/-- An index of a packed body: one pixel less to make. -/
theorem Dec.emitRun_weight_packed (d : Dec) (c : Color) (w : Nat) (hp : d.pos = .packed w)
    (hr : (d.emitRun c 1).running = true) : (d.emitRun c 1).weight < d.weight := by
  rw [d.weight_packed w hp]
  rcases d.emitRun_cases c 1 with ⟨_, h⟩ | ⟨e, hm, rfl, h⟩ <;> rw [h] at hr ⊢
  · cases hr
  · split
    · refine Nat.lt_of_le_of_lt (Dec.endTile_weight_packed _ w hp) ?_
      show 8 * (d.inp.length - d.bodyLen w) < _
      omega
    · refine Nat.lt_of_le_of_lt (le_of_eq (Dec.weight_packed _ w (by exact hp))) ?_
      show 8 * (d.inp.length - d.bodyLen w) + (d.npix - (d.made + 1)) < _
      omega

theorem le_ceilDiv_mul (a : Nat) : a ≤ 8 * ceilDiv a 8 := by
  unfold ceilDiv
  omega

/-- A body is paid for by the bytes that hold it. -/
theorem Dec.startBody_weight (d : Dec) (rle : Bool) : (d.startBody rle).weight ≤ 8 * d.inp.length := by
  rcases d.startBody_cases rle with ⟨_, h⟩ | ⟨_, _, ⟨_, h⟩ | ⟨_, _, h⟩ | ⟨hw, hl, h⟩⟩ <;> rw [h]
  · exact Nat.le_refl _
  · rcases d.emitRun_npix (d.pal.headD 0) with h | ⟨px, h⟩ <;> rw [h]
    · exact Nat.zero_le _
    · exact Dec.endTile_weight _
  · exact Nat.zero_le _
  · rw [Dec.weight_packed _ (tileWidth d.pal.length) rfl]
    have hb : d.npix ≤ 8 * d.bodyLen (tileWidth d.pal.length) :=
      (Nat.le_mul_of_pos_left _ (Nat.pos_of_ne_zero hw)).trans (le_ceilDiv_mul _)
    show 8 * (d.inp.length - d.bodyLen (tileWidth d.pal.length)) + (d.npix - d.made) ≤ _
    omega

/-- The next node is paid for by its place on the stack. -/
theorem Dec.nextNode_weight (d : Dec) (hr : d.nextNode.running = true) :
    d.nextNode.weight + 1 ≤ 10 * (8 * d.splitLen - d.splitpos) + 2 * d.stack.length := by
  rcases d.nextNode_cases with ⟨r, c, rest, hs, h⟩ | ⟨l, r, c, rest, hs, h⟩ | ⟨_, h | h | h⟩ <;> rw [h] at hr ⊢
  · rw [hs, List.length_cons]
    show 10 * (8 * d.splitLen - d.splitpos) + 2 * rest.length + 1 + 1 ≤ _
    omega
  · rw [hs, List.length_cons]
    show 10 * (8 * d.splitLen - d.splitpos) + 2 * rest.length + 1 + 1 ≤ _
    omega
  · cases hr
  · cases hr
  · cases hr

theorem Dec.nextWord_weight (d : Dec) : d.nextWord.weight ≤ 8 * d.inp.length := by
  rcases d.nextWord_cases with ⟨_, h⟩ | ⟨_, _, h⟩ | ⟨_, _, h⟩ <;> rw [h]
  · exact Nat.le_refl _
  · exact Nat.zero_le _
  · exact Nat.zero_le _

theorem children_length_le (w h l r c : Nat) : (children w h l r c).length ≤ 4 := List.length_filter_le _ _

/-! ### One token, and the loop -/

/-- Behind the wire header every token lowers the measure, unless it is the last. -/
theorem Dec.Move.weight_lt {d f : Dec} (h : d.Move f) (hd : d.pos.headerLeft = 0) (hr : f.running = true) :
    f.weight < d.weight := by
  cases h with
  | fault e r hk => cases hr
  | wireHdr n e c cl sl rl hp => rw [hp] at hd; cases hd
  | encTag sl hp hf => rw [hp] at hd; cases hd
  | comprTag src hp => rw [hp] at hd; cases hd
  | rawPayload bytes hp => cases hr
  | read n h p hp hn hl hq hq' =>
    rw [d.weight_inTile hp, Dec.weight_inTile _ hq]
    simp only [Dec.past, List.length_drop]
    omega
  | reuse h rle hp hl =>
    rw [d.weight_inTile (by rw [hp]; rfl)]
    refine Nat.lt_of_le_of_lt (Dec.startBody_weight _ _) ?_
    simp only [Dec.past, List.length_drop]
    omega
  | palette h rle count hp hl hc =>
    rw [d.weight_inTile (by rw [hp]; rfl), Dec.weight_inTile _ rfl]
    simp only [Dec.past, List.length_drop]
    omega
  | palEntry c rle left hp hl h1 =>
    rw [d.weight_inTile (by rw [hp]; rfl), Dec.weight_inTile _ rfl]
    simp only [Dec.past, List.length_drop]
    omega
  | lastEntry c rle left hp hl =>
    rw [d.weight_inTile (by rw [hp]; rfl)]
    refine Nat.lt_of_le_of_lt (Dec.startBody_weight _ _) ?_
    simp only [Dec.past, List.length_drop]
    omega
  | pixels n p c run hp hn hl hq hq' =>
    rw [d.weight_inTile hp]
    refine Nat.lt_of_le_of_lt (Dec.emitRun_weight _ _ _ hq) ?_
    simp only [Dec.past, List.length_drop]
    omega
  | packedIndex w c hp => exact Dec.emitRun_weight_packed (d.past 0 w 0) c w hp hr
  | qtBlob pal lc n src hp hl =>
    have hw := Dec.nextNode_weight _ hr
    have hd : d.weight = 80 * d.inp.length + 1 := by simp only [Dec.weight, hp]
    simp only [Dec.splitLen, List.length_singleton] at hw
    omega
  | split0 l r c hp hb =>
    have hd : d.weight = 10 * (8 * d.splitLen - d.splitpos) + 2 * d.stack.length + 1 := by simp only [Dec.weight, hp]
    show 10 * (8 * d.splitLen - (d.splitpos + 1)) + 2 * d.stack.length + 1 < _
    omega
  | split1 l r c hp hb =>
    have hw := Dec.nextNode_weight _ hr
    have hd : d.weight = 10 * (8 * d.splitLen - d.splitpos) + 2 * d.stack.length + 1 := by simp only [Dec.weight, hp]
    have h4 := children_length_le d.w d.h l r c
    refine Nat.lt_of_lt_of_le (Nat.lt_of_succ_le hw) ?_
    rw [List.length_append, List.length_map]
    show 10 * (8 * d.splitLen - (d.splitpos + 1)) + _ ≤ _
    omega
  | qtColor l r c b col hp =>
    have hw := Dec.nextNode_weight _ hr
    have hd : d.weight = 10 * (8 * d.splitLen - d.splitpos) + 2 * d.stack.length + 1 := by simp only [Dec.weight, hp]
    change _ ≤ 10 * (8 * d.splitLen - d.splitpos) + 2 * d.stack.length at hw
    omega
  | diffW c k hp hl hc =>
    have hd : d.weight = 8 * d.inp.length := by simp only [Dec.weight, hp]
    refine Nat.lt_of_le_of_lt (Dec.nextWord_weight _) ?_
    simp only [Dec.past, List.length_drop]
    omega

/-- No decoding stands at a split bit of level 0: none starts there, and no token leads there. -/
def Dec.NoSplitZero (d : Dec) : Prop := ∀ r c, d.pos ≠ .split 0 r c

theorem Dec.noSplitZero_of_inBody {d : Dec} (h : d.pos.inBody = true) : d.NoSplitZero := by
  intro r c hp
  rw [hp] at h
  cases h

theorem Dec.run_succ_running (n : Nat) (d : Dec) (h : d.running = true) : Dec.run (n + 1) d = Dec.run n d.next := by
  rw [Dec.run, if_pos h]

theorem Dec.run_stopped (n : Nat) (d : Dec) (h : d.running = false) : Dec.run n d = d := by
  cases n with
  | zero => rfl
  | succ n => rw [Dec.run, h]; rfl

/-- What every token keeps holds all through a decoding. -/
theorem Dec.run_induct {P : Dec → Prop} (hP : ∀ d f : Dec, d.running = true → d.Move f → P d → P f) (n : Nat) (d : Dec)
    (hn : d.NoSplitZero) (hd : P d) : P (Dec.run n d) := by
  induction n generalizing d with
  | zero => exact hd
  | succ n ih =>
    cases hr : d.running
    · rw [Dec.run_stopped _ d hr]
      exact hd
    · rw [Dec.run_succ_running n d hr]
      have hm := d.next_move hr hn
      exact ih d.next hm.not_split_zero (hP d d.next hr hm hd)

theorem Dec.run_noSplitZero (n : Nat) (d : Dec) (hn : d.NoSplitZero) : (Dec.run n d).NoSplitZero :=
  Dec.run_induct (fun _ _ _ hm _ => hm.not_split_zero) n d hn hn

theorem Dec.decode_induct {P : Dec → Prop} (hP : ∀ d f : Dec, d.running = true → d.Move f → P d → P f) (d : Dec)
    (hn : d.NoSplitZero) (hd : P d) : P d.decode :=
  Dec.run_induct hP _ _ (Dec.run_noSplitZero 3 d hn) (Dec.run_induct hP 3 d hn hd)

/-- Behind the wire header the loop ends within its measure. -/
theorem Dec.run_ends (n : Nat) (d : Dec) (hn : d.NoSplitZero) (hh : d.pos.headerLeft = 0) (hw : d.weight ≤ n) :
    (Dec.run (n + 1) d).running = false := by
  induction n generalizing d with
  | zero =>
    cases hr : d.running
    · rw [Dec.run_stopped _ d hr, hr]
    · rw [Dec.run_succ_running 0 d hr]
      by_contra hf
      have := (d.next_move hr hn).weight_lt hh (Bool.eq_true_of_not_eq_false hf)
      omega
  | succ n ih =>
    cases hr : d.running
    · rw [Dec.run_stopped _ d hr, hr]
    · rw [Dec.run_succ_running _ d hr]
      have hm := d.next_move hr hn
      cases hf : d.next.running
      · rw [Dec.run_stopped _ _ hf, hf]
      · have := hm.weight_lt hh hf
        have := hm.headerLeft_le
        exact ih d.next hm.not_split_zero (by omega) (by omega)

/-- Each token of the loop takes one of the header's off (45_selector R224). -/
theorem Dec.run_headerLeft (n : Nat) (d : Dec) (hn : d.NoSplitZero) (h : d.pos.headerLeft ≤ n) :
    (Dec.run n d).pos.headerLeft = 0 := by
  induction n generalizing d with
  | zero => exact Nat.le_zero.1 h
  | succ n ih =>
    cases hr : d.running
    · rw [Dec.run_stopped _ d hr]
      unfold Dec.running at hr
      split at hr
      · rename_i hp
        rw [hp]
        rfl
      · rename_i hp
        rw [hp]
        rfl
      · cases hr
    · rw [Dec.run_succ_running n d hr]
      have hm := d.next_move hr hn
      have := hm.headerLeft_le
      exact ih d.next hm.not_split_zero (by omega)

theorem Pos.headerLeft_le (p : Pos) : p.headerLeft ≤ 3 := by
  unfold Pos.headerLeft
  split <;> omega

/-- Every decoding ends, in a fault or with its stream decoded. -/
theorem Dec.decode_ends (d : Dec) (hn : d.NoSplitZero) : d.decode.running = false :=
  Dec.run_ends _ _ (Dec.run_noSplitZero 3 d hn) (Dec.run_headerLeft 3 d hn d.pos.headerLeft_le) (Dec.weight_le_fuel _)

theorem State.begin_noSplitZero (s : State) (kind : DecKind) : (s.begin kind).NoSplitZero := by
  intro r c h
  cases kind <;> cases h

theorem Dec.startDiff_noSplitZero (d : Dec) : d.startDiff.NoSplitZero :=
  Dec.noSplitZero_of_inBody d.startDiff_inBody

end Sys2Proof.Machine
end

section
/-! SUPPORT. Token by token and in one step (log 2): the pixels a decoder has decided are carried along by every token,
so the machine that writes them after each token ends where the whole loop ends. -/

namespace Sys2Proof.Machine

/-! ### Pixels decided before -/

/-- The cursors with pixels that were decided before all of theirs. -/
def Dec.over (d : Dec) (px : List (Nat × Color)) : Dec := { d with px := d.px ++ px }

section

variable (d : Dec) (px : List (Nat × Color))

theorem foldl_cons_append {α β : Type} (f : α → β) (l : List α) (q px : List β) :
    l.foldl (fun q n => f n :: q) (q ++ px) = l.foldl (fun q n => f n :: q) q ++ px := by
  induction l generalizing q with
  | nil => rfl
  | cons x l ih => exact ih (f x :: q)

theorem Dec.over_ite (c : Prop) [Decidable c] (a b : Dec) :
    (if c then a else b).over px = if c then a.over px else b.over px := apply_ite (Dec.over · px) c a b

theorem Dec.nextTile_over : (d.over px).nextTile = d.nextTile.over px := by
  unfold Dec.nextTile
  rw [Dec.over_ite, Dec.over_ite]
  rfl

theorem Dec.endTile_over : (d.over px).endTile = d.endTile.over px := by
  rcases d.endTile_eq with ⟨w, hp, h⟩ | ⟨hp, h⟩ <;> rcases (d.over px).endTile_eq with ⟨w', hp', h'⟩ | ⟨hp', h'⟩
  · obtain rfl : w = w' := Pos.packed.inj (hp.symm.trans hp')
    rw [h, h']
    exact (d.drop (d.bodyLen w)).nextTile_over px
  · exact absurd hp (hp' w)
  · exact absurd hp' (hp w')
  · rw [h, h', d.nextTile_over]

theorem Dec.emitRun_over (c : Color) (run : Nat) : (d.over px).emitRun c run = (d.emitRun c run).over px := by
  unfold Dec.emitRun
  dsimp only
  rw [Dec.over_ite, Dec.over_ite, ← Dec.endTile_over]
  simp only [Dec.over, foldl_cons_append]
  rfl

theorem Dec.need_over (n : Nat) (k : Dec → Dec) (hk : ∀ e : Dec, k (e.over px) = (k e).over px) :
    (d.over px).need n k = (d.need n k).over px := by
  unfold Dec.need
  rw [Dec.over_ite, hk]
  rfl

theorem Dec.startBody_over (rle : Bool) : (d.over px).startBody rle = (d.startBody rle).over px := by
  unfold Dec.startBody
  rw [Dec.over_ite, Dec.over_ite, ← Dec.emitRun_over, ← Dec.need_over d px _ _ fun _ => rfl]
  rfl

theorem Dec.startPalette_over (h : Byte) (count : Nat) :
    (d.over px).startPalette h count = (d.startPalette h count).over px :=
  Dec.need_over { d with hdr := h } px _ _ fun _ => rfl

theorem Dec.reuse_over (h : Byte) : (d.over px).reuse h = (d.reuse h).over px := by
  unfold Dec.reuse
  rw [Dec.over_ite, ← Dec.startBody_over]
  rfl

theorem Dec.withIndex_over (k : Nat) (f : Color → Dec) (g : Color → Dec) (hf : ∀ c, f c = (g c).over px) :
    (d.over px).withIndex k f = (d.withIndex k g).over px := by
  unfold Dec.withIndex
  show (match d.pal[k]? with | some c => f c | none => (d.over px).raise .index k) = _
  cases d.pal[k]? with
  | none => rfl
  | some c => exact hf c

@[simp] theorem Dec.over_pos : (d.over px).pos = d.pos := rfl

@[simp] theorem Dec.over_stack : (d.over px).stack = d.stack := rfl

theorem Dec.nextNode_over : (d.over px).nextNode = d.nextNode.over px := by
  rcases hs : d.stack with _ | ⟨⟨_ | l, r, c⟩, rest⟩ <;> simp only [Dec.nextNode, Dec.over_stack, hs]
  · rw [Dec.over_ite, Dec.over_ite]
    rfl
  · rfl
  · rfl

theorem Dec.nextWord_over : (d.over px).nextWord = d.nextWord.over px := by
  unfold Dec.nextWord
  rw [Dec.over_ite, Dec.over_ite]
  rfl

theorem Dec.startDiff_over : (d.over px).startDiff = d.startDiff.over px := by
  unfold Dec.startDiff
  rw [Dec.over_ite, ← Dec.nextWord_over]
  rfl

theorem Dec.dispatch_over (src : List Byte) : (d.over px).dispatch src = (d.dispatch src).over px := by
  unfold Dec.dispatch
  dsimp only
  rw [Dec.over_ite, Dec.over_ite, Dec.over_ite, ← Dec.startDiff_over]
  rfl

/-! ### A token -/

theorem Dec.fetched_over (r : Except Reject Instr) :
    (d.over px).fetched r = ((d.fetched r).1, (d.fetched r).2.over px) := by
  cases r <;> rfl

theorem Dec.fetchByte_over (ch : Channel) :
    (d.over px).fetchByte ch = ((d.fetchByte ch).1, (d.fetchByte ch).2.over px) := by
  have hi : (d.over px).inp = d.inp := rfl
  unfold Dec.fetchByte
  rw [hi]
  cases d.inp with
  | nil => rfl
  | cons b rest => exact (d.drop 1).fetched_over px _

theorem Dec.pair_over (c : Prop) [Decidable c] (a b : Option Instr × Dec) (a' b' : Option Instr × Dec)
    (ha : a' = (a.1, a.2.over px)) (hb : b' = (b.1, b.2.over px)) :
    (if c then a' else b') = ((if c then a else b).1, (if c then a else b).2.over px) := by
  split
  · exact ha
  · exact hb

theorem Dec.fetchColor_over (ch : Channel) :
    (d.over px).fetchColor ch = ((d.fetchColor ch).1, (d.fetchColor ch).2.over px) :=
  Dec.pair_over px _ _ _ _ _ rfl ((d.drop 3).fetched_over px _)

theorem Dec.fetchBits_over (n budget : Nat) (ch : Channel) :
    (d.over px).fetchBits n budget ch = ((d.fetchBits n budget ch).1, (d.fetchBits n budget ch).2.over px) := by
  have hg : (d.over px).getBits 0 budget (d.over px).bitpos n = d.getBits 0 budget d.bitpos n := rfl
  unfold Dec.fetchBits
  rw [hg]
  cases d.getBits 0 budget d.bitpos n with
  | error r => rfl
  | ok v => exact Dec.fetched_over { d with bitpos := d.bitpos + n } px _

theorem Dec.fetchSplit_over : (d.over px).fetchSplit = (d.fetchSplit.1, d.fetchSplit.2.over px) := by
  have hg : (d.over px).getBits (d.over px).colorLen (d.over px).splitLen (d.over px).splitpos 1 =
    d.getBits d.colorLen d.splitLen d.splitpos 1 := rfl
  unfold Dec.fetchSplit
  rw [hg]
  cases d.getBits d.colorLen d.splitLen d.splitpos 1 with
  | error r => rfl
  | ok v => exact Dec.fetched_over { d with splitpos := d.splitpos + 1 } px _

/-- What is fetched does not depend on the pixels. -/
theorem Dec.fetch_over : (d.over px).fetch = (d.fetch.1, d.fetch.2.over px) := by
  cases hp : d.pos <;> simp only [Dec.fetch, Dec.over_pos, hp]
  case wire => exact (d.drop _).fetched_over px _
  case enc => exact d.fetched_over px _
  case compr => exact d.fetched_over px _
  case raw => exact Dec.pair_over px _ _ _ _ _ rfl ((d.drop d.rawSize).fetched_over px _)
  case tile => exact d.fetchByte_over px _
  case palette => exact d.fetchColor_over px _
  case rawPixel => exact d.fetchColor_over px _
  case plain => exact d.fetchColor_over px _
  case rle => exact d.fetchByte_over px _
  case runLen => exact d.fetchByte_over px _
  case packed => exact d.fetchBits_over px _ _ _
  case qt => exact d.fetched_over px _
  case split => exact d.fetchSplit_over px
  case leaf => exact Dec.pair_over px _ _ _ _ _ rfl (d.fetchBits_over px _ _ _)
  case diff => exact Dec.pair_over px _ _ _ _ _ rfl ((d.drop 4).fetched_over px _)

/-- A token that is expected at one position. -/
theorem Dec.expected_over (c : Prop) [Decidable c] (a b : Dec) (h : b = a.over px) :
    (if c then some b else none) = (if c then some a else none).map (Dec.over · px) := by
  split
  · rw [h]; rfl
  · rfl

theorem Dec.tileRaw_over : (d.over px).tileRaw = d.tileRaw.map (Dec.over · px) :=
  Dec.expected_over px _ _ _ (Dec.need_over { d with hdr := 0 } px _ _ fun _ => rfl)

theorem Dec.palEntry_over (c : Color) : (d.over px).palEntry c = (d.palEntry c).map (Dec.over · px) := by
  cases hp : d.pos <;> simp only [Dec.palEntry, Dec.over_pos, hp, Option.map_none, Option.map_some]
  case palette rle left =>
    rw [Dec.over_ite, ← Dec.startBody_over]
    rfl

theorem Dec.packedIndex_over (w : Nat) (k : BitVec 4) :
    (d.over px).packedIndex w k = (d.packedIndex w k).map (Dec.over · px) :=
  Dec.expected_over px _ _ _ (d.withIndex_over px _ _ _ fun c => d.emitRun_over px c 1)

theorem Dec.run1_over (k : BitVec 7) : (d.over px).run1 k = (d.run1 k).map (Dec.over · px) :=
  Dec.expected_over px _ _ _ (d.withIndex_over px _ _ _ fun c => d.emitRun_over px c 1)

theorem Dec.runN_over (k : BitVec 7) : (d.over px).runN k = (d.runN k).map (Dec.over · px) :=
  Dec.expected_over px _ _ _ (d.withIndex_over px _ _ _ fun _ => rfl)

theorem Dec.runLenCont_over : (d.over px).runLenCont = d.runLenCont.map (Dec.over · px) := by
  cases hp : d.pos <;> simp only [Dec.runLenCont, Dec.over_pos, hp, Option.map_none, Option.map_some]
  rfl

theorem Dec.runLenFinal_over (f : Byte) : (d.over px).runLenFinal f = (d.runLenFinal f).map (Dec.over · px) := by
  cases hp : d.pos <;> simp only [Dec.runLenFinal, Dec.over_pos, hp, Option.map_none, Option.map_some]
  rw [← Dec.emitRun_over]
  rfl

theorem Dec.qtBlob_over (p : List Word) (lc : Word) (cs ss : List Byte) :
    (d.over px).qtBlob p lc cs ss = (d.qtBlob p lc cs ss).map (Dec.over · px) :=
  Dec.expected_over px _ _ _ (by rw [← Dec.nextNode_over]; rfl)

theorem Dec.split0_over : (d.over px).split0 = d.split0.map (Dec.over · px) := by
  cases hp : d.pos <;> simp only [Dec.split0, Dec.over_pos, hp, Option.map_none, Option.map_some]
  rfl

theorem Dec.split1_over : (d.over px).split1 = d.split1.map (Dec.over · px) := by
  cases hp : d.pos <;> simp only [Dec.split1, Dec.over_pos, hp, Option.map_none]
  case split l r c =>
    cases l with
    | zero => rfl
    | succ l =>
      rw [Option.map_some, ← Dec.nextNode_over]
      rfl

theorem Dec.qtColor_over (bits : Nat) (v : Word) :
    (d.over px).qtColor bits v = (d.qtColor bits v).map (Dec.over · px) := by
  cases hp : d.pos <;> simp only [Dec.qtColor, Dec.over_pos, hp, Option.map_none]
  case leaf l r c =>
    refine Dec.expected_over px _ _ _ ?_
    have hl : (d.over px).leafColor v = d.leafColor v := rfl
    rw [hl]
    cases d.leafColor v with
    | none => rfl
    | some col =>
      rw [← Dec.nextNode_over]
      simp only [Dec.over, foldl_cons_append]

theorem Dec.diffW_over (gap : Byte) (c : Color) : (d.over px).diffW gap c = (d.diffW gap c).map (Dec.over · px) := by
  refine Dec.expected_over px _ _ _ ?_
  dsimp only
  rw [Dec.over_ite, Dec.over_ite, ← Dec.nextWord_over]
  rfl

theorem Dec.encTag_over (tag : BitVec 16) : (d.over px).encTag tag = (d.encTag tag).map (Dec.over · px) := by
  refine Dec.expected_over px _ _ _ ?_
  rw [Dec.over_ite]
  have hb : (d.over px).badFormat = d.badFormat := rfl
  rw [hb]
  cases d.badFormat <;> rfl

theorem Dec.comprNone_over : (d.over px).comprNone = d.comprNone.map (Dec.over · px) := by
  refine Dec.expected_over px _ _ _ (d.need_over px _ _ fun e => ?_)
  rw [Dec.over_ite, ← Dec.dispatch_over]
  rfl

theorem Dec.comprTag_over (tag : BitVec 16) (m : ComprMethod) :
    (d.over px).comprTag tag m = (d.comprTag tag m).map (Dec.over · px) := by
  refine Dec.expected_over px _ _ _ (d.need_over px _ _ fun e => ?_)
  have hb : Config.decompress m ((e.over px).inp.take (e.over px).complen) (e.over px).srclen =
    Config.decompress m (e.inp.take e.complen) e.srclen := rfl
  rw [hb]
  cases Config.decompress m (e.inp.take e.complen) e.srclen with
  | none => rfl
  | some src =>
    dsimp only
    rw [Dec.over_ite, ← Dec.dispatch_over]
    rfl

/-- What a token does to the cursors does not depend on the pixels. -/
theorem Dec.apply_over (i : Instr) : (d.over px).apply i = (d.apply i).map (Dec.over · px) := by
  cases i with
  | wireHdr e c cl sl => exact Dec.expected_over px _ _ _ rfl
  | encNone => exact d.encTag_over px _
  | encDiff => exact d.encTag_over px _
  | encTrle => exact d.encTag_over px _
  | encQuadtree => exact d.encTag_over px _
  | comprNone => exact d.comprNone_over px
  | comprLz4 => exact d.comprTag_over px _ _
  | comprZstd => exact d.comprTag_over px _ _
  | comprZlib => exact d.comprTag_over px _ _
  | comprBzip2 => exact d.comprTag_over px _ _
  | rawPayload bs => exact Dec.expected_over px _ _ _ rfl
  | tileRaw => exact d.tileRaw_over px
  | tilePlainRle => exact Dec.expected_over px _ _ _ rfl
  | tileReusePacked => exact Dec.expected_over px _ _ _ (d.reuse_over px _)
  | tileReuseRle => exact Dec.expected_over px _ _ _ (d.reuse_over px _)
  | tileSolid => exact Dec.expected_over px _ _ _ (d.startPalette_over px _ _)
  | tilePacked n => exact Dec.expected_over px _ _ _ (d.startPalette_over px _ _)
  | tilePalRleLow n => exact Dec.expected_over px _ _ _ (d.startPalette_over px _ _)
  | tilePalRle n => exact Dec.expected_over px _ _ _ (d.startPalette_over px _ _)
  | palEntry c => exact d.palEntry_over px c
  | rawPixel c => exact Dec.expected_over px _ _ _ (d.emitRun_over px c 1)
  | packedIndex w k => exact d.packedIndex_over px w k
  | run1 k => exact d.run1_over px k
  | runN k => exact d.runN_over px k
  | runLenCont => exact d.runLenCont_over px
  | runLenFinal f => exact d.runLenFinal_over px f
  | plainRun c => exact Dec.expected_over px _ _ _ rfl
  | qtBlob p lc cs ss => exact d.qtBlob_over px p lc cs ss
  | split0 => exact d.split0_over px
  | split1 => exact d.split1_over px
  | qtColor b v => exact d.qtColor_over px b v
  | diffW g c => exact d.diffW_over px g c
  | nop | bswInit | bswPut | bswFin | bsrInit | bsrGet | bsrFin | palBuild | palLookup | palGet | tileEnc | tileDec
  | trleEnc | trleDec | trleRst | qtEnc | qtDec | diffEnc | diffDec | rawPack | rawUnpack | selEnc | selDec | reset =>
    rfl

/-- A token carries along the pixels that were decided before it. -/
theorem Dec.next_over : (d.over px).next = d.next.over px := by
  rcases hd : d.fetch with ⟨_ | i, e⟩
  · rw [d.next_of_fetch_none e hd]
    exact Dec.next_of_fetch_none _ _ (by rw [Dec.fetch_over, hd])
  · rw [d.next_of_fetch_some e i hd, Dec.next_of_fetch_some _ (e.over px) i (by rw [Dec.fetch_over, hd]),
      Dec.apply_over]
    cases e.apply i <;> rfl

/-! ### Writing after each token -/

theorem State.putPixels_append (s : State) (q : List (Nat × Color)) :
    s.putPixels (q ++ px) = (s.putPixels px).putPixels q := List.foldr_append ..

theorem State.flush_over (s : State) : s.flush (d.over px) = (s.putPixels px).flush d := by
  have h := s.putPixels_append px d.px
  simp only [State.putPixels] at h
  simp only [State.flush, Dec.over, h, State.putPixels]

/-- Where no fault ends the command, it does not matter when the pixels decided before are written. -/
theorem State.settle_over (s : State) (hf : ∀ r, d.pos ≠ .raised r) :
    s.settle (d.over px) = (s.putPixels px).settle d := by
  unfold State.settle
  rw [Dec.over_pos, State.flush_over]
  split
  · cases hk : d.kind <;> simp only [State.decoded, Dec.over, hk]
  · exact absurd ‹_› (hf _)
  · rfl

/-! ### The commuting square -/

/-- The cursors once the pixels decided so far are written. -/
def Dec.written (d : Dec) : Dec := { d with px := [] }

theorem Dec.written_over : d.written.over d.px = d := rfl

/-- The machine with the cursors open takes one step for one token of the loop. -/
theorem step_settle (s : State) (hr : d.running = true) (hn : d.NoSplitZero) (hb : d.rawBytes = [])
    (hf : ∀ r, d.next.pos ≠ .raised r) : step (s.settle d) = .next (s.settle d.next) := by
  have hs : s.settle d = { s.putPixels d.px with dec := some d.written } := by
    rw [s.settle_running d hr hb, Dec.written, hb]
  have hnext : d.next = d.written.next.over d.px :=
    (congrArg Dec.next d.written_over).symm.trans (d.written.next_over d.px)
  rw [hs, hnext, State.settle_over _ _ s fun r h => hf r (by rw [hnext]; exact h)]
  rcases step_token { s.putPixels d.px with dec := some d.written } d.written rfl hr with ⟨_, h⟩ | ⟨⟨r, c, h⟩, _⟩
  · rw [h, State.settle_dec]
  · exact absurd h (hn r c)

end

theorem core_run_succ (n : Nat) (s t : State) (h : step s = .next t) :
    Sys2Proof.core.run (n + 1) s = Sys2Proof.core.run n t := by
  have hc : Sys2Proof.core.step s = .next t := h
  simp only [Host.Core.run, hc]

/-- So many steps for so many tokens, if no fault ends the loop. -/
theorem core_run_settle (n : Nat) (s : State) (d : Dec) (hn : d.NoSplitZero) (hb : d.running = true → d.rawBytes = [])
    (hf : (Dec.run n d).pos = .fin) : ∃ k, Sys2Proof.core.run k (s.settle d) = .next (s.settle (Dec.run n d)) := by
  induction n generalizing d with
  | zero => exact ⟨0, rfl⟩
  | succ n ih =>
    cases hr : d.running
    · rw [Dec.run_stopped _ d hr]
      exact ⟨0, rfl⟩
    · have hm := d.next_move hr hn
      rw [Dec.run_succ_running n d hr] at hf ⊢
      have hraised : ∀ r, d.next.pos ≠ .raised r := by
        intro r hp
        rw [Dec.run_stopped n d.next (by simp only [Dec.running, hp]), hp] at hf
        cases hf
      have hraw : d.next.running = true → d.next.rawBytes = [] := by
        intro hrun
        rw [hm.rawBytes_eq fun hp => by simp [Dec.running, hp] at hrun]
        exact hb hr
      obtain ⟨k, hk⟩ := ih d.next hm.not_split_zero hraw hf
      exact ⟨k + 1, (core_run_succ k _ _ (step_settle d s hr hn (hb hr) hraised)).trans hk⟩

theorem Dec.run_add (m n : Nat) (d : Dec) : Dec.run n (Dec.run m d) = Dec.run (m + n) d := by
  induction m generalizing d with
  | zero => rw [Nat.zero_add]; rfl
  | succ m ih =>
    rw [Nat.succ_add]
    cases hr : d.running
    · rw [Dec.run_stopped _ d hr, Dec.run_stopped _ d hr, Dec.run_stopped _ d hr]
    · rw [Dec.run_succ_running _ d hr, Dec.run_succ_running _ d hr, ih]

theorem State.settle_begin (s : State) (kind : DecKind) :
    s.settle (s.begin kind) = { s with dec := some (s.begin kind) } := by
  cases kind <;> rfl

/-- Settles O48: each token of the loop is one step of the machine (`step_settle`), by induction on the tokens. -/
theorem tokensRefineCommand : Obligations.TokensRefineCommand := by
  intro s kind hf
  rw [← s.settle_begin kind]
  unfold Dec.decode at hf ⊢
  rw [Dec.run_add] at hf ⊢
  exact core_run_settle _ s _ (s.begin_noSplitZero kind) (fun _ => rfl) hf

end Sys2Proof.Machine
end

section
/-! SUPPORT. What a step runs (O4), and the host's writes that start nothing (O5). -/

namespace Sys2Proof.Machine

/-! ### The host's oldest transaction -/

/-- What a step makes of what it finds. -/
def Fetched.outcome : Fetched → Outcome
  | .run i t => exec i t
  | .done t => .next t

theorem step_eq (s : State) : step s = (fetchNext s).outcome := by
  unfold step
  cases fetchNext s <;> rfl

theorem step_host (s : State) (a : HostAction) (rest : List HostAction) (hd : s.dec = none) (hh : s.host = a :: rest) :
    step s = (hostTransaction a { s with host := rest }).outcome := by
  rw [step_eq, fetchNext]
  simp only [hd, hh]

theorem step_idle (s : State) (hd : s.dec = none) (hh : s.host = []) : step s = .next s := by
  simp only [step, fetchNext, hd, hh]

/-- A write to `CMD` or `CTRL` of a word that decodes runs the instruction. -/
theorem step_write_run (s : State) (w : Word) (rest : List HostAction) (i : Instr) (hd : s.dec = none) :
    (s.host = .write .cmd w :: rest → decode .cmd (.word 32 w.toNat) = .ok i →
        step s = exec i { s with host := rest }) ∧
      (s.host = .write .ctrl w :: rest → decode .ctrl (.word 32 w.toNat) = .ok i →
        step s = exec i { s with host := rest }) := by
  refine ⟨fun hh hi => ?_, fun hh hi => ?_⟩
  · simp only [step_host s _ rest hd hh, hostTransaction, writeCmd, hi, Fetched.outcome]
  · simp only [step_host s _ rest hd hh, hostTransaction, writeCtrl, hi, Fetched.outcome]

/-- Settles O4, case by case of what a step finds. -/
theorem stepRunsDecoded : Obligations.StepRunsDecoded :=
  ⟨fun s w rest i hd hh hi => (step_write_run s w rest i hd).1 hh hi,
    fun s w rest i hd hh hi => (step_write_run s w rest i hd).2 hh hi,
    fun s d e i hs hf => step_fetch_some s d e i hs hf, step_idle⟩

/-! ### Register writes and byte stores -/

/-- The registers a host write does not set (10_state R20). -/
def Reg.readOnly : List Reg := [.status, .fault, .faultInfo, .outLen, .inUsed, .res0, .res1]

/-- A host write sets an `RW` register and leaves every other register. -/
theorem State.readReg_hostWriteReg (s : State) (r q : Reg) (v : Word) (hc : r ≠ .cmd) (ht : r ≠ .ctrl) :
    (s.hostWriteReg r v).readReg q = if q = r ∧ r ∉ Reg.readOnly then v else s.readReg q := by
  cases r
  case cmd => exact absurd rfl hc
  case ctrl => exact absurd rfl ht
  all_goals cases q <;> rfl

theorem step_write_reg (s : State) (r : Reg) (v : Word) (rest : List HostAction) (hd : s.dec = none)
    (hh : s.host = .write r v :: rest) (hc : r ≠ .cmd) (ht : r ≠ .ctrl) :
    step s = .next (({ s with host := rest }).hostWriteReg r v) := by
  rw [step_host s _ rest hd hh]
  cases r
  case cmd => exact absurd rfl hc
  case ctrl => exact absurd rfl ht
  all_goals rfl

/-- With bit 0 clear a word written to `CTRL` is no reset (10_state R28; log 14). -/
theorem decode_ctrl_clear (w : Word) (h : w.getLsbD 0 = false) :
    decode .ctrl (.word 32 w.toNat) = .error .noReset := by
  have hw : BitVec.ofNat 32 w.toNat = w := by simp
  simp only [decode, decodeCtrl, w.isLt, and_self, if_true, hw, h]
  rfl

theorem step_write_ctrl_clear (s : State) (w : Word) (rest : List HostAction) (hd : s.dec = none)
    (hh : s.host = .write .ctrl w :: rest) (h : w.getLsbD 0 = false) :
    step s = .next { s with host := rest, regs := { s.regs with ctrl := w } } := by
  simp only [step_host s _ rest hd hh, hostTransaction, writeCtrl, decode_ctrl_clear w h, Fetched.outcome]

/-- A byte written alone is the only one that changes. -/
theorem State.byte_writePix_one (s : State) (a x : Nat) (b : Byte) :
    (s.writePix a [b]).byte .pix x = if x = a then b else s.byte .pix x := by
  rw [State.byte_writePix, List.length_singleton]
  by_cases h : x = a
  · subst h
    simp
  · rw [if_neg (by omega), if_neg h]

theorem State.byte_writeStr_one (s : State) (a x : Nat) (b : Byte) :
    (s.writeStr a [b]).byte .str x = if x = a then b else s.byte .str x := by
  rw [State.byte_writeStr, List.length_singleton]
  by_cases h : x = a
  · subst h
    simp
  · rw [if_neg (by omega), if_neg h]

/-- Settles O5, from the effect of each of the host's transactions. -/
theorem hostWritesAndReads : Obligations.HostWritesAndReads := by
  refine ⟨fun s r v rest hd hh hc ht => ?_, fun s a b rest hd hh => ?_, fun s a b rest hd hh => ?_,
    step_write_ctrl_clear⟩
  · exact ⟨_, step_write_reg s r v rest hd hh hc ht,
      fun q => State.readReg_hostWriteReg { s with host := rest } r q v hc ht, rfl⟩
  · exact ⟨_, step_host s _ rest hd hh, rfl, fun x => State.byte_writePix_one { s with host := rest } a.toNat x b⟩
  · exact ⟨_, step_host s _ rest hd hh, rfl, fun x => State.byte_writeStr_one { s with host := rest } a.toNat x b⟩

end Sys2Proof.Machine
end

section
/-! SUPPORT. The pixels a decoder decides lie in the rectangle, and a decoder of a buffer with a format it cannot use
decides none (45_selector R224). -/

namespace Sys2Proof.Machine

/-! ### Positions in the rectangle -/

theorem row_major_lt {w h x y : Nat} (hx : x < w) (hy : y < h) : y * w + x < w * h := by
  calc y * w + x < y * w + w := by omega
    _ = w * (y + 1) := by ring
    _ ≤ w * h := Nat.mul_le_mul_left w hy

theorem mul_lt_of_lt_ceilDiv {a k b : Nat} (hb : 0 < b) (h : k < ceilDiv a b) : k * b < a := by
  have h' := (Nat.lt_div_iff_mul_lt hb).1 h
  omega

/-- A pixel of a tile lies in the rectangle (42_tile R137). -/
theorem tilePos_lt (w h t n : Nat) (ht : t < tileCount w h) (hn : n < tileW w t * tileH w h t) :
    tilePos w t n < w * h := by
  have hcols : 0 < tileCols w := Nat.pos_of_mul_pos_right (Nat.zero_lt_of_lt ht)
  have hcol : t % tileCols w * Config.tileSide < w := mul_lt_of_lt_ceilDiv (by decide) (Nat.mod_lt t hcols)
  have hrow : t / tileCols w * Config.tileSide < h :=
    mul_lt_of_lt_ceilDiv (by decide) (Nat.div_lt_of_lt_mul ht)
  have hw : 0 < tileW w t := Nat.pos_of_mul_pos_right (Nat.zero_lt_of_lt hn)
  have hx : n % tileW w t < tileW w t := Nat.mod_lt n hw
  have hy : n / tileW w t < tileH w h t := Nat.div_lt_of_lt_mul hn
  refine row_major_lt ?_ ?_
  · have := Nat.lt_of_lt_of_le hx (Nat.min_le_right Config.tileSide (w - t % tileCols w * Config.tileSide))
    omega
  · have := Nat.lt_of_lt_of_le hy (Nat.min_le_right Config.tileSide (h - t / tileCols w * Config.tileSide))
    omega

/-- A pixel of a node's clipped square lies in the rectangle (43_quadtree R187). -/
theorem squarePositions_lt (w h l r c p : Nat) (hp : p ∈ squarePositions w h l r c) : p < w * h := by
  simp only [squarePositions, List.mem_flatMap, List.mem_map, List.mem_range'_1] at hp
  obtain ⟨row, hrow, col, hcol, rfl⟩ := hp
  exact row_major_lt (by omega) (by omega)

theorem mem_foldl_cons {α : Type} (f : α → Nat × Color) (l : List α) (px : List (Nat × Color)) (p : Nat × Color)
    (hp : p ∈ l.foldl (fun q n => f n :: q) px) : p ∈ px ∨ ∃ n ∈ l, p = f n := by
  induction l generalizing px with
  | nil => exact .inl hp
  | cons x l ih =>
    rcases ih (f x :: px) hp with h | ⟨n, hn, h⟩
    · rcases List.mem_cons.1 h with h | h
      · exact .inr ⟨x, List.mem_cons_self .., h⟩
      · exact .inl h
    · exact .inr ⟨n, List.mem_cons_of_mem x hn, h⟩

/-! ### The pixels decided -/

/-- The tile is one of the rectangle, and so are the pixels decided so far. -/
def Dec.InRect (d : Dec) : Prop := d.tile < tileCount d.w d.h ∧ ∀ p ∈ d.px, p.1 < d.w * d.h

theorem Dec.InRect.nextTile {d : Dec} (h : d.InRect) : d.nextTile.InRect := by
  rcases d.nextTile_cases with ⟨ht, hd⟩ | hd | ⟨_, hd⟩ <;> rw [hd]
  · exact ⟨ht, h.2⟩
  · exact h
  · exact h

theorem Dec.InRect.endTile {d : Dec} (h : d.InRect) : d.endTile.InRect := by
  rcases d.endTile_eq with ⟨w, _, hd⟩ | ⟨_, hd⟩ <;> rw [hd]
  · exact Dec.InRect.nextTile (d := d.drop (d.bodyLen w)) h
  · exact h.nextTile

theorem Dec.InRect.emitRun {d : Dec} (h : d.InRect) (c : Color) (run : Nat) : (d.emitRun c run).InRect := by
  rcases d.emitRun_cases c run with ⟨_, hd⟩ | ⟨e, hm, rfl, hd⟩ <;> rw [hd]
  · exact h
  · have he : Dec.InRect { d with
        px := (List.range run).foldl (fun l n => (tilePos d.w d.tile (d.made + n), c) :: l) d.px
        made := d.made + run } := by
      refine ⟨h.1, fun p hp => ?_⟩
      rcases mem_foldl_cons _ _ _ _ hp with hp | ⟨n, hn, rfl⟩
      · exact h.2 p hp
      · have hr := List.mem_range.1 hn
        exact tilePos_lt _ _ _ _ h.1 (Nat.lt_of_lt_of_le (by omega) hm)
    split
    · exact he.endTile
    · exact he

theorem Dec.InRect.startBody {d : Dec} (h : d.InRect) (rle : Bool) : (d.startBody rle).InRect := by
  rcases d.startBody_cases rle with ⟨_, hd⟩ | ⟨_, _, ⟨_, hd⟩ | ⟨_, _, hd⟩ | ⟨_, _, hd⟩⟩ <;> rw [hd]
  · exact h
  · exact h.emitRun _ _
  · exact h
  · exact h

theorem Dec.InRect.nextNode {d : Dec} (h : d.InRect) : d.nextNode.InRect := by
  rcases d.nextNode_cases with ⟨_, _, _, _, hd⟩ | ⟨_, _, _, _, _, hd⟩ | ⟨_, hd | hd | hd⟩ <;> rw [hd] <;> exact h

theorem Dec.InRect.nextWord {d : Dec} (h : d.InRect) : d.nextWord.InRect := by
  rcases d.nextWord_cases with ⟨_, hd⟩ | ⟨_, _, hd⟩ | ⟨_, _, hd⟩ <;> rw [hd] <;> exact h

theorem Dec.InRect.startDiff {d : Dec} (h : d.InRect) : d.startDiff.InRect := by
  unfold Dec.startDiff
  split
  · exact h
  · exact Dec.InRect.nextWord (d := { d with cursor := 0 }) h

theorem Dec.InRect.dispatch {d : Dec} (h : d.InRect) (src : List Byte) : (d.dispatch src).InRect := by
  unfold Dec.dispatch
  repeat' split
  · exact h
  · exact Dec.InRect.startDiff (d := { d with inp := src, ip := 0 }) h
  · exact h
  · exact h

/-- Up to a fault, which drops them, every pixel decided lies in the rectangle. -/
def Dec.Placed (d : Dec) : Prop := (∃ r, d.pos = .raised r) ∨ d.InRect

theorem Dec.Move.placed {d f : Dec} (h : d.Move f) (hr : d.running = true) (hd : d.Placed) : f.Placed := by
  have hd : d.InRect := by
    rcases hd with ⟨r, hp⟩ | hd
    · simp [Dec.running, hp] at hr
    · exact hd
  cases h with
  | fault e r hk => exact .inl ⟨r, rfl⟩
  | comprTag src hp => exact .inr (hd.dispatch src)
  | reuse h rle hp hl => exact .inr (Dec.InRect.startBody (by exact hd) rle)
  | lastEntry c rle left hp hl => exact .inr (Dec.InRect.startBody (by exact hd) rle)
  | pixels n p c run hp hn hl hq hq' => exact .inr (Dec.InRect.emitRun (by exact hd) c run)
  | packedIndex w c hp => exact .inr (Dec.InRect.emitRun (by exact hd) c 1)
  | qtBlob pal lc n src hp hl => exact .inr (Dec.InRect.nextNode hd)
  | split1 l r c hp hb => exact .inr (Dec.InRect.nextNode hd)
  | qtColor l r c b col hp =>
    refine .inr (Dec.InRect.nextNode ⟨hd.1, fun p hp => ?_⟩)
    rcases mem_foldl_cons _ _ _ _ hp with hp | ⟨n, hn, rfl⟩
    · exact hd.2 p hp
    · exact squarePositions_lt _ _ _ _ _ _ hn
  | diffW c k hp hl hc =>
    refine .inr (Dec.InRect.nextWord ⟨hd.1, fun p hp => ?_⟩)
    rcases List.mem_cons.1 hp with rfl | hp
    · exact hc
    · exact hd.2 p hp
  | wireHdr | encTag | rawPayload | read | palette | palEntry | split0 => exact .inr hd

/-! ### A buffer without a structural format -/

/-- A decoding on its way to a raw payload, or at its end: no pixel is decided. -/
def Dec.RawOnly (d : Dec) : Prop :=
  d.px = [] ∧
    match d.pos with
    | .wire | .enc | .raw | .fin | .raised _ => True
    | .compr => d.enc = Config.encNone
    | _ => False

/-- The buffer has a format for structural methods, or only raw bytes are decoded. -/
def Dec.FormatOk (d : Dec) : Prop := d.badFormat = none ∨ (∃ r, d.pos = .raised r) ∨ d.RawOnly

theorem Dec.dispatch_raw (d : Dec) (src : List Byte) (h : d.enc = Config.encNone) :
    d.dispatch src = { d with inp := src, ip := 0, pos := .raw } := by
  simp only [Dec.dispatch, h, if_true]

theorem Dec.badFormat_of_operands {d e : Dec} (h : e.operands = d.operands) : e.badFormat = d.badFormat :=
  congrArg (·.2.2.2.2) h

theorem Dec.RawOnly.not_inTile {d : Dec} (h : d.RawOnly) : d.pos.inTile = false := by
  obtain ⟨_, h⟩ := h
  split at h
  case h_7 => exact h.elim
  all_goals
    rename_i hp
    rw [hp]
    rfl

theorem Dec.Move.formatOk {d f : Dec} (h : d.Move f) (hr : d.running = true) (hd : d.FormatOk) : f.FormatOk := by
  rcases hd with hb | ⟨r, hp⟩ | hraw
  · exact .inl ((Dec.badFormat_of_operands h.operands_eq).trans hb)
  · simp [Dec.running, hp] at hr
  · have hnt := hraw.not_inTile
    obtain ⟨hpx, hpos⟩ := hraw
    cases h with
    | fault e r hk => exact .inr (.inl ⟨r, rfl⟩)
    | wireHdr n e c cl sl rl hp => exact .inr (.inr ⟨hpx, trivial⟩)
    | encTag sl hp hf =>
      rcases hf with he | hb
      · exact .inr (.inr ⟨hpx, he⟩)
      · exact .inl hb
    | comprTag src hp =>
      rw [hp] at hpos
      rw [d.dispatch_raw src hpos]
      exact .inr (.inr ⟨hpx, trivial⟩)
    | rawPayload bytes hp => exact .inr (.inr ⟨hpx, trivial⟩)
    | read n h p hp | pixels n p c run hp =>
      rw [hp] at hnt
      cases hnt
    | reuse h rle hp | palette h rle count hp | palEntry c rle left hp | lastEntry c rle left hp | packedIndex w c hp
    | qtBlob pal lc n src hp | split0 l r c hp | split1 l r c hp | qtColor l r c b col hp | diffW c k hp =>
      rw [hp] at hpos
      exact hpos.elim

end Sys2Proof.Machine
end

section
/-! SUPPORT. A command between its start and its end: what holds there, and what each way to end it leaves (10_state
R25, 60_exceptions R264). -/

namespace Sys2Proof.Machine

/-! ### The fault number -/

theorem FaultCode.number_range (c : FaultCode) : 1 ≤ c.number ∧ c.number ≤ 21 := by
  cases c <;> decide

theorem FaultCode.word_range (c : FaultCode) :
    1 ≤ (BitVec.ofNat 32 c.number).toNat ∧ (BitVec.ofNat 32 c.number).toNat ≤ 21 := by
  have := c.number_range
  rw [BitVec.toNat_ofNat]
  omega

/-! ### In the middle of a command -/

/-- What holds of a state inside a command: the invariant with no fault raised yet and no result flag set. -/
structure State.Active (s : State) : Prop where
  pix : s.pix.wf = true
  str : s.str.wf = true
  fault : s.status.fault = false
  done : s.status.done = false
  notWorth : s.status.notWorth = false
  code : s.regs.fault = 0
  info : s.regs.faultInfo = 0
  session : s.sessionInv
  contexts : s.contextInv
  palette : s.paletteInv

theorem State.decInv_of_none {s : State} (h : s.dec = none) : s.decInv := by
  intro d hd
  rw [h] at hd
  cases hd

theorem State.Inv.palOk_of_dec {s : State} {d : Dec} (h : s.Inv) (hd : s.dec = some d) : d.PalOk := by
  obtain ⟨_, _, _, _, _, _, hdec⟩ := h
  obtain ⟨_, _, _, hs, hp⟩ := hdec d hd
  exact ⟨hs, hp⟩

/-- A running decoder is the inside of a command. -/
theorem State.Inv.active_of_dec {s : State} {d : Dec} (h : s.Inv) (hd : s.dec = some d) : s.Active := by
  obtain ⟨hpix, hstr, hfault, hsess, hctx, hpal, hdec⟩ := h
  obtain ⟨hf, hdone, hnw, _⟩ := hdec d hd
  exact ⟨hpix, hstr, hf, hdone, hnw, (hfault.1 hf).1, (hfault.1 hf).2, hsess, hctx, hpal⟩

/-- The start of a command. -/
theorem State.Inv.active_start {s : State} (h : s.Inv) (w : Word) (hf : s.status.fault = false) :
    (s.start w).Active := by
  obtain ⟨hpix, hstr, hfault, hsess, hctx, hpal, _⟩ := h
  exact ⟨hpix, hstr, hf, rfl, rfl, (hfault.1 hf).1, (hfault.1 hf).2, hsess, hctx, hpal⟩

/-- A decoding under way keeps the invariant. -/
theorem State.Active.inv_of_dec {s : State} (h : s.Active) (hd : ∀ d, s.dec = some d → d.PalOk) : s.Inv :=
  ⟨h.pix, h.str, ⟨fun _ => ⟨h.code, h.info⟩, fun hf => by rw [h.fault] at hf; cases hf⟩, h.session, h.contexts,
    h.palette, fun d he => ⟨h.fault, h.done, h.notWorth, (hd d he).1, (hd d he).2⟩⟩

/-- The successful end, the result flag set as it may be. -/
theorem State.Active.inv_complete {s : State} (h : s.Active) (hd : s.dec = none) (b : Bool) :
    ({ s with status := s.status.setNotWorth b }).complete.Inv :=
  ⟨h.pix, h.str, ⟨fun _ => ⟨h.code, h.info⟩, fun hf => by cases h.fault.symm.trans hf⟩, h.session, h.contexts,
    h.palette, State.decInv_of_none hd⟩

/-- The end in a fault. -/
theorem State.Active.inv_raise {s : State} (h : s.Active) (hd : s.dec = none) (r : Raise) : (s.raise r).Inv :=
  ⟨h.pix, h.str, ⟨(fun hf => by cases hf), fun _ => ⟨r.code.word_range.1, r.code.word_range.2, h.done, h.notWorth⟩⟩,
    h.session, h.contexts, h.palette, State.decInv_of_none hd⟩

/-! ### Operations inside a command -/

theorem State.Active.setSession {s : State} (h : s.Active) (l : List Color) (hl : l.length ≤ 127) :
    (s.setSession l).Active :=
  { h with session := ⟨rfl, hl⟩ }

theorem State.Active.dropPalette {s : State} (h : s.Active) : s.dropPalette.Active :=
  { h with palette := List.nodup_nil }

theorem State.Active.setRegs {s : State} (h : s.Active) (r : Regs) (hf : r.fault = s.regs.fault)
    (hi : r.faultInfo = s.regs.faultInfo) : ({ s with regs := r }).Active :=
  { h with code := hf.trans h.code, info := hi.trans h.info }

theorem State.Active.setPix {s : State} (h : s.Active) (m : Memory) (hm : m.wf = true) : ({ s with pix := m }).Active :=
  { h with pix := hm }

theorem State.Active.writeStr {s : State} (h : s.Active) (a : Nat) (bs : List Byte) : (s.writeStr a bs).Active :=
  { h with str := Memory.wf_putBytes bs s.str a h.str }

theorem State.Active.forgetStr {s : State} (h : s.Active) (lo hi : Nat) : (s.forgetStr lo hi).Active :=
  { h with str := Memory.wf_forget _ s.str h.str }

theorem State.Active.forgetPix {s : State} (h : s.Active) (r : Area) : (s.forgetPix r).Active :=
  { h with pix := Memory.wf_forget _ s.pix h.pix }

theorem State.Active.setDec {s : State} (h : s.Active) (x : Option Dec) : ({ s with dec := x }).Active := { h with }

/-! ### Where a decoder settles -/

theorem State.wf_putPixels (s : State) (px : List (Nat × Color)) (h : s.pix.wf = true) :
    (s.putPixels px).pix.wf = true := by
  induction px with
  | nil => exact h
  | cons p px ih => exact Memory.wf_putBytes _ _ _ ih

/-- What a raw copy keeps of PIX, if every row it writes keeps it. -/
theorem State.rawUnpack_induct {P : Memory → Prop} (s : State) (src : List Byte)
    (hP : ∀ (m : Memory) (j : Nat), j < s.areaRaw.rows → P m →
      P (m.putBytes (s.areaRaw.row j) ((src.drop (j * s.areaRaw.rowLen)).take s.areaRaw.rowLen)))
    (h : P s.pix) : P (s.rawUnpack src).pix := by
  have hl : ∀ (l : List Nat) (t : State), (∀ j ∈ l, j < s.areaRaw.rows) → P t.pix →
      P (l.foldl (fun t j => t.writePix (s.areaRaw.row j)
        ((src.drop (j * s.areaRaw.rowLen)).take s.areaRaw.rowLen)) t).pix := by
    intro l
    induction l with
    | nil => exact fun t _ ht => ht
    | cons j l ih =>
      intro t hj ht
      exact ih _ (fun k hk => hj k (List.mem_cons_of_mem j hk)) (hP t.pix j (hj j (List.mem_cons_self ..)) ht)
  exact hl _ s (fun j hj => List.mem_range.1 hj) h

theorem State.wf_flush (s : State) (d : Dec) (h : s.pix.wf = true) : (s.flush d).pix.wf = true := by
  unfold State.flush
  have hpx := s.wf_putPixels d.px h
  split
  · exact hpx
  · exact State.rawUnpack_induct _ _ (fun m j _ hm => Memory.wf_putBytes _ m _ hm) hpx

theorem State.Active.flush {s : State} (h : s.Active) (d : Dec) : (s.flush d).Active := by
  rw [State.flush_pix]
  exact h.setPix _ (s.wf_flush d h.pix)

theorem State.Active.decoded {s : State} (h : s.Active) (d : Dec) (hd : d.sess.length ≤ 127) :
    (s.decoded d).Active := by
  unfold State.decoded
  split
  · exact (h.setSession d.sess hd).setRegs _ rfl rfl
  · exact (h.setSession d.sess hd).setRegs _ rfl rfl
  · exact h.setRegs _ rfl rfl
  · exact h.setRegs _ rfl rfl
  · exact h.setRegs _ rfl rfl
  · exact (h.setSession d.sess hd).setRegs _ rfl rfl

theorem State.Active.faultSession {s : State} (h : s.Active) (d : Dec) (hd : d.sess.length ≤ 127) :
    (s.faultSession d).Active := by
  unfold State.faultSession
  split
  · exact h.setSession d.sess hd
  · exact h.setSession d.sess hd
  · exact h
  · exact h
  · exact h
  · exact h

/-- Wherever a decoder stands, the machine settles with the invariant. -/
theorem State.Active.inv_settle {s : State} (h : s.Active) (d : Dec) (hd : d.PalOk) : (s.settle d).Inv := by
  unfold State.settle
  split
  · exact (((h.flush d).decoded d hd.1).setDec none).inv_complete rfl ((s.flush d).decoded d).status.notWorth
  · exact (((h.faultSession d hd.1).forgetPix _).setDec none).inv_raise rfl _
  · refine ((h.flush d).setDec _).inv_of_dec fun e he => ?_
    obtain rfl : { d with px := [], rawBytes := [] } = e := Option.some.inj he
    exact hd

end Sys2Proof.Machine
end

section
/-! SUPPORT. What each command leaves, said for the invariant and for the bounds of the two spaces together: from a
state inside a command (`State.Midway`) to the state where it ends (`State.Settled`). -/

namespace Sys2Proof.Machine

/-! ### The two ends of the argument -/

/-- Every listed byte lies in its space, and so does the writer's segment (20_memory R50, R64). -/
def State.InBounds (s : State) : Prop :=
  s.pix.inSpace = true ∧ s.str.inSpace = true ∧ s.w0.base.toNat + s.w0.budget.toNat ≤ Config.spaceSize

/-- The state `u` is inside a command that began in `s`. -/
structure State.Midway (s u : State) : Prop where
  active : u.Active
  dec : u.dec = none
  bounds : s.InBounds → u.InBounds

/-- The state `t` is between commands again, and the last one began in `s`. -/
structure State.Settled (s t : State) : Prop where
  inv : t.Inv
  dec : t.dec = none
  bounds : s.InBounds → t.InBounds

theorem State.Settled.quiet {s t : State} (h : s.Settled t) (hs : s.Quiet) : t.Quiet := ⟨h.dec, h.bounds hs.2⟩

theorem State.Midway.complete {s u : State} (h : s.Midway u) : s.Settled u.complete :=
  ⟨h.active.inv_complete h.dec u.status.notWorth, h.dec, h.bounds⟩

theorem State.Midway.complete_notWorth {s u : State} (h : s.Midway u) (b : Bool) :
    s.Settled { u with status := u.status.setNotWorth b }.complete :=
  ⟨h.active.inv_complete h.dec b, h.dec, h.bounds⟩

theorem State.Midway.raise {s u : State} (h : s.Midway u) (r : Raise) : s.Settled (u.raise r) :=
  ⟨h.active.inv_raise h.dec r, h.dec, h.bounds⟩

theorem State.Midway.setSession {s u : State} (h : s.Midway u) (l : List Color) (hl : l.length ≤ 127) :
    s.Midway (u.setSession l) := ⟨h.active.setSession l hl, h.dec, h.bounds⟩

theorem State.Midway.dropPalette {s u : State} (h : s.Midway u) : s.Midway u.dropPalette :=
  ⟨h.active.dropPalette, h.dec, h.bounds⟩

theorem State.Midway.setRegs {s u : State} (h : s.Midway u) (r : Regs) (hf : r.fault = u.regs.fault := by rfl)
    (hi : r.faultInfo = u.regs.faultInfo := by rfl) : s.Midway { u with regs := r } :=
  ⟨h.active.setRegs r hf hi, h.dec, h.bounds⟩

theorem State.Midway.forgetStr {s u : State} (h : s.Midway u) (lo hi : Nat) : s.Midway (u.forgetStr lo hi) :=
  ⟨h.active.forgetStr lo hi, h.dec, fun hs =>
    ⟨(h.bounds hs).1, Memory.inSpace_forget _ _ (h.bounds hs).2.1, (h.bounds hs).2.2⟩⟩

theorem State.Midway.forgetPix {s u : State} (h : s.Midway u) (r : Area) : s.Midway (u.forgetPix r) :=
  ⟨h.active.forgetPix r, h.dec, fun hs => ⟨Memory.inSpace_forget _ _ (h.bounds hs).1, (h.bounds hs).2⟩⟩

/-- A write to STR that ends below 2^32. -/
theorem State.Midway.writeStr {s u : State} (h : s.Midway u) (a : Nat) (bs : List Byte)
    (hb : s.InBounds → a + bs.length ≤ Config.spaceSize) : s.Midway (u.writeStr a bs) :=
  ⟨h.active.writeStr a bs, h.dec, fun hs =>
    ⟨(h.bounds hs).1, Memory.inSpace_putBytes bs _ a (hb hs) (h.bounds hs).2.1, (h.bounds hs).2.2⟩⟩

theorem State.Midway.raiseEncode {s u : State} (h : s.Midway u) (r : Raise) : s.Settled (u.raiseEncode r) :=
  (h.forgetStr _ _).raise r

theorem State.Midway.raiseDecode {s u : State} (h : s.Midway u) (a : Area) (r : Raise) :
    s.Settled (u.raiseDecode a r) :=
  ⟨((h.active.forgetPix a).setDec none).inv_raise rfl r, rfl, (h.forgetPix a).bounds⟩

/-- The end of an encoding command, for a launch whose output buffer lies below 2^32 (45_selector R236). -/
theorem State.Midway.writeOut {s u : State} (h : s.Midway u) (bytes : List Byte) (after : State → State)
    (hfit : u.outputFits) (hafter : ∀ v, s.Midway v → s.Settled (after v).complete) :
    s.Settled (u.writeOut bytes after) := by
  rcases u.writeOut_cases bytes after with ⟨hl, hw⟩ | ⟨_, hw⟩ <;> rw [hw]
  · refine hafter _ (((h.forgetStr _ _).writeStr _ _ fun _ => ?_).setRegs _)
    have := hfit
    unfold State.outputFits at this
    omega
  · exact h.raiseEncode _

/-! ### The frame of a command -/

/-- A command of a state with the invariant runs its body inside it, or is ignored. -/
theorem command_settled {s t : State} (w : Word) (body : State → Outcome) (hi : s.Inv) (hd : s.dec = none)
    (h : command w body s = .next t) (hb : ∀ u, s.Midway u → body u = .next t → s.Settled t) : s.Settled t := by
  cases hf : s.status.fault
  · rw [command_ready w body s hf] at h
    exact hb _ ⟨hi.active_start w hf, hd, id⟩ h
  · rw [command_faulted w body s hf] at h
    injection h with h
    exact h ▸ ⟨hi, hd, id⟩

/-- A command whose body always answers a next state. -/
theorem command_next_settled {s t : State} (w : Word) (go : State → State) (hi : s.Inv) (hd : s.dec = none)
    (h : command w (fun u => .next (go u)) s = .next t) (hg : ∀ u, s.Midway u → s.Settled (go u)) : s.Settled t :=
  command_settled w _ hi hd h fun u hu hn => by
    injection hn with hn
    exact hn ▸ hg u hu

/-- A command with checks and stops. -/
theorem launch_settled {s t : State} (w : Word) (checks : State → List (Option Raise))
    (stops : State → List (Option Stop)) (esc : State → Raise → State) (go : State → State) (hi : s.Inv)
    (hd : s.dec = none) (h : command w (fun u => launch u (checks u) (stops u) esc go) s = .next t)
    (hesc : ∀ u r, s.Midway u → s.Settled (esc u r))
    (hgo : ∀ u, s.Midway u → (∀ x ∈ checks u, x = none) → (∀ x ∈ stops u, x = none) → s.Settled (go u)) :
    s.Settled t :=
  command_settled w _ hi hd h fun u hu hn => by
    rcases launch_cases u t _ _ _ _ hn with ⟨r, _, rfl⟩ | ⟨hc, hs, rfl⟩
    · exact hesc u r hu
    · exact hgo u hu hc hs

/-! ### Bit streams (40_bitstream R110 to R115) -/

theorem bwPut_ok (budget : Nat) (bits out : List Bool) (value n : Nat) (h : bwPut budget bits value n = .ok out) :
    bits.length ≤ out.length ∧ out.length ≤ 8 * budget := by
  unfold bwPut at h
  split_ifs at h
  cases h
  rw [List.length_append, bitsOf_length]
  omega

theorem brGet_ok (budget : Nat) (byteAt : Nat → Byte) (p n v : Nat) (h : brGet budget byteAt p n = .ok v) :
    p + n ≤ 8 * budget := by
  unfold brGet at h
  split_ifs at h
  omega

theorem completedBytes_length (k : Nat) (bits : List Bool) : (completedBytes k bits).length = bits.length / 8 - k := by
  simp [completedBytes]

theorem ceilDiv_le_of_le_mul (a b : Nat) (h : a ≤ 8 * b) : ceilDiv a 8 ≤ b := by
  unfold ceilDiv
  omega

/-- Fields of a state that neither the invariant inside a command nor the bounds look at, and the contexts. -/
theorem State.Midway.setContexts {s u : State} (h : s.Midway u) (st : Status) (w0 : Writer) (r0 : Reader)
    (hc : w0.bits.length ≤ 8 * w0.budget.toNat ∧ r0.bitpos ≤ 8 * r0.budget.toNat)
    (hw : s.InBounds → w0.base.toNat + w0.budget.toNat ≤ Config.spaceSize)
    (hst : st.fault = u.status.fault ∧ st.done = u.status.done ∧ st.notWorth = u.status.notWorth ∧
      st.sessValid = u.status.sessValid := by exact ⟨rfl, rfl, rfl, rfl⟩) :
    s.Midway { u with status := st, w0 := w0, r0 := r0 } := by
  obtain ⟨hf, hd, hn, hv⟩ := hst
  exact ⟨{ h.active with
      fault := hf.trans h.active.fault, done := hd.trans h.active.done, notWorth := hn.trans h.active.notWorth
      session := ⟨hv.trans h.active.session.1, h.active.session.2⟩, contexts := hc },
    h.dec, fun hs => ⟨(h.bounds hs).1, (h.bounds hs).2.1, hw hs⟩⟩

theorem execNop_settled {s t : State} (hi : s.Inv) (hd : s.dec = none) (h : execNop s = .next t) : s.Settled t :=
  command_next_settled _ _ hi hd h fun _ hu => hu.complete

theorem execBswInit_settled {s t : State} (hi : s.Inv) (hd : s.dec = none) (h : execBswInit s = .next t) :
    s.Settled t := by
  refine launch_settled _ _ _ _ _ hi hd h (fun u r hu => hu.raise r) fun u hu hc hs => ?_
  have hfit := (stopOutput_eq_none u).1 (hs _ (by simp))
  have hcap := (raiseIf_eq_none ..).1 (hc _ (List.mem_singleton_self _))
  unfold State.outputFits at hfit
  simp only [decide_eq_false_iff_not, Nat.not_lt] at hcap
  have hw : u.regs.outBase.toNat + u.regs.arg0.toNat ≤ Config.spaceSize := by omega
  exact (hu.setContexts _ { base := u.regs.outBase, budget := u.regs.arg0, bits := [] } u.r0
    ⟨Nat.zero_le _, hu.active.contexts.2⟩ fun _ => hw).complete

/-- The bytes a transfer completes lie in the segment. -/
theorem State.Midway.putBits {s u : State} (h : s.Midway u) (bits : List Bool)
    (hb : u.w0.bits.length ≤ bits.length ∧ bits.length ≤ 8 * u.w0.budget.toNat) : s.Midway (u.putBits bits) := by
  refine (h.writeStr _ _ fun hs => ?_).setContexts u.status _ u.r0 ⟨hb.2, h.active.contexts.2⟩
    fun hs => (h.bounds hs).2.2
  have := (h.bounds hs).2.2
  rw [completedBytes_length]
  omega

theorem execBswPut_settled {s t : State} (hi : s.Inv) (hd : s.dec = none) (h : execBswPut s = .next t) :
    s.Settled t := by
  refine command_next_settled _ _ hi hd h fun u hu => ?_
  split
  · exact hu.raise _
  · split
    · exact hu.raise _
    · exact (hu.putBits _ (bwPut_ok _ _ _ _ _ ‹_›)).complete

theorem execBswFin_settled {s t : State} (hi : s.Inv) (hd : s.dec = none) (h : execBswFin s = .next t) :
    s.Settled t := by
  refine command_next_settled _ _ hi hd h fun u hu => ?_
  split
  · exact hu.raise _
  · have hw : s.Midway (u.writeStr u.w0.base.toNat (packBits u.w0.bits)) := hu.writeStr _ _ fun hs => by
      have := (hu.bounds hs).2.2
      have := ceilDiv_le_of_le_mul _ _ hu.active.contexts.1
      rw [packBits_length]
      omega
    exact ((hw.setRegs _).setContexts _ u.w0 u.r0 hu.active.contexts
      fun hs => (hu.bounds hs).2.2).complete

theorem execBsrInit_settled {s t : State} (hi : s.Inv) (hd : s.dec = none) (h : execBsrInit s = .next t) :
    s.Settled t :=
  launch_settled 0x04 (fun _ => []) _ _ _ hi hd h (fun u r hu => hu.raise r) fun u hu _ _ =>
    (hu.setContexts _ u.w0 _ (by exact ⟨hu.active.contexts.1, Nat.zero_le _⟩)
      fun hs => (hu.bounds hs).2.2).complete

theorem execBsrGet_settled {s t : State} (hi : s.Inv) (hd : s.dec = none) (h : execBsrGet s = .next t) :
    s.Settled t := by
  refine command_next_settled _ _ hi hd h fun u hu => ?_
  split
  · exact hu.raise _
  · split
    · exact hu.raise _
    · exact ((hu.setContexts u.status u.w0 { u.r0 with bitpos := u.r0.bitpos + u.regs.arg1.toNat }
        ⟨hu.active.contexts.1, brGet_ok _ _ _ _ _ ‹_›⟩ fun hs => (hu.bounds hs).2.2).setRegs _).complete

theorem execBsrFin_settled {s t : State} (hi : s.Inv) (hd : s.dec = none) (h : execBsrFin s = .next t) :
    s.Settled t := by
  refine command_next_settled _ _ hi hd h fun u hu => ?_
  split
  · exact hu.raise _
  · exact ((hu.setContexts _ u.w0 u.r0 hu.active.contexts fun hs => (hu.bounds hs).2.2).setRegs _).complete

/-! ### Palettes (41_palette R121, R128 to R130) -/

theorem palScan_nodup (m : Nat) (pal cols : List Color) (h : pal.Nodup) : (palScan m pal cols).1.Nodup := by
  induction cols generalizing pal with
  | nil => exact h
  | cons c cols ih =>
    have hn (hc : c ∉ pal) : (pal ++ [c]).Nodup := List.concat_eq_append ▸ h.concat hc
    unfold palScan
    split
    · exact ih pal h
    · split
      · exact hn ‹_›
      · exact ih _ (hn ‹_›)

theorem palBuild_nodup (cols : List Color) (m : Nat) : (palBuild cols m).1.Nodup :=
  palScan_nodup m [] cols List.nodup_nil

/-- A scan that does not overflow stops below its cap. -/
theorem palScan_length (m : Nat) (pal cols : List Color) (hl : pal.length < m)
    (h : (palScan m pal cols).2 = false) : (palScan m pal cols).1.length < m := by
  induction cols generalizing pal with
  | nil => exact hl
  | cons c cols ih =>
    unfold palScan at h ⊢
    split
    · rename_i hc
      rw [if_pos hc] at h
      exact ih pal hl h
    · rename_i hc
      rw [if_neg hc] at h
      split
      · rename_i hm
        rw [if_pos hm] at h
        cases h
      · rename_i hm
        rw [if_neg hm] at h
        exact ih _ (Nat.not_le.1 hm) h

theorem State.Midway.setPalette {s u : State} (h : s.Midway u) (p : List Color) (hp : p.Nodup) :
    s.Midway { u with pal := p } :=
  ⟨{ h.active with palette := hp }, h.dec, h.bounds⟩

/-- The overflow flag is free. -/
theorem State.Midway.setPalOvf {s u : State} (h : s.Midway u) (b : Bool) :
    s.Midway { u with status := u.status.setPalOvf b } :=
  ⟨{ h.active with }, h.dec, h.bounds⟩

theorem execPalBuild_settled {s t : State} (hi : s.Inv) (hd : s.dec = none) (h : execPalBuild s = .next t) :
    s.Settled t :=
  launch_settled _ _ _ _ _ hi hd h (fun _ r hu => (hu.setPalette [] List.nodup_nil).raise r)
    fun _ hu _ _ => (((hu.setPalette _ (palBuild_nodup _ _)).setPalOvf _).setRegs _).complete

theorem execPalLookup_settled {s t : State} (hi : s.Inv) (hd : s.dec = none) (h : execPalLookup s = .next t) :
    s.Settled t := by
  refine command_next_settled _ _ hi hd h fun u hu => ?_
  split
  · exact (hu.setRegs _).complete
  · exact (hu.setRegs _).complete

theorem execPalGet_settled {s t : State} (hi : s.Inv) (hd : s.dec = none) (h : execPalGet s = .next t) :
    s.Settled t := by
  refine command_next_settled _ _ hi hd h fun u hu => ?_
  split
  · exact (hu.setRegs _).complete
  · exact hu.raise _

/-! ### The encoders (42_tile R149, R160 to R164, 43_quadtree R190, 44_diff R210, 45_selector R231, R233) -/

/-- A tile leaves the session it found, or its own palette. -/
theorem tileEnc_sess (pix sess : List Color) (reuseEn : Bool) (h : sess.length ≤ 127) :
    (tileEnc pix sess reuseEn).2.length ≤ 127 := by
  have hl := palScan_length Config.tileMaxColors [] pix (by decide)
  unfold tileEnc palBuild
  rcases hp : palScan Config.tileMaxColors [] pix with ⟨pal, ovf⟩
  rw [hp] at hl
  cases ovf
  · have hpal : pal.length ≤ 127 := Nat.le_of_lt_succ (hl rfl)
    dsimp only
    rw [if_neg Bool.false_ne_true]
    split
    · exact hpal
    · exact hpal
  · exact h

theorem tilesEnc_sess (reuseEn : Bool) (tiles : List (List Color)) (sess : List Color) (h : sess.length ≤ 127) :
    (tilesEnc reuseEn sess tiles).2.length ≤ 127 := by
  induction tiles generalizing sess with
  | nil => exact h
  | cons pix tiles ih => exact ih _ (tileEnc_sess pix sess reuseEn h)

theorem trleEnc_sess (grid : List Color) (w h : Nat) (reuseEn : Bool) : (trleEnc grid w h reuseEn).2.length ≤ 127 :=
  tilesEnc_sess _ _ _ (Nat.zero_le _)

theorem execTileEnc_settled {s t : State} (hi : s.Inv) (hd : s.dec = none) (h : execTileEnc s = .next t) :
    s.Settled t := by
  refine launch_settled _ _ _ _ _ hi hd h (fun u r hu => hu.raiseEncode r) fun u hu _ hs => ?_
  have hfit := (stopOutput_eq_none u).1 (hs _ (by simp))
  exact hu.dropPalette.writeOut _ _ hfit fun v hv =>
    ((hv.setSession _ (tileEnc_sess _ _ _ hu.active.session.2)).setRegs _).complete

theorem execTrleEnc_settled {s t : State} (hi : s.Inv) (hd : s.dec = none) (h : execTrleEnc s = .next t) :
    s.Settled t := by
  refine launch_settled _ _ _ _ _ hi hd h (fun u r hu => hu.raiseEncode r) fun u hu _ hs => ?_
  have hfit := (stopOutput_eq_none u).1 (hs _ (by simp))
  exact (hu.dropPalette.setSession _ (trleEnc_sess _ _ _ _)).writeOut _ _ hfit fun v hv => hv.complete

theorem execTrleRst_settled {s t : State} (hi : s.Inv) (hd : s.dec = none) (h : execTrleRst s = .next t) :
    s.Settled t :=
  command_next_settled _ _ hi hd h fun _ hu => (hu.setSession [] (Nat.zero_le _)).complete

theorem execQtEnc_settled {s t : State} (hi : s.Inv) (hd : s.dec = none) (h : execQtEnc s = .next t) :
    s.Settled t := by
  refine launch_settled _ _ _ _ _ hi hd h (fun u r hu => hu.raiseEncode r) fun u hu _ hs => ?_
  have hfit := (stopOutput_eq_none u).1 (hs _ (by simp))
  dsimp only
  split
  · exact hu.dropPalette.raiseEncode _
  · exact (hu.dropPalette.setRegs _).complete_notWorth true
  · exact (hu.dropPalette.setRegs _).writeOut _ _ hfit fun v hv => (hv.setRegs _).complete

theorem execDiffEnc_settled {s t : State} (hi : s.Inv) (hd : s.dec = none) (h : execDiffEnc s = .next t) :
    s.Settled t := by
  refine launch_settled _ _ _ _ _ hi hd h (fun u r hu => hu.raiseEncode r) fun u hu _ hs => ?_
  have hfit := (stopOutput_eq_none u).1 (hs _ (by simp))
  exact hu.writeOut _ _ hfit fun v hv => (hv.setRegs _).complete_notWorth _

theorem execRawPack_settled {s t : State} (hi : s.Inv) (hd : s.dec = none) (h : execRawPack s = .next t) :
    s.Settled t := by
  refine launch_settled _ _ _ _ _ hi hd h (fun u r hu => hu.raiseEncode r) fun u hu _ hs => ?_
  have hfit := (stopOutput_eq_none u).1 (hs _ (by simp))
  exact hu.writeOut _ _ hfit fun v hv => hv.complete

/-- The structural step leaves a session of its own tiles, or none (45_selector R219, R220). -/
theorem State.structural_sess (s : State) (st : Structural) (h : s.structural = .ok st) : st.sess.length ≤ 127 := by
  unfold State.structural at h
  dsimp only at h
  split at h
  · cases h
    split
    · exact Nat.zero_le _
    · exact Nat.zero_le _
  · split at h
    · cases h
      exact trleEnc_sess _ _ _ _
    · split at h
      · split at h
        · cases h
        · cases h
          exact Nat.zero_le _
        · cases h
          exact Nat.zero_le _
      · cases h
        exact Nat.zero_le _

theorem execSelEnc_settled {s t : State} (hi : s.Inv) (hd : s.dec = none) (h : execSelEnc s = .next t) :
    s.Settled t := by
  refine launch_settled _ _ _ _ _ hi hd h (fun u r hu => hu.raiseEncode r) fun u hu _ hs => ?_
  have hfit := (stopOutput_eq_none u).1 (hs _ (by simp))
  split
  · exact (hu.dropPalette.setSession [] (Nat.zero_le _)).raiseEncode _
  · rename_i st hst
    have hm := hu.dropPalette.setSession st.sess (u.structural_sess st hst)
    dsimp only
    split
    · exact hm.raiseEncode _
    · exact hm.writeOut _ _ hfit fun v hv => (hv.setRegs _).complete

end Sys2Proof.Machine
end

section
/-! SUPPORT. The decoding commands end within their step and inside the two spaces; with them every instruction and
every transaction of the host, and so every step, keeps what O59 and O60 ask. -/

namespace Sys2Proof.Machine

/-! ### What a decoder writes lies in its space (20_memory R50, R53, R64) -/

theorem Area.row_le_bound (r : Area) (j : Nat) (hj : j < r.rows) : r.row j + r.rowLen ≤ r.bound := by
  have : j * r.stride ≤ (r.rows - 1) * r.stride := Nat.mul_le_mul_right _ (by omega)
  unfold Area.bound Area.row
  omega

/-- The bytes of a pixel of the rectangle. -/
theorem State.areaA_pixel_le (s : State) (n : Nat) (h : s.rectOk) (hn : n < s.regs.rectW.toNat * s.regs.rectH.toNat) :
    s.areaA.pixel (n % s.regs.rectW.toNat) (n / s.regs.rectW.toNat) + 4 ≤ s.areaA.bound := by
  have hx : n % s.regs.rectW.toNat < s.regs.rectW.toNat := Nat.mod_lt n h.1
  have hrow := s.areaA.row_le_bound (n / s.regs.rectW.toNat) (Nat.div_lt_of_lt_mul hn)
  have hlen : s.areaA.rowLen = s.regs.rectW.toNat * 4 := rfl
  show s.areaA.row _ + n % s.regs.rectW.toNat * 4 + 4 ≤ _
  omega

theorem State.putPixels_regs (s : State) (px : List (Nat × Color)) : (s.putPixels px).regs = s.regs := by
  rw [State.putPixels_eq]

theorem State.inSpace_putPixels (s : State) (px : List (Nat × Color)) (hr : s.rectOk)
    (hb : s.areaA.bound ≤ Config.spaceSize) (hpx : ∀ p ∈ px, p.1 < s.regs.rectW.toNat * s.regs.rectH.toNat)
    (h : s.pix.inSpace = true) : (s.putPixels px).pix.inSpace = true := by
  induction px with
  | nil => exact h
  | cons p px ih =>
    have hp := s.areaA_pixel_le p.1 hr (hpx p (List.mem_cons_self ..))
    have ha : (s.putPixels px).areaA = s.areaA := by simp only [State.areaA, State.area, State.putPixels_regs]
    rw [State.putPixels_cons, State.putPixel_pix, ha, State.putPixels_regs]
    exact Memory.inSpace_putBytes _ _ _ (hp.trans hb) (ih fun q hq => hpx q (List.mem_cons_of_mem p hq))

theorem State.inSpace_rawUnpack (s : State) (src : List Byte) (hb : s.areaRaw.bound ≤ Config.spaceSize)
    (h : s.pix.inSpace = true) : (s.rawUnpack src).pix.inSpace = true := by
  refine s.rawUnpack_induct src (fun m j hj hm => Memory.inSpace_putBytes _ m _ ?_ hm) h
  have := s.areaRaw.row_le_bound j hj
  have := List.length_take_le s.areaRaw.rowLen (src.drop (j * s.areaRaw.rowLen))
  omega

/-- A decoder that has decided pixels of the rectangle, or none, writes below 2^32. -/
theorem State.inSpace_flush (s : State) (d : Dec) (hr : s.rectOk) (hraw : s.areaRaw.bound ≤ Config.spaceSize)
    (hpx : d.px = [] ∨ s.areaA.bound ≤ Config.spaceSize ∧
      ∀ p ∈ d.px, p.1 < s.regs.rectW.toNat * s.regs.rectH.toNat)
    (h : s.pix.inSpace = true) : (s.flush d).pix.inSpace = true := by
  have hput : (s.putPixels d.px).pix.inSpace = true := by
    rcases hpx with hpx | ⟨hb, hpx⟩
    · rw [hpx]
      exact h
    · exact s.inSpace_putPixels d.px hr hb hpx h
  have ha : (s.putPixels d.px).areaRaw = s.areaRaw := by simp only [State.areaRaw, State.area, State.putPixels_regs]
  unfold State.flush
  split
  · exact hput
  · exact State.inSpace_rawUnpack (s.putPixels d.px) d.rawBytes (by rw [ha]; exact hraw) hput

theorem State.flush_frame (s : State) (d : Dec) : (s.flush d).str = s.str ∧ (s.flush d).w0 = s.w0 := by
  rw [State.flush_pix]
  exact ⟨rfl, rfl⟩

/-- The results of a decoder are registers, the session and the flags. -/
theorem State.decoded_frame (s : State) (d : Dec) :
    (s.decoded d).pix = s.pix ∧ (s.decoded d).str = s.str ∧ (s.decoded d).w0 = s.w0 := by
  unfold State.decoded
  split <;> exact ⟨rfl, rfl, rfl⟩

theorem State.faultSession_frame (s : State) (d : Dec) :
    (s.faultSession d).pix = s.pix ∧ (s.faultSession d).str = s.str ∧ (s.faultSession d).w0 = s.w0 := by
  unfold State.faultSession
  split <;> exact ⟨rfl, rfl, rfl⟩

/-- A decoding that is over leaves a state between commands. -/
theorem State.Midway.settle {s u : State} (h : s.Midway u) (d : Dec) (hpal : d.PalOk) (hend : d.running = false)
    (hflush : d.pos = .fin → u.pix.inSpace = true → (u.flush d).pix.inSpace = true) : s.Settled (u.settle d) := by
  have hinv := h.active.inv_settle d hpal
  unfold Dec.running at hend
  split at hend
  · rename_i hp
    rw [u.settle_fin d hp] at hinv ⊢
    obtain ⟨hpix, hstr, hw0⟩ := (u.flush d).decoded_frame d
    refine ⟨hinv, rfl, fun hs => ?_⟩
    obtain ⟨bpix, bstr, bw0⟩ := h.bounds hs
    obtain ⟨fstr, fw0⟩ := u.flush_frame d
    refine ⟨hpix ▸ hflush hp bpix, hstr.trans fstr ▸ bstr, ?_⟩
    show ((u.flush d).decoded d).w0.base.toNat + ((u.flush d).decoded d).w0.budget.toNat ≤ _
    rw [hw0, fw0]
    exact bw0
  · rename_i r hp
    rw [u.settle_raised d r hp] at hinv ⊢
    obtain ⟨hpix, hstr, hw0⟩ := u.faultSession_frame d
    refine ⟨hinv, rfl, fun hs => ?_⟩
    obtain ⟨bpix, bstr, bw0⟩ := h.bounds hs
    refine ⟨Memory.inSpace_forget _ _ (hpix ▸ bpix), hstr ▸ bstr, ?_⟩
    show (u.faultSession d).w0.base.toNat + (u.faultSession d).w0.budget.toNat ≤ _
    rw [hw0]
    exact bw0
  · cases hend

/-! ### A whole decoding -/

theorem tileCount_pos (w h : Nat) (hw : 0 < w) (hh : 0 < h) : 0 < tileCount w h := by
  have hc : ∀ a, 0 < a → 0 < ceilDiv a Config.tileSide := by
    intro a ha
    exact Nat.div_pos (by omega) (by decide)
  exact Nat.mul_pos (hc w hw) (hc h hh)

theorem State.begin_inRect (s : State) (kind : DecKind) (h : s.rectOk) : (s.begin kind).InRect :=
  ⟨tileCount_pos _ _ h.1 h.2.1, fun p hp => by cases hp⟩

theorem State.begin_palOk (s : State) (kind : DecKind) (h : s.sess.length ≤ 127) : (s.begin kind).PalOk := by
  refine ⟨?_, fun hp => by cases kind <;> cases hp⟩
  cases kind
  case tile => exact h
  all_goals exact Nat.zero_le _

/-- At the usual format the raw rectangle is the rectangle of pixels. -/
theorem State.areaRaw_eq_areaA (s : State) (h : s.formatAOk) : s.areaRaw = s.areaA := by
  unfold State.areaRaw State.areaA
  rw [h.1]
  rfl

/-- What the cursors a command starts with have to be like, for its decoding to stay inside the launch. -/
structure Dec.Starts (s : State) (d : Dec) : Prop where
  operands : ∃ kind, d.operands = (s.begin kind).operands
  noSplit : d.NoSplitZero
  pal : d.PalOk
  inRect : d.InRect
  format : d.FormatOk

/-- A decoding from such cursors ends the command. -/
theorem State.Midway.runDecoder {s u : State} (h : s.Midway u) (d : Dec) (hd : d.Starts u) (hr : u.rectOk)
    (hraw : u.areaRaw.bound ≤ Config.spaceSize) : s.Settled (u.runDecoder d) := by
  have hpal : d.decode.PalOk := d.decode_induct (fun _ _ _ hm => hm.palOk) hd.noSplit hd.pal
  have hplaced : d.decode.Placed := d.decode_induct (fun _ _ hr hm => hm.placed hr) hd.noSplit (.inr hd.inRect)
  have hformat : d.decode.FormatOk := d.decode_induct (fun _ _ hr hm => hm.formatOk hr) hd.noSplit hd.format
  have hops : d.decode.operands = d.operands :=
    d.decode_induct (P := fun e => e.operands = d.operands) (fun _ _ _ hm he => hm.operands_eq.trans he) hd.noSplit rfl
  obtain ⟨kind, hkind⟩ := hd.operands
  have hops := hops.trans hkind
  have hw : d.decode.w = u.regs.rectW.toNat := congrArg (·.2.1) hops
  have hh : d.decode.h = u.regs.rectH.toNat := congrArg (·.2.2.1) hops
  have hbad : d.decode.badFormat = checkFormatA u := Dec.badFormat_of_operands hops
  refine h.settle d.decode hpal (d.decode_ends hd.noSplit) fun hp => u.inSpace_flush d.decode hr hraw ?_
  rcases hformat with hf | ⟨r, hf⟩ | hf
  · rcases hplaced with ⟨r, hq⟩ | hin
    · rw [hp] at hq
      cases hq
    · have ha := u.areaRaw_eq_areaA ((checkFormatA_eq_none u).1 (hbad.symm.trans hf))
      exact .inr ⟨ha ▸ hraw, fun p hpx => hw ▸ hh ▸ hin.2 p hpx⟩
  · rw [hp] at hf
    cases hf
  · exact .inl hf.1

/-- The structural decoding commands: the checks leave a format for them. -/
theorem State.Midway.runStructural {s u : State} (h : s.Midway u) (d : Dec) (hr : checkRect u = none)
    (hf : checkFormatA u = none) (ha : stopAreaA u = none) (hd : (checkFormatA u = none → u.rectOk → d.Starts u)) :
    s.Settled (u.runDecoder d) := by
  have hrect := (checkRect_eq_none u).1 hr
  have hraw := u.areaRaw_eq_areaA ((checkFormatA_eq_none u).1 hf)
  exact h.runDecoder d (hd hf hrect) hrect (by rw [hraw]; exact ((stopAreaA_eq_none u).1 ha).2)

theorem State.begin_starts (u : State) (kind : DecKind) (hs : u.sess.length ≤ 127)
    (hf : checkFormatA u = none ∨ (u.begin kind).RawOnly) (hr : u.rectOk) : (u.begin kind).Starts u :=
  ⟨⟨kind, rfl⟩, u.begin_noSplitZero kind, u.begin_palOk kind hs, u.begin_inRect kind hr,
    hf.elim .inl fun h => .inr (.inr h)⟩

theorem State.begin_startDiff_starts (u : State) (hs : u.sess.length ≤ 127) (hf : checkFormatA u = none)
    (hr : u.rectOk) : (u.begin .diff).startDiff.Starts u :=
  ⟨⟨.diff, congrArg Prod.fst (Dec.startDiff_kept _)⟩, Dec.startDiff_noSplitZero _,
    .of_kept (Dec.startDiff_kept _) (u.begin_palOk .diff hs).1 (Dec.startDiff_inBody _),
    (u.begin_inRect .diff hr).startDiff,
    .inl ((Dec.badFormat_of_operands (congrArg Prod.fst (Dec.startDiff_kept _))).trans hf)⟩

theorem execTileDec_settled {s t : State} (hi : s.Inv) (hd : s.dec = none) (h : execTileDec s = .next t) :
    s.Settled t :=
  launch_settled _ _ _ _ _ hi hd h (fun _ r hu => hu.raiseDecode _ r) fun u hu hc hs =>
    hu.runStructural _ (hc _ (by simp)) (hc _ (by simp)) (hs _ (by simp)) fun hf hr =>
      u.begin_starts .tile hu.active.session.2 (.inl hf) hr

theorem execTrleDec_settled {s t : State} (hi : s.Inv) (hd : s.dec = none) (h : execTrleDec s = .next t) :
    s.Settled t :=
  launch_settled _ _ _ _ _ hi hd h (fun _ r hu => hu.raiseDecode _ r) fun u hu hc hs =>
    hu.runStructural _ (hc _ (by simp)) (hc _ (by simp)) (hs _ (by simp)) fun hf hr =>
      u.begin_starts .trle hu.active.session.2 (.inl hf) hr

theorem execQtDec_settled {s t : State} (hi : s.Inv) (hd : s.dec = none) (h : execQtDec s = .next t) :
    s.Settled t :=
  launch_settled _ _ _ _ _ hi hd h (fun _ r hu => hu.raiseDecode _ r) fun u hu hc hs =>
    hu.runStructural _ (hc _ (by simp)) (hc _ (by simp)) (hs _ (by simp)) fun hf hr =>
      u.begin_starts .qt hu.active.session.2 (.inl hf) hr

theorem execDiffDec_settled {s t : State} (hi : s.Inv) (hd : s.dec = none) (h : execDiffDec s = .next t) :
    s.Settled t :=
  launch_settled _ _ _ _ _ hi hd h (fun _ r hu => hu.raiseDecode _ r) fun u hu hc hs =>
    hu.runStructural _ (hc _ (by simp)) (hc _ (by simp)) (hs _ (by simp)) fun hf hr =>
      u.begin_startDiff_starts hu.active.session.2 hf hr

/-- The commands on raw rows: no structural method runs on a buffer without its format. -/
theorem State.Midway.runRaw {s u : State} (h : s.Midway u) (kind : DecKind) (hk : (u.begin kind).RawOnly)
    (hr : checkRect u = none) (ha : stopAreaRaw u = none) : s.Settled (u.runDecoder (u.begin kind)) := by
  have hrect := (checkRect_eq_none u).1 hr
  exact h.runDecoder _ (u.begin_starts kind h.active.session.2 (.inr hk) hrect) hrect ((stopAreaRaw_eq_none u).1 ha).2

theorem execSelDec_settled {s t : State} (hi : s.Inv) (hd : s.dec = none) (h : execSelDec s = .next t) :
    s.Settled t :=
  launch_settled _ _ _ _ _ hi hd h (fun _ r hu => hu.raiseDecode _ r) fun _ hu hc hs =>
    hu.runRaw .sel ⟨rfl, trivial⟩ (hc _ (by simp)) (hs _ (by simp))

theorem execRawUnpack_settled {s t : State} (hi : s.Inv) (hd : s.dec = none) (h : execRawUnpack s = .next t) :
    s.Settled t :=
  launch_settled _ _ _ _ _ hi hd h (fun _ r hu => hu.raiseDecode _ r) fun _ hu hc hs =>
    hu.runRaw .raw ⟨rfl, trivial⟩ (hc _ (by simp)) (hs _ (by simp))

/-! ### Every instruction, every transaction -/

/-- The block after a reset (70_reset R280). -/
theorem execReset_settled {s t : State} (ign : BitVec 31) (hi : s.Inv) (h : execReset ign s = .next t) :
    s.Settled t := by
  injection h with h
  subst h
  obtain ⟨hpix, hstr, _⟩ := hi
  refine ⟨⟨hpix, hstr, ⟨fun _ => ⟨rfl, rfl⟩, fun hf => by cases hf⟩, ⟨rfl, Nat.zero_le _⟩,
    ⟨Nat.zero_le _, Nat.zero_le _⟩, List.nodup_nil, State.decInv_of_none rfl⟩, rfl, fun hs => ⟨hs.1, hs.2.1, ?_⟩⟩
  exact Nat.zero_le _

theorem onToken_refused (f : Dec → Option Dec) (s t : State) (hd : s.dec = none) : onToken f s ≠ .next t := by
  intro h
  obtain ⟨d, _, hs, _⟩ := onToken_cases s t f h
  rw [hd] at hs
  cases hs

/-- With no cursors open every instruction that answers a next state ends its command. -/
theorem exec_settled {s t : State} (i : Instr) (hi : s.Inv) (hd : s.dec = none) (h : exec i s = .next t) :
    s.Settled t := by
  cases i with
  | nop => exact execNop_settled hi hd h
  | bswInit => exact execBswInit_settled hi hd h
  | bswPut => exact execBswPut_settled hi hd h
  | bswFin => exact execBswFin_settled hi hd h
  | bsrInit => exact execBsrInit_settled hi hd h
  | bsrGet => exact execBsrGet_settled hi hd h
  | bsrFin => exact execBsrFin_settled hi hd h
  | palBuild => exact execPalBuild_settled hi hd h
  | palLookup => exact execPalLookup_settled hi hd h
  | palGet => exact execPalGet_settled hi hd h
  | tileEnc => exact execTileEnc_settled hi hd h
  | tileDec => exact execTileDec_settled hi hd h
  | trleEnc => exact execTrleEnc_settled hi hd h
  | trleDec => exact execTrleDec_settled hi hd h
  | trleRst => exact execTrleRst_settled hi hd h
  | qtEnc => exact execQtEnc_settled hi hd h
  | qtDec => exact execQtDec_settled hi hd h
  | diffEnc => exact execDiffEnc_settled hi hd h
  | diffDec => exact execDiffDec_settled hi hd h
  | rawPack => exact execRawPack_settled hi hd h
  | rawUnpack => exact execRawUnpack_settled hi hd h
  | selEnc => exact execSelEnc_settled hi hd h
  | selDec => exact execSelDec_settled hi hd h
  | reset ign => exact execReset_settled ign hi h
  | _ => exact absurd h (onToken_refused _ s t hd)

theorem Regs.hostWrite_fault (r : Regs) (v : Word) (q : Reg) :
    (r.hostWrite v q).fault = r.fault ∧ (r.hostWrite v q).faultInfo = r.faultInfo := by
  cases q <;> exact ⟨rfl, rfl⟩

/-- Registers other than the fault's, with memories in canonical form that stay in their spaces. -/
theorem State.Inv.settled_set {s : State} (hi : s.Inv) (hd : s.dec = none) (r : Regs) (pix str : Memory)
    (hf : r.fault = s.regs.fault ∧ r.faultInfo = s.regs.faultInfo) (hp : pix.wf = true) (hs : str.wf = true)
    (bp : s.pix.inSpace = true → pix.inSpace = true) (bs : s.str.inSpace = true → str.inSpace = true) :
    s.Settled { s with regs := r, pix := pix, str := str } := by
  obtain ⟨_, _, ⟨hok, hfault⟩, hsess, hctx, hpal, _⟩ := hi
  refine ⟨⟨hp, hs, ⟨fun h => ?_, fun h => ?_⟩, hsess, hctx, hpal, State.decInv_of_none hd⟩, hd,
    fun hb => ⟨bp hb.1, bs hb.2.1, hb.2.2⟩⟩
  · exact ⟨hf.1.trans (hok h).1, hf.2.trans (hok h).2⟩
  · show 1 ≤ r.fault.toNat ∧ r.fault.toNat ≤ 21 ∧ _
    rw [hf.1]
    exact hfault h

/-- A word that is no command (60_exceptions R257). -/
theorem illegalCommand_settled {s : State} (w : Word) (hi : s.Inv) (hd : s.dec = none) :
    s.Settled (illegalCommand w s) := by
  unfold illegalCommand
  split
  · exact ⟨hi, hd, id⟩
  · rename_i hf
    have hm : s.Midway (s.start w) := ⟨hi.active_start w (by simpa using hf), hd, id⟩
    exact hm.raise _

theorem State.Inv.setHost {s : State} (h : s.Inv) (l : List HostAction) : ({ s with host := l }).Inv := h

/-- Every transaction of the host leaves a state between commands. -/
theorem hostTransaction_settled {s t : State} (a : HostAction) (hi : s.Inv) (hd : s.dec = none)
    (h : (hostTransaction a s).outcome = .next t) : s.Settled t := by
  have hpix := hi.1
  have hstr := hi.2.1
  cases a with
  | storePix a b =>
    injection h with h
    exact h ▸ hi.settled_set hd s.regs _ _ ⟨rfl, rfl⟩ (Memory.wf_putBytes [b] _ a.toNat hpix) hstr
      (Memory.inSpace_putBytes [b] _ a.toNat a.isLt) id
  | storeStr a b =>
    injection h with h
    exact h ▸ hi.settled_set hd s.regs _ _ ⟨rfl, rfl⟩ hpix (Memory.wf_putBytes [b] _ a.toNat hstr) id
      (Memory.inSpace_putBytes [b] _ a.toNat a.isLt)
  | write r v =>
    cases r
    case cmd =>
      simp only [hostTransaction, writeCmd] at h
      split at h
      · exact exec_settled _ hi hd h
      · injection h with h
        exact h ▸ illegalCommand_settled v hi hd
    case ctrl =>
      simp only [hostTransaction, writeCtrl] at h
      split at h
      · exact exec_settled _ hi hd h
      · injection h with h
        exact h ▸ hi.settled_set hd { s.regs with ctrl := v } _ _ ⟨rfl, rfl⟩ hpix hstr id id
    all_goals
      injection h with h
      exact h ▸ hi.settled_set hd _ _ _ (s.regs.hostWrite_fault v _) hpix hstr id id

/-- Every step from a state between commands ends between commands. -/
theorem step_settled {s t : State} (hi : s.Inv) (hd : s.dec = none) (h : step s = .next t) : s.Settled t := by
  cases hh : s.host with
  | nil =>
    rw [step_idle s hd hh] at h
    injection h with h
    exact h ▸ ⟨hi, hd, id⟩
  | cons a rest =>
    rw [step_host s a rest hd hh] at h
    obtain ⟨inv, dec, bounds⟩ := hostTransaction_settled a (hi.setHost rest) hd h
    exact ⟨inv, dec, bounds⟩

/-! ### The obligations -/

/-- Settles O59: between commands every transaction of the host keeps the invariant (`step_settled`), and with cursors
open every token does (`Dec.Move.palOk`). -/
theorem stepKeepsInv : Obligations.StepKeepsInv := by
  intro s t hi h
  cases hd : s.dec with
  | none => exact (step_settled hi hd h).inv
  | some d =>
    obtain ⟨rfl, hm⟩ := step_open s t d hd h
    have hpal := hi.palOk_of_dec hd
    refine (hi.active_of_dec hd).inv_settle d.next ?_
    cases hr : d.running
    · rw [d.next_stopped hr]
      exact hpal
    · exact (hm hr).palOk hpal

/-- Settles O60: every step between commands ends its command, for every decoding ends (`Dec.decode_ends`), and writes
inside the two spaces. -/
theorem stepKeepsQuiet : Obligations.StepKeepsQuiet :=
  fun _ _ hi hq h => (step_settled hi hq.1 h).quiet hq

end Sys2Proof.Machine
end

section
/-! SUPPORT. The colours the encoders work on, read from the bytes of the rectangle (20_memory R53, R54, R55). -/

namespace Sys2Proof.Machine

/-! ### Row-major lists -/

theorem length_flatMap_range {α : Type} (f : Nat → List α) (w n : Nat) (hf : ∀ j, (f j).length = w) :
    ((List.range n).flatMap f).length = w * n := by
  simp [List.length_flatMap, hf, Nat.mul_comm]

/-- Entry `j * w + i` of rows of `w` entries each is entry `i` of row `j`. -/
theorem getD_flatMap_range {α : Type} (f : Nat → List α) (w n i j : Nat) (d : α) (hf : ∀ j, (f j).length = w)
    (hi : i < w) (hj : j < n) : ((List.range n).flatMap f).getD (j * w + i) d = (f j).getD i d := by
  induction n with
  | zero => omega
  | succ n ih =>
    have hlen := length_flatMap_range f w n hf
    rw [List.range_succ, List.flatMap_append]
    rcases Nat.lt_succ_iff_lt_or_eq.1 hj with hj | rfl
    · rw [List.getD_append _ _ _ _ (hlen ▸ row_major_lt hi hj), ih hj]
    · rw [List.getD_append_right _ _ _ _ (by rw [hlen, Nat.mul_comm]; omega), hlen, Nat.mul_comm w,
        Nat.add_sub_cancel_left]
      simp

/-! ### The grid -/

theorem State.grid_length (s : State) (r : Area) :
    (s.grid r).length = s.regs.rectW.toNat * s.regs.rectH.toNat :=
  length_flatMap_range _ _ _ fun j => by simp

/-- The grid is row-major. -/
theorem State.grid_getD (s : State) (r : Area) (i j : Nat) (hi : i < s.regs.rectW.toNat)
    (hj : j < s.regs.rectH.toNat) :
    (s.grid r).getD (j * s.regs.rectW.toNat + i) 0 = color (s.pixRead r i j) := by
  rw [State.grid, getD_flatMap_range _ _ _ i j 0 (fun j => by simp) hi hj]
  simp [hi]

/-- Bit `k` of byte `b` of a pixel word, the low byte first (R54), stays in the colour for the three low bytes (R55). -/
theorem color_fromLe32_getLsbD (b0 b1 b2 b3 : Byte) (b k : Nat) (hb : b < 3) (hk : k < 8) :
    (color (fromLe32 [b0, b1, b2, b3])).getLsbD (8 * b + k) = ([b0, b1, b2, b3].getD b 0).getLsbD k := by
  have hlt : 8 * b + k < 24 := by omega
  simp only [color, fromLe32, BitVec.getLsbD_setWidth, BitVec.getLsbD_append, hlt, decide_true, Bool.true_and]
  match b, hb with
  | 0, _ => simp [hk]
  | 1, _ => simp [show ¬ 8 + k < 8 by omega, hk]
  | 2, _ => simp [show ¬ 16 + k < 8 by omega, show 16 + k - 8 = 8 + k by omega, hk]

/-- A colour's bytes are the three low bytes of its pixel in PIX. -/
theorem State.color_pixRead_getLsbD (s : State) (r : Area) (i j b k : Nat) (hb : b < 3) (hk : k < 8) :
    (color (s.pixRead r i j)).getLsbD (8 * b + k) = (s.byte .pix (r.pixel i j + b)).getLsbD k := by
  have hread : s.readBytes .pix (r.pixel i j) Config.pixelBytes =
      [s.byte .pix (r.pixel i j), s.byte .pix (r.pixel i j + 1), s.byte .pix (r.pixel i j + 2),
        s.byte .pix (r.pixel i j + 3)] := rfl
  rw [State.pixRead, hread, fromPix32_eq, color_fromLe32_getLsbD _ _ _ _ b k hb hk]
  match b, hb with
  | 0, _ => rfl
  | 1, _ => rfl
  | 2, _ => rfl

/-- R53's address of a pixel. -/
theorem State.area_pixel (s : State) (base stride : Word) (i j : Nat) :
    (s.area base stride Config.pixelBytes).pixel i j =
      base.toNat + (s.regs.rectY.toNat + j) * stride.toNat + (s.regs.rectX.toNat + i) * 4 := by
  simp only [Area.pixel, Area.row, State.area, Config.pixelBytes]
  ring

theorem State.grid_area_getLsbD (s : State) (base stride : Word) (i j b k : Nat) (hi : i < s.regs.rectW.toNat)
    (hj : j < s.regs.rectH.toNat) (hb : b < 3) (hk : k < 8) :
    ((s.grid (s.area base stride Config.pixelBytes)).getD (j * s.regs.rectW.toNat + i) 0).getLsbD (8 * b + k) =
      (s.byte .pix (base.toNat + (s.regs.rectY.toNat + j) * stride.toNat + (s.regs.rectX.toNat + i) * 4 + b)).getLsbD
        k := by
  rw [s.grid_getD _ i j hi hj, s.color_pixRead_getLsbD _ i j b k hb hk, s.area_pixel]

/-- Settles O25: both buffers hold the rectangle as `State.area` has it, the grid is row-major (`State.grid_getD`), and
a pixel word has its low byte first (`color_fromLe32_getLsbD`). -/
theorem gridReadsPixels : Obligations.GridReadsPixels := by
  intro s area base stride hmem
  have harea : area = s.area base stride Config.pixelBytes := by
    simp only [List.mem_cons, Prod.mk.injEq, List.not_mem_nil, or_false] at hmem
    rcases hmem with ⟨rfl, rfl, rfl⟩ | ⟨rfl, rfl, rfl⟩
    · rfl
    · rfl
  subst harea
  exact ⟨s.grid_length _, fun i j b k hi hj hb hk => s.grid_area_getLsbD base stride i j b k hi hj hb hk⟩

end Sys2Proof.Machine
end

section
/-! SUPPORT. What one command can leave behind, whatever its launch: the case split that O40 and O41 share. -/

namespace Sys2Proof.Machine

/-- A command with checks that answers a next state ended in a fault of its launch, or ran its operation behind its
checks. -/
theorem command_launch_induct {P : State → Prop} {s t : State} (w : Word) (checks : State → List (Option Raise))
    (stops : State → List (Option Stop)) (esc : State → Raise → State) (go : State → State)
    (hf : s.status.fault = false) (h : command w (fun u => launch u (checks u) (stops u) esc go) s = .next t)
    (hesc : ∀ r, P (esc (s.start w) r))
    (hgo : (∀ x ∈ checks (s.start w), x = none) → P (go (s.start w))) : P t := by
  rw [command_ready _ _ s hf] at h
  rcases launch_cases _ _ _ _ _ _ h with ⟨r, _, rfl⟩ | ⟨hc, _, rfl⟩
  · exact hesc r
  · exact hgo hc

end Sys2Proof.Machine
end

section
/-! SUPPORT. The footprint of a decoding command (20_memory R51, 60_exceptions R264): the bytes of its rectangle in PIX,
and the fields it assigns. -/

namespace Sys2Proof.Machine

/-! ### The footprint -/

/-- The registers with those a decoding command assigns set to 0. -/
def Regs.offDecode (r : Regs) : Regs :=
  { r with cmd := 0, fault := 0, faultInfo := 0, inUsed := 0, res0 := 0, res1 := 0 }

theorem Regs.eq_of_offDecode {r q : Regs} (h : q.offDecode = r.offDecode) :
    q = { r with
      cmd := q.cmd, fault := q.fault, faultInfo := q.faultInfo, inUsed := q.inUsed, res0 := q.res0
      res1 := q.res1 } :=
  calc q = { q.offDecode with
        cmd := q.cmd, fault := q.fault, faultInfo := q.faultInfo, inUsed := q.inUsed, res0 := q.res0
        res1 := q.res1 } := rfl
    _ = _ := by rw [h]; rfl

/-- The fields no decoding command changes, the memories apart. -/
def State.decodeFrame (s : State) : Regs × List Color × Bool × Writer × Reader × Bool × Bool × List HostAction :=
  (s.regs.offDecode, s.pal, s.status.palOvf, s.w0, s.r0, s.status.bswOpen, s.status.bsrOpen, s.host)

/-- The state `t` differs from `s` by what a decoding command of this rectangle can change. -/
structure State.InsideArea (area : Area) (s t : State) : Prop where
  pix : SameBytes .pix (fun a => ¬ area.holds a) s t
  str : SameBytes .str (fun _ => True) s t
  frame : t.decodeFrame = s.decodeFrame

theorem State.InsideArea.trans {area : Area} {s t u : State} (h : s.InsideArea area t) (h' : t.InsideArea area u) :
    s.InsideArea area u :=
  ⟨fun a ha => (h'.pix a ha).trans (h.pix a ha), fun a ha => (h'.str a ha).trans (h.str a ha),
    h'.frame.trans h.frame⟩

theorem State.insideArea_start (area : Area) (s : State) (w : Word) : s.InsideArea area (s.start w) :=
  ⟨fun _ _ => rfl, fun _ _ => rfl, rfl⟩

theorem State.insideArea_raiseDecode (area : Area) (s : State) (r : Raise) :
    s.InsideArea area (s.raiseDecode area r) :=
  ⟨fun a ha => s.raiseDecode_pix_outside area r a (area.contains_eq_false a ha),
    fun a _ => s.raiseDecode_str_byte area r a, rfl⟩

theorem State.insideArea_faultSession (area : Area) (s : State) (d : Dec) : s.InsideArea area (s.faultSession d) := by
  unfold State.faultSession
  split <;> exact ⟨fun _ _ => rfl, fun _ _ => rfl, rfl⟩

/-- The results of a decoder that ends well are registers, the session and flags. -/
theorem State.insideArea_decoded (area : Area) (s : State) (d : Dec) :
    s.InsideArea area { (s.decoded d).complete with dec := none } := by
  unfold State.decoded
  split <;> exact ⟨fun _ _ => rfl, fun _ _ => rfl, rfl⟩

/-! ### Writes to PIX -/

/-- Two memories list the same bytes outside a rectangle. -/
def Memory.AgreeOff (area : Area) (m n : Memory) : Prop := ∀ a, ¬ area.holds a → n.get? a = m.get? a

theorem Memory.AgreeOff.putBytes {area : Area} {m n : Memory} (h : m.AgreeOff area n) (x : Nat) (bs : List Byte)
    (hx : ∀ o < bs.length, area.holds (x + o)) : m.AgreeOff area (n.putBytes x bs) := by
  intro a ha
  rw [Memory.get?_putBytes, if_neg]
  · exact h a ha
  · rintro ⟨hle, hlt⟩
    obtain ⟨o, rfl⟩ := Nat.exists_eq_add_of_le hle
    exact ha (hx o (by omega))

theorem State.insideArea_setPix {area : Area} (s : State) {m : Memory} (h : s.pix.AgreeOff area m) :
    s.InsideArea area { s with pix := m } :=
  ⟨fun a ha => State.byte_congr _ _ _ _ (h a ha) rfl, fun _ _ => rfl, rfl⟩

/-- The four bytes of a pixel belong to the rectangle (20_memory R53). -/
theorem State.areaA_holds_pixel (s : State) (n o : Nat) (hn : n < s.regs.rectW.toNat * s.regs.rectH.toNat) (ho : o < 4) :
    s.areaA.holds (s.areaA.pixel (n % s.regs.rectW.toNat) (n / s.regs.rectW.toNat) + o) := by
  have hw : 0 < s.regs.rectW.toNat := Nat.pos_of_mul_pos_right (Nat.zero_lt_of_lt hn)
  have hx : n % s.regs.rectW.toNat < s.regs.rectW.toNat := Nat.mod_lt n hw
  refine ⟨n / s.regs.rectW.toNat, n % s.regs.rectW.toNat * 4 + o, Nat.div_lt_of_lt_mul hn, ?_, Nat.add_assoc ..⟩
  show _ < s.regs.rectW.toNat * 4
  omega

theorem State.agreeOff_putPixels (s : State) (px : List (Nat × Color))
    (hpx : ∀ p ∈ px, p.1 < s.regs.rectW.toNat * s.regs.rectH.toNat) : s.pix.AgreeOff s.areaA (s.putPixels px).pix := by
  induction px with
  | nil => exact fun _ _ => rfl
  | cons p px ih =>
    have ha : (s.putPixels px).areaA = s.areaA := by simp only [State.areaA, State.area, State.putPixels_regs]
    rw [State.putPixels_cons, State.putPixel_pix, ha, State.putPixels_regs]
    exact (ih fun q hq => hpx q (List.mem_cons_of_mem p hq)).putBytes _ _ fun o ho =>
      s.areaA_holds_pixel p.1 o (hpx p (List.mem_cons_self ..)) ho

theorem State.agreeOff_rawUnpack (s : State) (src : List Byte) :
    s.pix.AgreeOff s.areaRaw (s.rawUnpack src).pix := by
  refine s.rawUnpack_induct src (fun m j hj hm => hm.putBytes _ _ fun o ho => ⟨j, o, hj, ?_, rfl⟩) fun _ _ => rfl
  exact Nat.lt_of_lt_of_le ho (List.length_take_le ..)

/-- What a decoder has decided goes to the raw rectangle, if its pixels, where it has any, do. -/
theorem State.insideArea_flush (s : State) (d : Dec)
    (hpx : d.px = [] ∨ s.areaA = s.areaRaw ∧ ∀ p ∈ d.px, p.1 < s.regs.rectW.toNat * s.regs.rectH.toNat) :
    s.InsideArea s.areaRaw (s.flush d) := by
  have hput : s.pix.AgreeOff s.areaRaw (s.putPixels d.px).pix := by
    rcases hpx with hpx | ⟨ha, hpx⟩
    · rw [hpx]
      exact fun _ _ => rfl
    · exact ha ▸ s.agreeOff_putPixels d.px hpx
  have ha : (s.putPixels d.px).areaRaw = s.areaRaw := by simp only [State.areaRaw, State.area, State.putPixels_regs]
  rw [State.flush_pix]
  refine s.insideArea_setPix ?_
  unfold State.flush
  split
  · exact hput
  · exact fun a h => ((s.putPixels d.px).agreeOff_rawUnpack d.rawBytes a (ha ▸ h)).trans (hput a h)

/-! ### A whole decoding -/

/-- What the cursors a command starts with have to be like, for its decoding to stay inside the rectangle; unlike
`Dec.Starts` it asks nothing of the session. -/
structure Dec.StartsAt (s : State) (kind : DecKind) (d : Dec) : Prop where
  operands : d.operands = (s.begin kind).operands
  noSplit : d.NoSplitZero
  inRect : d.InRect
  format : d.FormatOk

theorem State.begin_startsAt (s : State) (kind : DecKind) (hr : s.rectOk)
    (hf : checkFormatA s = none ∨ (s.begin kind).RawOnly) : (s.begin kind).StartsAt s kind :=
  ⟨rfl, s.begin_noSplitZero kind, s.begin_inRect kind hr, hf.elim .inl fun h => .inr (.inr h)⟩

theorem State.begin_startDiff_startsAt (s : State) (hr : s.rectOk) (hf : checkFormatA s = none) :
    (s.begin .diff).startDiff.StartsAt s .diff :=
  have hops : (s.begin .diff).startDiff.operands = (s.begin .diff).operands := congrArg Prod.fst (Dec.startDiff_kept _)
  ⟨hops, Dec.startDiff_noSplitZero _, (s.begin_inRect .diff hr).startDiff,
    .inl ((Dec.badFormat_of_operands hops).trans hf)⟩

/-- Where a decoding that is over has left the machine. -/
theorem State.insideArea_settle (s : State) (d : Dec) (hend : d.running = false) (ht : s.target d.kind = s.areaRaw)
    (hflush : d.pos = .fin → s.InsideArea s.areaRaw (s.flush d)) : s.InsideArea s.areaRaw (s.settle d) := by
  unfold Dec.running at hend
  split at hend
  · rename_i hp
    rw [s.settle_fin d hp]
    exact (hflush hp).trans (State.insideArea_decoded _ _ d)
  · rename_i r hp
    rw [s.settle_raised d r hp, ht]
    exact (s.insideArea_faultSession _ d).trans (State.insideArea_raiseDecode _ _ r)
  · cases hend

/-- A decoding stays inside its rectangle: every pixel decided lies in it (`Dec.Placed`), and there is one only where
the buffer's format makes the raw rectangle the rectangle of pixels (`Dec.FormatOk`). -/
theorem State.insideArea_runDecoder (s : State) (kind : DecKind) (d : Dec) (hd : d.StartsAt s kind)
    (ht : s.target kind = s.areaRaw) : s.InsideArea s.areaRaw (s.runDecoder d) := by
  have hplaced : d.decode.Placed := d.decode_induct (fun _ _ hr hm => hm.placed hr) hd.noSplit (.inr hd.inRect)
  have hformat : d.decode.FormatOk := d.decode_induct (fun _ _ hr hm => hm.formatOk hr) hd.noSplit hd.format
  have hops : d.decode.operands = (s.begin kind).operands :=
    d.decode_induct (P := fun e => e.operands = (s.begin kind).operands) (fun _ _ _ hm he => hm.operands_eq.trans he)
      hd.noSplit hd.operands
  have hkind : d.decode.kind = kind := congrArg (·.1) hops
  have hw : d.decode.w = s.regs.rectW.toNat := congrArg (·.2.1) hops
  have hh : d.decode.h = s.regs.rectH.toNat := congrArg (·.2.2.1) hops
  have hbad : d.decode.badFormat = checkFormatA s := Dec.badFormat_of_operands hops
  refine s.insideArea_settle d.decode (d.decode_ends hd.noSplit) (hkind ▸ ht) fun hp => s.insideArea_flush _ ?_
  rcases hformat with hf | ⟨r, hf⟩ | hf
  · rcases hplaced with ⟨r, hq⟩ | hin
    · rw [hp] at hq
      cases hq
    · have ha := s.areaRaw_eq_areaA ((checkFormatA_eq_none s).1 (hbad.symm.trans hf))
      exact .inr ⟨ha.symm, fun p hpx => hw ▸ hh ▸ hin.2 p hpx⟩
  · rw [hp] at hf
    cases hf
  · exact .inl hf.1

/-! ### The commands -/

/-- A decoding command stays inside its rectangle if its operation does: a fault of its launch forgets no other byte. -/
theorem command_insideArea {s t : State} (w : Word) (checks : State → List (Option Raise))
    (stops : State → List (Option Stop)) (area : Area) (rect : State → Area) (go : State → State)
    (hf : s.status.fault = false)
    (h : command w (fun u => launch u (checks u) (stops u) (fun u r => u.raiseDecode (rect u) r) go) s = .next t)
    (harea : rect (s.start w) = area)
    (hgo : (∀ x ∈ checks (s.start w), x = none) → (s.start w).InsideArea area (go (s.start w))) :
    s.InsideArea area t :=
  command_launch_induct w checks stops _ go hf h
    (fun r => harea ▸ (s.insideArea_start _ w).trans (State.insideArea_raiseDecode _ _ r))
    fun hc => (s.insideArea_start _ w).trans (hgo hc)

/-- The structural decoding commands: their checks leave a format at which both rectangles are one. -/
theorem structural_insideArea {s t : State} (kind : DecKind) (w : Word) (more : State → List (Option Raise))
    (stops : State → List (Option Stop)) (start : State → Dec) (hf : s.status.fault = false)
    (h : command w (fun u => launch u (checkRect u :: checkFormatA u :: more u) (stops u)
      (fun u r => u.raiseDecode u.areaA r) fun u => u.runDecoder (start u)) s = .next t)
    (ht : ∀ u : State, u.target kind = u.areaA)
    (hstart : ∀ u : State, u.rectOk → checkFormatA u = none → (start u).StartsAt u kind) : s.InsideArea s.areaA t := by
  refine command_insideArea w _ _ s.areaA _ _ hf h rfl fun hc => ?_
  have hrect : (s.start w).rectOk := (checkRect_eq_none _).1 (hc _ (by simp))
  have hfmt : checkFormatA (s.start w) = none := hc _ (by simp)
  have ha : (s.start w).areaRaw = s.areaA := (s.start w).areaRaw_eq_areaA ((checkFormatA_eq_none _).1 hfmt)
  exact ha ▸ (s.start w).insideArea_runDecoder kind _ (hstart _ hrect hfmt) ((ht _).trans ha.symm)

/-- The commands on raw rows: they begin where no pixel is decided without a format for it. -/
theorem raw_insideArea {s t : State} (kind : DecKind) (w : Word) (more : State → List (Option Raise))
    (stops : State → List (Option Stop)) (hf : s.status.fault = false)
    (h : command w (fun u => launch u (checkRect u :: more u) (stops u)
      (fun u r => u.raiseDecode u.areaRaw r) fun u => u.runDecoder (u.begin kind)) s = .next t)
    (ht : ∀ u : State, u.target kind = u.areaRaw) (hraw : ∀ u : State, (u.begin kind).RawOnly) :
    s.InsideArea s.areaRaw t := by
  refine command_insideArea w _ _ s.areaRaw _ _ hf h rfl fun hc => ?_
  have hrect : (s.start w).rectOk := (checkRect_eq_none _).1 (hc _ (by simp))
  exact (s.start w).insideArea_runDecoder kind _ (State.begin_startsAt _ kind hrect (.inr (hraw _))) (ht _)

/-- Settles O40: a decoding decides pixels of the rectangle only (`State.insideArea_runDecoder`), and its faults forget
the rectangle only (`State.insideArea_raiseDecode`). -/
theorem decodersStayInside : Obligations.DecodersStayInside := by
  intro s t i area hmem hf h
  have hin : s.InsideArea area t := by
    simp only [List.mem_cons, Prod.mk.injEq, List.not_mem_nil, or_false] at hmem
    rcases hmem with ⟨rfl, rfl⟩ | ⟨rfl, rfl⟩ | ⟨rfl, rfl⟩ | ⟨rfl, rfl⟩ | ⟨rfl, rfl⟩ | ⟨rfl, rfl⟩
    · change execTileDec s = .next t at h
      exact structural_insideArea .tile _ _ _ _ hf h (fun _ => rfl) fun u hr hu => u.begin_startsAt _ hr (.inl hu)
    · change execTrleDec s = .next t at h
      exact structural_insideArea .trle _ _ _ _ hf h (fun _ => rfl) fun u hr hu => u.begin_startsAt _ hr (.inl hu)
    · change execQtDec s = .next t at h
      exact structural_insideArea .qt _ _ _ _ hf h (fun _ => rfl) fun u hr hu => u.begin_startsAt _ hr (.inl hu)
    · change execDiffDec s = .next t at h
      exact structural_insideArea .diff _ _ _ _ hf h (fun _ => rfl) fun u hr hu => u.begin_startDiff_startsAt hr hu
    · change execRawUnpack s = .next t at h
      exact raw_insideArea .raw _ _ _ hf h (fun _ => rfl) fun _ => ⟨rfl, trivial⟩
    · change execSelDec s = .next t at h
      exact raw_insideArea .sel _ _ _ hf h (fun _ => rfl) fun _ => ⟨rfl, trivial⟩
  obtain ⟨hpix, hstr, hframe⟩ := hin
  simp only [State.decodeFrame, Prod.mk.injEq] at hframe
  obtain ⟨hregs, hpal, hovf, hw0, hr0, hbsw, hbsr, hhost⟩ := hframe
  exact ⟨hpix, hstr, Regs.eq_of_offDecode hregs, hpal, hovf, hw0, hr0, hbsw, hbsr, hhost⟩

end Sys2Proof.Machine
end

section
/-! SUPPORT. The footprint of an encoding command (20_memory R51, R52, 60_exceptions R264): the output buffer in STR, and
the fields it assigns. -/

namespace Sys2Proof.Machine

/-! ### The footprint -/

/-- The registers with those an encoding command assigns set to 0. -/
def Regs.offEncode (r : Regs) : Regs :=
  { r with cmd := 0, fault := 0, faultInfo := 0, outLen := 0, res0 := 0, res1 := 0 }

theorem Regs.eq_of_offEncode {r q : Regs} (h : q.offEncode = r.offEncode) :
    q = { r with
      cmd := q.cmd, fault := q.fault, faultInfo := q.faultInfo, outLen := q.outLen, res0 := q.res0
      res1 := q.res1 } :=
  calc q = { q.offEncode with
        cmd := q.cmd, fault := q.fault, faultInfo := q.faultInfo, outLen := q.outLen, res0 := q.res0
        res1 := q.res1 } := rfl
    _ = _ := by rw [h]; rfl

/-- The fields no encoding command changes, the memories apart. -/
def State.encodeFrame (s : State) : Regs × Writer × Reader × List HostAction × Option Dec × Bool × Bool :=
  (s.regs.offEncode, s.w0, s.r0, s.host, s.dec, s.status.bswOpen, s.status.bsrOpen)

/-- The state `t` differs from `s` by what an encoding command can change. -/
structure State.InsideOutput (s t : State) : Prop where
  pix : SameBytes .pix (fun _ => True) s t
  str : SameBytes .str (fun a => ¬ s.inOutput a) s t
  frame : t.encodeFrame = s.encodeFrame

/-- The output buffer is one of the operands that stay. -/
theorem State.inOutput_of_encodeFrame {s t : State} (h : t.encodeFrame = s.encodeFrame) (a : Nat) :
    t.inOutput a ↔ s.inOutput a := by
  have hregs : t.regs.offEncode = s.regs.offEncode := congrArg (·.1) h
  have hbase : t.regs.outBase = s.regs.outBase := congrArg (·.outBase) hregs
  have hcap : t.regs.outCap = s.regs.outCap := congrArg (·.outCap) hregs
  rw [State.inOutput, State.inOutput, hbase, hcap]

theorem State.InsideOutput.trans {s t u : State} (h : s.InsideOutput t) (h' : t.InsideOutput u) :
    s.InsideOutput u :=
  ⟨fun a ha => (h'.pix a ha).trans (h.pix a ha),
    fun a ha => (h'.str a fun ht => ha ((State.inOutput_of_encodeFrame h.frame a).1 ht)).trans (h.str a ha),
    h'.frame.trans h.frame⟩

/-- An update of fields the footprint names, with both memories as they are. -/
theorem State.InsideOutput.update {s t : State} (h : s.InsideOutput t) {u : State} (hp : u.pix = t.pix := by rfl)
    (hs : u.str = t.str := by rfl) (hl : u.lost = t.lost := by rfl)
    (hf : u.encodeFrame = t.encodeFrame := by rfl) : s.InsideOutput u :=
  h.trans ⟨fun a _ => State.byte_eq _ _ hp hs hl .pix a, fun a _ => State.byte_eq _ _ hp hs hl .str a, hf⟩

theorem State.insideOutput_refl (s : State) : s.InsideOutput s := ⟨fun _ _ => rfl, fun _ _ => rfl, rfl⟩

theorem State.insideOutput_start (s : State) (w : Word) : s.InsideOutput (s.start w) :=
  s.insideOutput_refl.update

theorem State.InsideOutput.raiseEncode {s u : State} (h : s.InsideOutput u) (r : Raise) :
    s.InsideOutput (u.raiseEncode r) :=
  h.trans ⟨fun a _ => u.raiseEncode_pix_byte r a, fun a ha => u.raiseEncode_str_outside r a ha, rfl⟩

theorem State.InsideOutput.storeOut {s u : State} (h : s.InsideOutput u) (bytes : List Byte)
    (hfit : bytes.length ≤ u.regs.outCap.toNat) : s.InsideOutput (u.storeOut bytes) :=
  h.trans ⟨fun a _ => u.storeOut_pix_byte bytes a, fun a ha => u.storeOut_str_outside bytes a hfit ha, rfl⟩

/-- The end of an encoding command (45_selector R236): the bytes fit, or the command ends in a fault. -/
theorem State.InsideOutput.writeOut {s u : State} (h : s.InsideOutput u) (bytes : List Byte) (after : State → State)
    (hafter : ∀ v, s.InsideOutput v → s.InsideOutput (after v).complete) :
    s.InsideOutput (u.writeOut bytes after) := by
  rcases u.writeOut_cases bytes after with ⟨hfit, hw⟩ | ⟨_, hw⟩ <;> rw [hw]
  · exact hafter _ (h.storeOut bytes hfit)
  · exact h.raiseEncode _

/-! ### The commands -/

/-- An encoding command stays inside the output buffer if its operation does: so does a fault of its launch. -/
theorem command_insideOutput {s t : State} (w : Word) (checks : State → List (Option Raise))
    (stops : State → List (Option Stop)) (go : State → State) (hf : s.status.fault = false)
    (h : command w (fun u => launch u (checks u) (stops u) State.raiseEncode go) s = .next t)
    (hgo : ∀ u, s.InsideOutput u → s.InsideOutput (go u)) : s.InsideOutput t :=
  command_launch_induct w checks stops _ go hf h (fun r => (s.insideOutput_start w).raiseEncode r)
    fun _ => hgo _ (s.insideOutput_start w)

theorem execTileEnc_insideOutput {s t : State} (hf : s.status.fault = false) (h : execTileEnc s = .next t) :
    s.InsideOutput t :=
  command_insideOutput _ _ _ _ hf h fun u hu =>
    State.InsideOutput.writeOut (u := u.dropPalette) hu.update _ _ fun _ hv => hv.update

theorem execTrleEnc_insideOutput {s t : State} (hf : s.status.fault = false) (h : execTrleEnc s = .next t) :
    s.InsideOutput t :=
  command_insideOutput _ _ _ _ hf h fun u hu =>
    State.InsideOutput.writeOut (u := u.dropPalette.setSession _) hu.update _ _ fun _ hv => hv.update

theorem execQtEnc_insideOutput {s t : State} (hf : s.status.fault = false) (h : execQtEnc s = .next t) :
    s.InsideOutput t := by
  refine command_insideOutput _ _ _ _ hf h fun u hu => ?_
  have hdrop : s.InsideOutput u.dropPalette := hu.update
  dsimp only
  split
  · exact hdrop.raiseEncode _
  · exact hdrop.update
  · exact State.InsideOutput.writeOut hdrop.update _ _ fun _ hv => hv.update

theorem execDiffEnc_insideOutput {s t : State} (hf : s.status.fault = false) (h : execDiffEnc s = .next t) :
    s.InsideOutput t :=
  command_insideOutput _ _ _ _ hf h fun _ hu => hu.writeOut _ _ fun _ hv => hv.update

theorem execRawPack_insideOutput {s t : State} (hf : s.status.fault = false) (h : execRawPack s = .next t) :
    s.InsideOutput t :=
  command_insideOutput _ _ _ _ hf h fun _ hu => hu.writeOut _ _ fun _ hv => hv.update

theorem execSelEnc_insideOutput {s t : State} (hf : s.status.fault = false) (h : execSelEnc s = .next t) :
    s.InsideOutput t := by
  refine command_insideOutput _ _ _ _ hf h fun u hu => ?_
  have hsess (l : List Color) : s.InsideOutput (u.dropPalette.setSession l) := hu.update
  split
  · exact (hsess []).raiseEncode _
  · rename_i st _
    dsimp only
    split
    · exact (hsess st.sess).raiseEncode _
    · exact (hsess st.sess).writeOut _ _ fun _ hv => hv.update

/-! ### The palette array and the session -/

theorem State.writeOut_induct {P : State → Prop} (s : State) (bytes : List Byte) (after : State → State)
    (hfits : P (after (s.storeOut bytes)).complete) (hfull : ∀ r, P (s.raiseEncode r)) :
    P (s.writeOut bytes after) := by
  rcases s.writeOut_cases bytes after with ⟨_, hw⟩ | ⟨_, hw⟩ <;> rw [hw]
  · exact hfits
  · exact hfull _

/-- The palette array and its overflow flag stay (10_state R30). -/
def State.KeepsPalette (s t : State) : Prop := t.pal = s.pal ∧ t.status.palOvf = s.status.palOvf

/-- The tile session and its flag stay (10_state R31). -/
def State.KeepsSession (s t : State) : Prop := t.sess = s.sess ∧ t.status.sessValid = s.status.sessValid

/-- Neither is touched by the encoders that use no palette (44_diff R210, 45_selector R233). -/
def State.KeepsCodes (s t : State) : Prop := s.KeepsPalette t ∧ s.KeepsSession t

theorem execDiffEnc_keepsCodes {s t : State} (hf : s.status.fault = false) (h : execDiffEnc s = .next t) :
    s.KeepsCodes t :=
  command_launch_induct (P := s.KeepsCodes) _ _ _ _ _ hf h (fun _ => ⟨⟨rfl, rfl⟩, rfl, rfl⟩) fun _ =>
    State.writeOut_induct (P := s.KeepsCodes) _ _ _ ⟨⟨rfl, rfl⟩, rfl, rfl⟩ fun _ => ⟨⟨rfl, rfl⟩, rfl, rfl⟩

theorem execRawPack_keepsCodes {s t : State} (hf : s.status.fault = false) (h : execRawPack s = .next t) :
    s.KeepsCodes t :=
  command_launch_induct (P := s.KeepsCodes) _ _ _ _ _ hf h (fun _ => ⟨⟨rfl, rfl⟩, rfl, rfl⟩) fun _ =>
    State.writeOut_induct (P := s.KeepsCodes) _ _ _ ⟨⟨rfl, rfl⟩, rfl, rfl⟩ fun _ => ⟨⟨rfl, rfl⟩, rfl, rfl⟩

/-- The palette array is dropped, the session is not (43_quadtree R190). -/
theorem execQtEnc_keepsSession {s t : State} (hf : s.status.fault = false) (h : execQtEnc s = .next t) :
    s.KeepsSession t := by
  refine command_launch_induct (P := s.KeepsSession) _ _ _ _ _ hf h (fun _ => ⟨rfl, rfl⟩) fun _ => ?_
  dsimp only
  split
  · exact ⟨rfl, rfl⟩
  · exact ⟨rfl, rfl⟩
  · refine State.writeOut_induct (P := s.KeepsSession) _ _ _ ?_ fun _ => ⟨rfl, rfl⟩
    simp [State.KeepsSession, Status.complete, Status.setPalOvf]

/-- Settles O41: what an encoding command writes or forgets lies in the output buffer
(`State.InsideOutput.writeOut`, `State.InsideOutput.raiseEncode`). -/
theorem encodersStayInside : Obligations.EncodersStayInside := by
  intro s t i hmem hf h
  have hin : s.InsideOutput t := by
    simp only [List.mem_cons, List.not_mem_nil, or_false] at hmem
    rcases hmem with rfl | rfl | rfl | rfl | rfl | rfl
    · exact execTileEnc_insideOutput hf h
    · exact execTrleEnc_insideOutput hf h
    · exact execQtEnc_insideOutput hf h
    · exact execDiffEnc_insideOutput hf h
    · exact execRawPack_insideOutput hf h
    · exact execSelEnc_insideOutput hf h
  have hcodes : i = .diffEnc ∨ i = .rawPack → s.KeepsCodes t := by
    rintro (rfl | rfl)
    · exact execDiffEnc_keepsCodes hf h
    · exact execRawPack_keepsCodes hf h
  have hsess : i = .qtEnc → s.KeepsSession t := by
    rintro rfl
    exact execQtEnc_keepsSession hf h
  obtain ⟨hpix, hstr, hframe⟩ := hin
  simp only [State.encodeFrame, Prod.mk.injEq] at hframe
  obtain ⟨hregs, hw0, hr0, hhost, hdec, hbsw, hbsr⟩ := hframe
  refine ⟨hpix, hstr, Regs.eq_of_offEncode hregs, ⟨hw0, hr0, hhost, hdec⟩, hbsw, hbsr, fun hi => ?_, hsess⟩
  obtain ⟨⟨hpal, hovf⟩, hs, hvalid⟩ := hcodes hi
  exact ⟨hpal, hs, hovf, hvalid⟩

end Sys2Proof.Machine
end

section
/-! SUPPORT. The encoder and the decoder are inverse (O1, O2, O3): the command table, the words with a flag or a field
in their high bits, the tile header bytes, the quadtree container. -/

namespace Sys2Proof.Machine

/-! ### Commands (30_encoding R70 to R72) -/

theorem isCommand_iff (i : Instr) : i.isCommand = true ↔ ∃ n, (n, i) ∈ commandTable := by
  simp [Instr.isCommand]

/-- The table lists 32-bit codes, each of them once, and the encoder's own. -/
theorem commandTable_entry (n : Nat) (i : Instr) (h : (n, i) ∈ commandTable) :
    n < 2 ^ 32 ∧ encode i = .word 32 n ∧ commandTable.lookup n = some i := by
  have hall : ∀ p ∈ commandTable, p.1 < 2 ^ 32 ∧ encode p.2 = .word 32 p.1 ∧ commandTable.lookup p.1 = some p.2 := by
    decide
  exact hall _ h

theorem mem_commandTable_of_lookup (n : Nat) (i : Instr) (h : commandTable.lookup n = some i) :
    (n, i) ∈ commandTable := by
  obtain ⟨l₁, l₂, hl, -⟩ := List.lookup_eq_some_iff.1 h
  simp [hl]

theorem decode_encode_command (i : Instr) (h : i.isCommand = true) : decode .cmd (encode i) = .ok i := by
  obtain ⟨n, hn⟩ := (isCommand_iff i).1 h
  obtain ⟨hlt, henc, hlook⟩ := commandTable_entry n i hn
  have hw : (BitVec.ofNat 32 n).toNat = n := Nat.mod_eq_of_lt hlt
  simp only [henc, decode, hlt, and_self, if_true, decodeCommand, hw, hlook]

/-- A word outside the table is the code of no command (30_encoding R72). -/
theorem encode_command_ne (n : Nat) (h : commandTable.lookup n = none) (i : Instr) (hi : i.isCommand = true) :
    encode i ≠ .word 32 n := by
  intro he
  obtain ⟨m, hm⟩ := (isCommand_iff i).1 hi
  obtain ⟨-, henc, hlook⟩ := commandTable_entry m i hm
  have hmn : m = n := by simpa [henc] using he
  rw [hmn, h] at hlook
  cases hlook

/-! ### Numbers of a fixed width -/

theorem ofWidth_self (n v : Nat) (i : Instr) (h : v < 2 ^ n) : ofWidth n n v i = .ok i := if_pos ⟨rfl, h⟩

theorem decode_ctrl (w : Word) : decode .ctrl (.word 32 w.toNat) = decodeCtrl w := by
  simp [decode, w.isLt]

/-- The reset word: the ignored bits above a set bit 0 (10_state R28). -/
theorem encode_reset (ign : BitVec 31) : encode (.reset ign) = .word 32 (ign.concat true).toNat := by
  rw [encode, BitVec.toNat_concat, Bool.toNat_true, Nat.mul_comm]

theorem decodeCtrl_concat (ign : BitVec 31) : decodeCtrl (ign.concat true) = .ok (.reset ign) := by
  have hign : (ign.concat true).extractLsb' 1 31 = ign := by
    ext k hk
    simp [Nat.add_comm 1 k, hk]
  simp [decodeCtrl, hign]

theorem decode_encode_reset (ign : BitVec 31) : decode .ctrl (encode (.reset ign)) = .ok (.reset ign) := by
  rw [encode_reset]
  exact (decode_ctrl _).trans (decodeCtrl_concat ign)

/-- The diff word: the gap above the colour (30_encoding R88). -/
theorem encode_diffW (g : Byte) (c : Color) : encode (.diffW g c) = .word 32 (g ++ c).toNat := by
  rw [encode, BitVec.toNat_append, ← Nat.shiftLeft_add_eq_or_of_lt c.isLt, Nat.shiftLeft_eq]

theorem decodeDiffW_append (g : Byte) (c : Color) : decodeDiffW (g ++ c) = .diffW g c :=
  congrArg₂ Instr.diffW BitVec.extractLsb'_append_eq_left BitVec.extractLsb'_append_eq_right

theorem decode_encode_diffW (g : Byte) (c : Color) : decode .diff (encode (.diffW g c)) = .ok (.diffW g c) := by
  rw [encode_diffW]
  exact (decode_diff _).trans (congrArg Except.ok (decodeDiffW_append g c))

/-- A byte of a run flag and seven more bits (30_encoding R90). -/
theorem toNat_cons_true (k : BitVec 7) : (BitVec.cons true k).toNat = Config.rleFlag + k.toNat := by
  rw [BitVec.toNat_cons']
  rfl

theorem toNat_cons_false (k : BitVec 7) : (BitVec.cons false k).toNat = k.toNat := by
  simp

theorem decodeRunToken_cons (b : Bool) (k : BitVec 7) :
    decodeRunToken (BitVec.cons b k) = if b then .runN k else .run1 k := by
  have hflag : hasRleFlag (BitVec.cons b k) = b := by
    rw [hasRleFlag_eq]
    exact BitVec.msb_cons
  rw [decodeRunToken, hflag, BitVec.setWidth_cons]

theorem decode_encode_run1 (k : BitVec 7) : decode .runToken (encode (.run1 k)) = .ok (.run1 k) := by
  rw [encode, ← toNat_cons_false k, decode_runToken, decodeRunToken_cons]
  rfl

theorem decode_encode_runN (k : BitVec 7) : decode .runToken (encode (.runN k)) = .ok (.runN k) := by
  rw [encode, ← toNat_cons_true k, decode_runToken, decodeRunToken_cons]
  rfl

/-- The final byte of a run length is not the continuation byte (30_encoding R82). -/
theorem decode_encode_runLenFinal (f : Byte) (h : (Instr.runLenFinal f).wf = true) :
    decode .runLen (encode (.runLenFinal f)) = .ok (.runLenFinal f) := by
  have hf : f.toNat ≠ Config.rleCont := bne_iff_ne.1 h
  rw [encode, decode_runLen, decodeRunLen, if_neg hf]

theorem decode_encode_packedIndex (w : Nat) (k : BitVec 4) (h : (Instr.packedIndex w k).wf = true) :
    decode (.packed w) (encode (.packedIndex w k)) = .ok (.packedIndex w k) := by
  simp only [Instr.wf, Bool.and_eq_true, decide_eq_true_eq] at h
  obtain ⟨hw, hk⟩ := h
  rw [encode, decode, if_pos hw, ofWidth_self _ _ _ hk, BitVec.ofNat_toNat, BitVec.setWidth_eq]

theorem decode_encode_qtColor (b : Nat) (v : Word) (h : (Instr.qtColor b v).wf = true) :
    decode (.qtColor b) (encode (.qtColor b v)) = .ok (.qtColor b v) := by
  simp only [Instr.wf, Bool.and_eq_true, decide_eq_true_eq] at h
  obtain ⟨hb, hv⟩ := h
  rw [encode, decode, if_pos hb, ofWidth_self _ _ _ hv, BitVec.ofNat_toNat, BitVec.setWidth_eq]

/-! ### Tile header bytes (30_encoding R78) -/

theorem tilePackedMax_eq : Config.tilePackedMax = 16 := rfl

theorem wf_tilePacked_iff (n : BitVec 7) :
    (Instr.tilePacked n).wf = true ↔ 2 ≤ n.toNat ∧ n.toNat ≤ Config.tilePackedMax := by
  simp [Instr.wf]

theorem wf_tilePalRleLow_iff (n : BitVec 7) :
    (Instr.tilePalRleLow n).wf = true ↔ Config.tilePackedMax < n.toNat ∧ n.toNat < 127 := by
  simp [Instr.wf]

theorem wf_tilePalRle_iff (n : BitVec 7) : (Instr.tilePalRle n).wf = true ↔ 2 ≤ n.toNat := by
  simp [Instr.wf]

/-- A header that is none of 0, 1, 127, 128, 129 holds a count in its low bits. -/
theorem decodeTileHdr_counted (h : Byte) (h2 : 2 ≤ h.toNat) (hne : h.toNat < 127 ∨ 130 ≤ h.toNat) :
    decodeTileHdr h = if h.toNat ≤ Config.tilePackedMax then .tilePacked (h.setWidth 7)
      else if h.toNat < 127 then .tilePalRleLow (h.setWidth 7) else .tilePalRle (h.setWidth 7) := by
  have hzero : (0 : Byte).toNat = 0 := rfl
  have hsolid : (1 : Byte).toNat = 1 := rfl
  have hplain : Config.tileHdrPlainRle.toNat = 128 := rfl
  have hpacked : Config.tileHdrReusePacked.toNat = 127 := rfl
  have hrle : Config.tileHdrReuseRle.toNat = 129 := rfl
  rw [decodeTileHdr, if_neg (BitVec.toNat_ne.2 ?_), if_neg (BitVec.toNat_ne.2 ?_), if_neg (BitVec.toNat_ne.2 ?_),
    if_neg (BitVec.toNat_ne.2 ?_), if_neg (BitVec.toNat_ne.2 ?_), hpacked]
  all_goals omega

theorem decode_encode_tilePacked (n : BitVec 7) (h : (Instr.tilePacked n).wf = true) :
    decode .tileHdr (encode (.tilePacked n)) = .ok (.tilePacked n) := by
  obtain ⟨hlow, hhigh⟩ := (wf_tilePacked_iff n).1 h
  have hmax := tilePackedMax_eq
  have hn := toNat_cons_false n
  rw [encode, ← hn, decode_tileHdr, decodeTileHdr_counted _ (by omega) (by omega), hn, if_pos hhigh,
    BitVec.setWidth_cons]

theorem decode_encode_tilePalRleLow (n : BitVec 7) (h : (Instr.tilePalRleLow n).wf = true) :
    decode .tileHdr (encode (.tilePalRleLow n)) = .ok (.tilePalRleLow n) := by
  obtain ⟨hlow, hhigh⟩ := (wf_tilePalRleLow_iff n).1 h
  have hmax := tilePackedMax_eq
  have hn := toNat_cons_false n
  rw [encode, ← hn, decode_tileHdr, decodeTileHdr_counted _ (by omega) (by omega), hn, if_neg (by omega),
    if_pos hhigh, BitVec.setWidth_cons]

theorem decode_encode_tilePalRle (n : BitVec 7) (h : (Instr.tilePalRle n).wf = true) :
    decode .tileHdr (encode (.tilePalRle n)) = .ok (.tilePalRle n) := by
  have hlow := (wf_tilePalRle_iff n).1 h
  have hmax := tilePackedMax_eq
  have hn : (BitVec.cons true n).toNat = 128 + n.toNat := toNat_cons_true n
  rw [encode, ← toNat_cons_true n, decode_tileHdr, decodeTileHdr_counted _ (by omega) (by omega), if_neg (by omega),
    if_neg (by omega), BitVec.setWidth_cons]

/-- Every header byte is the code of what it decodes to. -/
theorem decodeTileHdr_exact (h : Byte) :
    (decodeTileHdr h).wf = true ∧ (decodeTileHdr h).channel = .tileHdr ∧
      encode (decodeTileHdr h) = .word 8 h.toNat := by
  have hmax := tilePackedMax_eq
  have hreuse : Config.tileHdrReusePacked.toNat = 127 := rfl
  have hn : (h.setWidth 7).toNat = h.toNat % 128 := BitVec.toNat_setWidth 7 h
  have hlt := h.isLt
  unfold decodeTileHdr
  split_ifs with h0 h128 h127 h129 h1 hpacked hlow
  · subst h0; exact ⟨rfl, rfl, rfl⟩
  · subst h128; exact ⟨rfl, rfl, rfl⟩
  · subst h127; exact ⟨rfl, rfl, rfl⟩
  · subst h129; exact ⟨rfl, rfl, rfl⟩
  · subst h1; exact ⟨rfl, rfl, rfl⟩
  all_goals
    have ne_zero : h.toNat ≠ 0 := BitVec.toNat_ne.1 h0
    have ne_solid : h.toNat ≠ 1 := BitVec.toNat_ne.1 h1
    have ne_plain : h.toNat ≠ 128 := BitVec.toNat_ne.1 h128
    have ne_reuse : h.toNat ≠ 127 := BitVec.toNat_ne.1 h127
    have ne_rle : h.toNat ≠ 129 := BitVec.toNat_ne.1 h129
  · have hcount : (h.setWidth 7).toNat = h.toNat := by omega
    exact ⟨(wf_tilePacked_iff _).2 (by omega), rfl, congrArg (Code.word 8) hcount⟩
  · have hcount : (h.setWidth 7).toNat = h.toNat := by omega
    exact ⟨(wf_tilePalRleLow_iff _).2 (by omega), rfl, congrArg (Code.word 8) hcount⟩
  · have hcount : 128 + (h.setWidth 7).toNat = h.toNat := by omega
    exact ⟨(wf_tilePalRle_iff _).2 (by omega), rfl, congrArg (Code.word 8) hcount⟩

/-! ### The wire header (30_encoding R74) and the quadtree container (43_quadtree R182, R186) -/

theorem wireHdrBytes_length (e c : BitVec 16) (cl sl : Word) : (wireHdrBytes e c cl sl).length = wireHdrLen e := by
  unfold wireHdrBytes wireHdrLen
  split <;> simp

theorem decode_encode_wireHdr (e c : BitVec 16) (cl sl : Word) (h : (Instr.wireHdr e c cl sl).wf = true) :
    decode .wire (encode (.wireHdr e c cl sl)) = .ok (.wireHdr e c cl sl) := by
  have hparse := parseWire_append e c cl sl [] h
  rw [List.append_nil] at hparse
  simp only [encode, decode, hparse, wireHdrBytes_length, if_true]

theorem length_flatMap_be32 (p : List Word) : (p.flatMap be32).length = 4 * p.length := by
  simp [List.length_flatMap, Nat.mul_comm]

theorem parseQt_qtBlobBytes (p : List Word) (lc : Word) (cs ss : List Byte) (h : (Instr.qtBlob p lc cs ss).wf = true) :
    parseQt (qtBlobBytes p lc cs ss) = .ok (.qtBlob p lc cs ss) := by
  simp only [Instr.wf, Bool.and_eq_true, decide_eq_true_eq] at h
  obtain ⟨hp, hcs⟩ := h
  have hlen : (BitVec.ofNat 32 p.length).toNat = p.length := Nat.mod_eq_of_lt hp
  have hpal := length_flatMap_be32 p
  have hbytes : qtBlobBytes p lc cs ss =
      be32 (BitVec.ofNat 32 p.length) ++ p.flatMap be32 ++ be32 lc ++ cs ++ ss := by
    simp only [qtBlobBytes, funext payload32_eq]
  have hcount := takeAt_append (qtBlobBytes p lc cs ss) [] (be32 (BitVec.ofNat 32 p.length))
    (p.flatMap be32 ++ be32 lc ++ cs ++ ss) 0 4 (by simp [hbytes]) rfl rfl
  have hpalette := takeAt_append (qtBlobBytes p lc cs ss) (be32 (BitVec.ofNat 32 p.length)) (p.flatMap be32)
    (be32 lc ++ cs ++ ss) 4 (4 * p.length) (by simp [hbytes]) rfl hpal
  have hleaves := takeAt_append (qtBlobBytes p lc cs ss) (be32 (BitVec.ofNat 32 p.length) ++ p.flatMap be32) (be32 lc)
    (cs ++ ss) (4 + 4 * p.length) 4 (by simp [hbytes]) (by simp [hpal]) rfl
  have hcolours := takeAt_append (qtBlobBytes p lc cs ss)
    (be32 (BitVec.ofNat 32 p.length) ++ p.flatMap be32 ++ be32 lc) cs ss (8 + 4 * p.length) cs.length hbytes
    (by simp only [List.length_append, be32_length, hpal]; omega) rfl
  have hsplits : (qtBlobBytes p lc cs ss).drop (8 + 4 * p.length + cs.length) = ss := by
    rw [hbytes]
    exact List.drop_left' (by simp only [List.length_append, be32_length, hpal]; omega)
  simp only [parseQt, hcount, Bind.bind, Except.bind, fromPayload32_eq, fromBe32_be32, hlen, hpalette, hleaves, ← hcs,
    hcolours, hsplits, fields32_be32]

/-! ### All instructions -/

/-- Settles O1: the commands by their table, the tokens of a fixed width by the fields of their words, the wire header
and the quadtree container by the parts their bytes have. -/
theorem decodeEncode : Obligations.DecodeEncode := by
  intro i h
  cases i with
  | reset ign => exact decode_encode_reset ign
  | wireHdr e c cl sl => exact decode_encode_wireHdr e c cl sl h
  | encNone | encDiff | encTrle | encQuadtree | comprNone | comprLz4 | comprZstd | comprZlib | comprBzip2 => rfl
  | rawPayload bs => exact if_pos rfl
  | tileRaw | tilePlainRle | tileReusePacked | tileReuseRle | tileSolid => rfl
  | tilePacked n => exact decode_encode_tilePacked n h
  | tilePalRleLow n => exact decode_encode_tilePalRleLow n h
  | tilePalRle n => exact decode_encode_tilePalRle n h
  | palEntry c => exact decode_palEntry c
  | rawPixel c => exact decode_rawPixel c
  | packedIndex w k => exact decode_encode_packedIndex w k h
  | run1 k => exact decode_encode_run1 k
  | runN k => exact decode_encode_runN k
  | runLenCont => rfl
  | runLenFinal f => exact decode_encode_runLenFinal f h
  | plainRun c => exact decode_plainRun c
  | qtBlob p lc cs ss => exact parseQt_qtBlobBytes p lc cs ss h
  | split0 | split1 => rfl
  | qtColor b v => exact decode_encode_qtColor b v h
  | diffW g c => exact decode_encode_diffW g c
  | _ => exact decode_encode_command _ rfl

/-! ### Words and bytes of one meaning (30_encoding R72, R78) -/

/-- A word is looked up as a whole: it is the one entry's code, or the code of no command. -/
theorem decodeCommand_exact (w : Word) :
    (∃ i : Instr, i.isCommand = true ∧ encode i = .word 32 w.toNat ∧ decodeCommand w = .ok i) ∨
      ((∀ i : Instr, i.isCommand = true → encode i ≠ .word 32 w.toNat) ∧
        decodeCommand w = .error (.illegalCommand w)) := by
  unfold decodeCommand
  cases hlook : commandTable.lookup w.toNat with
  | none => exact .inr ⟨encode_command_ne _ hlook, rfl⟩
  | some i =>
    have hmem := mem_commandTable_of_lookup _ _ hlook
    obtain ⟨-, henc, -⟩ := commandTable_entry _ _ hmem
    exact .inl ⟨i, (isCommand_iff i).2 ⟨_, hmem⟩, henc, rfl⟩

/-- Settles O2, from the command table and the eight ranges of a header byte. -/
theorem codesExact : Obligations.CodesExact := ⟨decodeCommand_exact, decodeTileHdr_exact⟩

/-- Settles O3: each word is the encoder's own (`decodeEncode`). -/
theorem decodedWords : Obligations.DecodedWords :=
  ⟨decodeEncode .bswPut rfl, decodeEncode .diffDec rfl, decodeEncode .selDec rfl, decodeEncode (.reset 0) rfl,
    decodeEncode (.tilePacked 5) rfl, decodeEncode .tileReusePacked rfl, decodeEncode (.tilePalRle 17) rfl,
    decodeEncode (.runN 3) rfl, decodeEncode (.diffW 0x36 0xABCDEF) rfl, decodeEncode .split1 rfl⟩

end Sys2Proof.Machine
end

section
/-! SUPPORT. Tokens are recognised by their place (O47): what the cursors fetch is in place, and without cursors every
token is refused (log 3). -/

namespace Sys2Proof.Machine

/-- Away from a split bit of level 0 the cursors accept the token they fetch (`Dec.fetch_spec`). -/
theorem Dec.apply_fetch (d e : Dec) (i : Instr) (hp : ∀ r c, d.pos ≠ .split 0 r c) (h : d.fetch = (some i, e)) :
    ∃ f, e.apply i = some f := by
  have hr : d.running = true := by
    cases hr : d.running with
    | true => rfl
    | false =>
      rw [d.fetch_stopped hr] at h
      cases h
  have hspec := d.fetch_spec hr
  rw [h] at hspec
  rcases hspec with ⟨f, hf, -⟩ | ⟨-, -, r, c, hsplit⟩
  · exact ⟨f, hf⟩
  · exact absurd hsplit (hp r c)

theorem onToken_none (f : Dec → Option Dec) (s : State) (h : s.dec = none) :
    onToken f s = .refused .tokenOutOfPlace := by
  simp only [onToken, h]

/-- Settles O47: with cursors open by `Dec.apply_fetch` and `exec_token`, without them by `onToken_none`. -/
theorem tokensInPlace : Obligations.TokensInPlace := by
  refine ⟨fun d e i hp hfetch => ?_, fun i s hcmd hctrl hdec => ?_⟩
  · obtain ⟨f, hf⟩ := d.apply_fetch e i hp hfetch
    exact ⟨f, hf, fun s hs => exec_token s e f i hs hf⟩
  · cases i
    case nop | bswInit | bswPut | bswFin | bsrInit | bsrGet | bsrFin | palBuild | palLookup | palGet | tileEnc
      | tileDec | trleEnc | trleDec | trleRst | qtEnc | qtDec | diffEnc | diffDec | rawPack | rawUnpack | selEnc
      | selDec =>
      exact absurd rfl hcmd
    case reset => exact absurd rfl hctrl
    all_goals exact onToken_none _ s hdec

end Sys2Proof.Machine
end

section
/-! SUPPORT. The bits of a stream (40_bitstream R101 to R107): where a packed bit stands, what a read of stream bits
returns, and the outcomes of a transfer. Put together they give the round trip of O20. -/

namespace Sys2Proof.Machine

/-! ### Where a bit of a stream stands (R101, R103) -/

/-- The bits of the byte that starts at stream bit `8 * k`. -/
theorem byteOfBits_drop_getLsbD (bits : List Bool) (k i : Nat) (hi : i < 8) :
    (byteOfBits (bits.drop (8 * k))).getLsbD (7 - i) = bits.getD (8 * k + i) false := by
  rw [byteOfBits_getLsbD _ _ hi, List.getD_eq_getElem?_getD, List.getElem?_drop, ← List.getD_eq_getElem?_getD]

theorem packBits_getLsbD (bits : List Bool) (k i : Nat) (hk : k < ceilDiv bits.length 8) (hi : i < 8) :
    ((packBits bits).getD k 0).getLsbD (7 - i) = bits.getD (8 * k + i) false := by
  rw [packBits_getD _ _ hk, byteOfBits_drop_getLsbD _ _ _ hi]

/-- The bytes a transfer completes are numbered from `k0` on. -/
theorem completedBytes_getLsbD (k0 : Nat) (bits : List Bool) (k i : Nat) (h0 : k0 ≤ k) (hk : k < bits.length / 8)
    (hi : i < 8) : ((completedBytes k0 bits).getD (k - k0) 0).getLsbD (7 - i) = bits.getD (8 * k + i) false := by
  have hbyte : (completedBytes k0 bits).getD (k - k0) 0 = byteOfBits (bits.drop (8 * k)) := by
    rw [completedBytes, List.getD_eq_getElem?_getD, List.getElem?_map, List.getElem?_range (by omega),
      Option.map_some, Option.getD_some, Nat.add_sub_cancel' h0]
  rw [hbyte, byteOfBits_drop_getLsbD _ _ _ hi]

/-- Every bit of a sequence lies in a byte of its completed stream. -/
theorem div_lt_ceilDiv (p n : Nat) (h : p < n) : p / 8 < ceilDiv n 8 := by
  unfold ceilDiv
  omega

/-- A completed stream holds the bits it was made of. -/
theorem streamBit_packBits (bits : List Bool) (p : Nat) (hp : p < bits.length) :
    streamBit (fun k => (packBits bits).getD k 0) p = bits.getD p false := by
  rw [streamBit, packBits_getLsbD _ _ _ (div_lt_ceilDiv _ _ hp) (Nat.mod_lt _ (by decide)), Nat.div_add_mod]

/-! ### What a read of stream bits returns (R107) -/

/-- The first bit read is the most significant one. -/
theorem streamBits_testBit (byteAt : Nat → Byte) (p n i : Nat) :
    (streamBits byteAt p n).testBit i = (decide (i < n) && streamBit byteAt (p + (n - 1 - i))) := by
  rw [streamBits, natOfBits_testBit, List.length_map, List.length_range]
  by_cases hi : i < n
  · rw [List.getD_eq_getElem?_getD, List.getElem?_map, List.getElem?_range (show n - 1 - i < n by omega)]
    rfl
  · simp [hi]

/-- Reading where a part of a sequence stands gives the number the part stands for. -/
theorem streamBits_packBits (pre part post : List Bool) :
    streamBits (fun k => (packBits (pre ++ part ++ post)).getD k 0) pre.length part.length = natOfBits part := by
  have hread : ((List.range part.length).map fun i =>
      streamBit (fun k => (packBits (pre ++ part ++ post)).getD k 0) (pre.length + i)) = part := by
    apply List.ext_getElem
    · simp
    · intro i _ hi
      rw [List.getElem_map, List.getElem_range, streamBit_packBits _ _ (by simp; omega)]
      rw [List.getD_eq_getElem?_getD, List.append_assoc, List.getElem?_append_right (by omega),
        Nat.add_sub_cancel_left, List.getElem?_append_left hi, List.getElem?_eq_getElem hi, Option.getD_some]
  rw [streamBits, hread]

/-- The writing order of a word's low bits. -/
theorem bitsOf_toNat (n : Nat) (v : Word) : bitsOf n v.toNat = (List.range n).map fun i => v.getLsbD (n - 1 - i) := rfl

/-! ### The outcomes of a transfer (R102, R107) -/

theorem bwPut_count (budget : Nat) (bits : List Bool) (value n : Nat) (h : 32 < n) :
    bwPut budget bits value n = .error ⟨.bsCount, n⟩ := if_pos h

theorem bwPut_overflow (budget : Nat) (bits : List Bool) (value n : Nat) (h : n ≤ 32)
    (hb : 8 * budget < bits.length + n) : bwPut budget bits value n = .error ⟨.bsOverflow, bits.length + n⟩ := by
  rw [bwPut, if_neg (show ¬ Config.maxBitCount < n from Nat.not_lt.2 h), if_pos hb]

theorem bwPut_fits (budget : Nat) (bits : List Bool) (value n : Nat) (h : n ≤ 32)
    (hb : bits.length + n ≤ 8 * budget) : bwPut budget bits value n = .ok (bits ++ bitsOf n value) := by
  rw [bwPut, if_neg (show ¬ Config.maxBitCount < n from Nat.not_lt.2 h), if_neg (Nat.not_lt.2 hb)]

theorem brGet_count (budget : Nat) (byteAt : Nat → Byte) (p n : Nat) (h : 32 < n) :
    brGet budget byteAt p n = .error ⟨.bsCount, n⟩ := if_pos h

theorem brGet_underflow (budget : Nat) (byteAt : Nat → Byte) (p n : Nat) (h : n ≤ 32) (hb : 8 * budget < p + n) :
    brGet budget byteAt p n = .error ⟨.bsUnderflow, p + n⟩ := by
  rw [brGet, if_neg (show ¬ Config.maxBitCount < n from Nat.not_lt.2 h), if_pos hb]

theorem brGet_fits (budget : Nat) (byteAt : Nat → Byte) (p n : Nat) (h : n ≤ 32) (hb : p + n ≤ 8 * budget) :
    brGet budget byteAt p n = .ok (streamBits byteAt p n) := by
  rw [brGet, if_neg (show ¬ Config.maxBitCount < n from Nat.not_lt.2 h), if_neg (Nat.not_lt.2 hb)]

/-- Settles O20: the bits stand in the completed stream (`streamBits_packBits`), which is long enough to hold them. -/
theorem bitStreamRoundTrip : Obligations.BitStreamRoundTrip := by
  intro pre post v n hn
  have hlen : (packBits (pre ++ bitsOf n v ++ post)).length = ceilDiv (pre.length + n + post.length) 8 := by
    rw [packBits_length, List.length_append, List.length_append, bitsOf_length]
  have hroom := le_ceilDiv_mul (pre.length + n + post.length)
  have hread := streamBits_packBits pre (bitsOf n v) post
  rw [bitsOf_length, natOfBits_bitsOf] at hread
  refine ⟨hlen, ?_⟩
  rw [brGet_fits _ _ _ _ hn (by omega), hread]

end Sys2Proof.Machine
end

section
/-! SUPPORT. The commands of the two bit-stream contexts (40_bitstream R110 to R115): the end of each by the outcome
of its transfer, and from that the exact next states of O14 to O19. -/

namespace Sys2Proof.Machine

/-! ### The bytes of STR after a write -/

theorem State.byte_writeStr_inside (s : State) (x k : Nat) (bs : List Byte) (h : k < bs.length) :
    (s.writeStr x bs).byte .str (x + k) = bs.getD k 0 := by
  rw [State.byte_writeStr, if_pos (by omega), Nat.add_sub_cancel_left]

theorem State.byte_writeStr_outside (s : State) (x a : Nat) (bs : List Byte) (h : ¬ (x ≤ a ∧ a < x + bs.length)) :
    (s.writeStr x bs).byte .str a = s.byte .str a := by
  rw [State.byte_writeStr, if_neg h]

/-- Byte `k` of the writer's segment after a transfer that completes it (40_bitstream R104). -/
theorem State.byte_putBits_inside (s : State) (bits : List Bool) (k : Nat) (h0 : s.w0.bits.length / 8 ≤ k)
    (hk : k < bits.length / 8) :
    (s.putBits bits).byte .str (s.w0.base.toNat + k) =
      (completedBytes (s.w0.bits.length / 8) bits).getD (k - s.w0.bits.length / 8) 0 := by
  have haddr : s.w0.base.toNat + k = s.w0.base.toNat + s.w0.bits.length / 8 + (k - s.w0.bits.length / 8) := by omega
  rw [haddr]
  exact s.byte_writeStr_inside _ _ _ (by rw [completedBytes_length]; omega)

theorem State.byte_putBits_outside (s : State) (bits : List Bool) (a : Nat)
    (h : ¬ (s.w0.base.toNat + s.w0.bits.length / 8 ≤ a ∧ a < s.w0.base.toNat + bits.length / 8)) :
    (s.putBits bits).byte .str a = s.byte .str a :=
  s.byte_writeStr_outside _ _ _ (by rw [completedBytes_length]; omega)

/-! ### The ends of a command with its fields written out (10_state R25, 60_exceptions R264) -/

/-- A command that raises changes `CMD`, the fault registers and three flags. -/
theorem State.start_raise (s : State) (w : Word) (r : Raise) :
    (s.start w).raise r = { s with
      regs := { s.regs with cmd := w, fault := BitVec.ofNat 32 r.code.number, faultInfo := sat32 r.info }
      status := { s.status with fault := true, done := false, notWorth := false } } := rfl

/-- A number of 32 bits is no more than `sat32` lets through. -/
theorem sat32_toNat (v : Word) : sat32 v.toNat = v := by
  rw [sat32, Nat.min_eq_left (Nat.le_sub_one_of_lt v.isLt), BitVec.ofNat_toNat, BitVec.setWidth_eq]

/-! ### The writer (R110 to R112) -/

section
variable {s : State} (hf : s.status.fault = false)
include hf

theorem exec_bswInit_full (hc : s.regs.outCap.toNat < s.regs.arg0.toNat) :
    exec .bswInit s = .next ((s.start 0x01).raise ⟨.outCap, s.regs.arg0.toNat⟩) := by
  show execBswInit s = _
  rw [execBswInit, command_ready _ _ _ hf, launch, State.start_regs, raiseIf, if_pos (decide_eq_true hc)]
  rfl

theorem exec_bswInit_fits (hc : s.regs.arg0.toNat ≤ s.regs.outCap.toNat) (ho : s.outputFits) :
    exec .bswInit s = .next { s with
      w0 := { base := s.regs.outBase, budget := s.regs.arg0, bits := [] }
      regs := { s.regs with cmd := 1 }
      status := { s.status with done := true, notWorth := false, bswOpen := true } } := by
  show execBswInit s = _
  rw [execBswInit, command_ready _ _ _ hf, launch_go]
  · rfl
  · rw [List.forall_mem_singleton, raiseIf_eq_none]
    exact decide_eq_false (Nat.not_lt.2 hc)
  · simpa [stopOutput_eq_none] using ho

theorem exec_bswPut_closed (ho : s.status.bswOpen = false) :
    exec .bswPut s = .next ((s.start 0x02).raise ⟨.bsState, 2⟩) := by
  show execBswPut s = _
  simp [execBswPut, command_ready _ _ _ hf, ho]

theorem exec_bswPut_error (ho : s.status.bswOpen = true) (r : Raise)
    (hr : bwPut s.w0.budget.toNat s.w0.bits s.regs.arg0.toNat s.regs.arg1.toNat = .error r) :
    exec .bswPut s = .next ((s.start 0x02).raise r) := by
  show execBswPut s = _
  simp [execBswPut, command_ready _ _ _ hf, ho, hr]

theorem exec_bswPut_ok (ho : s.status.bswOpen = true) (bits : List Bool)
    (hb : bwPut s.w0.budget.toNat s.w0.bits s.regs.arg0.toNat s.regs.arg1.toNat = .ok bits) :
    exec .bswPut s = .next ((s.start 0x02).putBits bits).complete := by
  show execBswPut s = _
  simp [execBswPut, command_ready _ _ _ hf, ho, hb]

theorem exec_bswFin_closed (ho : s.status.bswOpen = false) :
    exec .bswFin s = .next ((s.start 0x03).raise ⟨.bsState, 3⟩) := by
  show execBswFin s = _
  simp [execBswFin, command_ready _ _ _ hf, ho]

theorem exec_bswFin_open (ho : s.status.bswOpen = true) :
    exec .bswFin s = .next { s.writeStr s.w0.base.toNat (packBits s.w0.bits) with
      regs := { s.regs with cmd := 3, outLen := BitVec.ofNat 32 (ceilDiv s.w0.bits.length 8) }
      status := { s.status with done := true, notWorth := false, bswOpen := false } } := by
  show execBswFin s = _
  rw [execBswFin, command_ready _ _ _ hf, State.start_status, Status.start_bswOpen, ho, State.start_w0,
    packBits_length]
  rfl

/-! ### The reader (R113 to R115) -/

theorem exec_bsrInit_fits (hi : s.inputFits) :
    exec .bsrInit s = .next { s with
      r0 := { base := s.regs.inBase, budget := s.regs.inLen, bitpos := 0 }
      regs := { s.regs with cmd := 4 }
      status := { s.status with done := true, notWorth := false, bsrOpen := true } } := by
  show execBsrInit s = _
  rw [execBsrInit, command_ready _ _ _ hf, launch_go]
  · rfl
  · simp
  · simpa [stopInput_eq_none] using hi

theorem exec_bsrGet_closed (ho : s.status.bsrOpen = false) :
    exec .bsrGet s = .next ((s.start 0x05).raise ⟨.bsState, 5⟩) := by
  show execBsrGet s = _
  simp [execBsrGet, command_ready _ _ _ hf, ho]

theorem exec_bsrGet_error (ho : s.status.bsrOpen = true) (r : Raise)
    (hr : brGet s.r0.budget.toNat (fun i => s.byte .str (s.r0.base.toNat + i)) s.r0.bitpos s.regs.arg1.toNat
      = .error r) :
    exec .bsrGet s = .next ((s.start 0x05).raise r) := by
  show execBsrGet s = _
  simp [execBsrGet, command_ready _ _ _ hf, ho, hr]

theorem exec_bsrGet_ok (ho : s.status.bsrOpen = true) (v : Nat)
    (hv : brGet s.r0.budget.toNat (fun i => s.byte .str (s.r0.base.toNat + i)) s.r0.bitpos s.regs.arg1.toNat
      = .ok v) :
    exec .bsrGet s = .next { s.start 0x05 with
      r0 := { s.r0 with bitpos := s.r0.bitpos + s.regs.arg1.toNat }
      regs := { s.regs with cmd := 5, res0 := BitVec.ofNat 32 v } }.complete := by
  show execBsrGet s = _
  simp [execBsrGet, command_ready _ _ _ hf, ho, hv]

theorem exec_bsrFin_closed (ho : s.status.bsrOpen = false) :
    exec .bsrFin s = .next ((s.start 0x06).raise ⟨.bsState, 6⟩) := by
  show execBsrFin s = _
  simp [execBsrFin, command_ready _ _ _ hf, ho]

theorem exec_bsrFin_open (ho : s.status.bsrOpen = true) :
    exec .bsrFin s = .next { s with
      regs := { s.regs with cmd := 6, inUsed := BitVec.ofNat 32 (ceilDiv s.r0.bitpos 8) }
      status := { s.status with done := true, notWorth := false, bsrOpen := false } } := by
  show execBsrFin s = _
  rw [execBsrFin, command_ready _ _ _ hf, State.start_status, Status.start_bsrOpen, ho]
  rfl

end

/-! ### The obligations -/

/-- Settles O14: both budgets of BSW.INIT (`exec_bswInit_full`, `exec_bswInit_fits`) and BSR.INIT. -/
theorem bitContextInit : Obligations.BitContextInit := by
  intro s hf
  refine ⟨fun hc => ?_, exec_bswInit_fits hf, exec_bsrInit_fits hf⟩
  rw [exec_bswInit_full hf hc, State.start_raise, sat32_toNat]
  rfl

/-- Settles O18, by whether the reader is open. -/
theorem bsrFinResult : Obligations.BsrFinResult := by
  intro s hf
  cases ho : s.status.bsrOpen with
  | true => exact exec_bsrFin_open hf ho
  | false => exact exec_bsrFin_closed hf ho

/-- Settles O15: the bits by `bwPut_fits`, the bytes by `completedBytes_getLsbD`. -/
theorem bswPutResult : Obligations.BswPutResult := by
  intro s hf ho hn hb
  have hput := bwPut_fits _ _ s.regs.arg0.toNat _ hn hb
  rw [bitsOf_toNat] at hput
  refine ⟨_, exec_bswPut_ok hf ho _ hput, rfl, fun k i h0 hk hi => ?_, (s.start 0x02).byte_putBits_outside _⟩
  exact (congrArg (·.getLsbD (7 - i)) ((s.start 0x02).byte_putBits_inside _ k h0 hk)).trans
    (completedBytes_getLsbD _ _ k i h0 hk hi)

/-- Settles O16: the bytes are those of the completed stream (`packBits_getLsbD`). -/
theorem bswFinResult : Obligations.BswFinResult := by
  intro s hf
  refine ⟨fun ho => ⟨_, exec_bswFin_open hf ho, rfl, fun k i hk hi => ?_, fun a ha => ?_⟩, exec_bswFin_closed hf⟩
  · rw [← packBits_getLsbD _ _ _ hk hi]
    exact congrArg (·.getLsbD (7 - i)) (s.byte_writeStr_inside _ k _ (by rwa [packBits_length]))
  · exact s.byte_writeStr_outside _ a _ (by rwa [packBits_length])

/-- Settles O17: each bit of the answer is a stream bit (`streamBits_testBit`). -/
theorem bsrGetResult : Obligations.BsrGetResult := by
  intro s hf ho hn hb
  refine ⟨_, exec_bsrGet_ok hf ho _ (brGet_fits _ _ _ _ hn hb), fun i => ?_⟩
  rw [BitVec.getLsbD_ofNat, streamBits_testBit]
  by_cases hi : i < s.regs.arg1.toNat
  · simp [hi, show i < 32 by omega, streamBit]
  · simp [hi]

/-- Settles O19: the three tests in their order, context, count and budget. -/
theorem bitTransferFaults : Obligations.BitTransferFaults := by
  rintro s n hf rfl
  refine ⟨fun h => ?_, fun h => ?_⟩
  · by_cases ho : s.status.bswOpen = false
    · rw [exec_bswPut_closed hf ho, if_pos ho, if_pos ho]
      rfl
    have ho' := Bool.eq_true_of_not_eq_false ho
    rw [if_neg ho, if_neg ho]
    by_cases hn : 32 < s.regs.arg1.toNat
    · rw [exec_bswPut_error hf ho' _ (bwPut_count _ _ _ _ hn), if_pos hn, if_pos hn, State.start_raise, sat32_toNat]
      rfl
    · have hb : 8 * s.w0.budget.toNat < s.w0.bits.length + s.regs.arg1.toNat :=
        Nat.not_le.1 fun hb => h ⟨ho', Nat.not_lt.1 hn, hb⟩
      rw [exec_bswPut_error hf ho' _ (bwPut_overflow _ _ _ _ (Nat.not_lt.1 hn) hb), if_neg hn, if_neg hn]
      rfl
  · by_cases ho : s.status.bsrOpen = false
    · rw [exec_bsrGet_closed hf ho, if_pos ho, if_pos ho]
      rfl
    have ho' := Bool.eq_true_of_not_eq_false ho
    rw [if_neg ho, if_neg ho]
    by_cases hn : 32 < s.regs.arg1.toNat
    · rw [exec_bsrGet_error hf ho' _ (brGet_count _ _ _ _ hn), if_pos hn, if_pos hn, State.start_raise, sat32_toNat]
      rfl
    · have hb : 8 * s.r0.budget.toNat < s.r0.bitpos + s.regs.arg1.toNat :=
        Nat.not_le.1 fun hb => h ⟨ho', Nat.not_lt.1 hn, hb⟩
      rw [exec_bsrGet_error hf ho' _ (brGet_underflow _ _ _ _ (Nat.not_lt.1 hn) hb), if_neg hn, if_neg hn]
      rfl

end Sys2Proof.Machine
end

section
/-! SUPPORT. The palette scan (41_palette R120 to R122): after each pixel the palette is that of the pixels seen so far
(`FirstSeen`), and the scan stops at the pixel that fills it. -/

namespace Sys2Proof.Machine

/-! ### The palette of the pixels seen so far (R120) -/

/-- `pal` has the colours of `seen`, in the order of their first pixels. -/
structure FirstSeen (seen pal : List Color) : Prop where
  mem : ∀ c, c ∈ pal ↔ c ∈ seen
  rising : (pal.map fun c => seen.idxOf c).Pairwise (· < ·)

theorem FirstSeen.nil : FirstSeen [] [] := ⟨fun _ => Iff.rfl, List.Pairwise.nil⟩

/-- Later pixels do not move where a colour was first seen. -/
theorem FirstSeen.map_idxOf_append {seen pal : List Color} (h : FirstSeen seen pal) (rest : List Color) :
    (pal.map fun c => (seen ++ rest).idxOf c) = pal.map fun c => seen.idxOf c :=
  List.map_congr_left fun c hc => List.idxOf_append_of_mem ((h.mem c).1 hc)

theorem FirstSeen.append_old {seen pal : List Color} {c : Color} (h : FirstSeen seen pal) (hc : c ∈ pal) :
    FirstSeen (seen ++ [c]) pal where
  mem x := by
    have hcs := (h.mem c).1 hc
    rw [h.mem, List.mem_append, List.mem_singleton]
    exact ⟨.inl, fun hx => hx.elim id fun hxc => hxc ▸ hcs⟩
  rising := h.map_idxOf_append [c] ▸ h.rising

theorem FirstSeen.append_new {seen pal : List Color} {c : Color} (h : FirstSeen seen pal) (hc : c ∉ pal) :
    FirstSeen (seen ++ [c]) (pal ++ [c]) where
  mem x := by rw [List.mem_append, List.mem_append, h.mem]
  rising := by
    have hnew : (seen ++ [c]).idxOf c = seen.length := by
      rw [List.idxOf_append_of_notMem fun hs => hc ((h.mem c).2 hs), List.idxOf_cons_self, Nat.add_zero]
    rw [List.map_append, h.map_idxOf_append, List.map_singleton, hnew, List.pairwise_append]
    refine ⟨h.rising, List.pairwise_singleton .., fun i hi j hj => ?_⟩
    obtain ⟨x, hx, rfl⟩ := List.mem_map.1 hi
    rw [List.mem_singleton.1 hj]
    exact List.idxOf_lt_length_of_mem ((h.mem x).1 hx)

/-- No colour stands twice, since no two first pixels are the same. -/
theorem FirstSeen.nodup {seen pal : List Color} (h : FirstSeen seen pal) : pal.Nodup :=
  List.Nodup.of_map _ (h.rising.imp Nat.ne_of_lt)

theorem FirstSeen.card {seen pal : List Color} (h : FirstSeen seen pal) : seen.toFinset.card = pal.length := by
  have hset : seen.toFinset = pal.toFinset := by
    ext c
    rw [List.mem_toFinset, List.mem_toFinset, h.mem]
  rw [hset, List.toFinset_card_of_nodup h.nodup]

/-! ### The scan (R121) -/

theorem palScan_old {m : Nat} {pal rest : List Color} {c : Color} (hc : c ∈ pal) :
    palScan m pal (c :: rest) = palScan m pal rest := if_pos hc

theorem palScan_full {m : Nat} {pal rest : List Color} {c : Color} (hc : c ∉ pal) (hm : m ≤ (pal ++ [c]).length) :
    palScan m pal (c :: rest) = (pal ++ [c], true) := (if_neg hc).trans (if_pos hm)

theorem palScan_new {m : Nat} {pal rest : List Color} {c : Color} (hc : c ∉ pal) (hm : (pal ++ [c]).length < m) :
    palScan m pal (c :: rest) = palScan m (pal ++ [c]) rest := (if_neg hc).trans (if_neg (Nat.not_le.2 hm))

/-- What a scan of `cols` answers: the palette of the pixels up to the one that filled it, or of all of them. -/
inductive Scanned (m : Nat) (cols : List Color) : List Color × Bool → Prop
  | full (seen rest pal : List Color) (hcols : cols = seen ++ rest) (h : FirstSeen seen pal) (hm : pal.length = m) :
      Scanned m cols (pal, true)
  | all (pal : List Color) (h : FirstSeen cols pal) (hm : pal.length < m) : Scanned m cols (pal, false)

theorem palScan_scanned (m : Nat) (seen pal rest : List Color) (h : FirstSeen seen pal) (hm : pal.length < m) :
    Scanned m (seen ++ rest) (palScan m pal rest) := by
  induction rest generalizing seen pal with
  | nil => exact .all pal (by rwa [List.append_nil]) hm
  | cons c rest ih =>
    rw [List.append_cons]
    by_cases hc : c ∈ pal
    · rw [palScan_old hc]
      exact ih _ _ (h.append_old hc) hm
    · rcases Nat.lt_or_ge (pal ++ [c]).length m with hlt | hge
      · rw [palScan_new hc hlt]
        exact ih _ _ (h.append_new hc) hlt
      · rw [palScan_full hc hge]
        refine .full _ rest _ rfl (h.append_new hc) (Nat.le_antisymm ?_ hge)
        rwa [List.length_append, List.length_singleton]

theorem palBuild_scanned (cols : List Color) (m : Nat) (hm : 1 ≤ m) : Scanned m cols (palBuild cols m) :=
  palScan_scanned m [] [] cols .nil hm

/-- Settles O21, by whether the scan reaches the end of the pixels (`palBuild_scanned`). -/
theorem paletteScan : Obligations.PaletteScan := by
  intro cols m hm
  rcases palBuild cols m, palBuild_scanned cols m hm with ⟨_, ⟨seen, rest, pal, rfl, h, hlen⟩ | ⟨pal, h, hlen⟩⟩
  · have hcard : m ≤ (seen ++ rest).toFinset.card := by
      rw [← hlen, ← h.card, List.toFinset_append]
      exact Finset.card_le_card Finset.subset_union_left
    exact ⟨h.nodup, (h.map_idxOf_append rest).symm ▸ h.rising, fun c hc => List.mem_append_left _ ((h.mem c).1 hc),
      iff_of_true rfl hcard, fun _ => hlen, fun hf => Bool.noConfusion hf⟩
  · exact ⟨h.nodup, h.rising, fun c => (h.mem c).1, iff_of_false Bool.false_ne_true (by rw [h.card]; omega),
      fun ht => Bool.noConfusion ht, fun _ c => (h.mem c).2⟩

end Sys2Proof.Machine
end

section
/-! SUPPORT. The palette commands (41_palette R128 to R130): the end of each by the outcome of its test, and from that
the exact next states of O22 to O24. -/

namespace Sys2Proof.Machine

/-- An argument out of range fails the check of 41_palette R128. -/
theorem checkMaxColors_eq_some (s : State) (h : s.regs.arg0.toNat = 0 ∨ 2 ^ 24 + 1 < s.regs.arg0.toNat) :
    checkMaxColors s = some ⟨.palArg, s.regs.arg0.toNat⟩ := by
  cases hc : checkMaxColors s with
  | none =>
    obtain ⟨h1, h2⟩ := (checkMaxColors_eq_none s).1 hc
    simp only [Config.palMax, Config.colorBits] at h2
    omega
  | some r => rw [(raiseIf_eq_some _ _ _ _ hc).2]

/-! ### The commands -/

theorem exec_palBuild_go {s : State} (hs : s.codecLaunch) (h1 : 1 ≤ s.regs.arg0.toNat)
    (h2 : s.regs.arg0.toNat ≤ 2 ^ 24 + 1) :
    exec .palBuild s = .next ((s.start 0x08).keepPalette (palBuild (s.grid s.areaA) s.regs.arg0.toNat)).complete := by
  obtain ⟨hf, hrect, hformat, harea⟩ := hs
  show execPalBuild s = _
  rw [execPalBuild, command_ready _ _ _ hf, launch_go]
  · rfl
  · simp [(checkRect_eq_none s).2 hrect, (checkFormatA_eq_none s).2 hformat, (checkMaxColors_eq_none s).2 ⟨h1, h2⟩]
  · simp [(stopAreaA_eq_none s).2 harea]

theorem exec_palBuild_raise {s : State} (hs : s.codecLaunch)
    (h : s.regs.arg0.toNat = 0 ∨ 2 ^ 24 + 1 < s.regs.arg0.toNat) :
    exec .palBuild s = .next ((s.start 0x08).raisePalBuild ⟨.palArg, s.regs.arg0.toNat⟩) := by
  obtain ⟨hf, hrect, hformat, -⟩ := hs
  show execPalBuild s = _
  simp [execPalBuild, command_ready _ _ _ hf, launch, firstSome, (checkRect_eq_none s).2 hrect,
    (checkFormatA_eq_none s).2 hformat, checkMaxColors_eq_some s h]

section
variable {s : State} (hf : s.status.fault = false)
include hf

theorem exec_palLookup_found (hc : color s.regs.arg0 ∈ s.pal) :
    exec .palLookup s =
      .next ((s.start 0x09).answer (BitVec.ofNat 32 (palIndex s.pal (color s.regs.arg0))) 1).complete := by
  show execPalLookup s = _
  simp [execPalLookup, command_ready _ _ _ hf, hc]

theorem exec_palLookup_missing (hc : color s.regs.arg0 ∉ s.pal) :
    exec .palLookup s = .next ((s.start 0x09).answer 0 0).complete := by
  show execPalLookup s = _
  simp [execPalLookup, command_ready _ _ _ hf, hc]

theorem exec_palGet_entry (c : Color) (hc : s.pal[s.regs.arg0.toNat]? = some c) :
    exec .palGet s = .next { s.start 0x0A with regs := { s.regs with cmd := 0x0A, res0 := pixelOf c } }.complete := by
  show execPalGet s = _
  simp [execPalGet, command_ready _ _ _ hf, hc]

theorem exec_palGet_past (hk : s.pal.length ≤ s.regs.arg0.toNat) :
    exec .palGet s = .next ((s.start 0x0A).raise ⟨.palArg, s.regs.arg0.toNat⟩) := by
  show execPalGet s = _
  simp [execPalGet, command_ready _ _ _ hf, List.getElem?_eq_none hk]

end

/-- `pal_index` is the first place of the colour (41_palette R122). -/
theorem palIndex_eq {pal : List Color} {c : Color} {k : Nat} (hk : pal[k]? = some c)
    (hfirst : ∀ j < k, pal[j]? ≠ some c) : palIndex pal c = k := by
  obtain ⟨hlt, hget⟩ := List.getElem?_eq_some_iff.1 hk
  refine (List.findIdx_eq hlt).2 ⟨beq_iff_eq.2 hget, fun j hj => beq_false_of_ne fun hjc => hfirst j hj ?_⟩
  rw [List.getElem?_eq_getElem (hj.trans hlt), hjc]

/-! ### The obligations -/

/-- Settles O22: `ARG0` passes its check (`exec_palBuild_go`), or raises it on a legal rectangle and format. -/
theorem palBuildResult : Obligations.PalBuildResult := by
  refine fun s hs => ⟨exec_palBuild_go hs, fun h => ?_⟩
  rw [exec_palBuild_raise hs h, State.raisePalBuild, State.raise, sat32_toNat]
  rfl

/-- Settles O23: an entry that no earlier one equals stands at `palIndex` (`palIndex_eq`). -/
theorem palLookupResult : Obligations.PalLookupResult := by
  refine fun s hf => ⟨fun k hk hfirst => ?_, fun hnone => ?_⟩
  · rw [exec_palLookup_found hf (List.mem_of_getElem? hk), color, palIndex_eq hk hfirst]
    rfl
  · rw [exec_palLookup_missing hf fun hc => (List.mem_iff_getElem?.1 hc).elim hnone]
    rfl

/-- Settles O24, by whether the index is below the count. -/
theorem palGetResult : Obligations.PalGetResult := by
  refine fun s hf => ⟨fun c hc => ?_, fun hk => ?_⟩
  · rw [exec_palGet_entry hf c hc, pixelOf, BitVec.ofNat_toNat]
    rfl
  · rw [exec_palGet_past hf hk, State.start_raise, sat32_toNat]
    rfl

end Sys2Proof.Machine
end

section
/-! SUPPORT. The token loop on a stream that is known: which cursors one token leads to, and the pixels of a tile that
several tokens make. -/

namespace Sys2Proof.Machine

/-! ### Some tokens of the loop -/

/-- Some tokens take the cursors from `d` to `e`. -/
def Dec.Steps (d e : Dec) : Prop := ∃ n, Dec.run n d = e

theorem Dec.Steps.refl (d : Dec) : d.Steps d := ⟨0, rfl⟩

theorem Dec.Steps.trans {d e f : Dec} (h : d.Steps e) (h' : e.Steps f) : d.Steps f := by
  obtain ⟨m, rfl⟩ := h
  obtain ⟨n, rfl⟩ := h'
  exact ⟨m + n, (Dec.run_add m n d).symm⟩

theorem Dec.Steps.head {d e : Dec} (hr : d.running = true) (h : d.next.Steps e) : d.Steps e :=
  Dec.Steps.trans ⟨1, Dec.run_succ_running 0 d hr⟩ h

theorem Dec.Steps.one {d e : Dec} (hr : d.running = true) (h : d.next = e) : d.Steps e := .head hr (h ▸ .refl _)

/-- Two ways to the end lead to the same end. -/
theorem Dec.Steps.decode_eq {d e : Dec} (h : d.Steps e) (hd : d.NoSplitZero) (he : e.running = false) :
    d.decode = e := by
  obtain ⟨n, rfl⟩ := h
  have hend := d.decode_ends hd
  unfold Dec.decode at hend ⊢
  rw [Dec.run_add] at hend ⊢
  rw [← Dec.run_stopped n _ hend, Dec.run_add, Nat.add_comm, ← Dec.run_add, Dec.run_stopped _ _ he]

/-! ### Reading a token -/

theorem Dec.next_eq {d e f : Dec} {i : Instr} (h : d.fetch = (some i, e)) (ha : e.apply i = some f) : d.next = f := by
  rw [d.next_of_fetch_some e i h, ha, Option.getD_some]

theorem Dec.drop_drop (d : Dec) (m n : Nat) : (d.drop m).drop n = d.drop (m + n) := by
  simp only [Dec.drop, List.drop_drop, Nat.add_assoc]

theorem Dec.drop_inp {d : Dec} {bs rest : List Byte} (h : d.inp = bs ++ rest) : (d.drop bs.length).inp = rest := by
  simp [Dec.drop, h]

theorem Dec.drop_one_inp {d : Dec} {b : Byte} {rest : List Byte} (h : d.inp = b :: rest) : (d.drop 1).inp = rest :=
  Dec.drop_inp (bs := [b]) h

theorem Dec.fetchByte_eq {d : Dec} {b : Byte} {rest : List Byte} {ch : Channel} {i : Instr} (h : d.inp = b :: rest)
    (hi : Sys2Proof.decode ch (.word 8 b.toNat) = .ok i) : d.fetchByte ch = (some i, d.drop 1) := by
  simp only [Dec.fetchByte, h, Dec.fetched, hi]

theorem Dec.fetchColor_eq {d : Dec} {c : Color} {rest : List Byte} {ch : Channel} {i : Instr}
    (h : d.inp = c3 c ++ rest) (hi : Sys2Proof.decode ch (.word Config.colorBits c.toNat) = .ok i) :
    d.fetchColor ch = (some i, d.drop 3) := by
  have hlen : ¬ d.inp.length < 3 := by simp [h]
  have htake : d.inp.take 3 = c3 c := by rw [h]; exact List.take_left' rfl
  rw [Dec.fetchColor, if_neg hlen, htake, fromC3_c3]
  simp only [Dec.fetched, hi]

/-- A read of bits depends on the bytes they stand in only. -/
theorem streamBits_congr {f g : Nat → Byte} {p n : Nat} (h : ∀ k, 8 * k < p + n → f k = g k) :
    streamBits f p n = streamBits g p n := by
  unfold streamBits
  congr 1
  refine List.map_congr_left fun i hi => ?_
  have := List.mem_range.1 hi
  rw [streamBit, streamBit, h ((p + i) / 8) (by omega)]

/-- Bits of a completed stream that starts at `off` in the input, with anything behind it. -/
theorem Dec.getBits_packBits {d : Dec} {before after : List Byte} {pre part post : List Bool}
    (h : d.inp = before ++ packBits (pre ++ part ++ post) ++ after) (hn : part.length ≤ 32) :
    d.getBits before.length (packBits (pre ++ part ++ post)).length pre.length part.length = .ok (natOfBits part) := by
  have hlen := packBits_length (pre ++ part ++ post)
  have hroom := le_ceilDiv_mul (pre ++ part ++ post).length
  rw [← hlen, List.length_append, List.length_append] at hroom
  rw [Dec.getBits, brGet_fits _ _ _ _ hn (by omega), ← streamBits_packBits pre part post]
  refine congrArg Except.ok (streamBits_congr fun k hk => ?_)
  have hk' : k < (packBits (pre ++ part ++ post)).length := by
    rw [hlen, ceilDiv, List.length_append, List.length_append]
    omega
  rw [h, List.append_assoc, List.getD_append_right _ _ _ _ (by omega), Nat.add_sub_cancel_left,
    List.getD_append _ _ _ _ hk']

theorem Dec.fetchBits_eq {d : Dec} {n budget v : Nat} {ch : Channel} {i : Instr}
    (h : d.getBits 0 budget d.bitpos n = .ok v) (hi : Sys2Proof.decode ch (.word n v) = .ok i) :
    d.fetchBits n budget ch = (some i, { d with bitpos := d.bitpos + n }) := by
  simp only [Dec.fetchBits, h, Dec.fetched, hi]

/-! ### The pixels of a tile -/

/-- The next pixels of the tile are made, in its row-major order (42_tile R137). -/
def Dec.emit (d : Dec) (cs : List Color) : Dec :=
  { d with
    px := ((cs.zipIdx d.made).map fun q => (tilePos d.w d.tile q.2, q.1)).reverse ++ d.px
    made := d.made + cs.length }

theorem Dec.emit_append (d : Dec) (xs ys : List Color) : d.emit (xs ++ ys) = (d.emit xs).emit ys := by
  simp [Dec.emit, List.zipIdx_append, Nat.add_assoc]

theorem Dec.mem_emit_px (d : Dec) (cs : List Color) (p : Nat × Color) :
    p ∈ (d.emit cs).px ↔ (∃ n, cs[n]? = some p.2 ∧ p.1 = tilePos d.w d.tile (d.made + n)) ∨ p ∈ d.px := by
  obtain ⟨k, c⟩ := p
  simp only [Dec.emit, List.mem_append, List.mem_reverse, List.mem_map, Prod.mk.injEq, Prod.exists]
  refine or_congr_left ⟨?_, ?_⟩
  · rintro ⟨x, m, hm, rfl, rfl⟩
    rw [List.mk_mem_zipIdx_iff_le_and_getElem?_sub] at hm
    exact ⟨m - d.made, hm.2, by rw [Nat.add_sub_cancel' hm.1]⟩
  · rintro ⟨n, hn, rfl⟩
    exact ⟨c, d.made + n, List.mk_mem_zipIdx_iff_le_and_getElem?_sub.2 ⟨by omega, by rwa [Nat.add_sub_cancel_left]⟩,
      rfl, rfl⟩

theorem zipIdx_replicate {α : Type} (n k : Nat) (c : α) :
    (List.replicate n c).zipIdx k = (List.range n).map fun i => (c, k + i) := by
  induction n with
  | zero => rfl
  | succ n ih => rw [List.replicate_succ', List.zipIdx_append, ih, List.range_succ]; simp

/-- A run within the tile makes its pixels, and ends the tile with its last one (42_tile R153, R156, R159). -/
theorem Dec.emitRun_eq (d : Dec) (c : Color) (run : Nat) (h : d.made + run ≤ d.npix) :
    d.emitRun c run =
      if d.made + run = d.npix then (d.emit (List.replicate run c)).endTile else d.emit (List.replicate run c) := by
  have he : d.emit (List.replicate run c) = { d with
      px := (List.range run).foldl (fun l n => (tilePos d.w d.tile (d.made + n), c) :: l) d.px
      made := d.made + run } := by
    rw [Dec.emit, zipIdx_replicate, List.length_replicate, List.map_map, List.foldl_flip_cons_eq_append]
    rfl
  rw [Dec.emitRun, if_neg (by omega), he]

end Sys2Proof.Machine
end

section
/-! SUPPORT. The bodies of a tile record (42_tile R143 to R148), decoded: each makes the tile's pixels and ends the
tile (R152, R156, R157). -/

namespace Sys2Proof.Machine

/-! ### Bodies that are read by bytes -/

/-- A part of a tile body that makes a run of one colour, and the bytes it is coded by. -/
structure TilePart where
  color : Color
  run : Nat
  bytes : List Byte

/-- The pixels a list of parts makes. -/
def TilePart.pixels (parts : List TilePart) : List Color := parts.flatMap fun q => List.replicate q.run q.color

/-- Where a decoder with this palette stands at `p`, the part's bytes are read and its run is made. -/
def TilePart.ReadsAt (p : Pos) (pal : List Color) (q : TilePart) : Prop :=
  ∀ (d : Dec) (rest : List Byte), d.pos = p → d.pal = pal → d.inp = q.bytes ++ rest →
    d.Steps ((d.drop q.bytes.length).emitRun q.color q.run)

theorem Dec.endTile_of_not_packed {d : Dec} (h : ∀ w, d.pos ≠ .packed w) : d.endTile = d.nextTile := by
  rcases d.endTile_eq with ⟨w, hw, -⟩ | ⟨-, h⟩
  · exact absurd hw (h w)
  · exact h

/-- A body of such parts makes the pixels left of the tile and ends it. -/
theorem Dec.steps_parts {p : Pos} {pal : List Color} {parts : List TilePart} {rest : List Byte} {d : Dec}
    (hp : ∀ w, p ≠ .packed w) (hread : ∀ q ∈ parts, q.ReadsAt p pal) (hrun : ∀ q ∈ parts, 0 < q.run)
    (hne : parts ≠ []) (hpos : d.pos = p) (hpal : d.pal = pal) (hinp : d.inp = parts.flatMap (·.bytes) ++ rest)
    (hmade : d.made + (TilePart.pixels parts).length = d.npix) :
    d.Steps ((d.emit (TilePart.pixels parts)).drop (parts.flatMap (·.bytes)).length).nextTile := by
  induction parts generalizing d with
  | nil => exact absurd rfl hne
  | cons q parts ih =>
    rw [List.flatMap_cons, List.append_assoc] at hinp
    have hfirst := hread q (List.mem_cons_self ..) d _ hpos hpal hinp
    have hpix : TilePart.pixels (q :: parts) = List.replicate q.run q.color ++ TilePart.pixels parts := rfl
    rw [hpix, List.length_append, List.length_replicate] at hmade
    rw [(d.drop q.bytes.length).emitRun_eq q.color q.run (by show d.made + q.run ≤ d.npix; omega)] at hfirst
    rw [hpix, Dec.emit_append, List.flatMap_cons, List.length_append, ← Dec.drop_drop]
    refine hfirst.trans ?_
    rcases parts with _ | ⟨q', parts⟩
    · rw [if_pos (by show d.made + q.run = d.npix; simpa [TilePart.pixels] using hmade),
        Dec.endTile_of_not_packed (hpos ▸ hp)]
      exact .refl _
    · have hmore : 0 < (TilePart.pixels (q' :: parts)).length := by
        have hq' := hrun q' (by simp)
        simp only [TilePart.pixels, List.flatMap_cons, List.length_append, List.length_replicate]
        omega
      rw [if_neg (by show ¬ d.made + q.run = d.npix; omega)]
      refine ih (fun r hr => hread r (List.mem_cons_of_mem q hr)) (fun r hr => hrun r (List.mem_cons_of_mem q hr))
        (List.cons_ne_nil _ _) hpos hpal (Dec.drop_inp hinp) ?_
      show d.made + (List.replicate q.run q.color).length + _ = d.npix
      rw [List.length_replicate]
      omega

/-! ### Raw pixels (42_tile R143, R152) -/

theorem Dec.next_rawPixel {d : Dec} {c : Color} {rest : List Byte} (hp : d.pos = .rawPixel)
    (h : d.inp = c3 c ++ rest) : d.next = (d.drop 3).emitRun c 1 := by
  have hf : d.fetch = (some (.rawPixel c), d.drop 3) := by
    simp only [Dec.fetch, hp]
    exact Dec.fetchColor_eq h (decode_rawPixel c)
  exact Dec.next_eq hf (if_pos hp)

theorem Dec.running_of_pos {d : Dec} {p : Pos} (h : d.pos = p) (hf : p ≠ .fin) (hr : ∀ r, p ≠ .raised r) :
    d.running = true := by
  subst h
  unfold Dec.running
  split
  · exact absurd ‹_› hf
  · exact absurd ‹_› (hr _)
  · rfl

/-- A raw body makes its colours. -/
theorem Dec.steps_rawBody {d : Dec} {cs : List Color} {rest : List Byte} (hne : cs ≠ []) (hp : d.pos = .rawPixel)
    (h : d.inp = cs.flatMap c3 ++ rest) (hm : d.made + cs.length = d.npix) :
    d.Steps ((d.emit cs).drop (cs.flatMap c3).length).nextTile := by
  have hpix : TilePart.pixels (cs.map fun c => ⟨c, 1, c3 c⟩) = cs := by
    simp [TilePart.pixels, List.flatMap_map]
  have hsteps := d.steps_parts (p := .rawPixel) (pal := d.pal) (rest := rest) (parts := cs.map fun c => ⟨c, 1, c3 c⟩)
    (by simp) (fun q hq e rest' hp' _ he => ?_) (by simp) (by simpa using hne) hp rfl
    (by rw [List.flatMap_map]; exact h) (by rw [hpix]; exact hm)
  · rw [hpix, List.flatMap_map] at hsteps
    exact hsteps
  · obtain ⟨c, -, rfl⟩ := List.mem_map.1 hq
    exact .one (Dec.running_of_pos hp' (by simp) (by simp)) (Dec.next_rawPixel hp' he)

/-! ### Runs (42_tile R145, R156, 30_encoding R81, R82) -/

/-- A byte of seven bits below a flag (30_encoding R90). -/
theorem ofNat_or_flag {k : Nat} (hk : k < 128) (b : Bool) :
    BitVec.ofNat 8 (k ||| if b then Config.rleFlag else 0) = BitVec.cons b (BitVec.ofNat 7 k) := by
  have hk7 : (BitVec.ofNat 7 k).toNat = k := Nat.mod_eq_of_lt hk
  apply BitVec.eq_of_toNat_eq
  cases b
  · rw [toNat_cons_false, hk7, BitVec.toNat_ofNat, if_neg Bool.false_ne_true, Nat.or_zero]
    omega
  · have hor : 128 + k = 128 ||| k := Nat.two_pow_add_eq_or_of_lt (i := 7) hk 1
    rw [toNat_cons_true, hk7, BitVec.toNat_ofNat, if_pos rfl, Nat.or_comm, Config.rleFlag, ← hor]
    omega

section
variable {d : Dec} {c : Color} {rest : List Byte}

theorem Dec.next_runToken (b : Bool) (k : BitVec 7) (hp : d.pos = .rle) (h : d.inp = BitVec.cons b k :: rest)
    (hc : d.pal[k.toNat]? = some c) :
    d.next = if b then { d.drop 1 with pos := .runLen false c 0 } else (d.drop 1).emitRun c 1 := by
  have hf : d.fetch = (some (if b then .runN k else .run1 k), d.drop 1) := by
    simp only [Dec.fetch, hp]
    rw [← decodeRunToken_cons b k]
    exact Dec.fetchByte_eq h (decode_runToken _)
  have hp' : (d.drop 1).pos = .rle := hp
  have hc' : (d.drop 1).pal[k.toNat]? = some c := hc
  refine Dec.next_eq hf ?_
  cases b <;> simp [Dec.apply, Dec.run1, Dec.runN, Dec.withIndex, hp', hc']

theorem Dec.next_runLen {plain : Bool} {extra : Nat} (b : Byte) (hp : d.pos = .runLen plain c extra)
    (h : d.inp = b :: rest) :
    d.next = if b.toNat = 255 then { d.drop 1 with pos := .runLen plain c (extra + 255) }
      else { d.drop 1 with pos := if plain then .plain else .rle }.emitRun c (1 + (extra + b.toNat)) := by
  have hf : d.fetch = (some (decodeRunLen b), d.drop 1) := by
    simp only [Dec.fetch, hp]
    exact Dec.fetchByte_eq h (decode_runLen b)
  have hp' : (d.drop 1).pos = .runLen plain c extra := hp
  refine Dec.next_eq hf ?_
  unfold decodeRunLen
  split <;> simp [Dec.apply, Dec.runLenCont, Dec.runLenFinal, hp']

/-- Each continuation byte adds 255 to the run. -/
theorem Dec.steps_runLenConts {plain : Bool} {extra : Nat} (q : Nat) (hp : d.pos = .runLen plain c extra)
    (h : d.inp = List.replicate q 255 ++ rest) :
    d.Steps { d.drop q with pos := .runLen plain c (extra + 255 * q) } := by
  induction q generalizing d extra with
  | zero =>
    rw [Nat.mul_zero, Nat.add_zero, ← hp]
    exact .refl d
  | succ q ih =>
    rw [List.replicate_succ, List.cons_append] at h
    have hnext := Dec.next_runLen 255 hp h
    rw [if_pos (by rfl)] at hnext
    refine .head (Dec.running_of_pos hp (by simp) (by simp)) ?_
    rw [hnext]
    have hsteps := ih (d := { d.drop 1 with pos := .runLen plain c (extra + 255) }) rfl (Dec.drop_one_inp h)
    rw [show extra + 255 + 255 * q = extra + 255 * (1 + q) by omega] at hsteps
    rw [Nat.add_comm q, ← Dec.drop_drop]
    exact hsteps

/-- A run-length field of `extra` adds `extra` to the run. -/
theorem Dec.steps_runLenField {plain : Bool} {extra : Nat} (x : Nat) (hp : d.pos = .runLen plain c extra)
    (h : d.inp = runLenField x ++ rest) :
    d.Steps ({ d.drop (runLenField x).length with pos := if plain then .plain else .rle }.emitRun c
      (1 + (extra + x))) := by
  have hfinal : (BitVec.ofNat 8 (x % 255)).toNat = x % 255 := Nat.mod_eq_of_lt (by omega)
  rw [runLenField, List.append_assoc] at h
  have hrest := Dec.drop_inp h
  rw [List.length_replicate] at hrest
  have hnext := Dec.next_runLen (d := { d.drop (x / 255) with pos := .runLen plain c (extra + 255 * (x / 255)) })
    (BitVec.ofNat 8 (x % 255)) rfl hrest
  rw [hfinal, if_neg (by omega), Nat.add_assoc extra, Nat.div_add_mod] at hnext
  refine (Dec.steps_runLenConts _ hp h).trans (.one rfl (hnext.trans ?_))
  rw [runLenField, List.length_append, List.length_replicate, ← Dec.drop_drop]
  rfl

end

/-- The token of a run, with its length field, is read as the run. -/
theorem runToken_readsAt {pal : List Color} {k n : Nat} {c : Color} (hk : k < 128) (hc : pal[k]? = some c)
    (hn : 0 < n) : TilePart.ReadsAt .rle pal ⟨c, n, runToken k n⟩ := by
  intro d rest hp hpal h
  have hk7 : (BitVec.ofNat 7 k).toNat = k := Nat.mod_eq_of_lt hk
  have hrunning := Dec.running_of_pos hp (by simp) (by simp)
  rw [← hpal, ← hk7] at hc
  dsimp only at h ⊢
  unfold runToken at h ⊢
  split at h
  · subst n
    have hbyte : BitVec.ofNat 8 k = BitVec.cons false (BitVec.ofNat 7 k) := by simpa using ofNat_or_flag hk false
    rw [hbyte] at h
    exact .one hrunning (Dec.next_runToken false _ hp h hc)
  · rename_i h1
    have hbyte : BitVec.ofNat 8 (k ||| Config.rleFlag) = BitVec.cons true (BitVec.ofNat 7 k) := ofNat_or_flag hk true
    rw [hbyte] at h
    rw [if_neg h1, List.length_cons, Nat.add_comm _ 1, ← Dec.drop_drop]
    refine .head hrunning ?_
    rw [Dec.next_runToken true _ hp h hc, if_pos rfl]
    have hsteps := Dec.steps_runLenField (d := { d.drop 1 with pos := .runLen false c 0 }) (n - 1) rfl
      (Dec.drop_one_inp h)
    rw [show 1 + (0 + (n - 1)) = n by omega] at hsteps
    have hpos : ({ ({ d.drop 1 with pos := .runLen false c 0 } : Dec).drop (runLenField (n - 1)).length with
        pos := .rle } : Dec) = (d.drop 1).drop (runLenField (n - 1)).length := by
      rw [← hp]
      rfl
    rw [if_neg Bool.false_ne_true, hpos] at hsteps
    exact hsteps

/-! ### The maximal runs (42_tile R145) -/

theorem runsOf_cons (k : Nat) (ix : List Nat) :
    (∃ n runs, runsOf ix = (k, n) :: runs ∧ runsOf (k :: ix) = (k, n + 1) :: runs) ∨
      runsOf (k :: ix) = (k, 1) :: runsOf ix := by
  rw [runsOf]
  split
  · rename_i k' n runs h
    split
    · rename_i hk
      exact .inl ⟨n, runs, hk ▸ h, by rw [hk]⟩
    · exact .inr (by rw [h])
  · rename_i h
    exact .inr (by rw [h])

/-- Every run has a pixel, and the runs are the indices. -/
theorem runsOf_spec (ix : List Nat) :
    (∀ r ∈ runsOf ix, 0 < r.2) ∧ (runsOf ix).flatMap (fun r => List.replicate r.2 r.1) = ix := by
  induction ix with
  | nil => exact ⟨fun r hr => (by cases hr), rfl⟩
  | cons k ix ih =>
    obtain ⟨hpos, hix⟩ := ih
    rcases runsOf_cons k ix with ⟨n, runs, h, h'⟩ | h' <;> rw [h']
    · rw [h] at hpos hix
      refine ⟨fun r hr => ?_, ?_⟩
      · rcases List.mem_cons.1 hr with rfl | hr
        · exact Nat.succ_pos n
        · exact hpos r (List.mem_cons_of_mem _ hr)
      · rw [← hix]
        simp [List.replicate_succ]
    · refine ⟨fun r hr => ?_, ?_⟩
      · rcases List.mem_cons.1 hr with rfl | hr
        · exact Nat.one_pos
        · exact hpos r hr
      · simp [hix]

theorem mem_of_mem_runsOf {ix : List Nat} {r : Nat × Nat} (hr : r ∈ runsOf ix) : r.1 ∈ ix := by
  obtain ⟨hpos, hix⟩ := runsOf_spec ix
  rw [← hix]
  exact List.mem_flatMap.2 ⟨r, hr, List.mem_replicate.2 ⟨(hpos r hr).ne', rfl⟩⟩

/-- An RLE-index body makes the colours of its indices. -/
theorem Dec.steps_rleBody {d : Dec} {ix : List Nat} {rest : List Byte} (hne : ix ≠ [])
    (hix : ∀ k ∈ ix, k < 128 ∧ k < d.pal.length) (hp : d.pos = .rle) (h : d.inp = rleBody ix ++ rest)
    (hm : d.made + ix.length = d.npix) :
    d.Steps ((d.emit (ix.map fun k => d.pal.getD k 0)).drop (rleBody ix).length).nextTile := by
  obtain ⟨hpos, hruns⟩ := runsOf_spec ix
  have hbytes : ((runsOf ix).map fun r : Nat × Nat => (⟨d.pal.getD r.1 0, r.2, runToken r.1 r.2⟩ : TilePart)).flatMap
      (·.bytes) = rleBody ix := by rw [List.flatMap_map, rleBody]
  have hpix : TilePart.pixels ((runsOf ix).map fun r : Nat × Nat => ⟨d.pal.getD r.1 0, r.2, runToken r.1 r.2⟩) =
      ix.map fun k => d.pal.getD k 0 := by
    conv_rhs => rw [← hruns]
    simp [TilePart.pixels, List.flatMap_map, List.map_flatMap]
  rw [← hbytes, ← hpix]
  refine d.steps_parts (p := .rle) (pal := d.pal) (rest := rest) (by simp) (fun q hq => ?_) (fun q hq => ?_) ?_ hp rfl
    (by rw [hbytes]; exact h) (by rw [hpix, List.length_map]; exact hm)
  · obtain ⟨r, hr, rfl⟩ := List.mem_map.1 hq
    obtain ⟨h128, hlen⟩ := hix r.1 (mem_of_mem_runsOf hr)
    exact runToken_readsAt h128 (by simp [hlen]) (hpos r hr)
  · obtain ⟨r, hr, rfl⟩ := List.mem_map.1 hq
    exact hpos r hr
  · intro hnil
    rw [List.map_eq_nil_iff] at hnil
    rw [hnil] at hruns
    exact hne hruns.symm

/-! ### Packed indices (42_tile R148, R157) -/

theorem Dec.next_packed {d : Dec} {w k : Nat} {c : Color} (hp : d.pos = .packed w) (hw : packedWidths.contains w = true)
    (hk : k < 2 ^ w) (hget : d.getBits 0 (d.bodyLen w) d.bitpos w = .ok k) (hc : d.pal[k]? = some c) :
    d.next = { d with bitpos := d.bitpos + w }.emitRun c 1 := by
  have hw4 : w ≤ 4 := by
    simp only [packedWidths, List.contains_eq_mem, List.mem_cons, List.not_mem_nil, or_false, decide_eq_true_eq] at hw
    omega
  have hk4 : (BitVec.ofNat 4 k).toNat = k :=
    Nat.mod_eq_of_lt (hk.trans_le (Nat.pow_le_pow_right (by decide) hw4))
  have hdec := decode_encode_packedIndex w (BitVec.ofNat 4 k)
    (by simp only [Instr.wf, hw, hk4, hk, decide_true, Bool.and_self])
  rw [encode, hk4] at hdec
  have hfetch : d.fetch = d.fetchBits w (d.bodyLen w) (.packed w) := by simp only [Dec.fetch, hp]
  have hf := hfetch.trans (Dec.fetchBits_eq hget hdec)
  have hp' : ({ d with bitpos := d.bitpos + w } : Dec).pos = .packed w := hp
  refine Dec.next_eq hf ?_
  rw [Dec.apply, Dec.packedIndex, if_pos hp', hk4]
  simp only [Dec.withIndex, hc]

/-- A packed body makes the colours of its indices, of which `pre` are made already. -/
theorem Dec.steps_packedRest {d : Dec} {w : Nat} {pre ix : List Nat} {rest : List Byte}
    (hw : packedWidths.contains w = true) (hne : ix ≠ []) (hix : ∀ k ∈ ix, k < 2 ^ w ∧ k < d.pal.length)
    (hp : d.pos = .packed w) (h : d.inp = packedBody w (pre ++ ix) ++ rest) (hb : d.bitpos = w * pre.length)
    (hmade : d.made = pre.length) (hm : d.made + ix.length = d.npix) :
    ∃ b, d.Steps ({ (d.emit (ix.map fun k => d.pal.getD k 0)).drop (packedBody w (pre ++ ix)).length with
      bitpos := b }).nextTile := by
  have hflat (l : List Nat) : (l.flatMap (bitsOf w)).length = w * l.length := by
    simp [List.length_flatMap, Nat.mul_comm]
  have hlen : (packedBody w (pre ++ ix)).length = d.bodyLen w := by
    rw [packedBody, packBits_length, hflat, List.length_append, ← hmade, hm]
    rfl
  induction ix generalizing d pre with
  | nil => exact absurd rfl hne
  | cons k ix ih =>
    obtain ⟨hk, hkpal⟩ := hix k (List.mem_cons_self ..)
    have hw32 : w ≤ 32 := by
      simp only [packedWidths, List.contains_eq_mem, List.mem_cons, List.not_mem_nil, or_false, decide_eq_true_eq] at hw
      omega
    have hparts : packedBody w (pre ++ k :: ix) =
        packBits (pre.flatMap (bitsOf w) ++ bitsOf w k ++ ix.flatMap (bitsOf w)) := by
      simp [packedBody]
    have hget := Dec.getBits_packBits (d := d) (before := []) (pre := pre.flatMap (bitsOf w)) (part := bitsOf w k)
      (post := ix.flatMap (bitsOf w)) (after := rest) (by rw [h, hparts]; rfl) (by rwa [bitsOf_length])
    rw [← hparts, hlen, hflat, ← hb, bitsOf_length, natOfBits_bitsOf, Nat.mod_eq_of_lt hk] at hget
    have hc : d.pal[k]? = some (d.pal.getD k 0) := by simp [hkpal]
    have hnext := Dec.next_packed hp hw hk hget hc
    rw [List.length_cons] at hm
    rw [Dec.emitRun_eq _ _ 1 (by show d.made + 1 ≤ d.npix; omega)] at hnext
    rw [List.map_cons, ← List.singleton_append, Dec.emit_append]
    have hrunning := Dec.running_of_pos hp (by simp) (by simp)
    rcases ix with _ | ⟨k', ix⟩
    · refine ⟨d.bitpos + w, .one hrunning ?_⟩
      rw [hnext, if_pos (by exact hm), hlen]
      rcases Dec.endTile_eq (({ d with bitpos := d.bitpos + w } : Dec).emit (List.replicate 1 (d.pal.getD k 0)))
        with ⟨w', hw', he⟩ | ⟨hw', -⟩
      · obtain rfl : w = w' := Pos.packed.inj (hp.symm.trans hw')
        rw [he]
        rfl
      · exact absurd hp (hw' w)
    · rw [if_neg (by show ¬ d.made + 1 = d.npix; simp only [List.length_cons] at hm; omega)] at hnext
      have happ : pre ++ k :: k' :: ix = pre ++ [k] ++ k' :: ix := (List.append_cons ..)
      rw [happ] at h hlen ⊢
      obtain ⟨b, hsteps⟩ := ih (pre := pre ++ [k])
        (d := ({ d with bitpos := d.bitpos + w } : Dec).emit (List.replicate 1 (d.pal.getD k 0)))
        (List.cons_ne_nil _ _) (fun j hj => hix j (List.mem_cons_of_mem k hj)) hp h
        (by show d.bitpos + w = _; rw [hb, List.length_append, Nat.mul_add]; simp)
        (by show d.made + 1 = _; simp [hmade])
        (by show d.made + 1 + _ = d.npix; omega) hlen
      exact ⟨b, .head hrunning (hnext ▸ hsteps)⟩

end Sys2Proof.Machine
end

section
/-! SUPPORT. A tile record, decoded (42_tile R149 and R158): whatever record the encoder chooses, the decoder makes the
tile's pixels from it, leaves the encoder's session, and stands behind it. -/

namespace Sys2Proof.Machine

/-! ### The palette scan of a tile (42_tile R142) -/

/-- All that the scan of a tile's pixels can find: 128 colours, or the palette of the pixels. -/
theorem palBuild_tile_cases (pix : List Color) :
    (128 ≤ pix.toFinset.card ∧ (palBuild pix Config.tileMaxColors).2 = true) ∨
      ∃ pal, palBuild pix Config.tileMaxColors = (pal, false) ∧ FirstSeen pix pal ∧ pal.length ≤ 127 := by
  obtain ⟨-, -, -, hfull, -⟩ := paletteScan pix Config.tileMaxColors (by decide)
  rcases hp : palBuild pix Config.tileMaxColors, palBuild_scanned pix Config.tileMaxColors (by decide) with
    ⟨_, ⟨seen, rest, pal, hcols, h, hlen⟩ | ⟨pal, h, hlen⟩⟩
  · rw [hp] at hfull
    exact .inl ⟨hfull.1 rfl, rfl⟩
  · exact .inr ⟨pal, rfl, h, Nat.le_of_lt_succ hlen⟩

/-- A record of a tile of 128 or more colours (42_tile R143). -/
theorem tileEnc_raw {pix : List Color} (sess : List Color) (reuse : Bool)
    (h : (palBuild pix Config.tileMaxColors).2 = true) :
    tileEnc pix sess reuse = (0 :: pix.flatMap c3, sess) := by
  simp only [tileEnc, h, if_true]

/-- A record of a tile of one colour (42_tile R144). -/
theorem tileEnc_solid {pix : List Color} {c : Color} (sess : List Color) (reuse : Bool)
    (h : palBuild pix Config.tileMaxColors = ([c], false)) : tileEnc pix sess reuse = (1 :: c3 c, [c]) := by
  simp [tileEnc, h]

/-- The body of a palette tile (42_tile R145). -/
def tileBody (pal : List Color) (ix : List Nat) : List Byte :=
  if useRle pal.length ix then rleBody ix else packedBody (tileWidth pal.length) ix

/-- A record of a tile of 2 to 127 colours (42_tile R145 to R148). -/
theorem tileEnc_palette {pix pal : List Color} (sess : List Color) (reuse : Bool)
    (h : palBuild pix Config.tileMaxColors = (pal, false)) (hlen : pal.length ≠ 1) :
    tileEnc pix sess reuse =
      (tileHead pal (reuse && pal == sess) (useRle pal.length (pix.map (palIndex pal))) ++
        tileBody pal (pix.map (palIndex pal)), pal) := by
  simp only [tileEnc, h, hlen, if_false, Bool.false_eq_true, tileBody]

/-- A tile with pixels has a palette of at least one colour, and of one only if it has one colour. -/
theorem FirstSeen.eq_replicate {pix : List Color} {c : Color} (h : FirstSeen pix [c]) :
    pix = List.replicate pix.length c :=
  List.eq_replicate_iff.2 ⟨rfl, fun x hx => List.mem_singleton.1 ((h.mem x).2 hx)⟩

theorem FirstSeen.length_pos {pix pal : List Color} (h : FirstSeen pix pal) (hne : pix ≠ []) : 0 < pal.length := by
  obtain ⟨c, hc⟩ := List.exists_mem_of_ne_nil _ hne
  exact List.length_pos_of_mem ((h.mem c).2 hc)

/-- The indices of the pixels point into the palette, at the pixels' colours. -/
theorem FirstSeen.palIndex_lt {pix pal : List Color} (h : FirstSeen pix pal) :
    ∀ k ∈ pix.map (palIndex pal), k < pal.length := by
  intro k hk
  obtain ⟨c, hc, rfl⟩ := List.mem_map.1 hk
  exact List.idxOf_lt_length_of_mem ((h.mem c).2 hc)

theorem FirstSeen.map_palIndex {pix pal : List Color} (h : FirstSeen pix pal) :
    (pix.map (palIndex pal)).map (fun k => pal.getD k 0) = pix := by
  rw [List.map_map]
  refine (List.map_congr_left fun c hc => ?_).trans (List.map_id pix)
  have hlt := List.idxOf_lt_length_of_mem ((h.mem c).2 hc)
  simp [palIndex, hlt]

/-! ### Headers (42_tile R151, R152, R154, R155) -/

section
variable {d : Dec} {rest : List Byte}

theorem Dec.next_tileHdr {h : Byte} {f : Dec} (hp : d.pos = .tile) (hinp : d.inp = h :: rest)
    (hf : (d.drop 1).apply (decodeTileHdr h) = some f) : d.next = f := by
  have hfetch : d.fetch = d.fetchByte .tileHdr := by simp only [Dec.fetch, hp]
  exact Dec.next_eq (hfetch.trans (Dec.fetchByte_eq hinp (decode_tileHdr h))) hf

theorem Dec.need_le (n : Nat) (k : Dec → Dec) (h : n ≤ d.inp.length) : d.need n k = k d := if_neg (Nat.not_lt.2 h)

theorem Dec.next_tileRaw (hp : d.pos = .tile) (hinp : d.inp = 0 :: rest) (hlen : 3 * d.npix ≤ rest.length) :
    d.next = { d.drop 1 with hdr := 0, pos := .rawPixel } := by
  refine Dec.next_tileHdr hp hinp ((if_pos hp).trans (congrArg some (Dec.need_le _ _ ?_)))
  rwa [← Dec.drop_one_inp hinp] at hlen

/-- The header of a literal palette, as the decoder follows it. -/
theorem Dec.startPalette_le {h : Byte} {count : Nat} (hlen : 3 * count ≤ d.inp.length) :
    d.startPalette h count = { d with hdr := h, pal := [], pos := .palette (hasRleFlag h) count } :=
  Dec.need_le (d := { d with hdr := h }) _ _ hlen

theorem Dec.next_tileSolid (hp : d.pos = .tile) (hinp : d.inp = 1 :: rest) (hlen : 3 ≤ rest.length) :
    d.next = { d.drop 1 with hdr := 1, pal := [], pos := .palette false 1 } := by
  refine Dec.next_tileHdr hp hinp ((if_pos hp).trans (congrArg some (Dec.startPalette_le ?_)))
  rwa [← Dec.drop_one_inp hinp] at hlen

theorem hasRleFlag_cons (b : Bool) (n : BitVec 7) : hasRleFlag (BitVec.cons b n) = b := by
  rw [hasRleFlag_eq]
  exact BitVec.msb_cons

theorem setWidth_or_flag (n : BitVec 7) : n.setWidth 8 ||| BitVec.ofNat 8 Config.rleFlag = BitVec.cons true n := by
  revert n
  decide

/-- The header of a literal palette of at least two colours. -/
theorem Dec.next_paletteHdr (b : Bool) (n : BitVec 7) (h2 : 2 ≤ n.toNat) (hb : b = true ∨ n.toNat < 127)
    (hp : d.pos = .tile) (hinp : d.inp = BitVec.cons b n :: rest) (hlen : 3 * n.toNat ≤ rest.length) :
    d.next = { d.drop 1 with hdr := BitVec.cons b n, pal := [], pos := .palette b n.toNat } := by
  have hp' : (d.drop 1).pos = .tile := hp
  have hpal := Dec.startPalette_le (d := d.drop 1) (h := BitVec.cons b n) (count := n.toNat)
    (by rwa [Dec.drop_one_inp hinp])
  rw [hasRleFlag_cons] at hpal
  rw [← hpal]
  refine Dec.next_tileHdr hp hinp ?_
  have hmax := tilePackedMax_eq
  have hset : (BitVec.cons b n).setWidth 7 = n := BitVec.setWidth_cons
  cases b
  · have hn : (BitVec.cons false n).toNat = n.toNat := toNat_cons_false n
    have hcons : n.setWidth 8 = BitVec.cons false n := by bv_omega
    have hlow : n.toNat < 127 := hb.resolve_left Bool.false_ne_true
    rw [decodeTileHdr_counted _ (by omega) (by omega), hset]
    split_ifs <;> simp only [Dec.apply, Dec.tilePacked, Dec.tilePalRleLow, hp', if_true, hcons]
    omega
  · have hn : (BitVec.cons true n).toNat = 128 + n.toNat := toNat_cons_true n
    rw [decodeTileHdr_counted _ (by omega) (by omega), hset, if_neg (by omega), if_neg (by omega)]
    simp only [Dec.apply, Dec.tilePalRle, hp', if_true, setWidth_or_flag]

/-- A reuse marker starts the body on the session's palette. -/
theorem Dec.next_reuse (rle : Bool) (hp : d.pos = .tile) (hs : d.sess ≠ [])
    (hinp : d.inp = (if rle then Config.tileHdrReuseRle else Config.tileHdrReusePacked) :: rest) :
    d.next = { d.drop 1 with
      hdr := if rle then Config.tileHdrReuseRle else Config.tileHdrReusePacked, pal := d.sess }.startBody rle := by
  have hp' : (d.drop 1).pos = .tile := hp
  have hs' : (d.drop 1).sess ≠ [] := hs
  cases rle
  · refine Dec.next_tileHdr (h := Config.tileHdrReusePacked) hp hinp ((if_pos hp').trans ?_)
    rw [Dec.reuse, if_neg hs']
    rfl
  · refine Dec.next_tileHdr (h := Config.tileHdrReuseRle) hp hinp ((if_pos hp').trans ?_)
    rw [Dec.reuse, if_neg hs']
    rfl

/-! ### Palette entries (42_tile R155) -/

theorem Dec.next_palEntry {c : Color} {rle : Bool} {left : Nat} (hp : d.pos = .palette rle left)
    (h : d.inp = c3 c ++ rest) :
    d.next = if left ≤ 1 then { d.drop 3 with pal := d.pal ++ [c], sess := d.pal ++ [c] }.startBody rle
      else { d.drop 3 with pal := d.pal ++ [c], pos := .palette rle (left - 1) } := by
  have hfetch : d.fetch = d.fetchColor .palEntry := by simp only [Dec.fetch, hp]
  have hp' : (d.drop 3).pos = .palette rle left := hp
  refine Dec.next_eq (hfetch.trans (Dec.fetchColor_eq h (decode_palEntry c))) ?_
  simp only [Dec.apply, Dec.palEntry, hp']
  rfl

/-- The entries of a literal palette, from the first one left to the last. -/
theorem Dec.steps_palette {cs : List Color} {rle : Bool} (hne : cs ≠ []) (hp : d.pos = .palette rle cs.length)
    (h : d.inp = cs.flatMap c3 ++ rest) :
    ∃ left, d.Steps ({ d.drop (cs.flatMap c3).length with
      pal := d.pal ++ cs, sess := d.pal ++ cs, pos := .palette rle left }.startBody rle) := by
  induction cs generalizing d with
  | nil => exact absurd rfl hne
  | cons c cs ih =>
    rw [List.flatMap_cons, List.append_assoc] at h
    have hnext := Dec.next_palEntry hp h
    have hrunning := Dec.running_of_pos hp (by simp) (by simp)
    rw [List.flatMap_cons, List.length_append, c3_length, ← Dec.drop_drop]
    rcases cs with _ | ⟨c', cs⟩
    · rw [if_pos (by simp)] at hnext
      refine ⟨1, .one hrunning (hnext.trans ?_)⟩
      have hpos : (d.drop 3).pos = .palette rle 1 := hp
      rw [← hpos]
      rfl
    · rw [if_neg (by simp)] at hnext
      obtain ⟨left, hsteps⟩ := ih (d := { d.drop 3 with
        pal := d.pal ++ [c], pos := .palette rle ((c :: c' :: cs).length - 1) }) (List.cons_ne_nil _ _) rfl
        (Dec.drop_inp (bs := c3 c) h)
      refine ⟨left, .head hrunning ?_⟩
      have happ : d.pal ++ c :: c' :: cs = d.pal ++ [c] ++ c' :: cs := List.append_cons ..
      rw [happ, hnext]
      exact hsteps

end

/-! ### The head and the body of a palette tile -/

theorem length_flatMap_c3 (cs : List Color) : (cs.flatMap c3).length = 3 * cs.length := by
  simp [List.length_flatMap, Nat.mul_comm]

/-- Header and palette lead to the body, on the tile's palette, which is the session from then on (42_tile R146,
R147). -/
theorem Dec.steps_tileHead {d : Dec} {pal : List Color} {reuse rle : Bool} {rest : List Byte} (hp : d.pos = .tile)
    (h2 : 2 ≤ pal.length) (h127 : pal.length ≤ 127) (hrle : rle = true ∨ pal.length ≤ 16)
    (hreuse : reuse = true → pal = d.sess) (hinp : d.inp = tileHead pal reuse rle ++ rest) :
    ∃ left, d.Steps ({ d.drop (tileHead pal reuse rle).length with
      hdr := (tileHead pal reuse rle).headD 0, pal := pal, sess := pal
      pos := left }.startBody rle) := by
  have hrunning := Dec.running_of_pos hp (by simp) (by simp)
  cases reuse
  · have hn : (BitVec.ofNat 7 pal.length).toNat = pal.length := Nat.mod_eq_of_lt (by omega)
    have hhead : tileHead pal false rle = BitVec.cons rle (BitVec.ofNat 7 pal.length) :: pal.flatMap c3 := by
      rw [← ofNat_or_flag (by omega) rle]
      rfl
    rw [hhead, List.cons_append] at hinp
    have hnext := Dec.next_paletteHdr rle (BitVec.ofNat 7 pal.length) (by omega)
      (hrle.imp_right fun h => by omega) hp hinp
      (by rw [hn, List.length_append, length_flatMap_c3]; omega)
    rw [hn] at hnext
    obtain ⟨left, hsteps⟩ := Dec.steps_palette (cs := pal) (rle := rle) (rest := rest)
      (d := { d.drop 1 with
        hdr := BitVec.cons rle (BitVec.ofNat 7 pal.length), pal := [], pos := .palette rle pal.length })
      (List.ne_nil_of_length_pos (by omega)) rfl (Dec.drop_one_inp hinp)
    refine ⟨.palette rle left, .head hrunning ?_⟩
    rw [hnext, hhead, List.length_cons, Nat.add_comm _ 1, ← Dec.drop_drop]
    exact hsteps
  · have hs : pal = d.sess := hreuse rfl
    have hnext := Dec.next_reuse rle hp (hs ▸ List.ne_nil_of_length_pos (by omega)) hinp
    refine ⟨.tile, .one hrunning (hnext.trans ?_)⟩
    have hpos : (d.drop 1).pos = .tile := hp
    rw [← hpos, hs]
    rfl

theorem tileWidth_packed {n : Nat} (h2 : 2 ≤ n) (h16 : n ≤ 16) :
    packedWidths.contains (tileWidth n) = true ∧ tileWidth n ≠ 0 ∧ n ≤ 2 ^ tileWidth n := by
  unfold tileWidth Config.tilePackedMax
  split_ifs <;> first | omega | exact ⟨by decide, by decide, by omega⟩

/-- A palette tile is coded by runs exactly where the decoder expects runs (42_tile R145, R156, R157). -/
theorem useRle_of_lt {n : Nat} {ix : List Nat} (h : Config.tilePackedMax < n) : useRle n ix = true := by
  simp [useRle, h]

theorem le_of_useRle {n : Nat} {ix : List Nat} (h : useRle n ix = false) : n ≤ Config.tilePackedMax :=
  Nat.not_lt.1 fun hlt => by simp [useRle_of_lt hlt] at h

/-- The body makes the tile's pixels. -/
theorem Dec.steps_tileBody {d : Dec} {ix : List Nat} {rest : List Byte} (h2 : 2 ≤ d.pal.length)
    (h127 : d.pal.length ≤ 127) (hne : ix ≠ []) (hix : ∀ k ∈ ix, k < d.pal.length)
    (hinp : d.inp = tileBody d.pal ix ++ rest) (hm : d.made = 0) (hlen : ix.length = d.npix) :
    ∃ b, (d.startBody (useRle d.pal.length ix)).Steps
      ({ (d.emit (ix.map fun k => d.pal.getD k 0)).drop (tileBody d.pal ix).length with bitpos := b }.nextTile) := by
  have hmade : d.made + ix.length = d.npix := by omega
  unfold tileBody at hinp ⊢
  cases hrle : useRle d.pal.length ix
  · rw [hrle, if_neg Bool.false_ne_true] at hinp
    have h16 := le_of_useRle hrle
    obtain ⟨hw, hw0, hpow⟩ := tileWidth_packed h2 h16
    have hbody : (packedBody (tileWidth d.pal.length) ix).length = d.bodyLen (tileWidth d.pal.length) := by
      rw [packedBody, packBits_length]
      simp [List.length_flatMap, Dec.bodyLen, ← hlen, Nat.mul_comm]
    rw [if_neg Bool.false_ne_true]
    rcases d.startBody_cases false with ⟨h | h, -⟩ | ⟨-, -, ⟨h, -⟩ | ⟨-, h, -⟩ | ⟨-, -, h⟩⟩
    · cases h
    · omega
    · exact absurd h hw0
    · rw [hinp, List.length_append, hbody] at h
      omega
    · rw [h]
      exact Dec.steps_packedRest (pre := []) (d := { d with bitpos := 0, pos := .packed (tileWidth d.pal.length) }) hw
        hne (fun k hk => ⟨(hix k hk).trans_le hpow, hix k hk⟩) rfl hinp rfl hm hmade
  · rw [hrle, if_pos rfl] at hinp
    rw [if_pos rfl, Dec.startBody, if_pos (.inl rfl)]
    have hsteps := Dec.steps_rleBody (d := { d with pos := .rle }) hne
      (fun k hk => ⟨(hix k hk).trans_le (by show d.pal.length ≤ 128; omega), hix k hk⟩) rfl hinp hmade
    exact ⟨d.bitpos, hsteps⟩

/-! ### The record (42_tile R149, R158) -/

/-- The decoder behind the record of a tile: its pixels made, the encoder's session left, before the next tile. -/
def Dec.behindRecord (d : Dec) (pix : List Color) (r : List Byte × List Color) (pal : List Color) (b : Nat) : Dec :=
  { (d.emit pix).drop r.1.length with hdr := r.1.headD 0, sess := r.2, pal := pal, bitpos := b }

/-- What the next tile is does not depend on where in the record the decoder stood. -/
theorem Dec.nextTile_pos (d : Dec) (p : Pos) : { d with pos := p }.nextTile = d.nextTile := rfl

theorem headD_tileHead (pal : List Color) (reuse rle : Bool) (body : List Byte) :
    (tileHead pal reuse rle ++ body).headD 0 = (tileHead pal reuse rle).headD 0 := by
  cases reuse <;> rfl

/-- A tile record makes its tile. -/
theorem Dec.steps_record {d : Dec} {pix : List Color} {reuse : Bool} {rest : List Byte} (hp : d.pos = .tile)
    (hm : d.made = 0) (hne : pix ≠ []) (hlen : pix.length = d.npix)
    (hinp : d.inp = (tileEnc pix d.sess reuse).1 ++ rest) :
    ∃ pal b, d.Steps (d.behindRecord pix (tileEnc pix d.sess reuse) pal b).nextTile := by
  have hrunning := Dec.running_of_pos hp (by simp) (by simp)
  rcases palBuild_tile_cases pix with ⟨-, hfull⟩ | ⟨pal, hpal, hseen, h127⟩
  · rw [tileEnc_raw _ _ hfull] at hinp ⊢
    rw [List.cons_append] at hinp
    have hnext := Dec.next_tileRaw hp hinp (by rw [List.length_append, length_flatMap_c3, hlen]; omega)
    have hsteps := Dec.steps_rawBody (d := { d.drop 1 with hdr := 0, pos := .rawPixel }) hne rfl
      (Dec.drop_one_inp hinp) (by show d.made + _ = d.npix; omega)
    refine ⟨d.pal, d.bitpos, .head hrunning ?_⟩
    rw [hnext, Dec.behindRecord, List.length_cons, Nat.add_comm _ 1, ← Dec.drop_drop]
    exact hsteps
  · have hpos := hseen.length_pos hne
    by_cases h1 : pal.length = 1
    · obtain ⟨c, rfl⟩ := List.length_eq_one_iff.1 h1
      rw [tileEnc_solid _ _ hpal] at hinp ⊢
      rw [List.cons_append] at hinp
      have hnext := Dec.next_tileSolid hp hinp (by simp)
      have hentry := Dec.next_palEntry (d := { d.drop 1 with hdr := 1, pal := [], pos := .palette false 1 }) rfl
        (Dec.drop_one_inp hinp)
      refine ⟨[c], d.bitpos, .head hrunning (hnext ▸ .one rfl (hentry.trans ?_))⟩
      rw [if_pos (Nat.le_refl 1), Dec.startBody, if_neg (by simp [Config.tilePackedMax]), if_pos (by rfl),
        Dec.emitRun_eq _ _ _ (by show d.made + d.npix ≤ d.npix; omega),
        if_pos (by show d.made + d.npix = d.npix; omega), Dec.endTile_of_not_packed (by simp [Dec.emit, Dec.drop]),
        Dec.behindRecord, List.length_cons, Nat.add_comm _ 1, ← Dec.drop_drop, hseen.eq_replicate, hlen,
        ← Dec.nextTile_pos _ (.palette false 1)]
      rfl
    · rw [tileEnc_palette _ _ hpal h1] at hinp ⊢
      rw [List.append_assoc] at hinp
      have hix := hseen.palIndex_lt
      obtain ⟨left, hhead⟩ := Dec.steps_tileHead hp (by omega) h127
        (by
          cases hrle : useRle pal.length (pix.map (palIndex pal))
          · exact .inr (le_of_useRle hrle)
          · exact .inl rfl)
        (fun h => by simpa using (Bool.and_eq_true_iff.1 h).2) hinp
      obtain ⟨b, hbody⟩ := Dec.steps_tileBody (ix := pix.map (palIndex pal)) (rest := rest)
        (d := { d.drop (tileHead pal (reuse && pal == d.sess) (useRle pal.length (pix.map (palIndex pal)))).length with
          hdr := (tileHead pal (reuse && pal == d.sess) (useRle pal.length (pix.map (palIndex pal)))).headD 0
          pal := pal, sess := pal, pos := left })
        (by show 2 ≤ pal.length; omega) h127 (by simpa using hne) hix (Dec.drop_inp hinp) hm
        (by rw [List.length_map]; exact hlen)
      refine ⟨pal, b, hhead.trans ?_⟩
      rw [hseen.map_palIndex] at hbody
      rw [Dec.behindRecord, List.length_append, ← Dec.drop_drop, headD_tileHead, ← Dec.nextTile_pos _ left]
      exact hbody

end Sys2Proof.Machine
end

section
/-! SUPPORT. The decoding commands that end well (42_tile R161, R163, 43_quadtree R191, 44_diff R211, 45_selector R232,
R234): the exact next state, from the cursors at the end of the stream. -/

namespace Sys2Proof.Machine

/-! ### Writing the pixels of a started command -/

theorem State.putPixels_start (s : State) (w : Word) (px : List (Nat × Color)) :
    (s.start w).putPixels px = (s.putPixels px).start w := by
  induction px with
  | nil => rfl
  | cons p px ih =>
    rw [State.putPixels_cons, ih]
    rfl

theorem State.rawUnpack_start (s : State) (w : Word) (src : List Byte) :
    (s.start w).rawUnpack src = (s.rawUnpack src).start w := by
  have h : ∀ (l : List Nat) (t : State) (f : Nat → Nat) (g : Nat → List Byte),
      l.foldl (fun t j => t.writePix (f j) (g j)) (t.start w) =
        (l.foldl (fun t j => t.writePix (f j) (g j)) t).start w := by
    intro l
    induction l with
    | nil => intros; rfl
    | cons j l ih => intro t f g; exact ih (t.writePix (f j) (g j)) f g
  exact h _ s _ _

/-- The start of a command does not change what its decoder writes. -/
theorem State.flush_start (s : State) (w : Word) (d : Dec) : (s.start w).flush d = (s.flush d).start w := by
  have h := s.putPixels_start w d.px
  simp only [State.putPixels] at h
  simp only [State.flush, h]
  split
  · rfl
  · exact State.rawUnpack_start _ w _

theorem State.begin_start (s : State) (w : Word) (kind : DecKind) : (s.start w).begin kind = s.begin kind := by
  cases kind <;> rfl

theorem Dec.decode_operands (d : Dec) (hn : d.NoSplitZero) : d.decode.operands = d.operands :=
  d.decode_induct (P := fun e => e.operands = d.operands) (fun _ _ _ hm he => hm.operands_eq.trans he) hn rfl

/-- The end of a command whose cursors have come to the end of the stream. -/
theorem State.settle_start_fin (s : State) (w : Word) (d : Dec) (hp : d.pos = .fin) :
    (s.start w).settle d = { (({ s with pix := (s.flush d).pix }.start w).decoded d).complete with dec := none } := by
  rw [State.settle_fin _ d hp, State.flush_start, ← State.flush_pix]

/-! ### The launches -/

section
variable {s : State} {go : State → State}

/-- A structural decoding command in the modelled domain runs its decoder. -/
theorem command_decode_go (w : Word) (hs : s.decodeLaunch) (esc : State → Raise → State) :
    command w (fun u => launch u [checkRect u, checkFormatA u] [stopAreaA u, stopInput u] esc go) s =
      .next (go (s.start w)) := by
  obtain ⟨⟨hf, hrect, hformat, harea⟩, hin⟩ := hs
  rw [command_ready _ _ _ hf, launch_go]
  · simp [(checkRect_eq_none s).2 hrect, (checkFormatA_eq_none s).2 hformat]
  · simp [(stopAreaA_eq_none s).2 harea, (stopInput_eq_none s).2 hin]

theorem command_tileDec_go (w : Word) (hs : s.decodeLaunch) (ht : s.tileOk) (esc : State → Raise → State) :
    command w (fun u => launch u [checkRect u, checkFormatA u, checkTileSide u] [stopAreaA u, stopInput u] esc go) s =
      .next (go (s.start w)) := by
  obtain ⟨⟨hf, hrect, hformat, harea⟩, hin⟩ := hs
  rw [command_ready _ _ _ hf, launch_go]
  · simp [(checkRect_eq_none s).2 hrect, (checkFormatA_eq_none s).2 hformat, (checkTileSide_eq_none s).2 ht]
  · simp [(stopAreaA_eq_none s).2 harea, (stopInput_eq_none s).2 hin]

/-- A raw copy in the modelled domain runs its decoder. -/
theorem command_rawDec_go (w : Word) (hs : s.rawLaunch) (hin : s.inputFits) (esc : State → Raise → State) :
    command w (fun u => launch u [checkRect u, checkRaw u] [stopAreaRaw u, stopInput u] esc go) s =
      .next (go (s.start w)) := by
  obtain ⟨hf, hrect, hraw, harea⟩ := hs
  rw [command_ready _ _ _ hf, launch_go]
  · simp [(checkRect_eq_none s).2 hrect, (checkRaw_eq_none s).2 hraw]
  · simp [(stopAreaRaw_eq_none s).2 harea, (stopInput_eq_none s).2 hin]

end

/-! ### The commands -/

section
variable {s : State} {d : Dec}

theorem Dec.kind_decode {kind : DecKind} (hd : d = (s.begin kind).decode) : d.kind = kind := by
  rw [hd]
  exact congrArg (·.1) ((s.begin kind).decode_operands (s.begin_noSplitZero kind))

theorem exec_tileDec_fin (hs : s.decodeLaunch) (ht : s.tileOk) (hd : d = (s.begin .tile).decode) (hp : d.pos = .fin) :
    exec .tileDec s = .next { s with
      pix := (s.flush d).pix, sess := d.sess, dec := none
      regs := { s.regs with cmd := 0x11, inUsed := BitVec.ofNat 32 d.ip, res0 := d.hdr.setWidth 32 }
      status := { s.status with done := true, notWorth := false, sessValid := decide (1 ≤ d.sess.length) } } := by
  refine (command_tileDec_go 0x11 hs ht _).trans (congrArg _ ?_)
  rw [State.runDecoder, State.begin_start, ← hd, State.settle_start_fin s _ d hp]
  simp only [State.decoded, Dec.kind_decode hd]
  rfl

theorem exec_trleDec_fin (hs : s.decodeLaunch) (hd : d = (s.begin .trle).decode) (hp : d.pos = .fin) :
    exec .trleDec s = .next { s with
      pix := (s.flush d).pix, sess := d.sess, dec := none
      regs := { s.regs with cmd := 0x13, inUsed := s.regs.inLen }
      status := { s.status with done := true, notWorth := false, sessValid := decide (1 ≤ d.sess.length) } } := by
  refine (command_decode_go 0x13 hs _).trans (congrArg _ ?_)
  rw [State.runDecoder, State.begin_start, ← hd, State.settle_start_fin s _ d hp]
  simp only [State.decoded, Dec.kind_decode hd]
  rfl

theorem exec_qtDec_fin (hs : s.decodeLaunch) (hd : d = (s.begin .qt).decode) (hp : d.pos = .fin) :
    exec .qtDec s = .next { s with
      pix := (s.flush d).pix, dec := none
      regs := { s.regs with cmd := 0x21, inUsed := s.regs.inLen }
      status := { s.status with done := true, notWorth := false } } := by
  refine (command_decode_go 0x21 hs _).trans (congrArg _ ?_)
  rw [State.runDecoder, State.begin_start, ← hd, State.settle_start_fin s _ d hp]
  simp only [State.decoded, Dec.kind_decode hd]
  rfl

theorem exec_diffDec_fin (hs : s.decodeLaunch) (hd : d = (s.begin .diff).startDiff.decode) (hp : d.pos = .fin) :
    exec .diffDec s = .next { s with
      pix := (s.flush d).pix, dec := none
      regs := { s.regs with cmd := 0x31, inUsed := s.regs.inLen }
      status := { s.status with done := true, notWorth := false } } := by
  have hops := (s.begin .diff).startDiff.decode_operands (Dec.startDiff_noSplitZero _)
  have hkept : (s.begin .diff).startDiff.operands = (s.begin .diff).operands := congrArg Prod.fst (Dec.startDiff_kept _)
  have hk : d.kind = .diff := by
    rw [hd]
    exact congrArg (·.1) (hops.trans hkept)
  refine (command_decode_go 0x31 hs _).trans (congrArg _ ?_)
  rw [State.runDecoder, State.begin_start, ← hd, State.settle_start_fin s _ d hp]
  simp only [State.decoded, hk]
  rfl

theorem exec_rawUnpack_fin (hs : s.rawLaunch) (hin : s.inputFits) (hd : d = (s.begin .raw).decode) (hp : d.pos = .fin) :
    exec .rawUnpack s = .next { s with
      pix := (s.flush d).pix, dec := none
      regs := { s.regs with cmd := 0x41, inUsed := BitVec.ofNat 32 s.rawSize }
      status := { s.status with done := true, notWorth := false } } := by
  refine (command_rawDec_go 0x41 hs hin _).trans (congrArg _ ?_)
  rw [State.runDecoder, State.begin_start, ← hd, State.settle_start_fin s _ d hp]
  simp only [State.decoded, Dec.kind_decode hd]
  rfl

theorem exec_selDec_fin (hs : s.rawLaunch) (hin : s.inputFits) (hd : d = (s.begin .sel).decode) (hp : d.pos = .fin) :
    exec .selDec s = .next { s with
      pix := (s.flush d).pix, sess := d.sess, dec := none
      regs := { s.regs with
        cmd := 0x51, inUsed := BitVec.ofNat 32 d.recLen, res0 := d.enc.setWidth 32, res1 := d.compr.setWidth 32 }
      status := { s.status with done := true, notWorth := false, sessValid := decide (1 ≤ d.sess.length) } } := by
  refine (command_rawDec_go 0x51 hs hin _).trans (congrArg _ ?_)
  rw [State.runDecoder, State.begin_start, ← hd, State.settle_start_fin s _ d hp]
  simp only [State.decoded, Dec.kind_decode hd]
  rfl

end

end Sys2Proof.Machine
end

section
/-! SUPPORT. What a picture in PIX reads as once a decoder has written its pixels (20_memory R53, R55): a pixel that
was decided has its colour with a zero high byte, every other one is as before. -/

namespace Sys2Proof.Machine

/-- The pixels decided have the picture's colours, and those with the property are decided. -/
structure Paints (px : List (Nat × Color)) (grid : List Color) (P : Nat → Prop) : Prop where
  sound : ∀ p ∈ px, grid[p.1]? = some p.2
  decided : ∀ n, P n → ∃ p ∈ px, p.1 = n

theorem Paints.nil (grid : List Color) : Paints [] grid fun _ => False :=
  ⟨fun _ hp => (by cases hp), fun _ h => h.elim⟩

theorem Paints.mono {px : List (Nat × Color)} {grid : List Color} {P Q : Nat → Prop} (h : Paints px grid P)
    (hPQ : ∀ n, Q n → P n) : Paints px grid Q := ⟨h.sound, fun n hn => h.decided n (hPQ n hn)⟩

/-! ### One pixel -/

/-- Reading back a whole write to PIX. -/
theorem State.readBytes_writePix (s : State) (x : Nat) (bs : List Byte) :
    (s.writePix x bs).readBytes .pix x bs.length = bs := by
  apply List.ext_getElem
  · simp [State.readBytes]
  · intro i h₁ h₂
    simp [State.readBytes, State.byte_writePix, h₂]

theorem State.readBytes_writePix_outside (s : State) (x y n : Nat) (bs : List Byte)
    (h : y + n ≤ x ∨ x + bs.length ≤ y) : (s.writePix x bs).readBytes .pix y n = s.readBytes .pix y n :=
  State.readBytes_congr _ _ _ _ _ fun a h1 h2 => by rw [State.byte_writePix, if_neg (by omega)]

/-- Rows of a rectangle that do not overlap keep its pixels apart. -/
theorem Area.pixel_apart {r : Area} {w i j i' j' : Nat} (hlen : w * Config.pixelBytes ≤ r.stride) (hi : i < w)
    (hi' : i' < w) (h : ¬ (i = i' ∧ j = j')) : r.pixel i j + 4 ≤ r.pixel i' j' ∨ r.pixel i' j' + 4 ≤ r.pixel i j := by
  unfold Area.pixel Area.row
  have hpix : Config.pixelBytes = 4 := rfl
  rw [hpix] at hlen ⊢
  rcases Nat.lt_trichotomy j j' with hj | rfl | hj
  · have := Nat.mul_le_mul_right r.stride (Nat.succ_le_of_lt hj)
    rw [Nat.succ_mul] at this
    omega
  · omega
  · have := Nat.mul_le_mul_right r.stride (Nat.succ_le_of_lt hj)
    rw [Nat.succ_mul] at this
    omega

section
variable {s : State} {i j : Nat} (hlen : s.regs.rectW.toNat * Config.pixelBytes ≤ s.areaA.stride)
  (hi : i < s.regs.rectW.toNat)
include hlen hi

theorem State.pixRead_putPixel (n : Nat) (c : Color) :
    (s.putPixel n c).pixRead s.areaA i j =
      if n = j * s.regs.rectW.toNat + i then pixelOf c else s.pixRead s.areaA i j := by
  have hw : 0 < s.regs.rectW.toNat := Nat.zero_lt_of_lt hi
  split
  · rename_i hn
    have hmod : n % s.regs.rectW.toNat = i := by rw [hn, Nat.mul_add_mod_of_lt hi]
    have hdiv : n / s.regs.rectW.toNat = j := by
      rw [hn, Nat.mul_comm, Nat.mul_add_div hw, Nat.div_eq_of_lt hi, Nat.add_zero]
    rw [State.putPixel, hmod, hdiv, State.pixRead]
    have hread := s.readBytes_writePix (s.areaA.pixel i j) (pix32 (pixelOf c))
    rw [show Config.pixelBytes = (pix32 (pixelOf c)).length from rfl, hread]
    exact fromLe32_le32 _
  · rename_i hn
    have happart := Area.pixel_apart (r := s.areaA) (j := j) (j' := n / s.regs.rectW.toNat) hlen hi
      (Nat.mod_lt n hw) fun h => hn (by rw [h.1, h.2, Nat.mul_comm]; exact (Nat.div_add_mod n _).symm)
    exact congrArg fromPix32 (s.readBytes_writePix_outside _ _ _ _ happart)

/-! ### All pixels -/

/-- Every pixel of the picture that is decided is written, every other one stays. -/
theorem State.pixRead_putPixels {px : List (Nat × Color)} {grid : List Color} {P : Nat → Prop}
    (h : Paints px grid P) :
    ((∃ p ∈ px, p.1 = j * s.regs.rectW.toNat + i) ∧
      (s.putPixels px).pixRead s.areaA i j = pixelOf (grid.getD (j * s.regs.rectW.toNat + i) 0)) ∨
    ((∀ p ∈ px, p.1 ≠ j * s.regs.rectW.toNat + i) ∧
      (s.putPixels px).pixRead s.areaA i j = s.pixRead s.areaA i j) := by
  have hput : ∀ l : List (Nat × Color), (∀ p ∈ l, grid[p.1]? = some p.2) →
      (s.putPixels l).pixRead s.areaA i j =
        if ∃ p ∈ l, p.1 = j * s.regs.rectW.toNat + i then pixelOf (grid.getD (j * s.regs.rectW.toNat + i) 0)
        else s.pixRead s.areaA i j := by
    intro l
    induction l with
    | nil => intro _; simp
    | cons p l ih =>
      intro hl
      have harea : (s.putPixels l).areaA = s.areaA := by simp only [State.areaA, State.area, State.putPixels_regs]
      have hregs := s.putPixels_regs l
      have hstep := State.pixRead_putPixel (s := s.putPixels l) (i := i) (j := j) (by rwa [hregs, harea])
        (by rwa [hregs]) p.1 p.2
      rw [harea, hregs, ih fun q hq => hl q (List.mem_cons_of_mem p hq)] at hstep
      rw [State.putPixels_cons, hstep]
      by_cases hp : p.1 = j * s.regs.rectW.toNat + i
      · have hc : p.2 = grid.getD (j * s.regs.rectW.toNat + i) 0 := by
          rw [← hp, List.getD_eq_getElem?_getD, hl p (List.mem_cons_self ..)]
          rfl
        rw [if_pos hp, if_pos ⟨p, List.mem_cons_self .., hp⟩, hc]
      · simp [hp]
  rw [hput px h.sound]
  by_cases hex : ∃ p ∈ px, p.1 = j * s.regs.rectW.toNat + i
  · exact .inl ⟨hex, if_pos hex⟩
  · exact .inr ⟨fun p hp hq => hex ⟨p, hp, hq⟩, if_neg hex⟩

end

/-- A launch whose rectangle fits has rows that do not overlap. -/
theorem State.rowLen_le_stride {s : State} {area : Area} {bpp : Nat} (h : s.areaFits area bpp) :
    s.regs.rectW.toNat * bpp ≤ area.stride := by
  refine Nat.le_trans ?_ h.1
  exact Nat.mul_le_mul_right bpp (Nat.le_add_left ..)

/-- A decoder that has decided the whole picture writes it. -/
theorem State.pixRead_flush {s : State} {d : Dec} {grid : List Color} (hs : s.codecLaunch) (hraw : d.rawBytes = [])
    (h : Paints d.px grid fun n => n < s.regs.rectW.toNat * s.regs.rectH.toNat) (i j : Nat)
    (hi : i < s.regs.rectW.toNat) (hj : j < s.regs.rectH.toNat) :
    (s.flush d).pixRead s.areaA i j = pixelOf (grid.getD (j * s.regs.rectW.toNat + i) 0) := by
  obtain ⟨-, -, -, harea⟩ := hs
  rw [State.flush_eq s d hraw]
  rcases State.pixRead_putPixels (State.rowLen_le_stride harea) hi (j := j) h with ⟨-, h'⟩ | ⟨hno, -⟩
  · exact h'
  · obtain ⟨p, hp, hpn⟩ := h.decided _ (row_major_lt hi hj)
    exact absurd hpn (hno p hp)

/-- The picture read after a decoding depends on PIX only. -/
theorem State.pixRead_eq_flush {s t : State} {d : Dec} (hpix : t.pix = (s.flush d).pix) (hlost : t.lost = s.lost)
    (r : Area) (i j : Nat) : t.pixRead r i j = (s.flush d).pixRead r i j := by
  have hlost' : t.lost = (s.flush d).lost := by rw [State.flush_pix, hlost]
  refine congrArg fromPix32 (State.readBytes_congr _ _ _ _ _ fun a _ _ => State.byte_congr _ _ _ _ ?_ ?_)
  · rw [State.mem, State.mem, hpix]
  · rw [State.draws, State.draws, hlost']

/-- The picture after a decoding that has decided all of it. -/
theorem State.pixRead_decoded {s t : State} {d : Dec} {grid : List Color} (hs : s.codecLaunch) (hraw : d.rawBytes = [])
    (h : Paints d.px grid fun n => n < s.regs.rectW.toNat * s.regs.rectH.toNat) (hpix : t.pix = (s.flush d).pix)
    (hlost : t.lost = s.lost) (harea : t.areaA = s.areaA) (i j : Nat) (hi : i < s.regs.rectW.toNat)
    (hj : j < s.regs.rectH.toNat) : t.pixRead t.areaA i j = pixelOf (grid.getD (j * s.regs.rectW.toNat + i) 0) := by
  rw [harea, State.pixRead_eq_flush hpix hlost, State.pixRead_flush hs hraw h i j hi hj]

end Sys2Proof.Machine
end

section
/-! SUPPORT. A tile stream, decoded (42_tile R150, R158, R159, R163): record by record the tiles of the rectangle are
made (`Dec.steps_record`), and together the tiles are the rectangle. -/

namespace Sys2Proof.Machine

/-! ### The tiles are the rectangle (42_tile R136, R137) -/

/-- The pixels of tile `t`. -/
def InTile (w h t n : Nat) : Prop := ∃ k < tileW w t * tileH w h t, n = tilePos w t k

theorem lt_ceilDiv_of_lt {a n b : Nat} (hb : 0 < b) (h : a < n) : a / b < ceilDiv n b := by
  rw [ceilDiv, Nat.lt_div_iff_mul_lt hb]
  have := Nat.div_mul_le_self a b
  omega

/-- Every pixel of the rectangle belongs to one of its tiles. -/
theorem exists_inTile {w h n : Nat} (hn : n < w * h) : ∃ t < tileCount w h, InTile w h t n := by
  have hw : 0 < w := Nat.pos_of_mul_pos_right (Nat.zero_lt_of_lt hn)
  have hx : n % w < w := Nat.mod_lt n hw
  have hy : n / w < h := Nat.div_lt_of_lt_mul hn
  have hside : 0 < Config.tileSide := by decide
  have hcol : n % w / Config.tileSide < tileCols w := lt_ceilDiv_of_lt hside hx
  have hrow := lt_ceilDiv_of_lt hside hy
  have hmod : (n / w / Config.tileSide * tileCols w + n % w / Config.tileSide) % tileCols w =
      n % w / Config.tileSide := Nat.mul_add_mod_of_lt hcol
  have hdiv : (n / w / Config.tileSide * tileCols w + n % w / Config.tileSide) / tileCols w =
      n / w / Config.tileSide := by
    rw [Nat.mul_comm, Nat.mul_add_div (Nat.zero_lt_of_lt hcol), Nat.div_eq_of_lt hcol, Nat.add_zero]
  have hxdiv := Nat.div_add_mod' (n % w) Config.tileSide
  have hydiv := Nat.div_add_mod' (n / w) Config.tileSide
  have hxmod := Nat.mod_lt (n % w) hside
  have hymod := Nat.mod_lt (n / w) hside
  have hwidth : n % w % Config.tileSide < tileW w (n / w / Config.tileSide * tileCols w + n % w / Config.tileSide) := by
    rw [tileW, hmod]
    omega
  have hheight : n / w % Config.tileSide <
      tileH w h (n / w / Config.tileSide * tileCols w + n % w / Config.tileSide) := by
    rw [tileH, hdiv]
    omega
  refine ⟨_, row_major_lt hcol hrow, _, row_major_lt hwidth hheight, ?_⟩
  rw [tilePos, hmod, hdiv, Nat.mul_add_mod_of_lt hwidth, Nat.mul_comm (n / w % Config.tileSide),
    Nat.mul_add_div (Nat.zero_lt_of_lt hwidth), Nat.div_eq_of_lt hwidth, Nat.add_zero, hydiv, hxdiv]
  exact (Nat.div_add_mod' n w).symm

theorem tilePixels_length (grid : List Color) (w h t : Nat) :
    (tilePixels grid w h t).length = tileW w t * tileH w h t := by simp [tilePixels]

/-- A tile of the rectangle has a pixel. -/
theorem tilePixels_ne_nil (grid : List Color) {w h t : Nat} (ht : t < tileCount w h) : tilePixels grid w h t ≠ [] := by
  have hcols : 0 < tileCols w := Nat.pos_of_mul_pos_right (Nat.zero_lt_of_lt ht)
  have hcol : t % tileCols w * Config.tileSide < w := mul_lt_of_lt_ceilDiv (by decide) (Nat.mod_lt t hcols)
  have hrow : t / tileCols w * Config.tileSide < h := mul_lt_of_lt_ceilDiv (by decide) (Nat.div_lt_of_lt_mul ht)
  have hside : 0 < Config.tileSide := by decide
  refine List.ne_nil_of_length_pos ?_
  rw [tilePixels_length]
  refine Nat.mul_pos ?_ ?_
  · unfold tileW
    omega
  · unfold tileH
    omega

/-- Making a tile's pixels decides the tile. -/
theorem Paints.emit_tile {d : Dec} {grid : List Color} {P : Nat → Prop} (h : Paints d.px grid P)
    (ht : d.tile < tileCount d.w d.h) (hgrid : grid.length = d.w * d.h) (hm : d.made = 0) :
    Paints (d.emit (tilePixels grid d.w d.h d.tile)).px grid fun n => P n ∨ InTile d.w d.h d.tile n where
  sound p hp := by
    rcases (d.mem_emit_px _ p).1 hp with ⟨k, hk, hpos⟩ | hp
    · obtain ⟨hlt, hget⟩ := List.getElem?_eq_some_iff.1 hk
      rw [tilePixels_length] at hlt
      have hin : tilePos d.w d.tile k < grid.length := hgrid ▸ tilePos_lt _ _ _ _ ht hlt
      rw [hpos, hm, Nat.zero_add, ← hget]
      simp [tilePixels, hin]
    · exact h.sound p hp
  decided n hn := by
    rcases hn with hn | ⟨k, hk, rfl⟩
    · obtain ⟨p, hp, hpn⟩ := h.decided n hn
      exact ⟨p, (d.mem_emit_px _ p).2 (.inr hp), hpn⟩
    · refine ⟨(tilePos d.w d.tile k, grid.getD (tilePos d.w d.tile k) 0), (d.mem_emit_px _ _).2 (.inl ⟨k, ?_, ?_⟩),
        rfl⟩
      · simp [tilePixels, hk]
      · rw [hm, Nat.zero_add]

/-! ### The stream -/

/-- What a tile stream leaves as it is: the launch, the wire header's fields, the raw bytes. -/
def Dec.launched (d : Dec) : (DecKind × Nat × Nat × Nat × Option Raise) × BitVec 16 × BitVec 16 × Nat × List Byte :=
  (d.operands, d.enc, d.compr, d.recLen, d.rawBytes)

/-- The cursors have come to the end of a stream that coded the picture, with this session. -/
structure Dec.Restored (d e : Dec) (grid : List Color) (P : Nat → Prop) (sess : List Color) : Prop where
  steps : d.Steps e
  pos : e.pos = .fin
  sess : e.sess = sess
  launched : e.launched = d.launched
  paints : Paints e.px grid P

theorem Dec.nextTile_lt {d : Dec} (h : d.tile + 1 < tileCount d.w d.h) :
    d.nextTile = { d with tile := d.tile + 1, made := 0, pos := .tile } := if_pos h

theorem Dec.nextTile_fin {d : Dec} (h : tileCount d.w d.h ≤ d.tile + 1) (hend : d.kind = .tile ∨ d.inp = []) :
    d.nextTile = { d with pos := .fin } := (if_neg (Nat.not_lt.2 h)).trans (if_pos hend)

/-- The cursors `e` stand behind a record that made these pixels. -/
structure Dec.Behind (d e : Dec) (pix : List Color) (r : List Byte × List Color) (rest : List Byte) : Prop where
  steps : d.Steps e
  inp : e.inp = rest
  ip : e.ip = d.ip + r.1.length
  hdr : e.hdr = r.1.headD 0
  sess : e.sess = r.2
  launched : e.launched = d.launched
  px : e.px = (d.emit pix).px

section
variable {d : Dec} {pix : List Color} {reuse : Bool} {rest : List Byte} (hp : d.pos = .tile) (hm : d.made = 0)
  (hne : pix ≠ []) (hlen : pix.length = d.npix) (hinp : d.inp = (tileEnc pix d.sess reuse).1 ++ rest)
include hp hm hne hlen hinp

/-- The record of the last tile ends the stream: a single tile's whatever follows, a rectangle's if nothing does. -/
theorem Dec.steps_lastRecord (ht : tileCount d.w d.h ≤ d.tile + 1) (hend : d.kind = .tile ∨ rest = []) :
    ∃ e, d.Behind e pix (tileEnc pix d.sess reuse) rest ∧ e.pos = .fin := by
  obtain ⟨pal, b, hsteps⟩ := Dec.steps_record hp hm hne hlen hinp
  generalize tileEnc pix d.sess reuse = r at hinp hsteps ⊢
  have hrest : (d.behindRecord pix r pal b).inp = rest := Dec.drop_inp hinp
  rw [Dec.nextTile_fin (d := d.behindRecord pix r pal b) ht (hrest ▸ hend)] at hsteps
  exact ⟨_, ⟨hsteps, hrest, rfl, rfl, rfl, rfl, rfl⟩, rfl⟩

/-- Any other tile's record leads to the next tile. -/
theorem Dec.steps_nextRecord (ht : d.tile + 1 < tileCount d.w d.h) :
    ∃ e, d.Behind e pix (tileEnc pix d.sess reuse) rest ∧ e.pos = .tile ∧ e.made = 0 ∧ e.tile = d.tile + 1 := by
  obtain ⟨pal, b, hsteps⟩ := Dec.steps_record hp hm hne hlen hinp
  generalize tileEnc pix d.sess reuse = r at hinp hsteps ⊢
  rw [Dec.nextTile_lt (d := d.behindRecord pix r pal b) ht] at hsteps
  exact ⟨_, ⟨hsteps, Dec.drop_inp hinp, rfl, rfl, rfl, rfl, rfl⟩, rfl, rfl, rfl⟩

end

theorem tilesEnc_cons (reuse : Bool) (sess pix : List Color) (rest : List (List Color)) :
    tilesEnc reuse sess (pix :: rest) =
      ((tileEnc pix sess reuse).1 ++ (tilesEnc reuse (tileEnc pix sess reuse).2 rest).1,
        (tilesEnc reuse (tileEnc pix sess reuse).2 rest).2) := rfl

theorem tilesEnc_nil (reuse : Bool) (sess : List Color) : tilesEnc reuse sess [] = ([], sess) := rfl

/-- The tiles from the one the decoder stands at to the last, `m` more, are made. -/
theorem Dec.steps_tiles {d : Dec} {grid : List Color} {reuse : Bool} {P : Nat → Prop} (m : Nat) (hp : d.pos = .tile)
    (hm : d.made = 0) (ht : d.tile + m + 1 = tileCount d.w d.h) (hgrid : grid.length = d.w * d.h)
    (hinp : d.inp = (tilesEnc reuse d.sess ((List.range' d.tile (m + 1)).map (tilePixels grid d.w d.h))).1)
    (h : Paints d.px grid P) :
    ∃ e, d.Restored e grid (fun n => P n ∨ ∃ t, d.tile ≤ t ∧ t ≤ d.tile + m ∧ InTile d.w d.h t n)
      (tilesEnc reuse d.sess ((List.range' d.tile (m + 1)).map (tilePixels grid d.w d.h))).2 := by
  have hpaints := h.emit_tile (by omega) hgrid hm
  induction m generalizing d P with
  | zero =>
    rw [List.range'_one, List.map_singleton, tilesEnc_cons, tilesEnc_nil] at hinp ⊢
    obtain ⟨e, he, hfin⟩ := Dec.steps_lastRecord hp hm (tilePixels_ne_nil grid (by omega))
      (tilePixels_length grid d.w d.h d.tile) hinp (by omega) (.inr rfl)
    refine ⟨e, he.steps, hfin, he.sess, he.launched, he.px ▸ hpaints.mono fun n hn => hn.imp_right ?_⟩
    rintro ⟨t, h1, h2, ht⟩
    rwa [show d.tile = t by omega]
  | succ m ih =>
    rw [List.range'_succ, List.map_cons, tilesEnc_cons] at hinp ⊢
    obtain ⟨f, hf, hpos, hmade, htile⟩ := Dec.steps_nextRecord hp hm (tilePixels_ne_nil grid (by omega))
      (tilePixels_length grid d.w d.h d.tile) hinp (by omega)
    have hw : f.w = d.w := congrArg (·.1.2.1) hf.launched
    have hh : f.h = d.h := congrArg (·.1.2.2.1) hf.launched
    have hpx := hf.px ▸ hpaints
    have hcount : f.tile + m + 1 = tileCount f.w f.h := by rw [hw, hh, htile]; omega
    have hgrid' : grid.length = f.w * f.h := by rw [hw, hh, hgrid]
    obtain ⟨e, he⟩ := ih hpos hmade hcount hgrid' (by rw [hw, hh, htile, hf.sess, hf.inp]) hpx
      (hpx.emit_tile (by omega) hgrid' hmade)
    rw [hw, hh, htile, hf.sess] at he
    refine ⟨e, hf.steps.trans he.steps, he.pos, he.sess, he.launched.trans hf.launched,
      he.paints.mono fun n hn => ?_⟩
    rcases hn with hn | ⟨t, h1, h2, ht⟩
    · exact .inl (.inl hn)
    · rcases Nat.eq_or_lt_of_le h1 with rfl | h1
      · exact .inl (.inr ht)
      · exact .inr ⟨t, h1, by omega, ht⟩

/-- The whole stream of a picture, from its first tile on. -/
theorem Dec.steps_trle {d : Dec} {grid : List Color} {reuse : Bool} (hw : 0 < d.w) (hh : 0 < d.h) (hp : d.pos = .tile)
    (ht : d.tile = 0) (hm : d.made = 0) (hs : d.sess = []) (hpx : d.px = []) (hgrid : grid.length = d.w * d.h)
    (hinp : d.inp = (trleEnc grid d.w d.h reuse).1) :
    ∃ e, d.Restored e grid (fun n => n < d.w * d.h) (trleEnc grid d.w d.h reuse).2 := by
  obtain ⟨m, hm1⟩ : ∃ m, m + 1 = tileCount d.w d.h := ⟨_, Nat.succ_pred_eq_of_pos (tileCount_pos _ _ hw hh)⟩
  have henc : trleEnc grid d.w d.h reuse =
      tilesEnc reuse d.sess ((List.range' d.tile (m + 1)).map (tilePixels grid d.w d.h)) := by
    rw [trleEnc, hs, ht, hm1, List.range_eq_range']
  rw [henc] at hinp ⊢
  obtain ⟨e, he⟩ := Dec.steps_tiles m hp hm (by omega) hgrid hinp (hpx ▸ Paints.nil grid)
  refine ⟨e, he.steps, he.pos, he.sess, he.launched, he.paints.mono fun n hn => .inr ?_⟩
  obtain ⟨t, hlt, hin⟩ := exists_inTile hn
  exact ⟨t, by omega, by omega, hin⟩

/-! ### The obligation -/

/-- Settles O29: record by record the decoder makes the tiles the encoder coded (`Dec.steps_tiles`), the tiles cover the
rectangle (`exists_inTile`), and every pixel decided is written (`State.pixRead_flush`). -/
theorem trleRoundTrip : Obligations.TrleRoundTrip := by
  intro s grid reuse hs hgrid hinp
  obtain ⟨e, he⟩ := Dec.steps_trle (d := s.begin .trle) hs.1.2.1.1 hs.1.2.1.2.1 rfl rfl rfl rfl rfl hgrid hinp
  have hdec := he.steps.decode_eq (s.begin_noSplitZero .trle) (by rw [Dec.running, he.pos])
  have hraw : e.rawBytes = [] := congrArg (·.2.2.2.2) he.launched
  refine ⟨_, exec_trleDec_fin hs hdec.symm he.pos, rfl, hs.1.1, rfl, fun i j hi hj => ?_⟩
  refine State.pixRead_decoded hs.1 hraw he.paints ?_ ?_ ?_ i j hi hj
  · rfl
  · rfl
  · rfl

end Sys2Proof.Machine
end

section
/-! SUPPORT. The commands of the tile family that read no stream (42_tile R160, R162, R164, 45_selector R235, R236):
`NOP`, `TRLE.RST`, `TILE.ENC` and `TRLE.ENC`. -/

namespace Sys2Proof.Machine

/-- Settles O13: each command has one branch, behind the test of the fault flag. -/
theorem nopAndRstComplete : Obligations.NopAndRstComplete := by
  intro s
  cases hf : s.status.fault
  · exact ⟨command_ready 0x00 (fun s => .next s.complete) s hf,
      command_ready 0x14 (fun s => .next (s.setSession []).complete) s hf⟩
  · exact ⟨command_faulted 0x00 (fun s => .next s.complete) s hf,
      command_faulted 0x14 (fun s => .next (s.setSession []).complete) s hf⟩

/-! ### The launches -/

section
variable {s : State} {go : State → State}

/-- A structural encoding command in the modelled domain runs its operation. -/
theorem command_encode_go (w : Word) (hs : s.encodeLaunch) (esc : State → Raise → State) :
    command w (fun u => launch u [checkRect u, checkFormatA u] [stopAreaA u, stopOutput u] esc go) s =
      .next (go (s.start w)) := by
  obtain ⟨⟨hf, hrect, hformat, harea⟩, hout⟩ := hs
  rw [command_ready _ _ _ hf, launch_go]
  · simp [(checkRect_eq_none s).2 hrect, (checkFormatA_eq_none s).2 hformat]
  · simp [(stopAreaA_eq_none s).2 harea, (stopOutput_eq_none s).2 hout]

theorem command_tileEnc_go (w : Word) (hs : s.encodeLaunch) (ht : s.tileOk) (esc : State → Raise → State) :
    command w (fun u => launch u [checkRect u, checkFormatA u, checkTileSide u] [stopAreaA u, stopOutput u] esc go) s =
      .next (go (s.start w)) := by
  obtain ⟨⟨hf, hrect, hformat, harea⟩, hout⟩ := hs
  rw [command_ready _ _ _ hf, launch_go]
  · simp [(checkRect_eq_none s).2 hrect, (checkFormatA_eq_none s).2 hformat, (checkTileSide_eq_none s).2 ht]
  · simp [(stopAreaA_eq_none s).2 harea, (stopOutput_eq_none s).2 hout]

end

/-! ### The output in memory -/

/-- After `write_out` the bytes stand at `OUT_BASE`, and no byte outside the output buffer has changed (20_memory R52),
whatever registers, flags and lists the command sets before and after it. -/
theorem State.stored_bytes {s u t : State} {bytes : List Byte} (hfit : bytes.length ≤ s.regs.outCap.toNat)
    (hupix : u.pix = s.pix) (hustr : u.str = s.str) (hulost : u.lost = s.lost)
    (hubase : u.regs.outBase = s.regs.outBase) (hucap : u.regs.outCap = s.regs.outCap)
    (hpix : t.pix = (u.storeOut bytes).pix) (hstr : t.str = (u.storeOut bytes).str)
    (hlost : t.lost = (u.storeOut bytes).lost) :
    t.readBytes .str s.regs.outBase.toNat bytes.length = bytes ∧
      SameBytes .pix (fun _ => True) s t ∧ SameBytes .str (fun a => ¬ s.inOutput a) s t := by
  have hu := State.byte_eq s u hupix hustr hulost
  have ht := State.byte_eq (u.storeOut bytes) t hpix hstr hlost
  have hout : ∀ a, ¬ s.inOutput a → ¬ u.inOutput a := by
    intro a ha
    rwa [State.inOutput, hubase, hucap]
  refine ⟨?_, fun a _ => ?_, fun a ha => ?_⟩
  · rw [State.readBytes_congr _ _ _ _ _ fun a _ _ => ht .str a, ← hubase, State.storeOut_readBytes]
  · rw [ht, State.storeOut_pix_byte, hu]
  · rw [ht, State.storeOut_str_outside u bytes a (hucap ▸ hfit) (hout a ha), hu]

/-! ### `TILE.ENC` (42_tile R160) -/

section
variable {s : State} {r : List Byte × List Color}

theorem exec_tileEnc_go (hs : s.encodeLaunch) (ht : s.tileOk) (hr : r = tileEnc (s.grid s.areaA) s.sess s.reuseEn) :
    exec .tileEnc s = .next ((s.start 0x10).dropPalette.writeOut r.1 fun t =>
      { t.setSession r.2 with regs := { t.regs with res0 := (r.1.headD 0).setWidth 32 } }) := by
  rw [hr]
  exact command_tileEnc_go 0x10 hs ht _

theorem exec_tileEnc_fits (hs : s.encodeLaunch) (ht : s.tileOk)
    (hr : r = tileEnc (s.grid s.areaA) s.sess s.reuseEn) (hfit : r.1.length ≤ s.regs.outCap.toNat) :
    ∃ t, exec .tileEnc s = .next t ∧
      t = { s with
        str := t.str, lost := t.lost, pal := [], sess := r.2
        regs := { s.regs with
          cmd := 0x10, outLen := BitVec.ofNat 32 r.1.length, res0 := (r.1.headD 0).setWidth 32 }
        status := { s.status with
          done := true, notWorth := false, palOvf := false, sessValid := decide (1 ≤ r.2.length) } } ∧
      t.readBytes .str s.regs.outBase.toNat r.1.length = r.1 ∧
      SameBytes .pix (fun _ => True) s t ∧ SameBytes .str (fun a => ¬ s.inOutput a) s t := by
  rw [exec_tileEnc_go hs ht hr, State.writeOut_fits (s.start 0x10).dropPalette _ _ hfit]
  exact ⟨_, rfl, rfl, State.stored_bytes (u := (s.start 0x10).dropPalette) hfit rfl rfl rfl rfl rfl rfl rfl rfl⟩

theorem exec_tileEnc_full (hs : s.encodeLaunch) (ht : s.tileOk)
    (hr : r = tileEnc (s.grid s.areaA) s.sess s.reuseEn) (hfull : s.regs.outCap.toNat < r.1.length) :
    exec .tileEnc s = .next ((s.start 0x10).dropPalette.raiseEncode ⟨.outCap, r.1.length⟩) := by
  rw [exec_tileEnc_go hs ht hr, State.writeOut_full (s.start 0x10).dropPalette _ _ hfull]

end

theorem sat32_toNat_eq_min (n : Nat) : (sat32 n).toNat = min n (2 ^ 32 - 1) := by
  rw [sat32, BitVec.toNat_ofNat]
  omega

/-- Settles O26, by whether the record fits the output buffer. -/
theorem tileEncResult : Obligations.TileEncResult := by
  refine fun s hs ht => ⟨exec_tileEnc_fits hs ht rfl, fun hfull => ?_⟩
  exact ⟨_, exec_tileEnc_full hs ht rfl hfull, rfl, rfl, rfl, sat32_toNat_eq_min _, rfl, rfl⟩

/-! ### `TRLE.ENC` (42_tile R162) -/

/-- Settles O27: the operation drops the palette, takes the stream's session and stores the stream. -/
theorem trleEncResult : Obligations.TrleEncResult := by
  intro s r hs hr hfit
  have hgo : exec .trleEnc s = .next (((s.start 0x12).dropPalette.setSession r.2).writeOut r.1 id) := by
    rw [hr]
    exact command_encode_go 0x12 hs _
  rw [hgo, State.writeOut_fits ((s.start 0x12).dropPalette.setSession r.2) _ _ hfit]
  exact ⟨_, rfl, rfl,
    State.stored_bytes (u := (s.start 0x12).dropPalette.setSession r.2) hfit rfl rfl rfl rfl rfl rfl rfl rfl⟩

end Sys2Proof.Machine
end

section
/-! SUPPORT. The tokens of a tile stream (42_tile R151 to R159, 30_encoding R78 to R83), each as a step of the machine
whose cursors stand where the token is expected. -/

namespace Sys2Proof.Machine

/-! ### Where a token settles -/

theorem Dec.eq_of_no_pixel {d : Dec} (hpx : d.px = []) : { d with px := [] } = d := by
  cases d
  cases hpx
  rfl

theorem Dec.eq_of_nothing_decided {d : Dec} (hpx : d.px = []) (hraw : d.rawBytes = []) :
    { d with px := [], rawBytes := [] } = d := by
  cases d
  cases hpx
  cases hraw
  rfl

section
variable {s : State} {d : Dec} (hs : s.dec = some d)
include hs

/-- A token that decides no pixel moves the cursors only. -/
theorem exec_token_moves {i : Instr} {e : Dec} (ha : d.apply i = some e) (hpx : e.px = []) (hraw : e.rawBytes = [])
    (hrun : e.running = true) : exec i s = .next { s with dec := some e } := by
  rw [exec_token s d e i hs ha, State.settle_running s e hrun hraw, Dec.eq_of_nothing_decided hpx hraw, hpx,
    State.putPixels_nil]

/-- A token whose check fails ends the command in the fault. -/
theorem exec_token_raises {i : Instr} (e : Dec) (code : FaultCode) (info : Nat)
    (ha : d.apply i = some (e.raise code info)) :
    ∃ t, exec i s = .next t ∧ EndsInFault t (BitVec.ofNat 32 code.number) info :=
  ⟨_, exec_token s d _ i hs ha, s.settle_raise e code info⟩

end

section
variable {s : State} {d e : Dec} {i : Instr} {c : Color} {run : Nat} (hs : s.dec = some d) (hpx : e.px = [])
  (hraw : e.rawBytes = []) (ha : d.apply i = some (e.emitRun c run))
include hs hpx hraw ha

/-- A run below the pixels left goes on with the body. -/
theorem exec_run_within (he : e.running = true) (h : e.made + run < e.npix) :
    exec i s = .next { s.fillTile e run c with dec := some { e with made := e.made + run } } := by
  obtain ⟨f, hf, hemit⟩ : ∃ f : Dec, f = { e with
      px := (List.range run).foldl (fun l n => (tilePos e.w e.tile (e.made + n), c) :: l) e.px
      made := e.made + run } ∧ e.emitRun c run = f := by
    refine ⟨_, rfl, ?_⟩
    rw [Dec.emitRun, if_neg (by omega)]
    exact if_neg (by show ¬ e.made + run = e.npix; omega)
  have hfill : s.putPixels f.px = s.fillTile e run c := by
    rw [hf]
    exact s.putPixels_run e run c hpx
  have hcursors : ({ f with px := [], rawBytes := [] } : Dec) = { e with made := e.made + run } := by
    rw [hf]
    exact Dec.eq_of_nothing_decided (d := { e with made := e.made + run }) hpx hraw
  rw [exec_token s d _ i hs ha, hemit, State.settle_running s f (by rw [hf]; exact he) (by rw [hf]; exact hraw), hfill,
    hcursors]

/-- The run that makes the last pixel of the tile goes on after it, behind a packed body (42_tile R157, R159). -/
theorem exec_run_last (h : e.made + run = e.npix) :
    ∃ t, exec i s = .next t ∧
      ((∀ w, e.pos ≠ .packed w) → AfterTile (s.fillTile e run c) { e with made := e.npix } t) ∧
      (∀ w, e.pos = .packed w → AfterTile (s.fillTile e run c)
        { e with made := e.npix, inp := e.inp.drop (e.bodyLen w), ip := e.ip + e.bodyLen w } t) := by
  obtain ⟨f, hf, hemit⟩ : ∃ f : Dec, f = { e with
      px := (List.range run).foldl (fun l n => (tilePos e.w e.tile (e.made + n), c) :: l) e.px
      made := e.made + run } ∧ e.emitRun c run = f.endTile := by
    refine ⟨_, rfl, ?_⟩
    rw [Dec.emitRun, if_neg (by omega)]
    exact if_pos h
  have hfill : s.putPixels f.px = s.fillTile e run c := by
    rw [hf]
    exact s.putPixels_run e run c hpx
  have hcursors : ({ f with px := [] } : Dec) = { e with made := e.npix } := by
    rw [hf, h]
    exact Dec.eq_of_no_pixel (d := { e with made := e.npix }) hpx
  refine ⟨_, exec_token s d _ i hs ha, fun hp => ?_, fun w hp => ?_⟩
  · have hafter := s.settle_nextTile f (by rw [hf]; exact hraw)
    rw [hemit, Dec.endTile_of_not_packed (by rw [hf]; exact hp), ← hfill, ← hcursors]
    exact hafter
  · have hafter := s.settle_nextTile (f.drop (e.bodyLen w)) (by rw [hf]; exact hraw)
    have hend : f.endTile = (f.drop (e.bodyLen w)).nextTile := by
      rw [hf, Dec.endTile, hp]
      rfl
    have hdropped : ({ f.drop (e.bodyLen w) with px := [] } : Dec) =
        ({ e with made := e.npix } : Dec).drop (e.bodyLen w) := congrArg (Dec.drop · (e.bodyLen w)) hcursors
    rw [hdropped] at hafter
    rw [hemit, hend, ← hfill]
    exact hafter

end

/-! ### The parts of a token (42_tile R152, R154, R155, R157) -/

section
variable {d : Dec}

theorem Dec.need_lt (n : Nat) (k : Dec → Dec) (h : d.inp.length < n) : d.need n k = d.raise .trunc d.ip := if_pos h

theorem Dec.startPalette_lt {h : Byte} {count : Nat} (hlen : d.inp.length < 3 * count) :
    d.startPalette h count = { d with hdr := h }.raise .trunc d.ip :=
  Dec.need_lt (d := { d with hdr := h }) _ _ hlen

theorem Dec.reuse_some {h : Byte} (hs : d.sess ≠ []) :
    d.reuse h = { d with hdr := h, pal := d.sess }.startBody (hasRleFlag h) := if_neg hs

theorem Dec.startBody_rle {rle : Bool} (h : rle = true ∨ 16 < d.pal.length) :
    d.startBody rle = { d with pos := .rle } := if_pos h

/-- A palette of 2 to 16 colours starts a packed body, if it is there. -/
theorem Dec.startBody_packed (h2 : 2 ≤ d.pal.length) (h16 : d.pal.length ≤ 16)
    (hlen : ceilDiv (tileWidth d.pal.length * d.npix) 8 ≤ d.inp.length) :
    d.startBody false = { d with bitpos := 0, pos := .packed (tileWidth d.pal.length) } := by
  rw [Dec.startBody, if_neg (by simpa [Config.tilePackedMax] using h16), if_neg (tileWidth_packed h2 h16).2.1]
  exact Dec.need_le _ _ hlen

theorem Dec.startBody_trunc (h2 : 2 ≤ d.pal.length) (h16 : d.pal.length ≤ 16)
    (hlen : d.inp.length < ceilDiv (tileWidth d.pal.length * d.npix) 8) :
    d.startBody false = d.raise .trunc d.ip := by
  rw [Dec.startBody, if_neg (by simpa [Config.tilePackedMax] using h16), if_neg (tileWidth_packed h2 h16).2.1]
  exact Dec.need_lt _ _ hlen

/-- A palette of one colour fills the tile. -/
theorem Dec.startBody_solid {c : Color} (h : d.pal = [c]) : d.startBody false = d.emitRun c d.npix := by
  rw [Dec.startBody, h, if_neg (by simp [Config.tilePackedMax]), if_pos (by rfl)]
  rfl

theorem Dec.withIndex_some {k : Nat} {c : Color} (f : Color → Dec) (h : d.pal[k]? = some c) :
    d.withIndex k f = f c := by
  rw [Dec.withIndex, h]

theorem Dec.withIndex_past {k : Nat} (f : Color → Dec) (h : d.pal.length ≤ k) :
    d.withIndex k f = d.raise .index k := by rw [Dec.withIndex, List.getElem?_eq_none h]

end

/-! ### Tile headers (O52) -/

theorem setWidth_eq_cons (n : BitVec 7) : n.setWidth 8 = BitVec.cons false n := by
  revert n
  decide

section
variable {s : State} {d : Dec} (hs : s.dec = some d)
include hs

/-- A literal header whose palette bytes are not there. -/
theorem exec_startPalette_trunc {i : Instr} {h : Byte} {count : Nat} (ha : d.apply i = some (d.startPalette h count))
    (hlen : d.inp.length < 3 * count) : ∃ t, exec i s = .next t ∧ EndsInFault t 10 d.ip :=
  exec_token_raises hs { d with hdr := h } .trunc d.ip (ha.trans (congrArg some (Dec.startPalette_lt hlen)))

/-- A reuse marker with no saved palette. -/
theorem exec_reuse_none {i : Instr} {h : Byte} (ha : d.apply i = some (d.reuse h)) (hsess : d.sess = []) :
    ∃ t, exec i s = .next t ∧ EndsInFault t 14 h.toNat :=
  exec_token_raises hs { d with hdr := h } .noPalette h.toNat (ha.trans (congrArg some (if_pos hsess)))

variable (hpx : d.px = []) (hraw : d.rawBytes = [])
include hpx hraw

/-- A literal header whose palette bytes are there. -/
theorem exec_startPalette {i : Instr} {h : Byte} {count : Nat} (ha : d.apply i = some (d.startPalette h count))
    (hlen : 3 * count ≤ d.inp.length) :
    exec i s = .next { s with dec := some { d with hdr := h, pal := [], pos := .palette (hasRleFlag h) count } } :=
  exec_token_moves hs (ha.trans (congrArg some (Dec.startPalette_le hlen))) hpx hraw rfl

/-- A reuse marker whose body is runs. -/
theorem exec_reuse_rle {i : Instr} {h : Byte} (ha : d.apply i = some (d.reuse h)) (hsess : d.sess ≠ [])
    (hrle : hasRleFlag h = true ∨ 16 < d.sess.length) :
    exec i s = .next { s with dec := some { d with hdr := h, pal := d.sess, pos := .rle } } :=
  exec_token_moves hs (ha.trans (congrArg some ((Dec.reuse_some hsess).trans
    (Dec.startBody_rle (d := { d with hdr := h, pal := d.sess }) hrle)))) hpx hraw rfl

variable (hp : d.pos = .tile)
include hp

theorem exec_tileRaw_pixels (hlen : 3 * d.npix ≤ d.inp.length) :
    exec .tileRaw s = .next { s with dec := some { d with hdr := 0, pos := .rawPixel } } :=
  exec_token_moves hs ((if_pos hp).trans (congrArg some (Dec.need_le (d := { d with hdr := 0 }) _ _ hlen))) hpx hraw rfl

omit hpx hraw in
theorem exec_tileRaw_trunc (hlen : d.inp.length < 3 * d.npix) :
    ∃ t, exec .tileRaw s = .next t ∧ EndsInFault t 10 d.ip :=
  exec_token_raises hs { d with hdr := 0 } .trunc d.ip
    ((if_pos hp).trans (congrArg some (Dec.need_lt (d := { d with hdr := 0 }) _ _ hlen)))

/-- The literal headers of at least two colours, with the flag each of them carries. -/
theorem exec_literalHdrs (n : BitVec 7) (hlen : 3 * n.toNat ≤ d.inp.length) :
    exec (.tilePacked n) s = .next { s with dec := some { d with
      hdr := n.setWidth 8, pal := [], pos := .palette false n.toNat } } ∧
    exec (.tilePalRleLow n) s = .next { s with dec := some { d with
      hdr := n.setWidth 8, pal := [], pos := .palette false n.toNat } } ∧
    exec (.tilePalRle n) s = .next { s with dec := some { d with
      hdr := n.setWidth 8 ||| 0x80, pal := [], pos := .palette true n.toNat } } := by
  have hlow : hasRleFlag (n.setWidth 8) = false := by
    rw [setWidth_eq_cons, hasRleFlag_cons]
  have hhigh : hasRleFlag (n.setWidth 8 ||| BitVec.ofNat 8 Config.rleFlag) = true := by
    rw [setWidth_or_flag, hasRleFlag_cons]
  have hpacked := exec_startPalette hs hpx hraw (i := .tilePacked n) (if_pos hp) hlen
  have hrleLow := exec_startPalette hs hpx hraw (i := .tilePalRleLow n) (if_pos hp) hlen
  have hrle := exec_startPalette hs hpx hraw (i := .tilePalRle n) (if_pos hp) hlen
  rw [hlow] at hpacked hrleLow
  rw [hhigh] at hrle
  exact ⟨hpacked, hrleLow, hrle⟩

/-- The packed reuse marker on 2 to 16 colours. -/
theorem exec_reusePacked (h2 : 2 ≤ d.sess.length) (h16 : d.sess.length ≤ 16) :
    (ceilDiv (tileWidth d.sess.length * d.npix) 8 ≤ d.inp.length →
      exec .tileReusePacked s = .next { s with dec := some { d with
        hdr := 127, pal := d.sess, bitpos := 0, pos := .packed (tileWidth d.sess.length) } }) ∧
    (d.inp.length < ceilDiv (tileWidth d.sess.length * d.npix) 8 →
      ∃ t, exec .tileReusePacked s = .next t ∧ EndsInFault t 10 d.ip) := by
  have hsess : d.sess ≠ [] := List.ne_nil_of_length_pos (by omega)
  have ha : d.apply .tileReusePacked = some ({ d with hdr := 127, pal := d.sess }.startBody false) :=
    (if_pos hp).trans (congrArg some (Dec.reuse_some hsess))
  refine ⟨fun hlen => ?_, fun hlen => ?_⟩
  · exact exec_token_moves hs (ha.trans (congrArg some
      (Dec.startBody_packed (d := { d with hdr := 127, pal := d.sess }) h2 h16 hlen))) hpx hraw rfl
  · exact exec_token_raises hs { d with hdr := 127, pal := d.sess } .trunc d.ip (ha.trans (congrArg some
      (Dec.startBody_trunc (d := { d with hdr := 127, pal := d.sess }) h2 h16 hlen)))

/-- The packed reuse marker on one colour fills the tile. -/
theorem exec_reuseSolid (c : Color) (hsess : d.sess = [c]) (hm : d.made = 0) :
    ∃ t, exec .tileReusePacked s = .next t ∧
      AfterTile (s.fillTile d d.npix c) { d with hdr := 127, pal := [c], made := d.npix } t := by
  have ha : d.apply .tileReusePacked = some ({ d with hdr := 127, pal := [c] }.emitRun c d.npix) := by
    refine (if_pos hp).trans (congrArg some ?_)
    have hflag : hasRleFlag Config.tileHdrReusePacked = false := by decide
    have hpal : ({ d with hdr := Config.tileHdrReusePacked, pal := d.sess } : Dec) =
        { d with hdr := 127, pal := [c] } := hsess ▸ rfl
    rw [Dec.reuse_some (by rw [hsess]; exact List.cons_ne_nil _ _), hflag, hpal]
    exact Dec.startBody_solid (d := { d with hdr := 127, pal := [c] }) rfl
  obtain ⟨t, ht, hafter, -⟩ := exec_run_last (e := { d with hdr := 127, pal := [c] }) hs hpx hraw ha
    (by show d.made + d.npix = d.npix; omega)
  exact ⟨t, ht, hafter fun w hw => Pos.noConfusion (hp.symm.trans hw)⟩

end

/-- Settles O52, header by header. -/
theorem tileHeaderTokensComplete : Obligations.TileHeaderTokensComplete := by
  intro s d hs hpx hraw hp
  refine ⟨exec_tileRaw_pixels hs hpx hraw hp, exec_tileRaw_trunc hs hp,
    exec_token_moves hs (if_pos hp) hpx hraw rfl, exec_startPalette hs hpx hraw (i := .tileSolid) (if_pos hp),
    exec_startPalette_trunc hs (i := .tileSolid) (count := 1) (if_pos hp), exec_literalHdrs hs hpx hraw hp,
    fun n i hi hlen => ?_, fun hsess => ⟨?_, fun h16 => ?_, exec_reusePacked hs hpx hraw hp,
      exec_reuseSolid hs hpx hraw hp⟩, fun hsess i h hi => ?_⟩
  · simp only [List.mem_cons, List.not_mem_nil, or_false] at hi
    rcases hi with rfl | rfl | rfl
    · exact exec_startPalette_trunc hs (if_pos hp) hlen
    · exact exec_startPalette_trunc hs (if_pos hp) hlen
    · exact exec_startPalette_trunc hs (if_pos hp) hlen
  · exact exec_reuse_rle hs hpx hraw (if_pos hp) hsess (.inl (by decide))
  · exact exec_reuse_rle hs hpx hraw (if_pos hp) hsess (.inr h16)
  · simp only [List.mem_cons, Prod.mk.injEq, List.not_mem_nil, or_false] at hi
    rcases hi with ⟨rfl, rfl⟩ | ⟨rfl, rfl⟩
    · exact exec_reuse_none hs (h := Config.tileHdrReusePacked) (if_pos hp) hsess
    · exact exec_reuse_none hs (h := Config.tileHdrReuseRle) (if_pos hp) hsess

end Sys2Proof.Machine
end

section
/-! SUPPORT. The tokens of a tile's palette and body (42_tile R152 to R159). -/

namespace Sys2Proof.Machine

/-! ### Palette entries (O53) -/

section
variable {d : Dec} {rle : Bool} {left : Nat} {c : Color}

theorem Dec.palEntry_more (hp : d.pos = .palette rle left) (h2 : 2 ≤ left) :
    d.apply (.palEntry c) = some { d with pal := d.pal ++ [c], pos := .palette rle (left - 1) } := by
  rw [Dec.apply, Dec.palEntry, hp]
  exact congrArg some (if_neg (by omega))

theorem Dec.palEntry_last (hp : d.pos = .palette rle left) (h1 : left = 1) :
    d.apply (.palEntry c) = some ({ d with pal := d.pal ++ [c], sess := d.pal ++ [c] }.startBody rle) := by
  rw [Dec.apply, Dec.palEntry, hp]
  exact congrArg some (if_pos (by omega))

end

/-- Settles O53: an entry before the last is appended, the last one starts the body its palette calls for. -/
theorem paletteEntriesComplete : Obligations.PaletteEntriesComplete := by
  intro s d rle left c hs hpx hraw hp
  refine ⟨fun h2 => exec_token_moves hs (Dec.palEntry_more hp h2) hpx hraw rfl, fun h1 => ?_⟩
  obtain ⟨e, he⟩ : ∃ e : Dec, e = { d with pal := d.pal ++ [c], sess := d.pal ++ [c] } := ⟨_, rfl⟩
  have ha : d.apply (.palEntry c) = some (e.startBody rle) := he ▸ Dec.palEntry_last hp h1
  have hlen : e.pal.length = d.pal.length + 1 := by rw [he]; exact List.length_append
  refine ⟨fun hrle => ?_, fun hrle h2 h16 => ⟨fun hbody => ?_, fun hbody => ?_⟩, fun hrle hpal hm => ?_⟩
  · rw [Dec.startBody_rle (hlen ▸ hrle)] at ha
    rw [he] at ha
    exact exec_token_moves hs ha hpx hraw rfl
  · rw [hrle, Dec.startBody_packed (hlen ▸ h2) (hlen ▸ h16) (by rw [hlen, he]; exact hbody), hlen, he] at ha
    exact exec_token_moves hs ha hpx hraw rfl
  · rw [hrle, Dec.startBody_trunc (hlen ▸ h2) (hlen ▸ h16) (by rw [hlen, he]; exact hbody), he] at ha
    exact exec_token_raises hs { d with pal := d.pal ++ [c], sess := d.pal ++ [c] } .trunc d.ip ha
  · have hsolid : e.pal = [c] := by rw [he, hpal]; rfl
    have hcolours : e = { d with pal := [c], sess := [c] } := by rw [he, hpal]; rfl
    rw [hrle, Dec.startBody_solid hsolid, hcolours] at ha
    obtain ⟨t, ht, hafter, -⟩ := exec_run_last (e := { d with pal := [c], sess := [c] }) hs hpx hraw ha
      (by show d.made + d.npix = d.npix; omega)
    exact ⟨t, ht, hafter fun w hw => Pos.noConfusion (hp.symm.trans hw)⟩

/-! ### Pixels and indices (O54) -/

theorem State.fillTile_one (s : State) (d : Dec) (c : Color) :
    s.fillTile d 1 c = s.putPixel (tilePos d.w d.tile d.made) c := rfl

/-- The tokens of one pixel decide its colour. -/
theorem Dec.apply_pixel {d : Dec} {i : Instr} {c : Color}
    (h : (d.pos = .rawPixel ∧ i = .rawPixel c) ∨
      (∃ (w : Nat) (k : BitVec 4), d.pos = .packed w ∧ i = .packedIndex w k ∧ d.pal[k.toNat]? = some c) ∨
      (∃ k : BitVec 7, d.pos = .rle ∧ i = .run1 k ∧ d.pal[k.toNat]? = some c)) :
    d.apply i = some (d.emitRun c 1) := by
  rcases h with ⟨hp, rfl⟩ | ⟨w, k, hp, rfl, hk⟩ | ⟨k, hp, rfl, hk⟩
  · exact if_pos hp
  · exact (if_pos hp).trans (congrArg some (Dec.withIndex_some _ hk))
  · exact (if_pos hp).trans (congrArg some (Dec.withIndex_some _ hk))

/-- Settles O54: each of the tokens is a run of one pixel, or an index past the palette. -/
theorem pixelTokensComplete : Obligations.PixelTokensComplete := by
  intro s d n hs hpx hraw hn
  refine ⟨fun i c hi => ⟨fun hmore => ?_, fun hlast => ?_⟩, fun k hp hk => ?_, fun w k hp hk => ?_⟩
  · have hrun : d.running = true := by
      rcases hi with ⟨hp, -⟩ | ⟨w, k, hp, -⟩ | ⟨k, hp, -⟩
      · rw [Dec.running, hp]
      · rw [Dec.running, hp]
      · rw [Dec.running, hp]
    rw [hn, ← State.fillTile_one]
    exact exec_run_within hs hpx hraw (Dec.apply_pixel hi) hrun hmore
  · rw [hn, ← State.fillTile_one, hlast]
    exact exec_run_last hs hpx hraw (Dec.apply_pixel hi) hlast
  · exact exec_token_raises hs d .index k.toNat ((if_pos hp).trans (congrArg some (Dec.withIndex_past _ hk)))
  · exact exec_token_raises hs d .index k.toNat ((if_pos hp).trans (congrArg some (Dec.withIndex_past _ hk)))

/-! ### Runs (O55) -/

section
variable {d : Dec} {plain : Bool} {c : Color} {extra : Nat}

theorem Dec.apply_runLenCont (hp : d.pos = .runLen plain c extra) :
    d.apply .runLenCont = some { d with pos := .runLen plain c (extra + 255) } := by
  rw [Dec.apply, Dec.runLenCont, hp]

theorem Dec.apply_runLenFinal (f : Byte) (hp : d.pos = .runLen plain c extra) :
    d.apply (.runLenFinal f) =
      some ({ d with pos := if plain = true then .plain else .rle }.emitRun c (1 + extra + f.toNat)) := by
  rw [Dec.apply, Dec.runLenFinal, hp, Nat.add_assoc 1]

theorem Dec.emitRun_past {run : Nat} (h : d.npix < d.made + run) : d.emitRun c run = d.raise .run run := if_pos h

end

/-- Settles O55: the length field is collected, and its last byte decides where the run ends. -/
theorem runTokensComplete : Obligations.RunTokensComplete := by
  intro s d hs hpx hraw
  refine ⟨fun k c hp hk => ?_, fun k hp hk => ?_, fun c hp => ?_, fun plain c extra hp => ⟨?_, fun f => ?_⟩⟩
  · exact exec_token_moves hs ((if_pos hp).trans (congrArg some (Dec.withIndex_some _ hk))) hpx hraw rfl
  · exact exec_token_raises hs d .index k.toNat ((if_pos hp).trans (congrArg some (Dec.withIndex_past _ hk)))
  · exact exec_token_moves hs (if_pos hp) hpx hraw rfl
  · exact exec_token_moves hs (Dec.apply_runLenCont hp) hpx hraw rfl
  · obtain ⟨e, he⟩ : ∃ e : Dec, e = { d with pos := if plain = true then .plain else .rle } := ⟨_, rfl⟩
    have ha : d.apply (.runLenFinal f) = some (e.emitRun c (1 + extra + f.toNat)) := he ▸ Dec.apply_runLenFinal f hp
    have hmade : d.made + 1 + extra + f.toNat = d.made + (1 + extra + f.toNat) := by omega
    have hrun : e.running = true ∧ ∀ w, e.pos ≠ .packed w := by
      rw [he]
      cases plain with
      | true => exact ⟨rfl, fun w => Pos.noConfusion⟩
      | false => exact ⟨rfl, fun w => Pos.noConfusion⟩
    rw [hmade]
    refine ⟨fun hmore => ?_, fun hlast => ?_, fun hpast => ?_⟩
    · have hexec := exec_run_within hs (by rw [he]; exact hpx) (by rw [he]; exact hraw) ha hrun.1
        (by rw [he]; exact hmore)
      rw [he] at hexec
      exact hexec
    · obtain ⟨t, ht, hafter, -⟩ :=
        exec_run_last hs (by rw [he]; exact hpx) (by rw [he]; exact hraw) ha (by rw [he]; exact hlast)
      have hend := hafter hrun.2
      rw [he] at hend
      exact ⟨t, ht, hend⟩
    · rw [Dec.emitRun_past (by rw [he]; exact hpast)] at ha
      exact exec_token_raises hs e .run _ ha

end Sys2Proof.Machine
end

section
/-! SUPPORT. The sizes of a tile record (42_tile R165). -/

namespace Sys2Proof.Machine

theorem runToken_length_le (k : Nat) {n : Nat} (h : 0 < n) : (runToken k n).length ≤ n := by
  unfold runToken
  split
  · exact h
  · simp only [runLenField, Config.rleCont, List.length_cons, List.length_append, List.length_replicate,
      List.length_nil]
    omega

/-- A run takes no more bytes than pixels. -/
theorem rleBody_length_le (ix : List Nat) : (rleBody ix).length ≤ ix.length := by
  obtain ⟨hpos, hruns⟩ := runsOf_spec ix
  calc (rleBody ix).length
      = ((runsOf ix).map fun r => (runToken r.1 r.2).length).sum := List.length_flatMap
    _ ≤ ((runsOf ix).map fun r => r.2).sum := List.sum_le_sum fun r hr => runToken_length_le r.1 (hpos r hr)
    _ = ((runsOf ix).flatMap fun r => List.replicate r.2 r.1).length := by
        simp only [List.length_flatMap, List.length_replicate]
    _ = ix.length := by rw [hruns]

theorem packedBody_length (w : Nat) (ix : List Nat) : (packedBody w ix).length = ceilDiv (w * ix.length) 8 := by
  rw [packedBody, packBits_length]
  simp [List.length_flatMap, Nat.mul_comm]

theorem tileHead_length (pal : List Color) (reuse rle : Bool) :
    (tileHead pal reuse rle).length = if reuse = true then 1 else 1 + 3 * pal.length := by
  unfold tileHead
  split
  · rfl
  · rw [List.length_cons, length_flatMap_c3, Nat.add_comm]

theorem tileBody_length (pal : List Color) (ix : List Nat) :
    (tileBody pal ix).length =
      if 16 < pal.length ∨ (rleBody ix).length < ceilDiv (tileWidth pal.length * ix.length) 8 then (rleBody ix).length
      else ceilDiv (tileWidth pal.length * ix.length) 8 := by
  have hrle : useRle pal.length ix = true ↔
      16 < pal.length ∨ (rleBody ix).length < ceilDiv (tileWidth pal.length * ix.length) 8 := by
    simp only [useRle, Bool.or_eq_true, decide_eq_true_eq]
    exact Iff.rfl
  simp only [tileBody, ← hrle]
  split
  · rfl
  · exact packedBody_length _ _

/-- The palette of a tile of fewer than 128 colours. -/
theorem palBuild_of_card_lt {pix : List Color} (h : pix.toFinset.card ≤ 127) :
    palBuild pix 128 = ((palBuild pix 128).1, false) ∧ FirstSeen pix (palBuild pix 128).1 := by
  rcases palBuild_tile_cases pix with ⟨hfull, -⟩ | ⟨pal, hpal, hseen, -⟩
  · omega
  · rw [show palBuild pix 128 = (pal, false) from hpal]
    exact ⟨rfl, hseen⟩

/-- The palette of a tile of one colour. -/
theorem palBuild_replicate {pix : List Color} {c : Color} (hne : pix ≠ []) (h : pix = List.replicate pix.length c) :
    palBuild pix 128 = ([c], false) := by
  have hmem : ∀ x ∈ pix, x = c := (List.eq_replicate_iff.1 h).2
  have hcard : pix.toFinset.card = 1 := by
    rw [h, List.toFinset_replicate_of_ne_zero (List.length_pos_of_ne_nil hne).ne', Finset.card_singleton]
  obtain ⟨hpal, hseen⟩ := palBuild_of_card_lt (pix := pix) (by omega)
  obtain ⟨x, hx⟩ := List.length_eq_one_iff.1 (hseen.card ▸ hcard)
  rw [hpal, hx, hmem x ((hseen.mem x).1 (by rw [hx]; exact List.mem_singleton_self x))]

/-- Settles O28: the palette scan decides the form of the record, and each form has the size of its parts. -/
theorem tileRecordShapes : Obligations.TileRecordShapes := by
  intro pix sess reuse hne
  refine ⟨fun hmany => ?_, fun c hc => tileEnc_solid sess reuse (palBuild_replicate hne hc),
    fun pal ix h2 h127 hpal hix => ?_⟩
  · rcases palBuild_tile_cases pix with ⟨-, hovf⟩ | ⟨pal, -, hseen, hlen⟩
    · rw [tileEnc_raw sess reuse hovf, List.length_cons, length_flatMap_c3, Nat.add_comm]
      exact ⟨rfl, rfl⟩
    · have hcard := hseen.card
      omega
  · obtain ⟨hbuild, hseen⟩ := palBuild_of_card_lt h127
    rw [← hpal] at hbuild hseen
    have hcard := hseen.card
    have hlen : ix.length = pix.length := by rw [hix, List.length_map]
    have hrecord := tileEnc_palette sess reuse hbuild (by omega)
    rw [← hix] at hrecord
    refine ⟨hlen ▸ rleBody_length_le ix, hlen ▸ packedBody_length _ ix, by rw [hrecord], ?_⟩
    rw [hrecord, List.length_append, tileHead_length, tileBody_length, hlen]
    simp only [Bool.and_eq_true, beq_iff_eq]

end Sys2Proof.Machine
end

section
/-! SUPPORT. The picture a structural decoder restores, where it leaves a pixel that is already right alone; and
`TILE.DEC` of an encoded record (42_tile R158, R161). -/

namespace Sys2Proof.Machine

/-- A pixel of the rectangle that has another colour now. -/
def Differs (grid prev : List Color) (n : Nat) : Prop := n < prev.length ∧ grid.getD n 0 ≠ prev.getD n 0

/-- A decoder that has decided every pixel that differs restores the picture. -/
theorem State.grid_flush {s : State} {d : Dec} {grid : List Color} (harea : s.areaFits s.areaA Config.pixelBytes)
    (hgrid : grid.length = s.regs.rectW.toNat * s.regs.rectH.toNat) (hraw : d.rawBytes = [])
    (h : Paints d.px grid (Differs grid (s.grid s.areaA))) : (s.flush d).grid s.areaA = grid := by
  have hregs : (s.flush d).regs = s.regs := by rw [State.flush_eq s d hraw, State.putPixels_regs]
  have hlen : ((s.flush d).grid s.areaA).length = grid.length := by rw [State.grid_length, hregs, hgrid]
  refine List.ext_getElem hlen fun n h₁ h₂ => ?_
  rw [← List.getD_eq_getElem _ 0 h₁, ← List.getD_eq_getElem _ 0 h₂]
  have hn : n < s.regs.rectW.toNat * s.regs.rectH.toNat := hgrid ▸ h₂
  have hi : n % s.regs.rectW.toNat < s.regs.rectW.toNat :=
    Nat.mod_lt n (Nat.pos_of_mul_pos_right (Nat.zero_lt_of_lt hn))
  have hj : n / s.regs.rectW.toNat < s.regs.rectH.toNat := Nat.div_lt_of_lt_mul hn
  have hpos : n = n / s.regs.rectW.toNat * s.regs.rectW.toNat + n % s.regs.rectW.toNat := by
    rw [Nat.mul_comm]
    exact (Nat.div_add_mod n _).symm
  have hread := State.grid_getD (s.flush d) s.areaA _ _ (hregs.symm ▸ hi) (hregs.symm ▸ hj)
  have hold := s.grid_getD s.areaA _ _ hi hj
  rw [hregs, ← hpos] at hread
  rw [← hpos] at hold
  rcases State.pixRead_putPixels (State.rowLen_le_stride harea) hi (j := n / s.regs.rectW.toNat) h with
    ⟨-, hnew⟩ | ⟨hno, hkept⟩
  · rw [hread, State.flush_eq s d hraw, hnew, color_pixelOf, ← hpos]
  · rw [hread, State.flush_eq s d hraw, hkept, ← hold]
    by_contra hne
    obtain ⟨p, hp, hpn⟩ := h.decided n ⟨by rwa [State.grid_length], Ne.symm hne⟩
    exact hno p hp (hpn.trans hpos)

/-- A decoding that ends well changes PIX inside its rectangle only. -/
theorem exec_decode_sameBytes {s t : State} {i : Instr} {area : Area}
    (hmem : (i, area) ∈ [(Instr.tileDec, s.areaA), (.trleDec, s.areaA), (.qtDec, s.areaA), (.diffDec, s.areaA),
      (.rawUnpack, s.areaRaw), (.selDec, s.areaRaw)])
    (hf : s.status.fault = false) (h : exec i s = .next t) : SameBytes .pix (fun a => ¬ area.holds a) s t :=
  (decodersStayInside s t i area hmem hf h).1

/-! ### `TILE.DEC` -/

/-- A rectangle of one tile is tile 0. -/
theorem tile_of_tileOk {s : State} (hrect : s.rectOk) (ht : s.tileOk) :
    tileCount s.regs.rectW.toNat s.regs.rectH.toNat = 1 ∧ tileW s.regs.rectW.toNat 0 = s.regs.rectW.toNat ∧
      tileH s.regs.rectW.toNat s.regs.rectH.toNat 0 = s.regs.rectH.toNat := by
  obtain ⟨hw, hh, -⟩ := hrect
  obtain ⟨hw64, hh64⟩ := ht
  have hside : Config.tileSide = 64 := rfl
  rw [hside] at hw64 hh64
  have hcols : tileCols s.regs.rectW.toNat = 1 := by
    unfold tileCols ceilDiv
    rw [hside]
    omega
  have hrows : ceilDiv s.regs.rectH.toNat Config.tileSide = 1 := by
    unfold ceilDiv
    rw [hside]
    omega
  refine ⟨?_, ?_, ?_⟩
  · rw [tileCount, hcols, hrows]
  · rw [tileW, hside, Nat.zero_mod, Nat.zero_mul, Nat.sub_zero, Nat.min_eq_right hw64]
  · rw [tileH, hside, Nat.zero_div, Nat.zero_mul, Nat.sub_zero, Nat.min_eq_right hh64]

/-- The pixels of that tile are the rectangle's. -/
theorem tilePixels_of_tileOk {s : State} {grid : List Color} (hrect : s.rectOk) (ht : s.tileOk)
    (hgrid : grid.length = s.regs.rectW.toNat * s.regs.rectH.toNat) :
    tilePixels grid s.regs.rectW.toNat s.regs.rectH.toNat 0 = grid := by
  obtain ⟨-, hw, hh⟩ := tile_of_tileOk hrect ht
  have hpos (n : Nat) : tilePos s.regs.rectW.toNat 0 n = n := by
    rw [tilePos, hw, Nat.zero_div, Nat.zero_mod, Nat.zero_mul, Nat.zero_add, Nat.zero_add, Nat.mul_comm,
      Nat.div_add_mod]
  refine List.ext_getElem (by rw [tilePixels_length, hw, hh, hgrid]) fun n h₁ h₂ => ?_
  simp [tilePixels, hpos, h₂]

/-- The cursors at the end of a record: it is the only tile's. -/
theorem State.steps_tileRecord {s : State} {grid : List Color} {reuse : Bool} {rest : List Byte} (hrect : s.rectOk)
    (ht : s.tileOk) (hgrid : grid.length = s.regs.rectW.toNat * s.regs.rectH.toNat)
    (hinp : s.input = (tileEnc grid s.sess reuse).1 ++ rest) :
    ∃ e, (s.begin .tile).Behind e grid (tileEnc grid s.sess reuse) rest ∧ e.pos = .fin ∧
      Paints e.px grid fun n => n < s.regs.rectW.toNat * s.regs.rectH.toNat := by
  obtain ⟨hcount, hw, hh⟩ := tile_of_tileOk hrect ht
  have hpix := tilePixels_of_tileOk hrect ht hgrid
  have hpaints := (Paints.nil grid).emit_tile (d := s.begin .tile)
    (by show 0 < tileCount s.regs.rectW.toNat s.regs.rectH.toNat; omega) hgrid rfl
  rw [show tilePixels grid (s.begin .tile).w (s.begin .tile).h (s.begin .tile).tile = grid from hpix] at hpaints
  obtain ⟨e, he, hfin⟩ := Dec.steps_lastRecord (d := s.begin .tile) (pix := grid) (reuse := reuse) (rest := rest) rfl
    rfl (hpix ▸ tilePixels_ne_nil grid (by omega))
    (by rw [Dec.npix, hgrid]; exact congrArg₂ (· * ·) hw.symm hh.symm) hinp hcount.le (.inl rfl)
  refine ⟨e, he, hfin, he.px ▸ hpaints.mono fun n hn => .inr ?_⟩
  obtain ⟨t, hlt, hin⟩ := exists_inTile hn
  rwa [show t = 0 by omega] at hin

/-- `TILE.DEC` of an encoded record (42_tile R158, R161). -/
theorem exec_tileDec_record {s : State} {grid : List Color} {reuse : Bool} {r : List Byte × List Color}
    {rest : List Byte} (hs : s.decodeLaunch) (ht : s.tileOk)
    (hgrid : grid.length = s.regs.rectW.toNat * s.regs.rectH.toNat) (hr : r = tileEnc grid s.sess reuse)
    (hinp : s.input = r.1 ++ rest) :
    ∃ t, exec .tileDec s = .next t ∧
      t = { s with
        pix := t.pix, sess := r.2, dec := none
        regs := { s.regs with
          cmd := 0x11, inUsed := BitVec.ofNat 32 r.1.length, res0 := (r.1.headD 0).setWidth 32 }
        status := { s.status with done := true, notWorth := false, sessValid := decide (1 ≤ r.2.length) } } ∧
      (∀ i j, i < s.regs.rectW.toNat → j < s.regs.rectH.toNat →
        t.pixRead s.areaA i j = pixelOf (grid.getD (j * s.regs.rectW.toNat + i) 0)) ∧
      SameBytes .pix (fun a => ¬ s.areaA.holds a) s t := by
  obtain ⟨e, he, hfin, hpaints⟩ := State.steps_tileRecord hs.1.2.1 ht hgrid (hr ▸ hinp)
  rw [← hr] at he
  have hdec := he.steps.decode_eq (s.begin_noSplitZero .tile) (by rw [Dec.running, hfin])
  have hraw : e.rawBytes = [] := congrArg (·.2.2.2.2) he.launched
  have hip : e.ip = r.1.length := he.ip.trans (Nat.zero_add _)
  have hexec := exec_tileDec_fin hs ht hdec.symm hfin
  rw [hip, he.hdr, he.sess] at hexec
  obtain ⟨t, ht⟩ : ∃ t, exec .tileDec s = .next t := ⟨_, hexec⟩
  have heq := Host.Outcome.next.inj (ht.symm.trans hexec)
  have hpix : t.pix = (s.flush e).pix := by rw [heq]
  have hlost : t.lost = s.lost := by rw [heq]
  refine ⟨t, ht, by rw [hpix]; exact heq, fun i j hi hj => ?_, exec_decode_sameBytes (by simp) hs.1.1 ht⟩
  exact (State.pixRead_eq_flush hpix hlost _ i j).trans (State.pixRead_flush hs.1 hraw hpaints i j hi hj)

end Sys2Proof.Machine
end

section
/-! SUPPORT. The wire record of 45_selector R223, decoded (R224): three tokens lead from its header to the decoder of
its source; and the raw source (R221), whose rows go to PIX. -/

namespace Sys2Proof.Machine

/-! ### The method tags -/

/-- A payload that gives the source: the source itself, or what the compressor inverts to it (45_selector R226). -/
def Unpacks (c : BitVec 16) (payload src : List Byte) : Prop :=
  (c = 0 ∧ src = payload) ∨
    ∃ m : ComprMethod, (c, m) ∈ [((1 : BitVec 16), ComprMethod.lz4), (2, .zstd), (3, .zlib), (4, .bzip2)] ∧
      Config.decompress m payload src.length = some src

theorem Unpacks.tag_le {c : BitVec 16} {payload src : List Byte} (h : Unpacks c payload src) : c.toNat ≤ 4 := by
  rcases h with ⟨rfl, -⟩ | ⟨m, hm, -⟩
  · decide
  · simp only [List.mem_cons, Prod.mk.injEq, List.not_mem_nil, or_false] at hm
    rcases hm with ⟨rfl, -⟩ | ⟨rfl, -⟩ | ⟨rfl, -⟩ | ⟨rfl, -⟩ <;> decide

section
variable {d : Dec} {payload src rest : List Byte}

theorem Dec.next_tag {i : Instr} {f : Dec} (h : d.fetch = (some i, d)) (ha : d.apply i = some f) : d.next = f :=
  Dec.next_eq h ha

theorem Dec.fetch_enc {i : Instr} (hp : d.pos = .enc) (hi : decodeEncTag d.enc = .ok i) : d.fetch = (some i, d) := by
  simp only [Dec.fetch, hp, hi, Dec.fetched]

theorem Dec.fetch_compr {i : Instr} (hp : d.pos = .compr) (hi : decodeComprTag d.compr = .ok i) :
    d.fetch = (some i, d) := by
  simp only [Dec.fetch, hp, hi, Dec.fetched]

/-- No structural method: the source has the raw size. -/
theorem Dec.next_encNone (hp : d.pos = .enc) (he : d.enc = 0) :
    d.next = { d with srclen := d.rawSize, pos := .compr } :=
  Dec.next_tag (i := .encNone) (Dec.fetch_enc hp (by rw [he]; rfl)) ((if_pos ⟨hp, he⟩).trans (by rfl))

/-- A structural method on a buffer of the format it needs. -/
theorem Dec.next_encStructural (hp : d.pos = .enc) (he : d.enc = 1 ∨ d.enc = 2 ∨ d.enc = 3)
    (hf : d.badFormat = none) : d.next = { d with pos := .compr } := by
  have happly (tag : BitVec 16) (h0 : tag ≠ Config.encNone) (htag : d.enc = tag) :
      d.encTag tag = some { d with pos := .compr } := by
    rw [Dec.encTag, if_pos ⟨hp, htag⟩, if_neg h0, hf]
  rcases he with he | he | he
  · exact Dec.next_tag (i := .encDiff) (Dec.fetch_enc hp (by rw [he]; rfl)) (happly _ (by decide) he)
  · exact Dec.next_tag (i := .encTrle) (Dec.fetch_enc hp (by rw [he]; rfl)) (happly _ (by decide) he)
  · exact Dec.next_tag (i := .encQuadtree) (Dec.fetch_enc hp (by rw [he]; rfl)) (happly _ (by decide) he)

section
variable (hp : d.pos = .compr) (hinp : d.inp = payload ++ rest) (hcl : d.complen = payload.length)
  (hsl : d.srclen = src.length)
include hp hinp hcl hsl

/-- A compression tag whose port answers with the source. -/
theorem Dec.comprTag_unpacks {tag : BitVec 16} {m : ComprMethod} (htag : d.compr = tag)
    (h : Config.decompress m payload src.length = some src) : d.comprTag tag m = some (d.dispatch src) := by
  have htake : d.inp.take d.complen = payload := by rw [hinp, hcl, List.take_left]
  rw [Dec.comprTag, if_pos ⟨hp, htag⟩, Dec.need_le _ _ (by rw [hcl, hinp, List.length_append]; omega), htake, hsl, h]
  exact congrArg some (if_neg fun hne => hne rfl)

theorem Dec.comprNone_unpacks (htag : d.compr = 0) (h : src = payload) : d.comprNone = some (d.dispatch src) := by
  have htake : d.inp.take d.complen = payload := by rw [hinp, hcl, List.take_left]
  rw [Dec.comprNone, if_pos ⟨hp, htag⟩, Dec.need_le _ _ (by rw [hcl, hinp, List.length_append]; omega), htake,
    if_neg (by rw [hcl, hsl, h]; exact fun hne => hne rfl), h]

/-- The compression tag hands the source to its decoder. -/
theorem Dec.next_compr (h : Unpacks d.compr payload src) : d.next = d.dispatch src := by
  rcases h with ⟨hc, h⟩ | ⟨m, hm, h⟩
  · exact Dec.next_tag (i := .comprNone) (Dec.fetch_compr hp (by rw [hc]; rfl))
      (Dec.comprNone_unpacks hp hinp hcl hsl hc h)
  · simp only [List.mem_cons, Prod.mk.injEq, List.not_mem_nil, or_false] at hm
    rcases hm with ⟨hc, rfl⟩ | ⟨hc, rfl⟩ | ⟨hc, rfl⟩ | ⟨hc, rfl⟩
    · exact Dec.next_tag (i := .comprLz4) (Dec.fetch_compr hp (by rw [hc]; rfl))
        (Dec.comprTag_unpacks hp hinp hcl hsl hc h)
    · exact Dec.next_tag (i := .comprZstd) (Dec.fetch_compr hp (by rw [hc]; rfl))
        (Dec.comprTag_unpacks hp hinp hcl hsl hc h)
    · exact Dec.next_tag (i := .comprZlib) (Dec.fetch_compr hp (by rw [hc]; rfl))
        (Dec.comprTag_unpacks hp hinp hcl hsl hc h)
    · exact Dec.next_tag (i := .comprBzip2) (Dec.fetch_compr hp (by rw [hc]; rfl))
        (Dec.comprTag_unpacks hp hinp hcl hsl hc h)

end

end

/-! ### The header -/

theorem fromBe16_wireHdr (e c : BitVec 16) (cl sl : Word) (rest : List Byte) :
    fromBe16 (((wireHdrBytes e c cl sl ++ rest).drop 4).take 2) = e := by
  exact fromBe16_be16 e

theorem Dec.next_wire {d : Dec} {e c : BitVec 16} {cl sl : Word} {rest : List Byte} (hp : d.pos = .wire)
    (hinp : d.inp = wireHdrBytes e c cl sl ++ rest) (hwf : (Instr.wireHdr e c cl sl).wf = true) :
    d.next = { d.drop (wireHdrLen e) with
      enc := e, compr := c, complen := cl.toNat, srclen := sl.toNat
      recLen := wireHdrLen e + cl.toNat, pos := .enc } := by
  have hparse := parseWire_append e c cl sl rest hwf
  have hfetch : d.fetch = (some (.wireHdr e c cl sl), d.drop (wireHdrLen e)) := by
    simp only [Dec.fetch, hp, hinp, hparse, fromBe16_wireHdr, Dec.fetched]
  exact Dec.next_eq hfetch (if_pos hp)

/-- The cursors of `SEL.DEC` where the header and its two tags are read, and the source goes to its decoder. -/
def State.headed (s : State) (e c : BitVec 16) (complen srclen : Nat) : Dec :=
  { (s.begin .sel).drop (wireHdrLen e) with
    enc := e, compr := c, complen := complen, srclen := srclen, recLen := wireHdrLen e + complen, pos := .compr }

/-- A wire record as 45_selector R223 writes it. -/
def wireRecordOf (e c : BitVec 16) (payload src : List Byte) : List Byte :=
  wireHdrBytes e c (BitVec.ofNat 32 payload.length) (if e = 0 then 0 else BitVec.ofNat 32 src.length) ++ payload

theorem wireHdr_wf {e c : BitVec 16} (cl sl : Word) (he : e.toNat ≤ 3) (hc : c.toNat ≤ 4) :
    (Instr.wireHdr e c cl (if e = 0 then 0 else sl)).wf = true := by
  rw [Instr.wf, Bool.and_eq_true, Bool.and_eq_true, Bool.or_eq_true, bne_iff_ne, beq_iff_eq]
  refine ⟨⟨decide_eq_true he, decide_eq_true hc⟩, ?_⟩
  by_cases h0 : e = 0
  · exact .inr (if_pos h0)
  · exact .inl h0

/-- The input, and so the payload in it, is shorter than 2^32 bytes. -/
theorem State.input_length_lt (s : State) : s.input.length < 2 ^ 32 :=
  (s.readBytes_length .str s.regs.inBase.toNat s.regs.inLen.toNat).trans_lt s.regs.inLen.isLt

/-- The record's header, its tags, and its source. -/
theorem State.steps_wireRecord {s : State} {e c : BitVec 16} {payload src rest : List Byte}
    (hinp : s.input = wireRecordOf e c payload src ++ rest) (hsrc : src.length < 2 ^ 32) (hc : Unpacks c payload src)
    (he : (e = 0 ∧ src.length = s.rawSize) ∨ ((e = 1 ∨ e = 2 ∨ e = 3) ∧ checkFormatA s = none)) :
    (s.begin .sel).Steps ((s.headed e c payload.length src.length).dispatch src) := by
  have hpay := s.input_length_lt
  rw [hinp, wireRecordOf, List.length_append, List.length_append] at hpay
  have hpl : (BitVec.ofNat 32 payload.length).toNat = payload.length := Nat.mod_eq_of_lt (by omega)
  have hsl : (BitVec.ofNat 32 src.length).toNat = src.length := Nat.mod_eq_of_lt hsrc
  have he3 : e.toNat ≤ 3 := by
    rcases he with ⟨rfl, -⟩ | ⟨rfl | rfl | rfl, -⟩ <;> decide
  have hinp' := hinp.trans (List.append_assoc _ payload rest)
  have hwire := Dec.next_wire (d := s.begin .sel) rfl hinp' (wireHdr_wf _ _ he3 hc.tag_le)
  have hdrop := Dec.drop_inp (d := s.begin .sel) hinp'
  rw [wireHdrBytes_length] at hdrop
  have htags : (s.begin .sel).next.next = s.headed e c payload.length src.length := by
    rcases he with ⟨h0, hraw⟩ | ⟨hes, hf⟩
    · rw [hwire, Dec.next_encNone rfl h0, State.headed, hraw, hpl]
      rfl
    · have h0 : e ≠ 0 := by
        rcases hes with rfl | rfl | rfl <;> decide
      rw [hwire, Dec.next_encStructural rfl hes hf, State.headed, if_neg h0, hsl, hpl]
  have hcompr := Dec.next_compr (d := s.headed e c payload.length src.length) rfl hdrop rfl rfl hc
  refine .head rfl (.head (by rw [hwire]; rfl) ?_)
  rw [htags]
  exact .one rfl hcompr

end Sys2Proof.Machine
end

section
/-! SUPPORT. The raw source (45_selector R221): its rows stand in PIX, in order. -/

namespace Sys2Proof.Machine

/-- A byte of the rectangle after a raw copy: the rows do not overlap, so the one that writes it is the last to. -/
theorem State.byte_rawUnpack {s : State} {src : List Byte} (hstride : s.areaRaw.rowLen ≤ s.areaRaw.stride)
    (hsrc : src.length = s.areaRaw.rows * s.areaRaw.rowLen) {j o : Nat} (hj : j < s.areaRaw.rows)
    (ho : o < s.areaRaw.rowLen) :
    (s.rawUnpack src).byte .pix (s.areaRaw.row j + o) = src.getD (j * s.areaRaw.rowLen + o) 0 := by
  have hrows : ∀ n ≤ s.areaRaw.rows, j < n →
      ((List.range n).foldl (fun t k => t.writePix (s.areaRaw.row k)
        ((src.drop (k * s.areaRaw.rowLen)).take s.areaRaw.rowLen)) s).byte .pix (s.areaRaw.row j + o) =
        src.getD (j * s.areaRaw.rowLen + o) 0 := by
    intro n
    induction n with
    | zero => exact fun _ h => absurd h (Nat.not_lt_zero j)
    | succ n ih =>
      intro hn hjn
      have hroom : n * s.areaRaw.rowLen + s.areaRaw.rowLen ≤ src.length := by
        rw [hsrc, ← Nat.succ_mul]
        exact Nat.mul_le_mul_right _ hn
      rw [List.range_succ, List.foldl_append, List.foldl_cons, List.foldl_nil, State.byte_writePix, List.length_take,
        List.length_drop, Nat.min_eq_left (by omega)]
      rcases Nat.lt_succ_iff_lt_or_eq.1 hjn with hlt | rfl
      · have hbelow : (j + 1) * s.areaRaw.stride ≤ n * s.areaRaw.stride := Nat.mul_le_mul_right _ hlt
        rw [Nat.succ_mul] at hbelow
        rw [if_neg (by unfold Area.row; omega), ih (by omega) hlt]
      · rw [if_pos (by omega), Nat.add_sub_cancel_left, List.getD_eq_getElem?_getD, List.getElem?_take_of_lt ho,
          List.getElem?_drop, ← List.getD_eq_getElem?_getD]
  exact hrows _ (Nat.le_refl _) hj

/-- The raw token takes the source whole. -/
theorem Dec.next_raw {d : Dec} (hp : d.pos = .raw) (hlen : d.inp.length = d.rawSize) :
    d.next = { d.drop d.rawSize with rawBytes := d.inp, pos := .fin } := by
  have hfetch : d.fetch = (some (.rawPayload d.inp), d.drop d.rawSize) := by
    have htake : d.inp.take d.rawSize = d.inp := List.take_of_length_le hlen.le
    have hdecode : Sys2Proof.decode (.rawBody d.rawSize) (.bytes d.inp) = .ok (.rawPayload d.inp) := if_pos hlen
    simp only [Dec.fetch, hp, if_neg (Nat.not_lt.2 hlen.ge), htake, hdecode, Dec.fetched]
  exact Dec.next_eq hfetch (if_pos ⟨hp, hlen⟩)

section
variable {s : State} {c : BitVec 16} {payload src rest : List Byte} (hs : s.rawLaunch) (hin : s.inputFits)
  (hinp : s.input = wireRecordOf 0 c payload src ++ rest) (hc : Unpacks c payload src) (hsrc : src.length = s.rawSize)
include hs hin hinp hc hsrc

/-- `SEL.DEC` of a record without a structural method (45_selector R224, R232). -/
theorem exec_selDec_raw :
    ∃ t, exec .selDec s = .next t ∧
      t = { s with
        pix := t.pix, sess := [], dec := none
        regs := { s.regs with
          cmd := 0x51, inUsed := BitVec.ofNat 32 (12 + payload.length), res0 := 0, res1 := c.setWidth 32 }
        status := { s.status with done := true, notWorth := false, sessValid := false } } ∧
      (∀ row o, row < s.regs.rectH.toNat → o < s.regs.rectW.toNat * s.regs.pixaBpp.toNat →
        t.byte .pix (s.regs.pixaBase.toNat + (s.regs.rectY.toNat + row) * s.regs.pixaStride.toNat +
            s.regs.rectX.toNat * s.regs.pixaBpp.toNat + o) =
          src.getD (row * (s.regs.rectW.toNat * s.regs.pixaBpp.toNat) + o) 0) ∧
      SameBytes .pix (fun a => ¬ s.areaRaw.holds a) s t := by
  have hlaunch := hs
  obtain ⟨hf, ⟨hw, hh, -⟩, ⟨hbpp, hraw⟩, harea⟩ := hs
  have hpos : 0 < s.rawSize := Nat.mul_pos (Nat.mul_pos hw hh) hbpp
  have hne : src ≠ [] := List.ne_nil_of_length_pos (by omega)
  have hmax : Config.maxRectBytes < 2 ^ 32 := by decide
  obtain ⟨e, he⟩ : ∃ e, ({ s.headed 0 c payload.length src.length with
    inp := src, ip := 0, pos := .raw } : Dec).next = e := ⟨_, rfl⟩
  have hend := he.symm.trans (Dec.next_raw (d := { s.headed 0 c payload.length src.length with
    inp := src, ip := 0, pos := .raw }) rfl hsrc)
  have hsteps : (s.begin .sel).Steps e := by
    refine (State.steps_wireRecord hinp (by omega) hc (.inl ⟨rfl, hsrc⟩)).trans ?_
    rw [Dec.dispatch_raw _ _ rfl]
    exact .one rfl he
  have hdec := hsteps.decode_eq (s.begin_noSplitZero .sel) (by rw [hend]; rfl)
  have hflush : s.flush e = s.rawUnpack src := by
    rw [hend]
    exact if_neg hne
  have hexec := exec_selDec_fin hlaunch hin hdec.symm (by rw [hend])
  rw [hflush, hend] at hexec
  obtain ⟨t, ht⟩ : ∃ t, exec .selDec s = .next t := ⟨_, hexec⟩
  have heq := Host.Outcome.next.inj (ht.symm.trans hexec)
  have hpix : t.pix = (s.rawUnpack src).pix := by rw [heq]
  have hlost : t.lost = (s.rawUnpack src).lost := by rw [heq, State.rawUnpack_eq]
  refine ⟨t, ht, by rw [hpix]; exact heq, fun row o hrow ho => ?_, exec_decode_sameBytes (by simp) hf ht⟩
  have hbyte := State.byte_rawUnpack (State.rowLen_le_stride harea)
    (by rw [hsrc, State.rawSize, Nat.mul_right_comm, Nat.mul_comm]; rfl) hrow ho
  rw [← State.byte_congr (s.rawUnpack src) t .pix _ (by rw [State.mem, State.mem, hpix])
    (by rw [State.draws, State.draws, hlost])] at hbyte
  have haddr : s.regs.pixaBase.toNat + (s.regs.rectY.toNat + row) * s.regs.pixaStride.toNat +
      s.regs.rectX.toNat * s.regs.pixaBpp.toNat + o = s.areaRaw.row row + o := by
    simp only [Area.row, State.areaRaw, State.area]
    ring
  rw [haddr]
  exact hbyte

end

end Sys2Proof.Machine
end

section
/-! SUPPORT. A diff stream, decoded (44_diff R202, R207): word by word the decoder writes the pixel that opens a run and
passes over those that did not change. -/

namespace Sys2Proof.Machine

/-! ### The stream -/

theorem diffWord_length (gap : Nat) (c : Color) : (diffWord gap c).length = 4 := rfl

theorem diffScan_same {gap : Nat} {pending c : Color} {rest : List (Color × Color)} (h : gap < 255) :
    diffScan gap pending ((c, c) :: rest) = diffScan (gap + 1) pending rest := if_pos ⟨rfl, h⟩

theorem diffScan_open {gap : Nat} {pending c p : Color} {rest : List (Color × Color)} (h : ¬ (c = p ∧ gap < 255)) :
    diffScan gap pending ((c, p) :: rest) = diffWord gap pending ++ diffScan 0 c rest := if_neg h

theorem diffScan_nil (gap : Nat) (pending : Color) : diffScan gap pending [] = diffWord gap pending := rfl

/-- A diff stream is one word or more. -/
theorem diffScan_words (gap : Nat) (pending : Color) (pairs : List (Color × Color)) :
    (diffScan gap pending pairs).length % 4 = 0 ∧ diffScan gap pending pairs ≠ [] := by
  induction pairs generalizing gap pending with
  | nil =>
    rw [diffScan_nil, diffWord_length]
    exact ⟨rfl, List.cons_ne_nil _ _⟩
  | cons q rest ih =>
    obtain ⟨c, p⟩ := q
    by_cases h : c = p ∧ gap < 255
    · obtain ⟨rfl, hgap⟩ := h
      rw [diffScan_same hgap]
      exact ih (gap + 1) pending
    · rw [diffScan_open h, List.length_append, diffWord_length]
      exact ⟨by have := (ih 0 c).1; omega, List.append_ne_nil_of_left_ne_nil (List.cons_ne_nil _ _) _⟩

/-- The stream of two pictures starts its first run at position 0. -/
theorem diffEnc_cons (c p : Color) (cur prev : List Color) :
    diffEnc (c :: cur) (p :: prev) = diffScan 0 c (cur.zip prev) := rfl

/-! ### A word -/

theorem Dec.nextWord_more {d : Dec} (h : d.inp ≠ []) : d.nextWord = { d with pos := .diff } := if_neg h

theorem Dec.nextWord_fin {d : Dec} (h : d.inp = []) (hc : d.cursor = d.w * d.h) : d.nextWord = { d with pos := .fin } :=
  (if_pos h).trans (if_neg fun hne => hne hc)

/-- A word writes the pixel at the cursor and passes the ones its gap counts. -/
theorem Dec.next_diffW {d : Dec} {gap : Nat} {c : Color} {rest : List Byte} (hp : d.pos = .diff)
    (hinp : d.inp = diffWord gap c ++ rest) (hgap : gap ≤ 255) (hroom : d.cursor + gap + 1 ≤ d.w * d.h) :
    d.next = ({ d.drop 4 with px := (d.cursor, c) :: d.px, cursor := d.cursor + gap + 1 } : Dec).nextWord := by
  have hlen : ¬ d.inp.length < 4 := by rw [hinp, List.length_append, diffWord_length]; omega
  have htake : d.inp.take 4 = diffWord gap c := by rw [hinp]; exact List.take_left' rfl
  have hword : fromPayload32 (diffWord gap c) = BitVec.ofNat 8 gap ++ c := fromBe32_be32 _
  have hfetch : d.fetch = (some (.diffW (BitVec.ofNat 8 gap) c), d.drop 4) := by
    simp only [Dec.fetch, hp, if_neg hlen, htake, hword, decode_diff, decodeDiffW_append, Dec.fetched]
  have hgap8 : (BitVec.ofNat 8 gap).toNat = gap := Nat.mod_eq_of_lt (by omega)
  refine Dec.next_eq hfetch ((if_pos hp).trans (congrArg some ?_))
  rw [if_neg (by show ¬ d.w * d.h ≤ d.cursor; omega), hgap8]
  exact if_neg (by show ¬ d.w * d.h < d.cursor + gap + 1; omega)

/-! ### The runs -/

/-- One more pixel, of the picture's colour. -/
theorem Paints.cons {px : List (Nat × Color)} {grid : List Color} {P : Nat → Prop} (h : Paints px grid P) {n : Nat}
    {c : Color} (hc : grid[n]? = some c) : Paints ((n, c) :: px) grid fun m => P m ∨ m = n where
  sound p hp := by
    rcases List.mem_cons.1 hp with rfl | hp
    · exact hc
    · exact h.sound p hp
  decided m hm := by
    rcases hm with hm | rfl
    · obtain ⟨p, hp, hpm⟩ := h.decided m hm
      exact ⟨p, List.mem_cons_of_mem _ hp, hpm⟩
    · exact ⟨_, List.mem_cons_self .., rfl⟩

theorem drop_zip_cons {α : Type} {xs ys : List α} {n : Nat} {x y : α} {rest : List (α × α)}
    (h : (xs.zip ys).drop n = (x, y) :: rest) :
    xs[n]? = some x ∧ ys[n]? = some y ∧ rest = (xs.zip ys).drop (n + 1) := by
  have hget : (xs.zip ys)[n]? = some (x, y) := by
    rw [← List.head?_drop, h, List.head?_cons]
  rw [List.getElem?_zip_eq_some] at hget
  exact ⟨hget.1, hget.2, by rw [← List.tail_drop, h, List.tail_cons]⟩

/-- The open run and those behind it: every pixel from the cursor on that differs is written. -/
theorem Dec.steps_diffScan {d : Dec} {cur prev : List Color} {P : Nat → Prop} (pairs : List (Color × Color)) (gap : Nat)
    (pending : Color) (hp : d.pos = .diff) (hinp : d.inp = diffScan gap pending pairs) (hgap : gap ≤ 255)
    (hroom : d.cursor + gap + 1 ≤ d.w * d.h) (hcur : cur.length = d.w * d.h) (hprev : prev.length = cur.length)
    (hopen : cur[d.cursor]? = some pending) (hpairs : pairs = (cur.zip prev).drop (d.cursor + gap + 1))
    (h : Paints d.px cur P) :
    ∃ e, d.Restored e cur (fun n => P n ∨ n = d.cursor ∨ (d.cursor + gap < n ∧ Differs cur prev n)) d.sess := by
  have hrun : d.running = true := by rw [Dec.running, hp]
  induction pairs generalizing d gap pending P with
  | nil =>
    have hend : d.w * d.h ≤ d.cursor + gap + 1 := by
      have hdrop := List.drop_eq_nil_iff.1 hpairs.symm
      rwa [List.length_zip, hprev, Nat.min_self, hcur] at hdrop
    have hword := Dec.next_diffW (rest := []) hp (by rw [hinp, diffScan_nil, List.append_nil]) hgap hroom
    rw [Dec.nextWord_fin (List.drop_eq_nil_of_le (by rw [hinp, diffScan_nil, diffWord_length]))
      (Nat.le_antisymm hroom hend)] at hword
    refine ⟨_, .one hrun hword, rfl, rfl, rfl, (h.cons hopen).mono fun n hn => ?_⟩
    rcases hn with hn | hn | ⟨hlt, hlen, -⟩
    · exact .inl hn
    · exact .inr hn
    · omega
  | cons q rest ih =>
    obtain ⟨c, p⟩ := q
    obtain ⟨hc, hpc, hrest⟩ := drop_zip_cons hpairs.symm
    have hin : d.cursor + gap + 1 < d.w * d.h := by
      rw [← hcur]
      exact (List.getElem?_eq_some_iff.1 hc).1
    by_cases hsame : c = p ∧ gap < 255
    · obtain ⟨rfl, hgap'⟩ := hsame
      rw [diffScan_same hgap'] at hinp
      obtain ⟨e, he⟩ := ih (gap + 1) pending hp hinp hgap' hin hcur hopen hrest h hrun
      refine ⟨e, he.steps, he.pos, he.sess, he.launched, he.paints.mono fun n hn => ?_⟩
      rcases hn with hn | hn | ⟨hlt, hdiff⟩
      · exact .inl hn
      · exact .inr (.inl hn)
      · refine .inr (.inr ⟨?_, hdiff⟩)
        rcases Nat.eq_or_lt_of_le (Nat.succ_le_of_lt hlt) with rfl | hlt
        · exact absurd (by rw [List.getD_eq_getElem?_getD, List.getD_eq_getElem?_getD, hc, hpc]) hdiff.2
        · exact hlt
    · rw [diffScan_open hsame] at hinp
      have hdrop : (d.drop 4).inp = diffScan 0 c rest := Dec.drop_inp hinp
      have hword := Dec.next_diffW hp hinp hgap hroom
      rw [Dec.nextWord_more (hdrop ▸ (diffScan_words 0 c rest).2)] at hword
      obtain ⟨e, he⟩ := ih (d := { d.drop 4 with
        px := (d.cursor, pending) :: d.px, cursor := d.cursor + gap + 1, pos := .diff }) 0 c rfl hdrop (Nat.zero_le _)
        hin hcur hc hrest (h.cons hopen) rfl
      refine ⟨e, .head hrun (hword ▸ he.steps), he.pos, he.sess, he.launched, he.paints.mono fun n hn => ?_⟩
      rcases hn with hn | hn | ⟨hlt, hdiff⟩
      · exact .inl (.inl hn)
      · exact .inl (.inr hn)
      · rcases Nat.eq_or_lt_of_le (Nat.succ_le_of_lt hlt) with hn | hlt
        · exact .inr (.inl hn.symm)
        · exact .inr (.inr ⟨hlt, hdiff⟩)

/-- The whole stream of a picture against the one before it. -/
theorem Dec.steps_diff {d : Dec} {cur prev : List Color} (hwh : 0 < d.w * d.h) (hcur : cur.length = d.w * d.h)
    (hprev : prev.length = cur.length) (hinp : d.inp = diffEnc cur prev) (hpx : d.px = []) :
    ∃ e, d.startDiff.Restored e cur (Differs cur prev) d.sess ∧ d.startDiff.launched = d.launched := by
  obtain ⟨c, cs, rfl⟩ := List.exists_cons_of_length_pos (hcur ▸ hwh)
  obtain ⟨p, ps, rfl⟩ := List.exists_cons_of_length_pos (by rw [hprev, hcur]; exact hwh : 0 < prev.length)
  rw [diffEnc_cons] at hinp
  obtain ⟨hmod, hne⟩ := diffScan_words 0 c (cs.zip ps)
  have hstart : d.startDiff = { d with cursor := 0, pos := .diff } := by
    rw [Dec.startDiff, if_neg (by rw [hinp]; exact fun h => h hmod)]
    exact Dec.nextWord_more (d := { d with cursor := 0 }) (by rw [hinp]; exact hne)
  rw [hstart]
  obtain ⟨e, he⟩ := Dec.steps_diffScan (d := { d with cursor := 0, pos := .diff }) (cur := c :: cs) (prev := p :: ps)
    (cs.zip ps) 0 c rfl hinp (Nat.zero_le _) hwh hcur hprev rfl rfl (hpx ▸ Paints.nil _)
  refine ⟨e, ⟨he.steps, he.pos, he.sess, he.launched, he.paints.mono fun n hn => .inr ?_⟩, rfl⟩
  rcases Nat.eq_zero_or_pos n with rfl | hpos
  · exact .inl rfl
  · exact .inr ⟨hpos, hn⟩

end Sys2Proof.Machine
end

section
/-! SUPPORT. The quadtree over a rectangle (43_quadtree R171 to R173): the clipped squares of a node's children make its
own, and what its visit writes. -/

namespace Sys2Proof.Machine

/-! ### Squares -/

theorem mem_squarePositions {w h l r c n : Nat} :
    n ∈ squarePositions w h l r c ↔
      ∃ row col, row < h ∧ col < w ∧ row / 2 ^ l = r ∧ col / 2 ^ l = c ∧ n = row * w + col := by
  have hcell (x m k : Nat) :
      (k * 2 ^ l ≤ x ∧ x < k * 2 ^ l + (min ((k + 1) * 2 ^ l) m - k * 2 ^ l)) ↔ (x < m ∧ x / 2 ^ l = k) := by
    have hpos : 0 < 2 ^ l := Nat.two_pow_pos l
    have hlow : k ≤ x / 2 ^ l ↔ k * 2 ^ l ≤ x := Nat.le_div_iff_mul_le hpos
    have hhigh : x / 2 ^ l < k + 1 ↔ x < (k + 1) * 2 ^ l := Nat.div_lt_iff_lt_mul hpos
    rw [show x / 2 ^ l = k ↔ k ≤ x / 2 ^ l ∧ x / 2 ^ l < k + 1 by omega, hlow, hhigh]
    omega
  simp only [squarePositions, List.mem_flatMap, List.mem_map, List.mem_range'_1, hcell]
  constructor
  · rintro ⟨row, ⟨hrow, hr⟩, col, ⟨hcol, hc⟩, rfl⟩
    exact ⟨row, col, hrow, hcol, hr, hc, rfl⟩
  · rintro ⟨row, col, hrow, hcol, hr, hc, rfl⟩
    exact ⟨row, ⟨hrow, hr⟩, col, ⟨hcol, hc⟩, rfl⟩

theorem present_iff {w h l r c : Nat} : present w h l r c = true ↔ c * 2 ^ l < w ∧ r * 2 ^ l < h := by
  simp [present]

theorem mem_children {w h l r c : Nat} {p : Nat × Nat} :
    p ∈ children w h l r c ↔ p.1 / 2 = r ∧ p.2 / 2 = c ∧ present w h l p.1 p.2 = true := by
  obtain ⟨a, b⟩ := p
  simp only [children, List.mem_filter, List.mem_cons, Prod.mk.injEq, List.not_mem_nil, or_false]
  constructor
  · rintro ⟨hab, hp⟩
    exact ⟨by omega, by omega, hp⟩
  · rintro ⟨ha, hb, hp⟩
    exact ⟨by omega, hp⟩

/-- The square of a node is made of its children's. -/
theorem mem_squarePositions_succ {w h l r c n : Nat} :
    n ∈ squarePositions w h (l + 1) r c ↔ ∃ p ∈ children w h l r c, n ∈ squarePositions w h l p.1 p.2 := by
  simp only [mem_squarePositions, mem_children, pow_succ, ← Nat.div_div_eq_div_mul, present_iff]
  constructor
  · rintro ⟨row, col, hrow, hcol, hr, hc, rfl⟩
    have hpres : col / 2 ^ l * 2 ^ l < w ∧ row / 2 ^ l * 2 ^ l < h :=
      ⟨(Nat.div_mul_le_self col (2 ^ l)).trans_lt hcol, (Nat.div_mul_le_self row (2 ^ l)).trans_lt hrow⟩
    exact ⟨(row / 2 ^ l, col / 2 ^ l), ⟨hr, hc, hpres⟩, row, col, hrow, hcol, rfl, rfl, rfl⟩
  · rintro ⟨⟨r', c'⟩, ⟨hr, hc, -⟩, row, col, hrow, hcol, hr', hc', rfl⟩
    exact ⟨row, col, hrow, hcol, hr' ▸ hr, hc' ▸ hc, rfl⟩

/-- A node that is present has a pixel. -/
theorem corner_mem_squarePositions {w h l r c : Nat} (hp : present w h l r c = true) :
    r * 2 ^ l * w + c * 2 ^ l ∈ squarePositions w h l r c := by
  obtain ⟨hc, hr⟩ := present_iff.1 hp
  have hpos : 0 < 2 ^ l := Nat.two_pow_pos l
  exact mem_squarePositions.2
    ⟨_, _, hr, hc, Nat.mul_div_cancel r hpos, Nat.mul_div_cancel c hpos, rfl⟩

/-! ### The root -/

theorem le_two_pow_levelCount (m : Nat) : m ≤ 2 ^ (levelCount m - 1) := by
  unfold levelCount
  split
  · simpa using ‹m ≤ 1›
  · have hlog := Nat.lt_log2_self (n := m - 1)
    rw [Nat.add_sub_cancel (m := 1) (n := Nat.log2 (m - 1) + 1)]
    omega

/-- The root's square is the rectangle. -/
theorem mem_root_square {w h n : Nat} (hn : n < w * h) : n ∈ squarePositions w h (levelCount (max w h) - 1) 0 0 := by
  have hw : 0 < w := Nat.pos_of_mul_pos_right (Nat.zero_lt_of_lt hn)
  have hcol : n % w < w := Nat.mod_lt n hw
  have hrow : n / w < h := Nat.div_lt_of_lt_mul hn
  have hroot := le_two_pow_levelCount (max w h)
  refine mem_squarePositions.2 ⟨n / w, n % w, hrow, hcol, Nat.div_eq_of_lt (by omega), Nat.div_eq_of_lt (by omega), ?_⟩
  rw [Nat.mul_comm]
  exact (Nat.div_add_mod n w).symm

/-! ### Nodes and visits -/

/-- A parent is uniform if its children are of one colour, else it counts their leaves. -/
theorem joinNodes_cases (ch : List QNode) :
    (∃ c, (∀ n ∈ ch, n.uniform = true ∧ n.color = c) ∧
      joinNodes ch = { uniform := true, color := c, squareCount := 1, squareBits := 1 }) ∨
    ((joinNodes ch).uniform = false ∧ (joinNodes ch).squareCount = (ch.map (·.squareCount)).sum) := by
  by_cases h : (ch.all fun n => n.uniform && n.color == (ch.map (·.color)).headD 0) = true
  · exact .inl ⟨_, fun n hn => by simpa using List.all_eq_true.1 h n hn, if_pos h⟩
  · have hjoin : joinNodes ch = _ := if_neg h
    exact .inr ⟨by rw [hjoin], by rw [hjoin]⟩

theorem joinNodes_uniform {ch : List QNode} (h : (joinNodes ch).uniform = true) :
    (∀ n ∈ ch, n.uniform = true ∧ n.color = (joinNodes ch).color) ∧ (joinNodes ch).squareCount = 1 := by
  rcases joinNodes_cases ch with ⟨c, hall, hjoin⟩ | ⟨hmixed, -⟩
  · rw [hjoin]
    exact ⟨hall, rfl⟩
  · rw [hmixed] at h
    cases h

theorem joinNodes_mixed {ch : List QNode} (h : (joinNodes ch).uniform = false) :
    (joinNodes ch).squareCount = (ch.map (·.squareCount)).sum := by
  rcases joinNodes_cases ch with ⟨c, -, hjoin⟩ | ⟨-, hsum⟩
  · rw [hjoin] at h
    cases h
  · exact hsum

/-- A uniform node's square has its colour. -/
theorem getD_of_uniform {grid : List Color} {w h l r c n : Nat} (hu : (qtNode grid w h l r c).uniform = true)
    (hn : n ∈ squarePositions w h l r c) : grid.getD n 0 = (qtNode grid w h l r c).color := by
  induction l generalizing r c with
  | zero =>
    obtain ⟨row, col, -, -, hr, hc, rfl⟩ := mem_squarePositions.1 hn
    rw [pow_zero, Nat.div_one] at hr hc
    rw [hr, hc]
    rfl
  | succ l ih =>
    obtain ⟨p, hp, hn⟩ := mem_squarePositions_succ.1 hn
    obtain ⟨hchild, hcolor⟩ := (joinNodes_uniform hu).1 _ (List.mem_map_of_mem hp)
    rw [ih hchild hn, hcolor]
    rfl

theorem qtVisit_uniform {grid : List Color} {w h l r c : Nat} (hu : (qtNode grid w h (l + 1) r c).uniform = true) :
    qtVisit grid w h (l + 1) r c = ([false], [(qtNode grid w h (l + 1) r c).color]) := if_pos hu

theorem qtVisit_mixed {grid : List Color} {w h l r c : Nat} (hu : (qtNode grid w h (l + 1) r c).uniform = false) :
    qtVisit grid w h (l + 1) r c =
      (true :: (children w h l r c).flatMap fun p => (qtVisit grid w h l p.1 p.2).1,
        (children w h l r c).flatMap fun p => (qtVisit grid w h l p.1 p.2).2) := by
  have hmixed : ¬ (qtNode grid w h (l + 1) r c).uniform = true := by rw [hu]; exact Bool.false_ne_true
  refine (if_neg hmixed).trans ?_
  rw [List.flatMap_map, List.flatMap_map]

/-- The leaves a visit writes are the squares the node counts. -/
theorem qtVisit_leaves_length (grid : List Color) (w h l r c : Nat) :
    (qtVisit grid w h l r c).2.length = (qtNode grid w h l r c).squareCount := by
  induction l generalizing r c with
  | zero => rfl
  | succ l ih =>
    cases hu : (qtNode grid w h (l + 1) r c).uniform with
    | true => rw [qtVisit_uniform hu]; exact (joinNodes_uniform hu).2.symm
    | false =>
      have hcount := joinNodes_mixed hu
      rw [List.map_map] at hcount
      rw [qtVisit_mixed hu]
      refine List.length_flatMap.trans (Eq.trans ?_ hcount.symm)
      exact congrArg List.sum (List.map_congr_left fun p _ => ih p.1 p.2)

/-! ### The number of leaves -/

/-- The side of a node's square that lies in a rectangle of that side. -/
def clippedSide (m l k : Nat) : Nat := min ((k + 1) * 2 ^ l) m - k * 2 ^ l

theorem clippedSide_succ (m l k : Nat) :
    clippedSide m (l + 1) k = clippedSide m l (2 * k) + clippedSide m l (2 * k + 1) := by
  unfold clippedSide
  have h1 : (2 * k + 1) * 2 ^ l = k * 2 ^ (l + 1) + 2 ^ l := by ring
  have h2 : (2 * k + 1 + 1) * 2 ^ l = k * 2 ^ (l + 1) + 2 ^ l + 2 ^ l := by ring
  have h3 : (k + 1) * 2 ^ (l + 1) = k * 2 ^ (l + 1) + 2 ^ l + 2 ^ l := by ring
  have h4 : 2 * k * 2 ^ l = k * 2 ^ (l + 1) := by ring
  rw [h1, h2, h3, h4]
  omega

theorem clippedSide_pos {m l k : Nat} (h : k * 2 ^ l < m) : 0 < clippedSide m l k := by
  have hpos : 0 < 2 ^ l := Nat.two_pow_pos l
  unfold clippedSide
  rw [Nat.succ_mul]
  omega

/-- A node has no more leaves than pixels. -/
theorem squareCount_le (grid : List Color) (w h l r c : Nat) (hp : present w h l r c = true) :
    (qtNode grid w h l r c).squareCount ≤ clippedSide h l r * clippedSide w l c := by
  obtain ⟨hc, hr⟩ := present_iff.1 hp
  have hone : 1 ≤ clippedSide h l r * clippedSide w l c := Nat.mul_pos (clippedSide_pos hr) (clippedSide_pos hc)
  induction l generalizing r c with
  | zero => exact hone
  | succ l ih =>
    cases hu : (qtNode grid w h (l + 1) r c).uniform with
    | true => exact (joinNodes_uniform hu).2.le.trans hone
    | false =>
      have hcount := joinNodes_mixed hu
      rw [List.map_map] at hcount
      calc (qtNode grid w h (l + 1) r c).squareCount
          = ((children w h l r c).map fun p => (qtNode grid w h l p.1 p.2).squareCount).sum := hcount
        _ ≤ ((children w h l r c).map fun p => clippedSide h l p.1 * clippedSide w l p.2).sum :=
            List.sum_le_sum fun p hp => by
              obtain ⟨-, -, hpres⟩ := mem_children.1 hp
              obtain ⟨hc, hr⟩ := present_iff.1 hpres
              exact ih p.1 p.2 hpres hc hr (Nat.mul_pos (clippedSide_pos hr) (clippedSide_pos hc))
        _ ≤ (([(2 * r, 2 * c), (2 * r, 2 * c + 1), (2 * r + 1, 2 * c), (2 * r + 1, 2 * c + 1)]).map
              fun p : Nat × Nat => clippedSide h l p.1 * clippedSide w l p.2).sum :=
            (List.filter_sublist.map _).sum_le_sum fun _ _ => Nat.zero_le _
        _ = clippedSide h (l + 1) r * clippedSide w (l + 1) c := by
            rw [clippedSide_succ, clippedSide_succ]
            simp only [List.map_cons, List.map_nil, List.sum_cons, List.sum_nil]
            ring

end Sys2Proof.Machine
end

section
/-! SUPPORT. A quadtree container, decoded (43_quadtree R181 to R188): node by node the decoder reads back the visit of
the encoder and fills the squares of its leaves. -/

namespace Sys2Proof.Machine

/-! ### Leaf colours (R177, R178, R181) -/

/-- How the encoder writes a leaf's colour: in the width the decoder reads, as a number it takes for that colour. -/
structure QtPlan.Codes (p : QtPlan) (grid : List Color) : Prop where
  bits : qtColorBits p.written.length = p.colorBits
  legal : Config.qtColorWidths.contains p.colorBits = true
  leaf : ∀ c ∈ grid, ∃ v < 2 ^ p.colorBits, qtColourBits p c = bitsOf p.colorBits v ∧
    ∀ d : Dec, d.pal = p.written → d.leafColor (BitVec.ofNat 32 v) = some c

theorem qtWidth_spec {n : Nat} (h : n ≤ 2 ^ 32) :
    n ≤ 2 ^ qtWidth n ∧ Config.qtColorWidths.contains (qtWidth n) = true := by
  rw [qtWidth_eq]
  split_ifs <;> simp [Config.qtColorWidths] <;> omega

/-- A palette without repetitions has at most 2^24 colours. -/
theorem length_le_of_nodup {pal : List Color} (h : pal.Nodup) : pal.length ≤ 2 ^ 24 := by
  have hmap : (pal.map BitVec.toNat).Nodup := h.map BitVec.toNat_injective
  have hsub : (pal.map BitVec.toNat).toFinset ⊆ Finset.range (2 ^ 24) := fun n hn => by
    obtain ⟨c, -, rfl⟩ := List.mem_map.1 (List.mem_toFinset.1 hn)
    exact Finset.mem_range.2 c.isLt
  have hcard := Finset.card_le_card hsub
  rwa [List.toFinset_card_of_nodup hmap, List.length_map, Finset.card_range] at hcard

/-- The palette scan of a rectangle does not overflow: it has every colour. -/
theorem palBuild_firstSeen (grid : List Color) : FirstSeen grid (palBuild grid Config.palMax).1 := by
  rcases palBuild grid Config.palMax, palBuild_scanned grid Config.palMax (by decide) with
    ⟨_, ⟨seen, rest, pal, -, h, hlen⟩ | ⟨pal, h, -⟩⟩
  · have hle := length_le_of_nodup h.nodup
    rw [hlen] at hle
    exact absurd hle (by decide)
  · exact h

theorem qtPlan_colorBits (grid : List Color) (w h : Nat) :
    (qtPlan grid w h).colorBits =
      if (qtPlan grid w h).usePalette = true then qtWidth (qtPlan grid w h).pal.length else 32 := by
  simp only [qtPlan, decide_eq_true_eq]
  rfl

/-- With a palette the entries are indices into it. -/
theorem QtPlan.codes_of_palette {p : QtPlan} {grid : List Color} (hseen : FirstSeen grid p.pal) (hne : grid ≠ [])
    (hu : p.usePalette = true) (hbits : p.colorBits = qtWidth p.pal.length) : p.Codes grid := by
  have hwritten : p.written = p.pal := if_pos hu
  have hpos := hseen.length_pos hne
  have hle := length_le_of_nodup hseen.nodup
  obtain ⟨hpow, hlegal⟩ := qtWidth_spec (n := p.pal.length) (by omega)
  refine ⟨?_, hbits ▸ hlegal, fun c hc => ⟨palIndex p.pal c, ?_, congrArg (bitsOf _) (if_pos hu), fun d hd => ?_⟩⟩
  · rw [hwritten, hbits]
    exact if_neg hpos.ne'
  · rw [hbits]
    exact (List.idxOf_lt_length_of_mem ((hseen.mem c).2 hc)).trans_le hpow
  · have hlt : palIndex p.pal c < p.pal.length := List.idxOf_lt_length_of_mem ((hseen.mem c).2 hc)
    have hword : (BitVec.ofNat 32 (palIndex p.pal c)).toNat = palIndex p.pal c := Nat.mod_eq_of_lt (by omega)
    rw [Dec.leafColor, hd, hwritten, if_neg (List.ne_nil_of_length_pos hpos), hword, List.getElem?_eq_getElem hlt]
    exact congrArg some (List.getElem_idxOf hlt)

/-- Without one they are the colours. -/
theorem QtPlan.codes_of_colours {p : QtPlan} (grid : List Color) (hu : p.usePalette = false)
    (hbits : p.colorBits = 32) : p.Codes grid := by
  have hplain : ¬ p.usePalette = true := by rw [hu]; exact Bool.false_ne_true
  have hwritten : p.written = [] := if_neg hplain
  refine ⟨?_, hbits ▸ by decide, fun c _ => ⟨c.toNat, ?_, congrArg (bitsOf _) (if_neg hplain), fun d hd => ?_⟩⟩
  · rw [hwritten, hbits]
    rfl
  · rw [hbits]
    exact c.isLt.trans (by decide)
  · rw [Dec.leafColor, hd, hwritten, if_pos rfl]
    rw [BitVec.ofNat_toNat]
    exact congrArg some (color_pixelOf c)

theorem qtPlan_codes {grid : List Color} (w h : Nat) (hne : grid ≠ []) : (qtPlan grid w h).Codes grid := by
  have hbits := qtPlan_colorBits grid w h
  cases hu : (qtPlan grid w h).usePalette with
  | true => exact QtPlan.codes_of_palette (palBuild_firstSeen grid) hne hu (by rw [hbits, if_pos hu])
  | false => exact QtPlan.codes_of_colours grid hu (by rw [hbits, hu]; rfl)

/-! ### One node -/

/-- The cursors in the two streams of a container: what is read, and what is still to come. -/
structure Dec.Reads (d : Dec) (p : QtPlan) (bits bits' : List Bool) (leaves leaves' : List Color) : Prop where
  inp : d.inp = packBits ((leaves ++ leaves').flatMap (qtColourBits p)) ++ packBits (bits ++ bits')
  bitpos : d.bitpos = (leaves.flatMap (qtColourBits p)).length
  splitpos : d.splitpos = bits.length
  leafCount : d.leafCount = (leaves ++ leaves').length
  leaves : d.leaves = leaves.length
  pal : d.pal = p.written

/-- The streams do not depend on the node. -/
theorem Dec.Reads.moved {d : Dec} {p : QtPlan} {bits bits' : List Bool} {leaves leaves' : List Color}
    (hr : d.Reads p bits bits' leaves leaves') (pos : Pos) (stack : List (Nat × Nat × Nat)) :
    ({ d with pos := pos, stack := stack } : Dec).Reads p bits bits' leaves leaves' :=
  ⟨hr.inp, hr.bitpos, hr.splitpos, hr.leafCount, hr.leaves, hr.pal⟩

/-- One split bit is read. -/
theorem Dec.Reads.pastSplit {d : Dec} {p : QtPlan} {b : Bool} {bits bits' : List Bool} {leaves leaves' : List Color}
    (hr : d.Reads p bits (b :: bits') leaves leaves') (pos : Pos) (stack : List (Nat × Nat × Nat)) :
    ({ d with splitpos := d.splitpos + 1, pos := pos, stack := stack } : Dec).Reads p (bits ++ [b]) bits' leaves
      leaves' :=
  ⟨by rw [← List.append_cons]; exact hr.inp, hr.bitpos, by rw [List.length_append, ← hr.splitpos]; rfl,
    hr.leafCount, hr.leaves, hr.pal⟩

theorem length_flatMap_qtColourBits (p : QtPlan) (cs : List Color) :
    (cs.flatMap (qtColourBits p)).length = cs.length * p.colorBits := by
  simp [List.length_flatMap, qtColourBits]

theorem Paints.square {px : List (Nat × Color)} {grid : List Color} {P : Nat → Prop} (h : Paints px grid P)
    {col : Color} (ns : List Nat) (hns : ∀ n ∈ ns, grid[n]? = some col) :
    Paints (ns.foldl (fun px n => (n, col) :: px) px) grid fun m => P m ∨ m ∈ ns := by
  induction ns generalizing px P with
  | nil => exact h.mono fun m hm => hm.elim id fun hm => (by cases hm)
  | cons n ns ih =>
    have hpaints := ih (h.cons (hns n (List.mem_cons_self ..))) fun m hm => hns m (List.mem_cons_of_mem n hm)
    refine hpaints.mono fun m hm => ?_
    rcases hm with hm | hm
    · exact .inl (.inl hm)
    · exact (List.mem_cons.1 hm).imp .inr id

section
variable {d : Dec} {p : QtPlan} {grid : List Color} {bits bits' : List Bool} {leaves leaves' : List Color}
  (hcodes : p.Codes grid)
include hcodes

theorem Dec.Reads.colorLen (hr : d.Reads p bits bits' leaves leaves') :
    d.colorLen = (packBits ((leaves ++ leaves').flatMap (qtColourBits p))).length := by
  rw [Dec.colorLen, hr.leafCount, hr.pal, hcodes.bits, packBits_length, length_flatMap_qtColourBits]

theorem Dec.Reads.splitLen (hr : d.Reads p bits bits' leaves leaves') :
    d.splitLen = (packBits (bits ++ bits')).length := by
  rw [Dec.splitLen, hr.colorLen hcodes, hr.inp, List.length_append, Nat.add_sub_cancel_left]

/-- A split bit is the next of the visit. -/
theorem Dec.fetchSplit_reads {b : Bool} (hr : d.Reads p bits (b :: bits') leaves leaves') :
    d.fetchSplit = (some (if b = true then .split1 else .split0), { d with splitpos := d.splitpos + 1 }) := by
  have hget := Dec.getBits_packBits (d := d) (before := packBits ((leaves ++ leaves').flatMap (qtColourBits p)))
    (pre := bits) (part := [b]) (post := bits') (after := []) (by rw [hr.inp, List.append_nil, List.append_cons bits])
    (by rw [List.length_singleton]; decide)
  rw [← hr.colorLen hcodes, ← hr.splitpos, List.length_singleton] at hget
  have hlen := hr.splitLen hcodes
  rw [List.append_cons] at hlen
  rw [Dec.fetchSplit, hlen, hget]
  cases b
  · rfl
  · rfl

omit hcodes in
theorem Dec.apply_qtColor {l r c n : Nat} {v : Word} {col : Color} (hp : d.pos = .leaf l r c)
    (hn : n = qtColorBits d.pal.length) (hcol : d.leafColor v = some col) :
    d.apply (.qtColor n v) = some ({ d with
      leaves := d.leaves + 1
      px := (squarePositions d.w d.h l r c).foldl (fun px n => (n, col) :: px) d.px } : Dec).nextNode := by
  rw [Dec.apply, Dec.qtColor]
  split
  · rename_i h
    obtain ⟨rfl, rfl, rfl⟩ := Pos.leaf.inj (hp.symm.trans h)
    rw [if_pos hn, hcol]
  · rename_i h
    exact absurd hp (h l r c)

/-- A leaf's entry gives its colour, and the square is filled. -/
theorem Dec.next_leaf {l r c : Nat} {col : Color} (hp : d.pos = .leaf l r c) (hcol : col ∈ grid)
    (hr : d.Reads p bits bits' leaves (col :: leaves')) :
    d.next = ({ d with
      bitpos := d.bitpos + p.colorBits, leaves := d.leaves + 1
      px := (squarePositions d.w d.h l r c).foldl (fun px n => (n, col) :: px) d.px } : Dec).nextNode := by
  obtain ⟨v, hv, hbits, hleaf⟩ := hcodes.leaf col hcol
  have hwidth : p.colorBits ≤ 32 := by
    have hmem := List.contains_iff_mem.1 hcodes.legal
    simp only [Config.qtColorWidths, List.mem_cons, List.not_mem_nil, or_false] at hmem
    omega
  have hget := Dec.getBits_packBits (d := d) (before := []) (pre := leaves.flatMap (qtColourBits p))
    (part := bitsOf p.colorBits v) (post := leaves'.flatMap (qtColourBits p)) (after := packBits (bits ++ bits'))
    (by rw [hr.inp, List.flatMap_append, List.flatMap_cons, hbits, List.nil_append,
      ← List.append_assoc (as := leaves.flatMap _)])
    (by rwa [bitsOf_length])
  have hlen := hr.colorLen hcodes
  rw [List.flatMap_append, List.flatMap_cons, hbits, ← List.append_assoc] at hlen
  rw [← hlen, ← hr.bitpos, bitsOf_length, natOfBits_bitsOf, Nat.mod_eq_of_lt hv] at hget
  have hcount : ¬ d.leaves = d.leafCount := by
    rw [hr.leaves, hr.leafCount, List.length_append, List.length_cons]
    omega
  have hcolorBits : qtColorBits d.pal.length = p.colorBits := by rw [hr.pal, hcodes.bits]
  have hdecode : Sys2Proof.decode (.qtColor p.colorBits) (.word p.colorBits v) =
      .ok (.qtColor p.colorBits (BitVec.ofNat 32 v)) := by
    rw [Sys2Proof.decode, if_pos hcodes.legal]
    exact if_pos ⟨rfl, hv⟩
  have hfetch : d.fetch = d.fetchBits p.colorBits d.colorLen (.qtColor p.colorBits) := by
    simp only [Dec.fetch, hp, if_neg hcount, hcolorBits]
  refine Dec.next_eq (hfetch.trans (Dec.fetchBits_eq hget hdecode)) ?_
  exact Dec.apply_qtColor (d := { d with bitpos := d.bitpos + p.colorBits }) hp hcolorBits.symm
    (hleaf { d with bitpos := d.bitpos + p.colorBits } hr.pal)

omit hcodes in
theorem Dec.fetch_split {l r c : Nat} (hp : d.pos = .split l r c) : d.fetch = d.fetchSplit := by
  simp only [Dec.fetch, hp]

theorem Dec.next_split0 {l r c : Nat} (hp : d.pos = .split l r c)
    (hr : d.Reads p bits (false :: bits') leaves leaves') :
    d.next = { d with splitpos := d.splitpos + 1, pos := .leaf l r c } := by
  refine Dec.next_eq ((Dec.fetch_split hp).trans (Dec.fetchSplit_reads hcodes hr)) ?_
  show Dec.split0 { d with splitpos := d.splitpos + 1 } = _
  rw [Dec.split0]
  split
  · rename_i h
    obtain ⟨rfl, rfl, rfl⟩ := Pos.split.inj (hp.symm.trans h)
    rfl
  · rename_i h
    exact absurd hp (h l r c)

theorem Dec.next_split1 {l r c : Nat} (hp : d.pos = .split (l + 1) r c)
    (hr : d.Reads p bits (true :: bits') leaves leaves') :
    d.next = ({ d with
      splitpos := d.splitpos + 1
      stack := (children d.w d.h l r c).map (fun q => (l, q.1, q.2)) ++ d.stack } : Dec).nextNode := by
  refine Dec.next_eq ((Dec.fetch_split hp).trans (Dec.fetchSplit_reads hcodes hr)) ?_
  show Dec.split1 { d with splitpos := d.splitpos + 1 } = _
  rw [Dec.split1]
  split
  · rename_i h
    obtain ⟨hl, rfl, rfl⟩ := Pos.split.inj (hp.symm.trans h)
    obtain rfl := Nat.succ.inj hl
    rfl
  · rename_i h
    exact absurd hp (h l r c)

end

/-! ### The visit -/

/-- Where the decoder is after some nodes, the rest of the stack untouched. -/
structure Dec.Visited (d e : Dec) (p : QtPlan) (grid : List Color) (bits bits' : List Bool)
    (leaves leaves' : List Color) (rest : List (Nat × Nat × Nat)) (P : Nat → Prop) : Prop where
  reads : e.Reads p bits bits' leaves leaves'
  stack : e.stack = rest
  launched : e.launched = d.launched
  sess : e.sess = d.sess
  paints : Paints e.px grid P

/-- The decoder reads back every node of a level. -/
def VisitsLevel (p : QtPlan) (grid : List Color) (w h l : Nat) : Prop :=
  ∀ (d : Dec) (r c : Nat) (bits bits' : List Bool) (leaves leaves' : List Color) (rest : List (Nat × Nat × Nat))
    (P : Nat → Prop), d.w = w → d.h = h → present w h l r c = true → d.stack = (l, r, c) :: rest →
    d.Reads p bits ((qtVisit grid w h l r c).1 ++ bits') leaves ((qtVisit grid w h l r c).2 ++ leaves') →
    Paints d.px grid P →
    ∃ e, d.nextNode.Steps e.nextNode ∧
      d.Visited e p grid (bits ++ (qtVisit grid w h l r c).1) bits' (leaves ++ (qtVisit grid w h l r c).2) leaves' rest
        fun n => P n ∨ n ∈ squarePositions w h l r c

section
variable {p : QtPlan} {grid : List Color} {w h : Nat} (hcodes : p.Codes grid) (hgrid : grid.length = w * h)

/-- Several nodes of one level. -/
theorem VisitsLevel.nodes {l : Nat} (hl : VisitsLevel p grid w h l) (ps : List (Nat × Nat)) {d : Dec}
    {bits bits' : List Bool} {leaves leaves' : List Color} {rest : List (Nat × Nat × Nat)} {P : Nat → Prop}
    (hw : d.w = w) (hh : d.h = h) (hps : ∀ q ∈ ps, present w h l q.1 q.2 = true)
    (hstack : d.stack = ps.map (fun q => (l, q.1, q.2)) ++ rest)
    (hr : d.Reads p bits (ps.flatMap (fun q => (qtVisit grid w h l q.1 q.2).1) ++ bits') leaves
      (ps.flatMap (fun q => (qtVisit grid w h l q.1 q.2).2) ++ leaves'))
    (hpx : Paints d.px grid P) :
    ∃ e, d.nextNode.Steps e.nextNode ∧
      d.Visited e p grid (bits ++ ps.flatMap fun q => (qtVisit grid w h l q.1 q.2).1) bits'
        (leaves ++ ps.flatMap fun q => (qtVisit grid w h l q.1 q.2).2) leaves' rest
        fun n => P n ∨ ∃ q ∈ ps, n ∈ squarePositions w h l q.1 q.2 := by
  induction ps generalizing d bits leaves P with
  | nil =>
    refine ⟨d, .refl _, ?_, hstack, rfl, rfl, hpx.mono fun n hn => ?_⟩
    · rwa [List.flatMap_nil, List.append_nil, List.flatMap_nil, List.append_nil]
    · rcases hn with hn | ⟨q, hq, -⟩
      · exact hn
      · cases hq
  | cons q ps ih =>
    simp only [List.flatMap_cons, List.append_assoc] at hr ⊢
    obtain ⟨e, hsteps, he⟩ := hl d q.1 q.2 _ _ _ _ _ P hw hh (hps q (List.mem_cons_self ..)) hstack hr hpx
    have hew : e.w = w := (congrArg (·.1.2.1) he.launched).trans hw
    have heh : e.h = h := (congrArg (·.1.2.2.1) he.launched).trans hh
    obtain ⟨f, hsteps', hf⟩ := ih hew heh (fun q' hq' => hps q' (List.mem_cons_of_mem q hq')) he.stack he.reads
      he.paints
    refine ⟨f, hsteps.trans hsteps', ?_, hf.stack, hf.launched.trans he.launched, hf.sess.trans he.sess,
      hf.paints.mono fun n hn => ?_⟩
    · simpa only [List.append_assoc] using hf.reads
    · rcases hn with hn | ⟨q', hq', hn⟩
      · exact .inl (.inl hn)
      · rcases List.mem_cons.1 hq' with rfl | hq'
        · exact .inl (.inr hn)
        · exact .inr ⟨q', hq', hn⟩

include hcodes hgrid

/-- A uniform node is a leaf of its colour. -/
theorem Dec.visited_leaf {d : Dec} {l r c : Nat} {bits bits' : List Bool} {leaves leaves' : List Color} {P : Nat → Prop}
    (hw : d.w = w) (hh : d.h = h) (hpres : present w h l r c = true) (hu : (qtNode grid w h l r c).uniform = true)
    (hp : d.pos = .leaf l r c) (hr : d.Reads p bits bits' leaves ((qtNode grid w h l r c).color :: leaves'))
    (hpx : Paints d.px grid P) :
    ∃ e, d.Steps e.nextNode ∧
      d.Visited e p grid bits bits' (leaves ++ [(qtNode grid w h l r c).color]) leaves' d.stack
        fun n => P n ∨ n ∈ squarePositions w h l r c := by
  have hget : ∀ n ∈ squarePositions w h l r c, grid[n]? = some (qtNode grid w h l r c).color := by
    intro n hn
    have hlt : n < grid.length := hgrid ▸ squarePositions_lt w h l r c n hn
    rw [← getD_of_uniform hu hn, List.getD_eq_getElem _ 0 hlt, List.getElem?_eq_getElem hlt]
  have hcol : (qtNode grid w h l r c).color ∈ grid := List.mem_of_getElem? (hget _ (corner_mem_squarePositions hpres))
  have hnext : d.next = ({ d with
      bitpos := d.bitpos + p.colorBits, leaves := d.leaves + 1
      px := (squarePositions w h l r c).foldl (fun px n => (n, (qtNode grid w h l r c).color) :: px) d.px }
      : Dec).nextNode := by
    have hleaf := Dec.next_leaf hcodes hp hcol hr
    subst hw hh
    exact hleaf
  refine ⟨_, .one (by rw [Dec.running, hp]) hnext, ?_, rfl, rfl, rfl, hpx.square _ hget⟩
  refine ⟨?_, ?_, hr.splitpos, ?_, ?_, hr.pal⟩
  · rw [List.append_assoc]
    exact hr.inp
  · rw [List.flatMap_append, List.length_append, ← hr.bitpos, length_flatMap_qtColourBits p [_], List.length_singleton,
      Nat.one_mul]
  · rw [List.append_assoc]
    exact hr.leafCount
  · rw [List.length_append, List.length_singleton, ← hr.leaves]

/-- Every level is read back, from the leaves up. -/
theorem visitsLevel (l : Nat) : VisitsLevel p grid w h l := by
  induction l with
  | zero =>
    intro d r c bits bits' leaves leaves' rest P hw hh hpres hstack hr hpx
    have hnode : d.nextNode = { d with pos := .leaf 0 r c, stack := rest } := by rw [Dec.nextNode, hstack]
    obtain ⟨e, hsteps, he⟩ := Dec.visited_leaf (d := { d with pos := .leaf 0 r c, stack := rest }) hcodes hgrid hw hh
      hpres rfl rfl (hr.moved _ _) hpx
    refine ⟨e, hnode ▸ hsteps, ?_, he.stack, he.launched, he.sess, he.paints⟩
    have hreads := he.reads
    rwa [← List.append_nil bits] at hreads
  | succ l ih =>
    intro d r c bits bits' leaves leaves' rest P hw hh hpres hstack hr hpx
    have hnode : d.nextNode = { d with pos := .split (l + 1) r c, stack := rest } := by rw [Dec.nextNode, hstack]
    rw [hnode]
    cases hu : (qtNode grid w h (l + 1) r c).uniform with
    | true =>
      rw [qtVisit_uniform hu] at hr ⊢
      have hnext := Dec.next_split0 (d := { d with pos := .split (l + 1) r c, stack := rest }) hcodes rfl (hr.moved _ _)
      obtain ⟨e, hsteps, he⟩ := Dec.visited_leaf (d := { d with
          splitpos := d.splitpos + 1, pos := .leaf (l + 1) r c, stack := rest }) hcodes hgrid hw hh hpres hu rfl
        (hr.pastSplit _ _) hpx
      exact ⟨e, .head rfl (hnext ▸ hsteps), he.reads, he.stack, he.launched, he.sess, he.paints⟩
    | false =>
      rw [qtVisit_mixed hu] at hr ⊢
      have hnext := Dec.next_split1 (d := { d with pos := .split (l + 1) r c, stack := rest }) hcodes rfl (hr.moved _ _)
      obtain ⟨e, hsteps, he⟩ := ih.nodes (children w h l r c) (d := { d with
          splitpos := d.splitpos + 1, pos := .split (l + 1) r c
          stack := (children d.w d.h l r c).map (fun q => (l, q.1, q.2)) ++ rest })
        hw hh (fun q hq => (mem_children.1 hq).2.2) (by rw [hw, hh]) (hr.pastSplit _ _) hpx
      refine ⟨e, .head rfl (hnext ▸ hsteps), ?_, he.stack, he.launched, he.sess, he.paints.mono fun n hn => ?_⟩
      · have hreads := he.reads
        rwa [← List.append_cons] at hreads
      · exact hn.imp_right mem_squarePositions_succ.1

end

/-! ### The container -/

theorem qtEnc_stream {grid : List Color} {w h : Nat} {src : List Byte} (hq : qtEnc grid w h = .stream src) :
    src = qtBlobBytes ((qtPlan grid w h).written.map pixelOf) (BitVec.ofNat 32 (qtPlan grid w h).leafCount)
      (packBits ((qtVisit grid w h (levelCount (max w h) - 1) 0 0).2.flatMap (qtColourBits (qtPlan grid w h))))
      (packBits (qtVisit grid w h (levelCount (max w h) - 1) 0 0).1) := by
  simp only [qtEnc] at hq
  split at hq
  · cases hq
  · split at hq
    · cases hq
    · exact (QtResult.stream.inj hq).symm

/-- The root of a rectangle with pixels is present. -/
theorem present_root {w h : Nat} (hw : 0 < w) (hh : 0 < h) : present w h (levelCount (max w h) - 1) 0 0 = true :=
  present_iff.2 ⟨by omega, by omega⟩

theorem leafCount_le {w h : Nat} (grid : List Color) (hw : 0 < w) (hh : 0 < h) :
    (qtPlan grid w h).leafCount ≤ w * h := by
  have hroot := squareCount_le grid w h _ 0 0 (present_root hw hh)
  have hside (m : Nat) : clippedSide m (levelCount (max w h) - 1) 0 ≤ m := by
    unfold clippedSide
    omega
  exact hroot.trans ((Nat.mul_le_mul (hside h) (hside w)).trans (Nat.mul_comm h w).le)

/-- The leaves visited are all, and the split stream is used up (43_quadtree R188). -/
theorem Dec.nextNode_end {d : Dec} {p : QtPlan} {grid : List Color} {bits : List Bool} {leaves : List Color}
    (hcodes : p.Codes grid) (hr : d.Reads p bits [] leaves []) (hstack : d.stack = []) :
    d.nextNode = { d with pos := .fin } := by
  have hleaves : d.leaves = d.leafCount := by rw [hr.leaves, hr.leafCount, List.append_nil]
  have hsplits : brConsumed d.splitpos = d.splitLen := by
    rw [hr.splitLen hcodes, hr.splitpos, List.append_nil, packBits_length]
    rfl
  simp only [Dec.nextNode, hstack]
  rw [if_neg fun hne => hne hleaves, if_neg fun hne => hne hsplits]

theorem map_color_pixelOf (cs : List Color) : (cs.map pixelOf).map color = cs := by
  rw [List.map_map]
  exact (List.map_congr_left fun c _ => color_pixelOf c).trans (List.map_id _)

theorem written_length_lt (grid : List Color) (w h : Nat) : (qtPlan grid w h).written.length < 2 ^ 32 := by
  have hle : (qtPlan grid w h).pal.length ≤ 2 ^ 24 := length_le_of_nodup (palBuild_firstSeen grid).nodup
  unfold QtPlan.written
  split
  · omega
  · exact Nat.two_pow_pos 32

theorem Dec.next_qtBlob {d : Dec} {pal : List Word} {lc : Word} {cs ss : List Byte} (hp : d.pos = .qt)
    (hinp : d.inp = qtBlobBytes pal lc cs ss) (hwf : (Instr.qtBlob pal lc cs ss).wf = true) :
    d.next = ({ d with
      pal := pal.map color, leafCount := lc.toNat, leaves := 0
      inp := cs ++ ss, ip := d.ip + (8 + 4 * pal.length), bitpos := 0, splitpos := 0
      stack := [(levelCount (max d.w d.h) - 1, 0, 0)] } : Dec).nextNode := by
  have hparse := parseQt_qtBlobBytes pal lc cs ss hwf
  have hfetch : d.fetch = (some (.qtBlob pal lc cs ss), d) := by
    simp only [Dec.fetch, hp, hinp, hparse, Dec.fetched]
  exact Dec.next_eq hfetch (if_pos hp)

/-- The container opens the root with both streams unread. -/
theorem Dec.next_container {d : Dec} {grid : List Color} (hw : 0 < d.w) (hh : 0 < d.h) (hwh : d.w * d.h < 2 ^ 32)
    (hp : d.pos = .qt) (hq : qtEnc grid d.w d.h = .stream d.inp) (hcodes : (qtPlan grid d.w d.h).Codes grid) :
    ∃ f : Dec, d.next = f.nextNode ∧ f.stack = [(levelCount (max d.w d.h) - 1, 0, 0)] ∧ f.launched = d.launched ∧
      f.sess = d.sess ∧ f.px = d.px ∧
      f.Reads (qtPlan grid d.w d.h) [] (qtVisit grid d.w d.h (levelCount (max d.w d.h) - 1) 0 0).1 []
        (qtVisit grid d.w d.h (levelCount (max d.w d.h) - 1) 0 0).2 := by
  have hcount : (qtPlan grid d.w d.h).leafCount = (qtVisit grid d.w d.h (levelCount (max d.w d.h) - 1) 0 0).2.length :=
    (qtVisit_leaves_length ..).symm
  have hle := leafCount_le grid hw hh
  have hlen := written_length_lt grid d.w d.h
  have hinp := qtEnc_stream hq
  generalize qtPlan grid d.w d.h = p at *
  generalize qtVisit grid d.w d.h (levelCount (max d.w d.h) - 1) 0 0 = root at *
  have hlc : (BitVec.ofNat 32 p.leafCount).toNat = p.leafCount := Nat.mod_eq_of_lt (by omega)
  have hnext := Dec.next_qtBlob hp hinp (by
    rw [Instr.wf, Bool.and_eq_true, List.length_map, hlc, hcodes.bits, packBits_length, length_flatMap_qtColourBits,
      hcount]
    exact ⟨decide_eq_true hlen, decide_eq_true rfl⟩)
  rw [map_color_pixelOf, hlc, hcount] at hnext
  exact ⟨_, hnext, rfl, rfl, rfl, rfl, rfl, rfl, rfl, rfl, rfl, rfl⟩

/-- The whole container of a picture. -/
theorem Dec.steps_qt {d : Dec} {grid : List Color} (hw : 0 < d.w) (hh : 0 < d.h) (hwh : d.w * d.h < 2 ^ 32)
    (hgrid : grid.length = d.w * d.h) (hp : d.pos = .qt) (hq : qtEnc grid d.w d.h = .stream d.inp) (hpx : d.px = []) :
    ∃ e, d.Restored e grid (fun n => n < d.w * d.h) d.sess := by
  have hcodes := qtPlan_codes (grid := grid) d.w d.h (List.ne_nil_of_length_pos (hgrid ▸ Nat.mul_pos hw hh))
  obtain ⟨f, hnext, hstack, hlaunched, hsess, hfpx, hreads⟩ := Dec.next_container hw hh hwh hp hq hcodes
  obtain ⟨e, hsteps, he⟩ := visitsLevel hcodes hgrid _ f 0 0 [] [] [] [] [] (fun _ => False)
    (congrArg (·.1.2.1) hlaunched) (congrArg (·.1.2.2.1) hlaunched) (present_root hw hh) hstack
    (by rwa [List.append_nil, List.append_nil]) (by rw [hfpx, hpx]; exact Paints.nil grid)
  rw [Dec.nextNode_end hcodes he.reads he.stack] at hsteps
  exact ⟨{ e with pos := .fin }, .head (by rw [Dec.running, hp]) (hnext ▸ hsteps), rfl, he.sess.trans hsess,
    he.launched.trans hlaunched, he.paints.mono fun n hn => .inr (mem_root_square hn)⟩

end Sys2Proof.Machine
end

section
/-! SUPPORT. `SEL.DEC` of an encoded record (45_selector R224, R232): whichever structural method coded the picture, its
decoder restores it. -/

namespace Sys2Proof.Machine

theorem Dec.dispatch_diff {d : Dec} (src : List Byte) (he : d.enc = 1) :
    d.dispatch src = ({ d with inp := src, ip := 0 } : Dec).startDiff := by
  rw [Dec.dispatch, he]
  rfl

theorem Dec.dispatch_trle {d : Dec} (src : List Byte) (he : d.enc = 2) :
    d.dispatch src = { d with inp := src, ip := 0, pos := .tile } := by
  rw [Dec.dispatch, he]
  rfl

theorem Dec.dispatch_qt {d : Dec} (src : List Byte) (he : d.enc = 3) :
    d.dispatch src = { d with inp := src, ip := 0, pos := .qt } := by
  rw [Dec.dispatch, he]
  rfl

/-- A source that codes the picture by a structural method, and the tile session it leaves (45_selector R232). -/
def CodesGrid (e : BitVec 16) (src : List Byte) (grid prev : List Color) (w h : Nat) (sess : List Color) : Prop :=
  (e = 1 ∧ src = diffEnc grid prev ∧ sess = []) ∨
    (e = 2 ∧ ∃ reuse, (src, sess) = trleEnc grid w h reuse) ∨
    (e = 3 ∧ qtEnc grid w h = .stream src ∧ sess = [])

theorem CodesGrid.tag {e : BitVec 16} {src : List Byte} {grid prev : List Color} {w h : Nat} {sess : List Color}
    (hc : CodesGrid e src grid prev w h sess) : e = 1 ∨ e = 2 ∨ e = 3 :=
  Or.imp And.left (Or.imp And.left And.left) hc

/-- Each method's decoder restores the picture. -/
theorem Dec.steps_source {d : Dec} {src : List Byte} {grid prev sess : List Color} (hw : 0 < d.w) (hh : 0 < d.h)
    (hwh : d.w * d.h < 2 ^ 32) (hgrid : grid.length = d.w * d.h) (hprev : prev.length = grid.length)
    (ht : d.tile = 0) (hm : d.made = 0) (hs : d.sess = []) (hpx : d.px = [])
    (hc : CodesGrid d.enc src grid prev d.w d.h sess) :
    ∃ e, (d.dispatch src).Restored e grid (Differs grid prev) sess ∧ (d.dispatch src).launched = d.launched := by
  have hall {e f : Dec} (he : f.Restored e grid (fun n => n < d.w * d.h) sess) :
      f.Restored e grid (Differs grid prev) sess :=
    ⟨he.steps, he.pos, he.sess, he.launched, he.paints.mono fun n hn => by
      rw [← hgrid, ← hprev]
      exact hn.1⟩
  rcases hc with ⟨he, hsrc, rfl⟩ | ⟨he, reuse, hsrc⟩ | ⟨he, hsrc, rfl⟩
  · rw [Dec.dispatch_diff src he]
    obtain ⟨e, hdiff, hkept⟩ :=
      Dec.steps_diff (d := { d with inp := src, ip := 0 }) (Nat.mul_pos hw hh) hgrid hprev hsrc hpx
    exact ⟨e, hs ▸ hdiff, hkept⟩
  · rw [Dec.dispatch_trle src he]
    obtain ⟨e, htrle⟩ := Dec.steps_trle (d := { d with inp := src, ip := 0, pos := .tile }) (reuse := reuse) hw hh rfl
      ht hm hs hpx hgrid (congrArg Prod.fst hsrc)
    rw [show sess = _ from congrArg Prod.snd hsrc] at hall ⊢
    exact ⟨e, hall htrle, rfl⟩
  · rw [Dec.dispatch_qt src he]
    obtain ⟨e, hqt⟩ := Dec.steps_qt (d := { d with inp := src, ip := 0, pos := .qt }) hw hh hwh hgrid rfl hsrc hpx
    exact ⟨e, hall ⟨hqt.steps, hqt.pos, hqt.sess.trans hs, hqt.launched, hqt.paints⟩, rfl⟩

section
variable {s : State} {e c : BitVec 16} {payload src rest : List Byte} {grid sess : List Color} (hs : s.rawLaunch)
  (hin : s.inputFits) (hinp : s.input = wireRecordOf e c payload src ++ rest) (hsrc : src.length < 2 ^ 32)
  (hc : Unpacks c payload src) (hf : s.formatAOk) (hgrid : grid.length = s.regs.rectW.toNat * s.regs.rectH.toNat)
  (hcodes : CodesGrid e src grid (s.grid s.areaA) s.regs.rectW.toNat s.regs.rectH.toNat sess)
include hs hin hinp hsrc hc hf hgrid hcodes

theorem exec_selDec_grid :
    ∃ t, exec .selDec s = .next t ∧
      t = { s with
        pix := t.pix, sess := sess, dec := none
        regs := { s.regs with
          cmd := 0x51, inUsed := BitVec.ofNat 32 (16 + payload.length), res0 := e.setWidth 32
          res1 := c.setWidth 32 }
        status := { s.status with
          done := true, notWorth := false, sessValid := decide (1 ≤ sess.length) } } ∧
      t.grid s.areaA = grid ∧ SameBytes .pix (fun a => ¬ s.areaA.holds a) s t := by
  have harea := s.areaRaw_eq_areaA hf
  have hlaunch := hs
  obtain ⟨hok, ⟨hw, hh, hbytes⟩, -, hfits⟩ := hs
  rw [harea, hf.1] at hfits
  have hwh : s.regs.rectW.toNat * s.regs.rectH.toNat < 2 ^ 32 := by
    have hmax : Config.maxRectBytes = 2 ^ 32 - 1 := rfl
    have hpixel : Config.pixelBytes = 4 := rfl
    rw [hmax, hpixel] at hbytes
    omega
  have htag := hcodes.tag
  have hlen : wireHdrLen e = 16 := by
    rcases htag with rfl | rfl | rfl <;> rfl
  have hprev : (s.grid s.areaA).length = grid.length := by rw [State.grid_length, hgrid]
  obtain ⟨f, hrestored, hkept⟩ :=
    Dec.steps_source (d := s.headed e c payload.length src.length) hw hh hwh hgrid hprev rfl rfl rfl rfl hcodes
  have hheader := State.steps_wireRecord hinp hsrc hc (.inr ⟨htag, (checkFormatA_eq_none s).2 hf⟩)
  have hlaunched := hrestored.launched.trans hkept
  have hraw : f.rawBytes = [] := congrArg (·.2.2.2.2) hlaunched
  have henc : f.enc = e := congrArg (·.2.1) hlaunched
  have hcompr : f.compr = c := congrArg (·.2.2.1) hlaunched
  have hrec : f.recLen = 16 + payload.length :=
    (congrArg (·.2.2.2.1) hlaunched).trans (congrArg (· + payload.length) hlen)
  have hdec := (hheader.trans hrestored.steps).decode_eq (s.begin_noSplitZero .sel) (by rw [Dec.running, hrestored.pos])
  have hexec := exec_selDec_fin hlaunch hin hdec.symm hrestored.pos
  rw [hrec, henc, hcompr, hrestored.sess] at hexec
  obtain ⟨t, ht⟩ : ∃ t, exec .selDec s = .next t := ⟨_, hexec⟩
  have heq := Host.Outcome.next.inj (ht.symm.trans hexec)
  have hpix : t.pix = (s.flush f).pix := by rw [heq]
  have hlost : t.lost = s.lost := by rw [heq]
  have hregsW : t.regs.rectW = s.regs.rectW := by rw [heq]
  have hregsH : t.regs.rectH = s.regs.rectH := by rw [heq]
  refine ⟨t, ht, by rw [hpix]; exact heq, ?_, harea ▸ exec_decode_sameBytes (by simp) hok ht⟩
  have hflush := State.grid_flush hfits hgrid hraw hrestored.paints
  have hregs : (s.flush f).regs = s.regs := by rw [State.flush_eq s f hraw, State.putPixels_regs]
  rw [← hflush, State.grid, State.grid, hregs, hregsW, hregsH]
  simp only [State.pixRead_eq_flush hpix hlost]

end

/-! ### The obligation -/

/-- The bytes of a record, as 45_selector R223 puts them together. -/
theorem wireRecordOf_eq (e c : BitVec 16) (payload src : List Byte) :
    be32 Config.wireMagic ++ be16 e ++ be16 c ++ be32 (BitVec.ofNat 32 payload.length) ++
      (if e = 0 then [] else be32 (BitVec.ofNat 32 src.length)) ++ payload = wireRecordOf e c payload src := by
  rw [wireRecordOf, wireHdrBytes]
  split
  · rfl
  · rfl

/-- Settles O39: the state a decoding ends in follows from its last cursors, and on an encoded record those are known:
the tile record's from `State.steps_tileRecord`, the wire record's from its header and the decoder of its source. -/
theorem decodersEndWell : Obligations.DecodersEndWell := by
  refine ⟨fun s d => ⟨exec_tileDec_fin, exec_trleDec_fin, exec_qtDec_fin, exec_diffDec_fin, exec_rawUnpack_fin,
    exec_selDec_fin⟩, fun s grid reuse r rest => exec_tileDec_record, ?_⟩
  intro s e c payload src rest hs hin hinp hsrc hc
  rw [wireRecordOf_eq] at hinp
  refine ⟨fun he hraw => ?_, fun grid sess hf hgrid hcodes => ?_⟩
  · subst he
    exact exec_selDec_raw hs hin hinp hc hraw
  · exact exec_selDec_grid hs hin hinp hsrc hc hf hgrid hcodes

end Sys2Proof.Machine
end

section
/-! SUPPORT. What the quadtree encoder counts (43_quadtree R173, R174): a node's leaves and split bits are those its
visit writes, and a square of one colour is one leaf. -/

namespace Sys2Proof.Machine

/-! ### Levels and children (R171, R172) -/

theorem levelCount_sub_one_eq_zero (m : Nat) : levelCount m - 1 = 0 ↔ levelCount m = 1 := by
  unfold levelCount
  split
  · simp
  · omega

theorem two_le_levelCount {m : Nat} (h : 2 ≤ m) : 2 ≤ levelCount m := by
  rw [levelCount, if_neg (by omega)]
  omega

/-- A node that is present has an upper-left child, the first in the order of R172. -/
theorem children_eq_cons {w h l r c : Nat} (hp : present w h (l + 1) r c = true) :
    children w h l r c = (2 * r, 2 * c) :: (children w h l r c).tail := by
  obtain ⟨hc, hr⟩ := present_iff.1 hp
  rw [pow_succ'] at hc hr
  have hchild : present w h l (2 * r) (2 * c) = true :=
    present_iff.2 ⟨by rwa [Nat.mul_comm 2 c, Nat.mul_assoc], by rwa [Nat.mul_comm 2 r, Nat.mul_assoc]⟩
  rw [children, List.filter_cons_of_pos (p := fun q : Nat × Nat => present w h l q.1 q.2) hchild]
  rfl

/-! ### A parent (R173) -/

theorem joinNodes_squareBits_uniform {ch : List QNode} (h : (joinNodes ch).uniform = true) :
    (joinNodes ch).squareBits = 1 := by
  rw [joinNodes] at h ⊢
  split at h
  · rename_i hall
    rw [if_pos hall]
  · cases h

theorem joinNodes_squareBits_mixed {ch : List QNode} (h : (joinNodes ch).uniform = false) :
    (joinNodes ch).squareBits = 1 + (ch.map (·.squareBits)).sum := by
  rw [joinNodes] at h ⊢
  split at h
  · cases h
  · rename_i hall
    rw [if_neg hall]

theorem joinNodes_squareBits_pos (ch : List QNode) : 0 < (joinNodes ch).squareBits := by
  cases h : (joinNodes ch).uniform with
  | true => exact (joinNodes_squareBits_uniform h).symm ▸ Nat.one_pos
  | false =>
    rw [joinNodes_squareBits_mixed h]
    omega

/-- Children of one colour make a uniform parent of that colour. -/
theorem joinNodes_of_uniform {ch : List QNode} {c : Color} (hne : ch ≠ [])
    (h : ∀ n ∈ ch, n.uniform = true ∧ n.color = c) :
    (joinNodes ch).uniform = true ∧ (joinNodes ch).color = c := by
  obtain ⟨n, rest, rfl⟩ := List.exists_cons_of_ne_nil hne
  have hc : n.color = c := (h n (List.mem_cons_self ..)).2
  have hall : ((n :: rest).all fun m => m.uniform && m.color == (((n :: rest).map (·.color)).headD 0)) = true := by
    rw [List.all_eq_true]
    intro m hm
    obtain ⟨hu, hcm⟩ := h m hm
    simp [hu, hcm, hc]
  rw [joinNodes, if_pos hall]
  exact ⟨rfl, hc⟩

/-- A parent that is not uniform has a child. -/
theorem ne_nil_of_joinNodes_mixed {ch : List QNode} (h : (joinNodes ch).uniform = false) : ch ≠ [] := by
  rintro rfl
  cases h

/-! ### A node -/

theorem squareCount_pos (grid : List Color) (w h l r c : Nat) : 0 < (qtNode grid w h l r c).squareCount := by
  induction l generalizing r c with
  | zero => exact Nat.one_pos
  | succ l ih =>
    cases hu : (qtNode grid w h (l + 1) r c).uniform with
    | true => exact (joinNodes_uniform hu).2.symm ▸ Nat.one_pos
    | false =>
      obtain ⟨n, hn⟩ := List.exists_mem_of_ne_nil _ (ne_nil_of_joinNodes_mixed hu)
      obtain ⟨q, -, rfl⟩ := List.mem_map.1 hn
      have hcount : (qtNode grid w h (l + 1) r c).squareCount = _ := joinNodes_mixed hu
      rw [hcount]
      exact (ih q.1 q.2).trans_le (List.single_le_sum (fun _ _ => Nat.zero_le _) _ (List.mem_map_of_mem hn))

/-- The split bits a visit writes are those the node counts. -/
theorem qtVisit_splits_length (grid : List Color) (w h l r c : Nat) :
    (qtVisit grid w h l r c).1.length = (qtNode grid w h l r c).squareBits := by
  induction l generalizing r c with
  | zero => rfl
  | succ l ih =>
    cases hu : (qtNode grid w h (l + 1) r c).uniform with
    | true =>
      rw [qtVisit_uniform hu]
      exact (joinNodes_squareBits_uniform hu).symm
    | false =>
      have hbits := joinNodes_squareBits_mixed hu
      rw [List.map_map] at hbits
      rw [qtVisit_mixed hu, List.length_cons, List.length_flatMap, Nat.add_comm]
      refine Eq.trans ?_ hbits.symm
      exact congrArg (fun ns => 1 + List.sum ns) (List.map_congr_left fun q _ => ih q.1 q.2)

/-- Only a leaf of level 0 has no split bit. -/
theorem squareBits_eq_zero_iff (grid : List Color) (w h l r c : Nat) :
    (qtNode grid w h l r c).squareBits = 0 ↔ l = 0 := by
  cases l with
  | zero => exact iff_of_true rfl rfl
  | succ l => exact iff_of_false (joinNodes_squareBits_pos _).ne' (Nat.succ_ne_zero l)

/-- A present node whose square has one colour is uniform. -/
theorem qtNode_of_one_colour {grid : List Color} {w h l r c : Nat} {col : Color} (hp : present w h l r c = true)
    (hcol : ∀ n ∈ squarePositions w h l r c, grid.getD n 0 = col) :
    (qtNode grid w h l r c).uniform = true ∧ (qtNode grid w h l r c).color = col := by
  induction l generalizing r c with
  | zero =>
    have hcorner := hcol _ (corner_mem_squarePositions hp)
    rw [pow_zero, Nat.mul_one, Nat.mul_one] at hcorner
    exact ⟨rfl, hcorner⟩
  | succ l ih =>
    refine joinNodes_of_uniform ?_ fun n hn => ?_
    · rw [children_eq_cons hp]
      exact List.cons_ne_nil _ _
    · obtain ⟨q, hq, rfl⟩ := List.mem_map.1 hn
      obtain ⟨-, -, hpres⟩ := mem_children.1 hq
      exact ih hpres fun k hk => hcol k (mem_squarePositions_succ.2 ⟨q, hq, hk⟩)

/-! ### A rectangle of one colour -/

section
variable {w h : Nat} {c : Color} (hw : 0 < w) (hh : 0 < h)
include hw hh

theorem qtNode_replicate :
    (qtNode (List.replicate (w * h) c) w h (levelCount (max w h) - 1) 0 0).uniform = true ∧
      (qtNode (List.replicate (w * h) c) w h (levelCount (max w h) - 1) 0 0).color = c := by
  refine qtNode_of_one_colour (present_root hw hh) fun n hn => ?_
  rw [List.getD_eq_getElem _ _ (by rw [List.length_replicate]; exact squarePositions_lt _ _ _ _ _ _ hn),
    List.getElem_replicate]

/-- Above level 0 it is one leaf behind one split bit. -/
theorem qtVisit_replicate (hl : 2 ≤ levelCount (max w h)) :
    qtVisit (List.replicate (w * h) c) w h (levelCount (max w h) - 1) 0 0 = ([false], [c]) := by
  obtain ⟨hu, hc⟩ := qtNode_replicate (c := c) hw hh
  obtain ⟨l, hl⟩ : ∃ l, levelCount (max w h) - 1 = l + 1 := ⟨_, (Nat.succ_pred_eq_of_pos (by omega)).symm⟩
  rw [hl] at hu hc ⊢
  rw [qtVisit_uniform hu, hc]

end

/-- Settles O34: the plan's numbers are the root's, the root's are those of its visit, and the visit of a rectangle of
one colour is known. -/
theorem qtCountsBounds : Obligations.QtCountsBounds := by
  intro grid w h hw hh
  have hsplits : (qtPlan grid w h).rootSquareBits = _ := (qtVisit_splits_length ..).symm
  have hleaves : (qtPlan grid w h).leafCount = _ := (qtVisit_leaves_length ..).symm
  refine ⟨rfl, rfl, hleaves, hsplits, squareCount_pos .., leafCount_le grid hw hh,
    (squareBits_eq_zero_iff ..).trans (levelCount_sub_one_eq_zero _), ?_⟩
  rintro c hl rfl
  rw [hleaves, hsplits, qtVisit_replicate hw hh hl]
  exact ⟨rfl, rfl⟩

end Sys2Proof.Machine
end

section
/-! SUPPORT. The bytes of a quadtree container (43_quadtree R180 to R184, R192): the self-check never fails, the length of
the container, and its 13 bytes for a rectangle of one colour. -/

namespace Sys2Proof.Machine

/-! ### The two streams (R181, R183) -/

theorem colourStream_length (grid : List Color) (w h : Nat) :
    (packBits ((qtVisit grid w h (levelCount (max w h) - 1) 0 0).2.flatMap (qtColourBits (qtPlan grid w h)))).length =
      ceilDiv ((qtPlan grid w h).leafCount * (qtPlan grid w h).colorBits) 8 := by
  rw [packBits_length, length_flatMap_qtColourBits, qtVisit_leaves_length]
  rfl

theorem splitStream_length (grid : List Color) (w h : Nat) :
    (packBits (qtVisit grid w h (levelCount (max w h) - 1) 0 0).1).length =
      ceilDiv (qtPlan grid w h).rootSquareBits 8 := by
  rw [packBits_length, qtVisit_splits_length]
  rfl

/-- Both streams fill their budgets, so the encoder answers by its estimate alone. -/
theorem qtEnc_eq (grid : List Color) (w h : Nat) :
    qtEnc grid w h =
      if w * h * 4 ≤ (qtPlan grid w h).est then .notWorth
      else .stream (qtBlobBytes ((qtPlan grid w h).written.map pixelOf) (BitVec.ofNat 32 (qtPlan grid w h).leafCount)
        (packBits ((qtVisit grid w h (levelCount (max w h) - 1) 0 0).2.flatMap (qtColourBits (qtPlan grid w h))))
        (packBits (qtVisit grid w h (levelCount (max w h) - 1) 0 0).1)) := by
  have hcheck := not_or.2 ⟨not_not.2 (colourStream_length grid w h), not_not.2 (splitStream_length grid w h)⟩
  exact congrArg (ite _ _) (if_neg hcheck)

theorem qtBlobBytes_length (pal : List Word) (lc : Word) (cs ss : List Byte) :
    (qtBlobBytes pal lc cs ss).length = 8 + 4 * pal.length + cs.length + ss.length := by
  simp only [qtBlobBytes, funext payload32_eq, List.length_append, be32_length, length_flatMap_be32]
  omega

/-- The paletteSize field (R182): 0 without a palette. -/
theorem QtPlan.written_length (p : QtPlan) : p.written.length = if p.usePalette = true then p.pal.length else 0 := by
  rw [QtPlan.written, apply_ite List.length, List.length_nil]

/-- The length R192 gives. -/
theorem qtEnc_length {grid : List Color} {w h : Nat} {bytes : List Byte} (hq : qtEnc grid w h = .stream bytes) :
    bytes.length = 8 + (if (qtPlan grid w h).usePalette = true then 4 * (qtPlan grid w h).pal.length else 0) +
      ceilDiv ((qtPlan grid w h).leafCount * (qtPlan grid w h).colorBits) 8 +
      ceilDiv (qtPlan grid w h).rootSquareBits 8 := by
  rw [qtEnc_stream hq, qtBlobBytes_length, List.length_map, QtPlan.written_length, mul_ite, Nat.mul_zero,
    colourStream_length, splitStream_length]

/-! ### One colour (R184) -/

/-- A word written whole is its four bytes, most significant first (40_bitstream R103). -/
theorem packBits_bitsOf_word (v : Word) : packBits (bitsOf 32 v.toNat) = be32 v := by
  have hbytes : be32 v = (List.range 4).map fun k => v.extractLsb' (24 - 8 * k) 8 := rfl
  have hcount : ceilDiv (bitsOf 32 v.toNat).length 8 = 4 := by rw [bitsOf_length]; rfl
  rw [packBits, hcount, hbytes]
  refine List.map_congr_left fun k hk => BitVec.eq_of_getLsbD_eq fun i hi => ?_
  have hk4 : k < 4 := List.mem_range.1 hk
  have hbit := byteOfBits_drop_getLsbD (bitsOf 32 v.toNat) k (7 - i) (by omega)
  rw [show 7 - (7 - i) = i by omega, bitsOf_toNat, List.getD_eq_getElem?_getD, List.getElem?_map,
    List.getElem?_range (by omega)] at hbit
  rw [bitsOf_toNat, hbit, BitVec.getLsbD_extractLsb', decide_eq_true hi, Bool.true_and]
  exact congrArg v.getLsbD (by omega)

/-- A palette of one colour costs as much as it saves: none is used. -/
theorem qtPlan_of_one_leaf {grid : List Color} {w h : Nat} (hpal : (palBuild grid Config.palMax).1.length = 1)
    (hleaf : (qtPlan grid w h).leafCount = 1) :
    (qtPlan grid w h).est = 4 ∧ (qtPlan grid w h).usePalette = false := by
  have hroot : (qtNode grid w h (levelCount (max w h) - 1) 0 0).squareCount = 1 := hleaf
  simp only [qtPlan, hpal, hroot]
  exact ⟨by decide, by decide⟩

theorem palBuild_replicate_length {n : Nat} (c : Color) (hn : n ≠ 0) :
    (palBuild (List.replicate n c) Config.palMax).1.length = 1 := by
  rw [← (palBuild_firstSeen _).card, List.toFinset_replicate_of_ne_zero hn, Finset.card_singleton]

theorem qtEnc_replicate {w h : Nat} (c : Color) (hw : 0 < w) (hh : 0 < h) (hmax : 2 ≤ max w h) :
    qtEnc (List.replicate (w * h) c) w h = .stream ([0, 0, 0, 0, 0, 0, 0, 1] ++ be32 (pixelOf c) ++ [0]) := by
  have hwh : 2 ≤ w * h := hmax.trans (max_le (Nat.le_mul_of_pos_right w hh) (Nat.le_mul_of_pos_left h hw))
  have hvisit := qtVisit_replicate (c := c) hw hh (two_le_levelCount hmax)
  have hleaf : (qtPlan (List.replicate (w * h) c) w h).leafCount = 1 :=
    (qtVisit_leaves_length ..).symm.trans (by rw [hvisit]; rfl)
  obtain ⟨hest, hplain⟩ := qtPlan_of_one_leaf (palBuild_replicate_length c (by omega)) hleaf
  have hbits := qtPlan_colorBits (List.replicate (w * h) c) w h
  rw [qtEnc_eq, hvisit, hest, if_neg (by omega), hleaf]
  generalize qtPlan (List.replicate (w * h) c) w h = p at hplain hbits ⊢
  rw [hplain, if_neg Bool.false_ne_true] at hbits
  have hwritten : p.written = [] := by rw [QtPlan.written, hplain]; rfl
  have hcolour : qtColourBits p c = bitsOf 32 (pixelOf c).toNat := by
    rw [qtColourBits, hbits, hplain, pixelOf, BitVec.toNat_setWidth_of_le (by decide)]
    rfl
  have hsplits : packBits [false] = [0] := by decide
  have hfields : payload32 0 ++ payload32 1 = [0, 0, 0, 0, 0, 0, 0, 1] := by decide
  rw [hwritten, List.flatMap_singleton, hcolour, packBits_bitsOf_word, hsplits, ← hfields]
  rfl

/-- Settles O35: the answer follows the estimate (`qtEnc_eq`), and the parts of the container have known lengths. -/
theorem qtSelfCheckDead : Obligations.QtSelfCheckDead := by
  intro grid w h
  refine ⟨fun r hr => ?_, ?_, fun bytes => qtEnc_length, ?_⟩
  · rw [qtEnc_eq] at hr
    split at hr
    · cases hr
    · cases hr
  · rw [qtEnc_eq]
    split
    · exact iff_of_true rfl ‹_›
    · exact iff_of_false QtResult.noConfusion ‹_›
  · rintro c hw hh hmax rfl
    exact qtEnc_replicate c hw hh hmax

end Sys2Proof.Machine
end

section
/-! SUPPORT. The quadtree commands (43_quadtree R190, R191): the whole of a container's decoding, and the two ends of the
encoder that are no fault. -/

namespace Sys2Proof.Machine

/-- A rectangle that passes its check has fewer than 2^32 pixels (60_exceptions R259). -/
theorem State.rectOk.pixels_lt {s : State} (h : s.rectOk) : s.regs.rectW.toNat * s.regs.rectH.toNat < 2 ^ 32 := by
  obtain ⟨-, -, hbytes⟩ := h
  have hmax : Config.maxRectBytes = 2 ^ 32 - 1 := rfl
  have hpixel : Config.pixelBytes = 4 := rfl
  rw [hmax, hpixel] at hbytes
  omega

/-- Settles O37: node by node the decoder reads the container back (`Dec.steps_qt`), and every pixel it has decided is
written (`State.pixRead_decoded`). -/
theorem qtRoundTrip : Obligations.QtRoundTrip := by
  intro s grid hs hgrid henc
  have ⟨hcodec, _⟩ := hs
  have ⟨hready, hrect, _, _⟩ := hcodec
  have ⟨hw, hh, _⟩ := hrect
  obtain ⟨e, he⟩ := Dec.steps_qt (d := s.begin .qt) hw hh hrect.pixels_lt hgrid rfl henc rfl
  have hdec := he.steps.decode_eq (s.begin_noSplitZero .qt) (by rw [Dec.running, he.pos])
  have hraw : e.rawBytes = [] := congrArg (·.2.2.2.2) he.launched
  refine ⟨_, exec_qtDec_fin hs hdec.symm he.pos, rfl, hready, rfl, fun i j hi hj => ?_⟩
  refine State.pixRead_decoded hcodec hraw he.paints ?_ ?_ ?_ i j hi hj
  · rfl
  · rfl
  · rfl

/-! ### `QT.ENC` -/

/-- The command before it stores the container: the palette array is dropped and `RES0` holds the leaf count. -/
def State.withLeafCount (s : State) (p : QtPlan) : State :=
  { (s.start 0x20).dropPalette with regs := { (s.start 0x20).regs with res0 := BitVec.ofNat 32 p.leafCount } }

section
variable {s : State} (hs : s.encodeLaunch)
include hs

theorem exec_qtEnc_notWorth (h : qtEnc (s.grid s.areaA) s.regs.rectW.toNat s.regs.rectH.toNat = .notWorth) :
    exec .qtEnc s = .next { s with
      pal := []
      regs := { s.regs with
        cmd := 0x20, outLen := 0, res1 := 0
        res0 := BitVec.ofNat 32 (qtPlan (s.grid s.areaA) s.regs.rectW.toNat s.regs.rectH.toNat).leafCount }
      status := { s.status with done := true, notWorth := true, palOvf := false } } := by
  refine (command_encode_go 0x20 hs _).trans (congrArg _ ?_)
  split
  · rename_i r hr
    cases h.symm.trans hr
  · rfl
  · rename_i bytes hr
    cases h.symm.trans hr

theorem exec_qtEnc_stream {bytes : List Byte}
    (h : qtEnc (s.grid s.areaA) s.regs.rectW.toNat s.regs.rectH.toNat = .stream bytes) :
    exec .qtEnc s =
      .next ((s.withLeafCount (qtPlan (s.grid s.areaA) s.regs.rectW.toNat s.regs.rectH.toNat)).writeOut bytes fun u =>
        { u with regs := { u.regs with
          res1 := BitVec.ofNat 32
            (qtPlan (s.grid s.areaA) s.regs.rectW.toNat s.regs.rectH.toNat).written.length } }) := by
  refine (command_encode_go 0x20 hs _).trans (congrArg _ ?_)
  split
  · rename_i r hr
    cases h.symm.trans hr
  · rename_i hr
    cases h.symm.trans hr
  · rename_i bytes' hr
    cases h.symm.trans hr
    rfl

end

/-- Settles O36, by the two ends of the encoder that are no fault. -/
theorem qtEncResult : Obligations.QtEncResult := by
  rintro s p r hs hp rfl
  refine ⟨hp ▸ exec_qtEnc_notWorth hs, fun bytes hbytes hfit => ?_⟩
  have hexec := exec_qtEnc_stream hs hbytes
  rw [← hp, State.writeOut_fits (s.withLeafCount p) _ _ hfit, p.written_length,
    apply_ite (BitVec.ofNat 32)] at hexec
  exact ⟨_, hexec, rfl, State.stored_bytes (u := s.withLeafCount p) hfit rfl rfl rfl rfl rfl rfl rfl rfl⟩

end Sys2Proof.Machine
end

section
/-! SUPPORT. The tokens of a quadtree container (43_quadtree R186 to R188), each as a step of the machine whose cursors
stand where the token is expected. -/

namespace Sys2Proof.Machine

section
variable {d : Dec}

/-! ### The next node (R187, R188) -/

/-- The next queued node: its colour at level 0, its split bit above. -/
theorem Dec.nextNode_cons {l r c : Nat} {rest : List (Nat × Nat × Nat)} (h : d.stack = (l, r, c) :: rest) :
    d.nextNode = { d with pos := if l = 0 then .leaf 0 r c else .split l r c, stack := rest } := by
  rw [Dec.nextNode, h]
  cases l
  · rfl
  · rfl

/-- After the last node a leaf count that is not the container's is `E_LEAF`. -/
theorem Dec.nextNode_leaf (h : d.stack = []) (hl : d.leaves ≠ d.leafCount) : d.nextNode = d.raise .leaf d.leaves := by
  rw [Dec.nextNode, h]
  exact if_pos hl

/-- A split stream that is not used up is `E_LENGTH`. -/
theorem Dec.nextNode_length (h : d.stack = []) (hl : d.leaves = d.leafCount) (hs : brConsumed d.splitpos ≠ d.splitLen) :
    d.nextNode = d.raise .length (brConsumed d.splitpos) := by
  rw [Dec.nextNode, h]
  exact (if_neg fun hne => hne hl).trans (if_pos hs)

theorem Dec.nextNode_fin (h : d.stack = []) (hl : d.leaves = d.leafCount) (hs : brConsumed d.splitpos = d.splitLen) :
    d.nextNode = { d with pos := .fin } := by
  rw [Dec.nextNode, h]
  exact (if_neg fun hne => hne hl).trans (if_neg fun hne => hne hs)

theorem Dec.running_of_node {l r c : Nat} (h : d.pos = if l = 0 then .leaf 0 r c else .split l r c) :
    d.running = true := by
  rw [Dec.running, h]
  cases l
  · rfl
  · rfl

/-! ### The tokens -/

theorem Dec.apply_split0 {l r c : Nat} (hp : d.pos = .split l r c) :
    d.apply .split0 = some { d with pos := .leaf l r c } := by
  rw [Dec.apply, Dec.split0, hp]

theorem Dec.apply_split1 {l r c : Nat} (hp : d.pos = .split (l + 1) r c) :
    d.apply .split1 =
      some ({ d with stack := (children d.w d.h l r c).map (fun q => (l, q.1, q.2)) ++ d.stack } : Dec).nextNode := by
  rw [Dec.apply, Dec.split1, hp]

/-- The cursors behind the colour of a leaf, its square decided. -/
def Dec.filled (d : Dec) (l r c : Nat) (col : Color) : Dec :=
  { d with
    leaves := d.leaves + 1
    px := (squarePositions d.w d.h l r c).foldl (fun px n => (n, col) :: px) d.px }

theorem Dec.apply_qtColor_filled {l r c : Nat} {v : Word} {col : Color} (hp : d.pos = .leaf l r c)
    (hcol : d.leafColor v = some col) :
    d.apply (.qtColor (qtColorBits d.pal.length) v) = some (d.filled l r c col).nextNode :=
  Dec.apply_qtColor hp rfl hcol

/-- An entry outside the palette is `E_INDEX` (R187). -/
theorem Dec.apply_qtColor_past {l r c : Nat} {v : Word} (hp : d.pos = .leaf l r c) (hpal : d.pal ≠ [])
    (hv : d.pal.length ≤ v.toNat) :
    d.apply (.qtColor (qtColorBits d.pal.length) v) = some (d.raise .index v.toNat) := by
  have hcol : d.leafColor v = none := by rw [Dec.leafColor, if_neg hpal, List.getElem?_eq_none hv]
  rw [Dec.apply, Dec.qtColor, hp]
  exact (if_pos rfl).trans (by rw [hcol])

end

/-- Where the machine goes on with the next queued node. -/
theorem State.settle_nextNode_cons (s : State) {d : Dec} {l r c : Nat} {rest : List (Nat × Nat × Nat)}
    (h : d.stack = (l, r, c) :: rest) (hraw : d.rawBytes = []) :
    s.settle d.nextNode = { s.putPixels d.px with dec := some { d with
      pos := if l = 0 then .leaf 0 r c else .split l r c, stack := rest, px := [], rawBytes := [] } } := by
  rw [Dec.nextNode_cons h]
  exact s.settle_running _ (Dec.running_of_node rfl) hraw

theorem State.putPixels_filled (s : State) {d : Dec} (hpx : d.px = []) (l r c : Nat) (col : Color) :
    s.putPixels (d.filled l r c col).px = (squarePositions d.w d.h l r c).foldl (fun t n => t.putPixel n col) s := by
  refine (s.putPixels_foldl (squarePositions d.w d.h l r c) id col d.px).trans ?_
  rw [hpx]
  rfl

/-! ### The steps -/

section
variable {s : State} {d : Dec} (hs : s.dec = some d) (hpx : d.px = []) (hraw : d.rawBytes = [])
include hs hpx hraw

/-- The container opens the root, whatever it holds. -/
theorem exec_qtBlob_opens (pal : List Word) (lc : Word) (cs ss : List Byte) (hp : d.pos = .qt) :
    exec (.qtBlob pal lc cs ss) s = .next { s with dec := some { d with
      pal := pal.map color, leafCount := lc.toNat, leaves := 0
      inp := cs ++ ss, ip := d.ip + (8 + 4 * pal.length), bitpos := 0, splitpos := 0, stack := []
      pos := if levelCount (max d.w d.h) = 1 then .leaf 0 0 0 else .split (levelCount (max d.w d.h) - 1) 0 0 } } := by
  have ha : d.apply (.qtBlob pal lc cs ss) = _ := if_pos hp
  rw [Dec.nextNode_cons rfl] at ha
  have hexec := exec_token_moves hs ha hpx hraw (Dec.running_of_node rfl)
  simp only [levelCount_sub_one_eq_zero] at hexec
  exact hexec

theorem exec_split1_children (l r c : Nat) (hp : d.pos = .split (l + 1) r c)
    (hpres : present d.w d.h (l + 1) r c = true) :
    exec .split1 s = .next { s with dec := some { d with
      stack := (children d.w d.h l r c).tail.map (fun q => (l, q.1, q.2)) ++ d.stack
      pos := if l = 0 then .leaf 0 (2 * r) (2 * c) else .split l (2 * r) (2 * c) } } := by
  have ha := Dec.apply_split1 hp
  rw [Dec.nextNode_cons (by rw [children_eq_cons hpres]; rfl)] at ha
  exact exec_token_moves hs ha hpx hraw (Dec.running_of_node rfl)

section
variable {l r c : Nat} {v : Word} {col : Color} (hp : d.pos = .leaf l r c) (hcol : d.leafColor v = some col)
include hp hcol

/-- A leaf that is not the last goes on with the next queued node. -/
theorem exec_qtColor_more {l' r' c' : Nat} {rest : List (Nat × Nat × Nat)} (hstack : d.stack = (l', r', c') :: rest) :
    exec (.qtColor (qtColorBits d.pal.length) v) s = .next
      { (squarePositions d.w d.h l r c).foldl (fun t n => t.putPixel n col) s with
        dec := some { d with
          leaves := d.leaves + 1, stack := rest
          pos := if l' = 0 then .leaf 0 r' c' else .split l' r' c' } } := by
  have hclean := Dec.eq_of_nothing_decided (d := { d with
    leaves := d.leaves + 1, stack := rest, pos := if l' = 0 then .leaf 0 r' c' else .split l' r' c' }) hpx hraw
  rw [exec_token s d _ _ hs (Dec.apply_qtColor_filled hp hcol),
    s.settle_nextNode_cons (d := d.filled l r c col) hstack hraw, s.putPixels_filled hpx, ← hclean]
  rfl

/-- The last leaf checks the leaf count, then the split stream (R188). -/
theorem exec_qtColor_last (hstack : d.stack = []) :
    ∃ t, exec (.qtColor (qtColorBits d.pal.length) v) s = .next t ∧
      (d.leaves + 1 ≠ d.leafCount → EndsInFault t 15 (d.leaves + 1)) ∧
      (d.leaves + 1 = d.leafCount →
        (brConsumed d.splitpos ≠ d.splitLen → EndsInFault t 11 (brConsumed d.splitpos)) ∧
        (brConsumed d.splitpos = d.splitLen →
          EndsWell ((squarePositions d.w d.h l r c).foldl (fun t n => t.putPixel n col) s) d t)) := by
  refine ⟨_, exec_token s d _ _ hs (Dec.apply_qtColor_filled hp hcol), fun hl => ?_,
    fun hl => ⟨fun hb => ?_, fun hb => ?_⟩⟩
  · rw [Dec.nextNode_leaf (d := d.filled l r c col) hstack hl]
    exact s.settle_raise (d.filled l r c col) .leaf (d.leaves + 1)
  · rw [Dec.nextNode_length (d := d.filled l r c col) hstack hl hb]
    exact s.settle_raise (d.filled l r c col) .length (brConsumed d.splitpos)
  · rw [Dec.nextNode_fin (d := d.filled l r c col) hstack hl hb, ← s.putPixels_filled hpx]
    exact s.settle_endsWell { d.filled l r c col with pos := .fin } rfl hraw

end

end

/-- Settles O56, token by token: each leads where `Dec.nextNode` says, and the machine settles there. -/
theorem quadTokensComplete : Obligations.QuadTokensComplete := by
  intro s d hs hpx hraw
  refine ⟨exec_qtBlob_opens hs hpx hraw, fun l r c hp => ?_, exec_split1_children hs hpx hraw, fun l r c v hp =>
    ⟨fun col hcol => ⟨fun l' r' c' rest => ?_, exec_qtColor_last hs hpx hraw hp hcol⟩, fun hpal hv => ?_⟩⟩
  · exact exec_token_moves hs (Dec.apply_split0 hp) hpx hraw rfl
  · exact exec_qtColor_more hs hpx hraw hp hcol
  · exact exec_token_raises hs d .index v.toNat (Dec.apply_qtColor_past hp hpal hv)

end Sys2Proof.Machine
end

section
/-! SUPPORT. `DIFF.DEC` of an encoded difference (44_diff R200, R212): every pixel that differs from the previous frame
is written, every other one already has its colour. -/

namespace Sys2Proof.Machine

/-- The picture after a decoding that has decided every pixel that differs. -/
theorem State.grid_decoded {s t : State} {d : Dec} {grid : List Color} (hs : s.codecLaunch)
    (hgrid : grid.length = s.regs.rectW.toNat * s.regs.rectH.toNat) (hraw : d.rawBytes = [])
    (h : Paints d.px grid (Differs grid (s.grid s.areaA))) (hpix : t.pix = (s.flush d).pix) (hlost : t.lost = s.lost)
    (hw : t.regs.rectW = s.regs.rectW) (hh : t.regs.rectH = s.regs.rectH) (harea : t.areaA = s.areaA) :
    t.grid t.areaA = grid := by
  obtain ⟨-, -, -, hfits⟩ := hs
  have hregs : (s.flush d).regs = s.regs := by rw [State.flush_eq s d hraw, State.putPixels_regs]
  rw [← State.grid_flush hfits hgrid hraw h, harea, State.grid, State.grid, hregs, hw, hh]
  simp only [State.pixRead_eq_flush hpix hlost]

/-- Settles O33: the words of the stream decide every pixel that differs (`Dec.steps_diff`), so the picture read
afterwards is the current one (`State.grid_decoded`). -/
theorem diffRoundTrip : Obligations.DiffRoundTrip := by
  rintro s cur prev hs hcur hprev hinp rfl
  have ⟨hcodec, _⟩ := hs
  have ⟨hready, ⟨hw, hh, _⟩, _, _⟩ := hcodec
  obtain ⟨e, he, hkept⟩ := Dec.steps_diff (d := s.begin .diff) (Nat.mul_pos hw hh) hcur hprev hinp rfl
  have hdec := he.steps.decode_eq (Dec.startDiff_noSplitZero _) (by rw [Dec.running, he.pos])
  have hraw : e.rawBytes = [] := congrArg (·.2.2.2.2) (he.launched.trans hkept)
  refine ⟨_, exec_diffDec_fin hs hdec.symm he.pos, rfl, hready, ?_⟩
  refine State.grid_decoded hcodec hcur hraw he.paints ?_ ?_ ?_ ?_ ?_
  all_goals rfl

end Sys2Proof.Machine
end

section
/-! SUPPORT. The word of a diff stream as a token (44_diff R205, R207, 30_encoding R88): a step of the machine whose
cursors stand where the word is expected. -/

namespace Sys2Proof.Machine

section
variable {d : Dec} {gap : Byte} {c : Color}

/-! ### The word and the cursors -/

/-- The cursors behind a word: its pixel decided, the ones its gap counts passed. -/
def Dec.wrote (d : Dec) (gap : Byte) (c : Color) : Dec :=
  { d with px := (d.cursor, c) :: d.px, cursor := d.cursor + gap.toNat + 1 }

/-- A word with no position left to write is `E_DIFF_RANGE` at the cursor. -/
theorem Dec.apply_diffW_past (hp : d.pos = .diff) (h : d.w * d.h ≤ d.cursor) :
    d.apply (.diffW gap c) = some (d.raise .diffRange d.cursor) :=
  (if_pos hp).trans (congrArg some (if_pos h))

/-- An advance past the rectangle is `E_DIFF_RANGE` at the position it leads to. -/
theorem Dec.apply_diffW_over (hp : d.pos = .diff) (h : d.cursor < d.w * d.h)
    (hover : d.w * d.h < d.cursor + gap.toNat + 1) :
    d.apply (.diffW gap c) = some ((d.wrote gap c).raise .diffRange (d.cursor + gap.toNat + 1)) :=
  (if_pos hp).trans (congrArg some ((if_neg (Nat.not_le.2 h)).trans (if_pos hover)))

theorem Dec.apply_diffW_within (hp : d.pos = .diff) (hroom : d.cursor + gap.toNat + 1 ≤ d.w * d.h) :
    d.apply (.diffW gap c) = some (d.wrote gap c).nextWord := by
  have hcursor : ¬ d.w * d.h ≤ d.cursor := by omega
  exact (if_pos hp).trans (congrArg some ((if_neg hcursor).trans (if_neg (Nat.not_lt.2 hroom))))

/-- A stream that ends before the rectangle does is `E_DIFF_COUNT`. -/
theorem Dec.nextWord_count (h : d.inp = []) (hc : d.cursor ≠ d.w * d.h) :
    d.nextWord = d.raise .diffCount d.cursor := (if_pos h).trans (if_pos hc)

/-- Cursors that expect a word, their pixels written. -/
theorem Dec.eq_of_diff (hp : d.pos = .diff) (hpx : d.px = []) (hraw : d.rawBytes = []) :
    { d with pos := .diff, px := [], rawBytes := [] } = d := by
  cases d
  cases hp
  cases hpx
  cases hraw
  rfl

end

theorem State.putPixels_wrote (s : State) {d : Dec} {gap : Byte} {c : Color} (hpx : d.px = []) :
    s.putPixels (d.wrote gap c).px = s.putPixel d.cursor c := by
  rw [Dec.wrote, hpx]
  rfl

/-! ### The steps -/

section
variable {s : State} {d : Dec} {gap : Byte} {c : Color} (hs : s.dec = some d) (hpx : d.px = []) (hraw : d.rawBytes = [])
  (hp : d.pos = .diff)
include hs hpx hraw hp

theorem exec_diffW_more (hroom : d.cursor + gap.toNat + 1 ≤ d.w * d.h) (hinp : d.inp ≠ []) :
    exec (.diffW gap c) s = .next { s.putPixel d.cursor c with
      dec := some { d with cursor := d.cursor + gap.toNat + 1 } } := by
  have hclean := Dec.eq_of_diff (d := { d with cursor := d.cursor + gap.toNat + 1 }) hp hpx hraw
  rw [exec_token s d _ _ hs (Dec.apply_diffW_within hp hroom), Dec.nextWord_more (d := d.wrote gap c) hinp,
    s.settle_running { d.wrote gap c with pos := .diff } rfl hraw, s.putPixels_wrote hpx, ← hclean]
  rfl

theorem exec_diffW_last (hend : d.cursor + gap.toNat + 1 = d.w * d.h) (hinp : d.inp = []) :
    ∃ t, exec (.diffW gap c) s = .next t ∧ EndsWell (s.putPixel d.cursor c) d t := by
  refine ⟨_, exec_token s d _ _ hs (Dec.apply_diffW_within hp hend.le), ?_⟩
  rw [Dec.nextWord_fin (d := d.wrote gap c) hinp hend, ← s.putPixels_wrote (gap := gap) hpx]
  exact s.settle_endsWell { d.wrote gap c with pos := .fin } rfl hraw

end

/-- Settles O57, by where the cursor and the advance lie and by whether more input is to come. -/
theorem diffTokenCompletes : Obligations.DiffTokenCompletes := by
  intro s d gap c hs hpx hraw hp
  refine ⟨fun _ hroom hinp => exec_diffW_more hs hpx hraw hp hroom hinp,
    fun hend hinp => exec_diffW_last hs hpx hraw hp hend hinp, fun hshort hinp => ?_, fun hpast => ?_,
    fun hcursor hover => ?_⟩
  · have hcount := Dec.nextWord_count (d := d.wrote gap c) hinp hshort.ne
    exact exec_token_raises hs (d.wrote gap c) .diffCount _
      ((Dec.apply_diffW_within hp hshort.le).trans (congrArg some hcount))
  · exact exec_token_raises hs d .diffRange _ (Dec.apply_diffW_past hp hpast)
  · exact exec_token_raises hs (d.wrote gap c) .diffRange _ (Dec.apply_diffW_over hp hcursor hover)

end Sys2Proof.Machine
end

section
/-! SUPPORT. `DIFF.ENC` (44_diff R202, R204, R210): the launch with buffer B, and the stream stored. -/

namespace Sys2Proof.Machine

/-- A diff encode in the modelled domain runs its operation: its buffers are one or share no byte (70_reset R290). -/
theorem command_diffEnc_go {s : State} {go : State → State} (w : Word) (hs : s.encodeLaunch) (hb : s.formatBOk)
    (hfits : s.areaFits s.areaB Config.pixelBytes)
    (hapart : s.areaA = s.areaB ∨ ∀ a, ¬ (s.areaA.holds a ∧ s.areaB.holds a)) (esc : State → Raise → State) :
    command w (fun u => launch u [checkRect u, checkFormatA u, checkFormatB u] [stopAreaA u, stopAreaB u, stopOutput u]
      esc go) s = .next (go (s.start w)) := by
  obtain ⟨⟨hf, hrect, hformat, harea⟩, hout⟩ := hs
  have hoverlap : s.areaA = s.areaB ∨ s.areaA.overlaps s.areaB = false :=
    hapart.imp_right fun h => Bool.eq_false_iff.2 fun ho => by
      obtain ⟨a, hab⟩ := (Area.overlaps_iff _ _).1 ho
      exact h a hab
  rw [command_ready _ _ _ hf, launch_go]
  · simp [(checkRect_eq_none s).2 hrect, (checkFormatA_eq_none s).2 hformat, (checkFormatB_eq_none s).2 hb]
  · simp [(stopAreaA_eq_none s).2 harea, (stopAreaB_eq_none s).2 ⟨hfits, hoverlap⟩, (stopOutput_eq_none s).2 hout]

/-- Settles O31: the launch passes (`command_diffEnc_go`) and the stream, which fits, is stored
(`State.stored_bytes`). -/
theorem diffEncResult : Obligations.DiffEncResult := by
  rintro s out hs hb hfits hapart rfl hfit
  have hgo : exec .diffEnc s = .next ((s.start 0x30).writeOut (diffEnc (s.grid s.areaA) (s.grid s.areaB)) fun t =>
      { t with
        regs.res0 := BitVec.ofNat 32 ((diffEnc (s.grid s.areaA) (s.grid s.areaB)).length / 4)
        status := t.status.setNotWorth (decide (s.regs.rectW.toNat * s.regs.rectH.toNat * Config.pixelBytes ≤
          (diffEnc (s.grid s.areaA) (s.grid s.areaB)).length)) }) :=
    command_diffEnc_go 0x30 hs hb hfits hapart State.raiseEncode
  rw [hgo, State.writeOut_fits (s.start 0x30) _ _ hfit]
  exact ⟨_, rfl, rfl, State.stored_bytes (u := s.start 0x30) hfit rfl rfl rfl rfl rfl rfl rfl rfl⟩

end Sys2Proof.Machine
end

section
/-! SUPPORT. The runs of a diff stream (44_diff R201, R203): one word for each, the positions they cover, and the
picture's colour where each starts. -/

namespace Sys2Proof.Machine

/-! ### Lists of runs -/

/-- The words of a list of runs (30_encoding R88). -/
def runsBytes (runs : List (Byte × Color)) : List Byte := runs.flatMap fun r => be32 (r.1 ++ r.2)

/-- The positions a list of runs covers: of each run its first and those its gap counts. -/
def runsLength (runs : List (Byte × Color)) : Nat := (runs.map fun r => r.1.toNat + 1).sum

/-- The first position and the colour of each run, where the first run starts at `n`. -/
def runStarts : Nat → List (Byte × Color) → List (Nat × Color)
  | _, [] => []
  | n, r :: rest => (n, r.2) :: runStarts (n + r.1.toNat + 1) rest

theorem diffWord_toNat (r : Byte × Color) : diffWord r.1.toNat r.2 = be32 (r.1 ++ r.2) := by
  rw [diffWord, BitVec.ofNat_toNat, BitVec.setWidth_eq, payload32_eq]

theorem runsBytes_cons (r : Byte × Color) (rest : List (Byte × Color)) :
    runsBytes (r :: rest) = diffWord r.1.toNat r.2 ++ runsBytes rest := by
  rw [diffWord_toNat]
  rfl

theorem runsBytes_length (runs : List (Byte × Color)) : (runsBytes runs).length = 4 * runs.length := by
  have h := length_flatMap_be32 (runs.map fun r => r.1 ++ r.2)
  rwa [List.flatMap_map, List.length_map] at h

theorem runsLength_cons (r : Byte × Color) (rest : List (Byte × Color)) :
    runsLength (r :: rest) = r.1.toNat + 1 + runsLength rest := rfl

/-- Every run covers a position. -/
theorem length_le_runsLength (runs : List (Byte × Color)) : runs.length ≤ runsLength runs := by
  have h := List.length_le_sum_of_one_le (runs.map fun r => r.1.toNat + 1) fun k hk => by
    obtain ⟨r, -, rfl⟩ := List.mem_map.1 hk
    exact Nat.le_add_left ..
  rwa [List.length_map] at h

/-- A run starts behind the positions of the runs before it. -/
theorem mem_runStarts {n : Nat} {runs : List (Byte × Color)} {p : Nat × Color} :
    p ∈ runStarts n runs ↔
      ∃ before after r, runs = before ++ r :: after ∧ p = (n + runsLength before, r.2) := by
  induction runs generalizing n with
  | nil => simp [runStarts]
  | cons r rest ih =>
    rw [runStarts, List.mem_cons, ih]
    constructor
    · rintro (rfl | ⟨before, after, q, rfl, rfl⟩)
      · exact ⟨[], rest, r, rfl, rfl⟩
      · exact ⟨r :: before, after, q, rfl, by rw [runsLength_cons]; simp only [Nat.add_assoc]⟩
    · rintro ⟨_ | ⟨r', before⟩, after, q, hruns, rfl⟩
      · obtain ⟨rfl, rfl⟩ := List.cons.inj hruns
        exact .inl rfl
      · obtain ⟨rfl, rfl⟩ := List.cons.inj hruns
        exact .inr ⟨before, after, q, rfl, by rw [runsLength_cons]; simp only [Nat.add_assoc]⟩

/-! ### The runs of the encoder (R202, R203) -/

/-- The runs code the picture from position `n` on: they cover the rest of it, and each has the picture's colour where
it starts. -/
structure RunsCode (cur : List Color) (n : Nat) (runs : List (Byte × Color)) (bytes : List Byte) : Prop where
  bytes : bytes = runsBytes runs
  covers : n + runsLength runs = cur.length
  starts : ∀ p ∈ runStarts n runs, cur[p.1]? = some p.2

/-- One more run before the others. -/
theorem RunsCode.cons {cur : List Color} {n gap : Nat} {c : Color} {rest : List (Byte × Color)} {bytes : List Byte}
    (h : RunsCode cur (n + gap + 1) rest bytes) (hgap : gap ≤ 255) (hc : cur[n]? = some c) :
    RunsCode cur n ((BitVec.ofNat 8 gap, c) :: rest) (diffWord gap c ++ bytes) := by
  have hgap8 : (BitVec.ofNat 8 gap).toNat = gap := Nat.mod_eq_of_lt (by omega)
  refine ⟨?_, ?_, ?_⟩
  · rw [runsBytes_cons, hgap8, h.bytes]
  · rw [runsLength_cons, hgap8, ← h.covers]
    omega
  · rw [runStarts, hgap8]
    exact List.forall_mem_cons.2 ⟨hc, h.starts⟩

/-- The open run and those behind it, where the open run starts at position `n`. -/
theorem diffScan_runs {cur prev : List Color} {n : Nat} (pairs : List (Color × Color)) (gap : Nat) (pending : Color)
    (hgap : gap ≤ 255) (hroom : n + gap + 1 ≤ cur.length) (hprev : prev.length = cur.length)
    (hopen : cur[n]? = some pending) (hpairs : pairs = (cur.zip prev).drop (n + gap + 1)) :
    ∃ g rest, RunsCode cur n ((g, pending) :: rest) (diffScan gap pending pairs) := by
  induction pairs generalizing n gap pending with
  | nil =>
    have hend : cur.length ≤ n + gap + 1 := by
      have hdrop := List.drop_eq_nil_iff.1 hpairs.symm
      rwa [List.length_zip, hprev, Nat.min_self] at hdrop
    have hdone : RunsCode cur (n + gap + 1) [] [] := ⟨rfl, Nat.le_antisymm hroom hend, List.forall_mem_nil _⟩
    rw [diffScan_nil, ← List.append_nil (diffWord gap pending)]
    exact ⟨_, _, hdone.cons hgap hopen⟩
  | cons q rest ih =>
    obtain ⟨c, p⟩ := q
    obtain ⟨hc, -, hrest⟩ := drop_zip_cons hpairs.symm
    have hin : n + gap + 1 < cur.length := (List.getElem?_eq_some_iff.1 hc).1
    by_cases hsame : c = p ∧ gap < 255
    · obtain ⟨rfl, hgap'⟩ := hsame
      rw [diffScan_same hgap']
      exact ih (gap + 1) pending hgap' hin hopen hrest
    · rw [diffScan_open hsame]
      obtain ⟨g, runs, hruns⟩ := ih 0 c (Nat.zero_le _) hin hc hrest
      exact ⟨_, _, hruns.cons hgap hopen⟩

/-- Settles O30: the scan of the encoder closes one run after the other (`diffScan_runs`), the first one opened at
position 0. -/
theorem diffStreamProperties : Obligations.DiffStreamProperties := by
  intro cur prev hlen hpos
  obtain ⟨c, cs, rfl⟩ := List.exists_cons_of_length_pos hpos
  obtain ⟨p, ps, rfl⟩ := List.exists_cons_of_length_pos (hlen ▸ hpos)
  obtain ⟨g, rest, hbytes, hcovers, hstarts⟩ := diffScan_runs (cur := c :: cs) (prev := p :: ps) (n := 0)
    (cs.zip ps) 0 c (Nat.zero_le _) hpos hlen.symm rfl rfl
  rw [Nat.zero_add] at hcovers
  rw [diffEnc_cons]
  refine ⟨(g, c) :: rest, hbytes, hbytes ▸ runsBytes_length _, Nat.le_add_left .., hcovers ▸ length_le_runsLength _,
    hcovers, rfl, fun before after r hr => ?_⟩
  have hstart := hstarts _ (mem_runStarts.2 ⟨before, after, r, hr, rfl⟩)
  rwa [Nat.zero_add] at hstart

end Sys2Proof.Machine
end

section
/-! SUPPORT. `DIFF.DEC` of a list of runs (44_diff R205, R207, R211): word by word the pixel that starts a run is
written, and no other byte. -/

namespace Sys2Proof.Machine

/-! ### The decoder -/

theorem runsBytes_cons_ne_nil (r : Byte × Color) (rest : List (Byte × Color)) : runsBytes (r :: rest) ≠ [] := by
  rw [runsBytes_cons]
  exact List.append_ne_nil_of_left_ne_nil (List.cons_ne_nil _ _) _

/-- The start of the first run is the oldest decided. -/
theorem reverse_runStarts_cons (n : Nat) (r : Byte × Color) (rest : List (Byte × Color)) (px : List (Nat × Color)) :
    (runStarts n (r :: rest)).reverse ++ px = (runStarts (n + r.1.toNat + 1) rest).reverse ++ (n, r.2) :: px := by
  rw [runStarts, List.reverse_cons, List.append_assoc]
  rfl

/-- The words of the runs that are left take the cursors to the end of the rectangle. -/
theorem Dec.steps_runs {d : Dec} (r : Byte × Color) (rest : List (Byte × Color)) (hp : d.pos = .diff)
    (hinp : d.inp = runsBytes (r :: rest)) (hend : d.cursor + runsLength (r :: rest) = d.w * d.h) :
    ∃ e, d.Steps e ∧ e.pos = .fin ∧ e.rawBytes = d.rawBytes ∧
      e.px = (runStarts d.cursor (r :: rest)).reverse ++ d.px := by
  induction rest generalizing d r with
  | nil =>
    have hrun : d.running = true := by rw [Dec.running, hp]
    rw [runsBytes_cons] at hinp
    have hdrop : (d.drop 4).inp = [] := Dec.drop_inp hinp
    have hlast : d.cursor + r.1.toNat + 1 = d.w * d.h := hend
    have hword := Dec.next_diffW hp hinp (Nat.le_of_lt_succ r.1.isLt) hlast.le
    rw [Dec.nextWord_fin (d := { d.drop 4 with px := (d.cursor, r.2) :: d.px, cursor := d.cursor + r.1.toNat + 1 })
      hdrop hlast] at hword
    exact ⟨_, .one hrun hword, rfl, rfl, rfl⟩
  | cons q rest ih =>
    have hrun : d.running = true := by rw [Dec.running, hp]
    rw [runsBytes_cons] at hinp
    rw [runsLength_cons, ← Nat.add_assoc, ← Nat.add_assoc] at hend
    have hdrop : (d.drop 4).inp = runsBytes (q :: rest) := Dec.drop_inp hinp
    have hword := Dec.next_diffW hp hinp (Nat.le_of_lt_succ r.1.isLt) (hend ▸ Nat.le_add_right ..)
    rw [Dec.nextWord_more (hdrop ▸ runsBytes_cons_ne_nil q rest)] at hword
    obtain ⟨e, hsteps, hpos, hraw, hpx⟩ := ih (d := { d.drop 4 with
      px := (d.cursor, r.2) :: d.px, cursor := d.cursor + r.1.toNat + 1, pos := .diff }) q rfl hdrop hend
    exact ⟨e, .head hrun (hword ▸ hsteps), hpos, hraw, hpx.trans (reverse_runStarts_cons d.cursor r _ d.px).symm⟩

/-- The whole stream of a list of runs that covers the rectangle. -/
theorem Dec.steps_startDiff_runs {d : Dec} {runs : List (Byte × Color)} (hwh : 0 < d.w * d.h)
    (hinp : d.inp = runsBytes runs) (hend : runsLength runs = d.w * d.h) :
    ∃ e, d.startDiff.Steps e ∧ e.pos = .fin ∧ e.rawBytes = d.rawBytes ∧ e.px = (runStarts 0 runs).reverse ++ d.px := by
  cases runs with
  | nil => exact absurd hend hwh.ne
  | cons r rest =>
    have hmod : ¬ d.inp.length % 4 ≠ 0 := by rw [hinp, runsBytes_length]; omega
    have hstart : d.startDiff = { d with cursor := 0, pos := .diff } := by
      rw [Dec.startDiff, if_neg hmod]
      exact Dec.nextWord_more (d := { d with cursor := 0 }) (hinp ▸ runsBytes_cons_ne_nil r rest)
    rw [hstart]
    exact Dec.steps_runs (d := { d with cursor := 0, pos := .diff }) r rest rfl hinp ((Nat.zero_add _).trans hend)

/-! ### The pixels -/

/-- The picture in which every pixel has the colour of its run. -/
def runsPicture (runs : List (Byte × Color)) : List Color := runs.flatMap fun r => List.replicate (r.1.toNat + 1) r.2

theorem runsPicture_length (runs : List (Byte × Color)) : (runsPicture runs).length = runsLength runs := by
  simp only [runsPicture, runsLength, List.length_flatMap, List.length_replicate]

/-- A run starts with its own colour, so the starts of the runs paint a picture. -/
theorem paints_runStarts (runs : List (Byte × Color)) :
    Paints (runStarts 0 runs).reverse (runsPicture runs) fun _ => False where
  sound p hp := by
    obtain ⟨before, after, r, rfl, rfl⟩ := mem_runStarts.1 (List.mem_reverse.1 hp)
    have hsplit : runsPicture (before ++ r :: after) =
        runsPicture before ++ r.2 :: (List.replicate r.1.toNat r.2 ++ runsPicture after) := by
      rw [runsPicture, List.flatMap_append, List.flatMap_cons, List.replicate_succ]
      rfl
    rw [hsplit, Nat.zero_add, ← runsPicture_length, List.getElem?_append_right (Nat.le_refl _), Nat.sub_self]
    rfl
  decided _ h := h.elim

/-- A pixel that has been decided reads as its colour, whatever else has been decided. -/
theorem State.pixRead_putPixels_mem {s : State} {px : List (Nat × Color)} {grid : List Color} {P : Nat → Prop}
    (hw : 0 < s.regs.rectW.toNat) (hlen : s.regs.rectW.toNat * Config.pixelBytes ≤ s.areaA.stride)
    (h : Paints px grid P) {p : Nat × Color} (hp : p ∈ px) :
    (s.putPixels px).pixRead s.areaA (p.1 % s.regs.rectW.toNat) (p.1 / s.regs.rectW.toNat) = pixelOf p.2 := by
  have hpos : p.1 / s.regs.rectW.toNat * s.regs.rectW.toNat + p.1 % s.regs.rectW.toNat = p.1 := by
    rw [Nat.mul_comm]
    exact Nat.div_add_mod ..
  rcases State.pixRead_putPixels hlen (Nat.mod_lt p.1 hw) (j := p.1 / s.regs.rectW.toNat) h with ⟨-, hnew⟩ | ⟨hno, -⟩
  · rw [hnew, hpos, List.getD_eq_getElem?_getD, h.sound p hp]
    rfl
  · exact absurd hpos.symm (hno p hp)

/-- Writing pixels leaves every byte that belongs to none of them. -/
theorem State.byte_putPixels_outside {s : State} {px : List (Nat × Color)} {a : Nat}
    (h : ∀ p ∈ px, ∀ b < 4, a ≠ s.areaA.pixel (p.1 % s.regs.rectW.toNat) (p.1 / s.regs.rectW.toNat) + b) :
    (s.putPixels px).byte .pix a = s.byte .pix a := by
  induction px with
  | nil => rfl
  | cons p px ih =>
    obtain ⟨hp, hpx⟩ := List.forall_mem_cons.1 h
    have harea : (s.putPixels px).areaA = s.areaA := by simp only [State.areaA, State.area, State.putPixels_regs]
    rw [State.putPixels_cons, State.putPixel, State.byte_writePix, harea, State.putPixels_regs, if_neg, ih hpx]
    rintro ⟨hle, hlt⟩
    obtain ⟨b, rfl⟩ := Nat.exists_eq_add_of_le hle
    exact hp b (Nat.lt_of_add_lt_add_left hlt) rfl

/-- A byte of PIX after a decoding depends on PIX only. -/
theorem State.byte_pix_eq_flush {s t : State} {d : Dec} (hpix : t.pix = (s.flush d).pix) (hlost : t.lost = s.lost)
    (a : Nat) : t.byte .pix a = (s.flush d).byte .pix a := by
  apply State.byte_congr
  · rw [State.mem, State.mem, hpix]
  · rw [State.draws, State.draws, hlost, State.flush_pix]

/-- Settles O32: the words lead to the end of the rectangle with the start of each run decided (`Dec.steps_runs`), and
those pixels are all that is written. -/
theorem diffDecResult : Obligations.DiffDecResult := by
  intro s runs hs hinp hend
  have ⟨⟨_, ⟨hw, hh, _⟩, _, hfits⟩, _⟩ := hs
  obtain ⟨e, hsteps, hpos, hraw, hpx⟩ := Dec.steps_startDiff_runs (d := s.begin .diff) (Nat.mul_pos hw hh) hinp hend
  have hdec := hsteps.decode_eq (Dec.startDiff_noSplitZero _) (by rw [Dec.running, hpos])
  have hflush : s.flush e = s.putPixels (runStarts 0 runs).reverse := by
    rw [State.flush_eq s e hraw, hpx]
    exact congrArg s.putPixels (List.append_nil _)
  have hexec := exec_diffDec_fin hs hdec.symm hpos
  obtain ⟨t, ht⟩ : ∃ t, exec .diffDec s = .next t := ⟨_, hexec⟩
  have heq := Host.Outcome.next.inj (ht.symm.trans hexec)
  have hpix : t.pix = (s.flush e).pix := by rw [heq]
  have hlost : t.lost = s.lost := by rw [heq]
  refine ⟨t, ht, by rw [hpix]; exact heq, fun before after r hr => ?_, fun a ha => ?_⟩
  · have hmem : (runsLength before, r.2) ∈ (runStarts 0 runs).reverse :=
      List.mem_reverse.2 (mem_runStarts.2 ⟨before, after, r, hr, by rw [Nat.zero_add]⟩)
    rw [State.pixRead_eq_flush hpix hlost, hflush]
    exact (State.pixRead_putPixels_mem hw (State.rowLen_le_stride hfits) (paints_runStarts runs) hmem :)
  · rw [State.byte_pix_eq_flush hpix hlost, hflush]
    refine State.byte_putPixels_outside fun p hp b hb => ?_
    obtain ⟨before, after, r, hr, rfl⟩ := mem_runStarts.1 (List.mem_reverse.1 hp)
    rw [Nat.zero_add]
    exact ha before after r b hr hb

end Sys2Proof.Machine
end

section
/-! SUPPORT. The raw source in memory (45_selector R221, R233): the bytes of the rectangle's rows, one row after the
other, as `RAW.PACK` reads them. -/

namespace Sys2Proof.Machine

/-! ### Bytes of a read -/

theorem State.readBytes_getD (s : State) (sp : Space) (x : Nat) {i n : Nat} (hi : i < n) :
    (s.readBytes sp x n).getD i 0 = s.byte sp (x + i) := by
  rw [State.readBytes, List.getD_eq_getElem?_getD, List.getElem?_map, List.getElem?_range hi]
  rfl

/-- A byte of a range whose bytes are known. -/
theorem State.byte_of_readBytes {s : State} {sp : Space} {x i n : Nat} {bytes : List Byte}
    (h : s.readBytes sp x n = bytes) (hi : i < n) : s.byte sp (x + i) = bytes.getD i 0 := by
  rw [← h, State.readBytes_getD s sp x hi]

theorem State.input_getD (s : State) {i : Nat} (hi : i < s.regs.inLen.toNat) :
    s.input.getD i 0 = s.byte .str (s.regs.inBase.toNat + i) := s.readBytes_getD .str _ hi

/-! ### The rows -/

/-- The address of a byte of the raw rectangle, as 45_selector R221 writes it. -/
theorem State.areaRaw_row_add (s : State) (row o : Nat) :
    s.areaRaw.row row + o =
      s.regs.pixaBase.toNat + (s.regs.rectY.toNat + row) * s.regs.pixaStride.toNat +
        s.regs.rectX.toNat * s.regs.pixaBpp.toNat + o := by
  simp only [Area.row, State.areaRaw, State.area]
  ring

/-- `rawSize` is the bytes of all rows. -/
theorem State.rawSize_eq_rows (s : State) : s.rawSize = s.areaRaw.rows * s.areaRaw.rowLen := by
  rw [State.rawSize, Nat.mul_right_comm, Nat.mul_comm]
  rfl

theorem State.rawPack_length (s : State) : s.rawPack.length = s.rawSize := by
  rw [State.rawPack, length_flatMap_range _ s.areaRaw.rowLen _ fun j => s.readBytes_length .pix _ _, Nat.mul_comm,
    State.rawSize_eq_rows]

/-- Byte `o` of row `row` of the raw source. -/
theorem State.rawPack_getD (s : State) {row o : Nat} (hrow : row < s.areaRaw.rows) (ho : o < s.areaRaw.rowLen) :
    s.rawPack.getD (row * s.areaRaw.rowLen + o) 0 = s.byte .pix (s.areaRaw.row row + o) := by
  rw [State.rawPack, getD_flatMap_range _ _ _ o row 0 (fun j => s.readBytes_length .pix _ _) ho hrow,
    State.readBytes_getD s .pix _ ho]

/-- A byte of a row lies in the raw source. -/
theorem State.row_byte_lt (s : State) {row o : Nat} (hrow : row < s.areaRaw.rows) (ho : o < s.areaRaw.rowLen) :
    row * s.areaRaw.rowLen + o < s.rawSize := by
  rw [State.rawSize_eq_rows, Nat.mul_comm s.areaRaw.rows]
  exact row_major_lt ho hrow

/-! ### `RAW.PACK` -/

/-- A raw encode in the modelled domain runs its operation. -/
theorem command_rawEnc_go {s : State} {go : State → State} (w : Word) (hs : s.rawLaunch) (hout : s.outputFits)
    (esc : State → Raise → State) :
    command w (fun u => launch u [checkRect u, checkRaw u] [stopAreaRaw u, stopOutput u] esc go) s =
      .next (go (s.start w)) := by
  obtain ⟨hf, hrect, hraw, harea⟩ := hs
  rw [command_ready _ _ _ hf, launch_go]
  · simp [(checkRect_eq_none s).2 hrect, (checkRaw_eq_none s).2 hraw]
  · simp [(stopAreaRaw_eq_none s).2 harea, (stopOutput_eq_none s).2 hout]

/-- Settles O42: the launch passes, the raw source fits and is stored (`State.stored_bytes`), and its bytes are those of
the rows (`State.rawPack_getD`). -/
theorem rawPackResult : Obligations.RawPackResult := by
  intro s hs hout hfit
  rw [← State.rawPack_length] at hfit
  have hexec : exec .rawPack s = .next ((s.start 0x40).storeOut s.rawPack).complete :=
    (command_rawEnc_go 0x40 hs hout _).trans (congrArg _ (State.writeOut_fits (s.start 0x40) _ id hfit))
  have hstored := State.stored_bytes (s := s) (u := s.start 0x40) hfit rfl rfl rfl rfl rfl
    (t := ((s.start 0x40).storeOut s.rawPack).complete) rfl rfl rfl
  rw [State.rawPack_length] at hstored
  obtain ⟨hbytes, hframe⟩ := hstored
  refine ⟨_, hexec, ?_, fun row o hrow ho => ?_, hframe⟩
  · rw [← State.rawPack_length]
    rfl
  · have hpack := s.rawPack_getD hrow ho
    rw [State.areaRaw_row_add] at hpack
    rw [Nat.add_assoc]
    exact (State.byte_of_readBytes hbytes (s.row_byte_lt hrow ho)).trans hpack

end Sys2Proof.Machine
end

section
/-! SUPPORT. The raw copy into PIX (45_selector R221, R232, R234): `RAW.UNPACK`, and the raw payload as a token. -/

namespace Sys2Proof.Machine

/-! ### The writes -/

theorem State.rawUnpack_nil (s : State) : s.rawUnpack [] = s := by
  have hrows : ∀ l : List Nat, l.foldl (fun t j => t.writePix (s.areaRaw.row j)
      ((([] : List Byte).drop (j * s.areaRaw.rowLen)).take s.areaRaw.rowLen)) s = s := by
    intro l
    induction l with
    | nil => rfl
    | cons j l ih => rwa [List.foldl_cons, List.drop_nil, List.take_nil]
  exact hrows _

theorem State.rawUnpack_lost (s : State) (src : List Byte) : (s.rawUnpack src).lost = s.lost := by
  rw [State.rawUnpack_eq]

/-- Without pixels decided the raw bytes are all that is written. -/
theorem State.flush_raw (s : State) {d : Dec} (hpx : d.px = []) : s.flush d = s.rawUnpack d.rawBytes := by
  rw [State.flush, hpx]
  split
  · rename_i h
    rw [h, State.rawUnpack_nil]
    rfl
  · rfl

/-- Outside the rectangle a raw copy changes nothing. -/
theorem State.byte_rawUnpack_outside (s : State) (src : List Byte) {a : Nat} (ha : ¬ s.areaRaw.holds a) :
    (s.rawUnpack src).byte .pix a = s.byte .pix a := by
  rw [State.rawUnpack_eq]
  exact State.byte_congr _ _ _ _ (s.agreeOff_rawUnpack src a ha) rfl

/-- A byte of PIX depends on PIX and on the free values only. -/
theorem State.byte_pix_eq {s t : State} (hpix : t.pix = s.pix) (hlost : t.lost = s.lost) (a : Nat) :
    t.byte .pix a = s.byte .pix a := by
  apply State.byte_congr
  · rw [State.mem, State.mem, hpix]
  · rw [State.draws, State.draws, hlost]

/-! ### `RAW.UNPACK` -/

/-- The raw token takes the raw size from the front of the input. -/
theorem Dec.next_raw_take {d : Dec} (hp : d.pos = .raw) (hlen : d.rawSize ≤ d.inp.length) :
    d.next = { d.drop d.rawSize with rawBytes := d.inp.take d.rawSize, pos := .fin } := by
  have htake : (d.inp.take d.rawSize).length = d.rawSize := List.length_take_of_le hlen
  have hdecode : Sys2Proof.decode (.rawBody d.rawSize) (.bytes (d.inp.take d.rawSize)) =
      .ok (.rawPayload (d.inp.take d.rawSize)) := if_pos htake
  have hfetch : d.fetch = (some (.rawPayload (d.inp.take d.rawSize)), d.drop d.rawSize) := by
    simp only [Dec.fetch, hp, if_neg (Nat.not_lt.2 hlen), hdecode, Dec.fetched]
  exact Dec.next_eq hfetch (if_pos ⟨hp, htake⟩)

/-- An input that is too short is `E_TRUNC` at the cursor. -/
theorem Dec.next_raw_trunc {d : Dec} (hp : d.pos = .raw) (hlen : d.inp.length < d.rawSize) :
    d.next = d.raise .trunc d.ip := by
  have hfetch : d.fetch = (none, d.raise .trunc d.ip) := by simp only [Dec.fetch, hp, if_pos hlen]
  exact d.next_of_fetch_none _ hfetch

theorem State.input_length (s : State) : s.input.length = s.regs.inLen.toNat := s.readBytes_length .str _ _

section
variable {s : State} (hs : s.rawLaunch) (hin : s.inputFits)
include hs hin

theorem exec_rawUnpack_copies (hlen : s.rawSize ≤ s.regs.inLen.toNat) :
    exec .rawUnpack s = .next { s with
      pix := (s.rawUnpack (s.input.take s.rawSize)).pix, dec := none
      regs := { s.regs with cmd := 0x41, inUsed := BitVec.ofNat 32 s.rawSize }
      status := { s.status with done := true, notWorth := false } } := by
  have hnext := Dec.next_raw_take (d := s.begin .raw) rfl (s.input_length.symm ▸ hlen)
  have hdec := (Dec.Steps.one rfl hnext).decode_eq (s.begin_noSplitZero .raw) rfl
  have hexec := exec_rawUnpack_fin hs hin hdec.symm rfl
  rw [State.flush_raw s rfl] at hexec
  exact hexec

theorem exec_rawUnpack_trunc (hlen : s.regs.inLen.toNat < s.rawSize) :
    exec .rawUnpack s = .next ((s.start 0x41).raiseDecode s.areaRaw ⟨.trunc, 0⟩) := by
  have hnext := Dec.next_raw_trunc (d := s.begin .raw) rfl (s.input_length.symm ▸ hlen)
  have hdec := (Dec.Steps.one rfl hnext).decode_eq (s.begin_noSplitZero .raw) rfl
  refine (command_rawDec_go 0x41 hs hin _).trans (congrArg _ ?_)
  rw [State.runDecoder, State.begin_start, hdec, State.settle_raised _ _ _ rfl]
  rfl

end

/-- Settles O43, by whether the input holds the raw size: its bytes go to the rows (`State.byte_rawUnpack`), or there is
one token, which cannot be read. -/
theorem rawUnpackResult : Obligations.RawUnpackResult := by
  refine fun s hs hin => ⟨fun hlen => ?_, fun hlen => ⟨_, exec_rawUnpack_trunc hs hin hlen, rfl, rfl, rfl, rfl⟩⟩
  have hready := hs.1
  have ⟨_, _, _, hfits⟩ := hs
  have hexec := exec_rawUnpack_copies hs hin hlen
  refine ⟨_, hexec, rfl, fun row o hrow ho => ?_, exec_decode_sameBytes (by simp) hready hexec⟩
  have hlt := s.row_byte_lt hrow ho
  have hcopied := State.byte_rawUnpack (src := s.input.take s.rawSize) (State.rowLen_le_stride hfits)
    (by rw [List.length_take_of_le (s.input_length.symm ▸ hlen), State.rawSize_eq_rows]) hrow ho
  rw [List.getD_eq_getElem?_getD, List.getElem?_take_of_lt hlt, ← List.getD_eq_getElem?_getD,
    s.input_getD (hlt.trans_le hlen), ← Nat.add_assoc] at hcopied
  rw [← State.areaRaw_row_add]
  refine (State.byte_pix_eq (s := s.rawUnpack (s.input.take s.rawSize)) ?_ ?_ _).trans hcopied
  · rfl
  · exact (s.rawUnpack_lost _).symm

/-! ### The raw payload as a token -/

/-- Where the raw payload leaves the machine: the command ends well (45_selector R232, R234). -/
theorem State.settle_raw {s : State} {d : Dec} (hp : d.pos = .fin) (hk : d.kind = .raw ∨ d.kind = .sel)
    (hpx : d.px = []) :
    (s.settle d).pix = (s.rawUnpack d.rawBytes).pix ∧ (s.settle d).lost = s.lost ∧ (s.settle d).str = s.str ∧
      (s.settle d).dec = none ∧ (s.settle d).status.done = true ∧
      (s.settle d).status.fault = s.status.fault := by
  rw [State.settle_fin s d hp, State.flush_raw s hpx, State.rawUnpack_eq]
  rcases hk with hk | hk
  · rw [State.decoded, hk]
    exact ⟨rfl, rfl, rfl, rfl, rfl, rfl⟩
  · rw [State.decoded, hk]
    exact ⟨rfl, rfl, rfl, rfl, rfl, rfl⟩

/-- Settles O51: the token puts its bytes behind the cursors, the machine ends the command (`State.settle_raw`), and the
rows lie apart (`State.byte_rawUnpack`). -/
theorem rawPayloadCompletes : Obligations.RawPayloadCompletes := by
  intro s d bytes hs hpx hraw hp hk hlen hsize hstride
  have ha : d.apply (.rawPayload bytes) = some { d with rawBytes := bytes, pos := .fin } := if_pos ⟨hp, hlen⟩
  obtain ⟨hpix, hlost, hstr, hdec, hdone, hfault⟩ :=
    State.settle_raw (s := s) (d := { d with rawBytes := bytes, pos := .fin }) rfl hk hpx
  have hbyte := State.byte_pix_eq (s := s.rawUnpack bytes) hpix (hlost.trans (s.rawUnpack_lost bytes).symm)
  refine ⟨_, exec_token s d _ _ hs ha, hdone, hfault, hdec, hstr, fun j o hj ho => ?_, fun a hout => ?_⟩
  · rw [hbyte, State.byte_rawUnpack hstride (hlen.trans hsize) hj ho]
  · rw [hbyte, State.byte_rawUnpack_outside s bytes hout]

end Sys2Proof.Machine
end

section
/-! SUPPORT. The tokens of a wire record (45_selector R224, 30_encoding R74 to R76), each as a step of the machine whose
cursors stand where the token is expected: the header, its two tags, and the decoder the source goes to. -/

namespace Sys2Proof.Machine

/-! ### Where the source goes -/

/-- An empty diff stream apart, a source of whole words starts with a word. -/
theorem Dec.dispatch_diff_words {d : Dec} {src : List Byte} (he : d.enc = 1) (hpos : 0 < src.length)
    (hmod : src.length % 4 = 0) :
    d.dispatch src = { d with inp := src, ip := 0, cursor := 0, pos := .diff } := by
  rw [Dec.dispatch_diff src he, Dec.startDiff, if_neg fun hne => hne hmod]
  exact Dec.nextWord_more (d := { d with inp := src, ip := 0, cursor := 0 }) (List.ne_nil_of_length_pos hpos)

/-- A diff stream that is not of whole words is `E_LENGTH`. -/
theorem Dec.dispatch_diff_length {d : Dec} {src : List Byte} (he : d.enc = 1) (hmod : src.length % 4 ≠ 0) :
    d.dispatch src = ({ d with inp := src, ip := 0 } : Dec).raise .length src.length :=
  (Dec.dispatch_diff src he).trans (if_pos hmod)

/-! ### The tags -/

/-- A structural method's tag on a buffer of the format it needs. -/
theorem Dec.encTag_structural {d : Dec} {tag : BitVec 16} (hp : d.pos = .enc) (htag : d.enc = tag)
    (h0 : tag ≠ Config.encNone) (hf : d.badFormat = none) : d.encTag tag = some { d with pos := .compr } := by
  rw [Dec.encTag, if_pos ⟨hp, htag⟩, if_neg h0, hf]

/-- The compression tags are one token with four ports (30_encoding R76). -/
theorem Dec.apply_comprTag (d : Dec) {i : Instr} {tag : BitVec 16} {m : ComprMethod}
    (hmem : (i, tag, m) ∈ [(Instr.comprLz4, (1 : BitVec 16), ComprMethod.lz4), (.comprZstd, 2, .zstd),
      (.comprZlib, 3, .zlib), (.comprBzip2, 4, .bzip2)]) : d.apply i = d.comprTag tag m := by
  simp only [List.mem_cons, Prod.mk.injEq, List.not_mem_nil, or_false] at hmem
  rcases hmem with ⟨rfl, rfl, rfl⟩ | ⟨rfl, rfl, rfl⟩ | ⟨rfl, rfl, rfl⟩ | ⟨rfl, rfl, rfl⟩
  · rfl
  · rfl
  · rfl
  · rfl

section
variable {d : Dec} {tag : BitVec 16} {m : ComprMethod} (hp : d.pos = .compr) (htag : d.compr = tag)
  (hlen : d.complen ≤ d.inp.length)
include hp htag hlen

/-- The port answers `Error`. -/
theorem Dec.comprTag_error (h : Config.decompress m (d.inp.take d.complen) d.srclen = none) :
    d.comprTag tag m = some (d.raise .compressor 2) := by
  rw [Dec.comprTag, if_pos ⟨hp, htag⟩, Dec.need_le _ _ hlen, h]

/-- The port answers bytes of another length than the header declares. -/
theorem Dec.comprTag_length {src : List Byte}
    (h : Config.decompress m (d.inp.take d.complen) d.srclen = some src) (hne : src.length ≠ d.srclen) :
    d.comprTag tag m = some (d.raise .compressor 3) := by
  rw [Dec.comprTag, if_pos ⟨hp, htag⟩, Dec.need_le _ _ hlen, h]
  exact congrArg some (if_pos hne)

/-- The port answers bytes of the declared length. -/
theorem Dec.comprTag_answer {src : List Byte} (h : Config.decompress m (d.inp.take d.complen) d.srclen = some src)
    (heq : src.length = d.srclen) : d.comprTag tag m = some (d.dispatch src) :=
  Dec.comprTag_unpacks hp (List.take_append_drop d.complen d.inp).symm (List.length_take_of_le hlen).symm heq.symm
    htag (by rwa [heq])

end

/-! ### The steps -/

section
variable {s : State} {d : Dec} {i : Instr} {src : List Byte} (hs : s.dec = some d) (hpx : d.px = [])
  (hraw : d.rawBytes = [])
include hs hpx hraw

/-- A tag that hands over the source opens the decoder of the latched method on it. -/
theorem exec_dispatch (ha : d.apply i = some (d.dispatch src)) :
    (d.enc = 0 → exec i s = .next { s with dec := some { d with inp := src, ip := 0, pos := .raw } }) ∧
    (d.enc = 2 → exec i s = .next { s with dec := some { d with inp := src, ip := 0, pos := .tile } }) ∧
    (d.enc = 3 → exec i s = .next { s with dec := some { d with inp := src, ip := 0, pos := .qt } }) ∧
    (d.enc = 1 → 0 < src.length → src.length % 4 = 0 →
      exec i s = .next { s with dec := some { d with inp := src, ip := 0, cursor := 0, pos := .diff } }) ∧
    (d.enc = 1 → src.length % 4 ≠ 0 → ∃ t, exec i s = .next t ∧ EndsInFault t 11 src.length) := by
  refine ⟨fun he => ?_, fun he => ?_, fun he => ?_, fun he hpos hmod => ?_, fun he hmod => ?_⟩
  · exact exec_token_moves hs (ha.trans (congrArg some (d.dispatch_raw src he))) hpx hraw rfl
  · exact exec_token_moves hs (ha.trans (congrArg some (Dec.dispatch_trle src he))) hpx hraw rfl
  · exact exec_token_moves hs (ha.trans (congrArg some (Dec.dispatch_qt src he))) hpx hraw rfl
  · exact exec_token_moves hs (ha.trans (congrArg some (Dec.dispatch_diff_words he hpos hmod))) hpx hraw rfl
  · exact exec_token_raises hs _ .length src.length (ha.trans (congrArg some (Dec.dispatch_diff_length he hmod)))

end

/-- The registers of a fault whose detail fits 32 bits. -/
theorem EndsInFault.registers {t : State} {number : Word} {info : Nat} (h : EndsInFault t number info)
    (hinfo : info < 2 ^ 32) :
    t.status.fault = true ∧ t.regs.fault = number ∧ t.regs.faultInfo = BitVec.ofNat 32 info := by
  obtain ⟨-, hfault, hnumber, hdetail⟩ := h
  refine ⟨hfault, hnumber, BitVec.eq_of_toNat_eq ?_⟩
  rw [hdetail, BitVec.toNat_ofNat]
  omega

/-- Settles O49, token by token: the header and the tags move the cursors, and an uncompressed payload goes to the
decoder of the latched method (`exec_dispatch`). -/
theorem wireTokensComplete : Obligations.WireTokensComplete := by
  intro s d hs hpx hraw
  refine ⟨fun e c cl sl hp => ?_, fun hp he => ?_, fun hp hf => ⟨fun he => ?_, fun he => ?_, fun he => ?_⟩,
    fun hp hc hcl hsl => ?_⟩
  · exact exec_token_moves hs (if_pos hp) hpx hraw rfl
  · exact exec_token_moves hs (i := .encNone) (if_pos ⟨hp, he⟩) hpx hraw rfl
  · exact exec_token_moves hs (i := .encDiff) (Dec.encTag_structural hp he (by decide) hf) hpx hraw rfl
  · exact exec_token_moves hs (i := .encTrle) (Dec.encTag_structural hp he (by decide) hf) hpx hraw rfl
  · exact exec_token_moves hs (i := .encQuadtree) (Dec.encTag_structural hp he (by decide) hf) hpx hraw rfl
  · have hlen : (d.inp.take d.complen).length = d.complen := List.length_take_of_le hcl
    have ha : d.apply .comprNone = some (d.dispatch (d.inp.take d.complen)) :=
      Dec.comprNone_unpacks hp (List.take_append_drop d.complen d.inp).symm hlen.symm (hsl.symm.trans hlen.symm) hc rfl
    have hstep := exec_dispatch hs hpx hraw ha
    rw [hlen] at hstep
    obtain ⟨hnone, htrle, hqt, hdiff, hlength⟩ := hstep
    refine ⟨hnone, htrle, hqt, hdiff, fun he hmod => ?_⟩
    obtain ⟨t, ht, -, hfault⟩ := hlength he hmod
    exact ⟨t, ht, hfault⟩

/-- Settles O50, by the answer of the port: none, the declared length (`exec_dispatch`), or another one. -/
theorem compressionTagsComplete : Obligations.CompressionTagsComplete := by
  intro s d i tag m hmem hs hpx hraw hp htag hlen
  have happly := d.apply_comprTag hmem
  rcases hport : Config.decompress m (d.inp.take d.complen) d.srclen with _ | src
  · obtain ⟨t, ht, hend⟩ :=
      exec_token_raises hs d .compressor 2 (happly.trans (Dec.comprTag_error hp htag hlen hport))
    exact ⟨t, ht, nofun, fun _ => hend.registers (by decide), nofun⟩
  · by_cases hsl : src.length = d.srclen
    · have ha := happly.trans (Dec.comprTag_answer hp htag hlen hport hsl)
      have hstep := exec_dispatch hs hpx hraw ha
      rw [hsl] at hstep
      obtain ⟨hnone, htrle, hqt, hdiff, -⟩ := hstep
      have ht := exec_token s d _ i hs ha
      refine ⟨_, ht, ?_, nofun, ?_⟩
      · rintro _ ⟨⟩ -
        have hnext {u : State} (hu : exec i s = .next u) := Host.Outcome.next.inj (ht.symm.trans hu)
        exact ⟨fun he => hnext (hnone he), fun he => hnext (htrle he), fun he => hnext (hqt he),
          fun he hpos hmod => hnext (hdiff he hpos hmod)⟩
      · rintro _ ⟨⟩ hne
        exact absurd hsl hne
    · obtain ⟨t, ht, hend⟩ :=
        exec_token_raises hs d .compressor 3 (happly.trans (Dec.comprTag_length hp htag hlen hport hsl))
      refine ⟨t, ht, ?_, nofun, fun _ _ _ => hend.registers (by decide)⟩
      rintro _ ⟨⟩ heq
      exact absurd heq hsl

end Sys2Proof.Machine
end

section
/-! SUPPORT. The choices of the selector (45_selector R217 to R222): the method that steps 1 and 2 leave, what step 3
can produce, and what step 4 does with the answer of the port. -/

namespace Sys2Proof.Machine

/-! ### Steps 1 and 2 (R217, R218) -/

theorem State.fmtOk_iff (s : State) : s.fmtOk = true ↔ s.formatAOk := by
  rw [State.fmtOk, Option.isNone_iff_eq_none, checkFormatA_eq_none]

theorem State.formatAOk_iff (s : State) :
    s.formatAOk ↔ s.regs.pixaBpp = 4 ∧ s.regs.pixaStride.toNat % 4 = 0 := by
  rw [← BitVec.toNat_inj]
  rfl

/-- A previous frame that the diff method cannot use. -/
theorem State.not_formatBOk_iff (s : State) :
    (!s.prevValid) = true ∨ s.regs.pixbStride.toNat % 4 ≠ 0 ↔ ¬ s.formatBOk := by
  rw [State.formatBOk, Bool.not_eq_true', ← Bool.not_eq_true, ← not_and_or]
  rfl

/-- The method asked for, where the buffers have the format it needs. -/
theorem State.encMethod_eq {s : State} (hf : s.formatAOk) (hb : s.regs.cfgEnc.toNat = 1 → s.formatBOk) :
    s.encMethod = s.regs.cfgEnc.toNat := by
  rw [State.encMethod, s.fmtOk_iff.2 hf]
  exact if_neg fun h => s.not_formatBOk_iff.1 h.2 (hb h.1)

theorem State.encMethod_of_format {s : State} (hf : ¬ s.formatAOk) : s.encMethod = 0 := by
  rw [State.encMethod, Bool.eq_false_iff.2 (mt s.fmtOk_iff.1 hf)]
  exact if_neg fun h => Nat.zero_ne_one h.1

theorem State.encMethod_of_prev {s : State} (h1 : s.regs.cfgEnc.toNat = 1) (hb : ¬ s.formatBOk) : s.encMethod = 0 := by
  by_cases hf : s.formatAOk
  · rw [State.encMethod, s.fmtOk_iff.2 hf]
    exact if_pos ⟨h1, s.not_formatBOk_iff.2 hb⟩
  · exact State.encMethod_of_format hf

/-- A method that is run is the one asked for, and the buffers have the format it needs. -/
theorem State.encMethod_ne_zero {s : State} (h : s.encMethod ≠ 0) :
    s.encMethod = s.regs.cfgEnc.toNat ∧ s.formatAOk ∧ (s.regs.cfgEnc.toNat = 1 → s.formatBOk) := by
  have hf : s.formatAOk := not_not.1 (mt State.encMethod_of_format h)
  have hb : s.regs.cfgEnc.toNat = 1 → s.formatBOk := fun h1 => not_not.1 (mt (State.encMethod_of_prev h1) h)
  exact ⟨State.encMethod_eq hf hb, hf, hb⟩

/-! ### Step 3 (R219, R220) -/

/-- All that step 3 can produce: the raw bytes, or the stream of the method that runs. -/
inductive State.Chosen (s : State) : Structural → Prop
  | raw : s.Chosen { srcBytes := s.rawPack, enc := 0, sess := [] }
  | diff (hm : s.encMethod = 1) (hlen : (diffEnc (s.grid s.areaA) (s.grid s.areaB)).length < s.rawSize) :
      s.Chosen { srcBytes := diffEnc (s.grid s.areaA) (s.grid s.areaB), enc := 1, sess := [] }
  | trle (hm : s.encMethod = 2) (r : List Byte × List Color)
      (hr : r = trleEnc (s.grid s.areaA) s.regs.rectW.toNat s.regs.rectH.toNat s.reuseEn) :
      s.Chosen { srcBytes := r.1, enc := 2, sess := r.2 }
  | quadtree (hm : s.encMethod = 3) (src : List Byte)
      (hq : qtEnc (s.grid s.areaA) s.regs.rectW.toNat s.regs.rectH.toNat = .stream src) :
      s.Chosen { srcBytes := src, enc := 3, sess := [] }

section
variable {s : State}

theorem State.structural_diff (hm : s.encMethod = 1) :
    s.structural = .ok (if s.rawSize ≤ (diffEnc (s.grid s.areaA) (s.grid s.areaB)).length then
        { srcBytes := s.rawPack, enc := 0, sess := [] }
      else { srcBytes := diffEnc (s.grid s.areaA) (s.grid s.areaB), enc := 1, sess := [] }) := by
  rw [State.structural, hm]
  rfl

theorem State.structural_trle (hm : s.encMethod = 2) {r : List Byte × List Color}
    (hr : r = trleEnc (s.grid s.areaA) s.regs.rectW.toNat s.regs.rectH.toNat s.reuseEn) :
    s.structural = .ok { srcBytes := r.1, enc := 2, sess := r.2 } := by
  rw [State.structural, hm, hr]
  rfl

theorem State.structural_stream (hm : s.encMethod = 3) {src : List Byte}
    (hq : qtEnc (s.grid s.areaA) s.regs.rectW.toNat s.regs.rectH.toNat = .stream src) :
    s.structural = .ok { srcBytes := src, enc := 3, sess := [] } := by
  rw [State.structural, hm, hq]
  rfl

theorem State.structural_notWorth (hm : s.encMethod = 3)
    (hq : qtEnc (s.grid s.areaA) s.regs.rectW.toNat s.regs.rectH.toNat = .notWorth) :
    s.structural = .ok { srcBytes := s.rawPack, enc := 0, sess := [] } := by
  rw [State.structural, hm, hq]
  rfl

theorem State.structural_other (h1 : s.encMethod ≠ 1) (h2 : s.encMethod ≠ 2) (h3 : s.encMethod ≠ 3) :
    s.structural = .ok { srcBytes := s.rawPack, enc := 0, sess := [] } :=
  (if_neg h1).trans ((if_neg h2).trans (if_neg h3))

end

/-- Step 3 never fails, the quadtree encoder's self-check being dead (43_quadtree R183). -/
theorem State.structural_chosen (s : State) : ∃ st, s.structural = .ok st ∧ s.Chosen st := by
  by_cases h1 : s.encMethod = 1
  · refine ⟨_, State.structural_diff h1, ?_⟩
    split
    · exact .raw
    · exact .diff h1 (Nat.lt_of_not_le ‹_›)
  by_cases h2 : s.encMethod = 2
  · exact ⟨_, State.structural_trle h2 rfl, .trle h2 _ rfl⟩
  by_cases h3 : s.encMethod = 3
  · rcases hq : qtEnc (s.grid s.areaA) s.regs.rectW.toNat s.regs.rectH.toNat with _ | src | r
    · exact ⟨_, State.structural_notWorth h3 hq, .raw⟩
    · exact ⟨_, State.structural_stream h3 hq, .quadtree h3 src hq⟩
    · exact absurd hq ((qtSelfCheckDead _ _ _).1 r)
  · exact ⟨_, State.structural_other h1 h2 h3, .raw⟩

theorem State.chosen_of_structural {s : State} {st : Structural} (h : s.structural = .ok st) : s.Chosen st := by
  obtain ⟨st', hst, hc⟩ := s.structural_chosen
  obtain rfl := Except.ok.inj (hst.symm.trans h)
  exact hc

section
variable {s : State} {st : Structural} (h : s.Chosen st)
include h

/-- The raw bytes, or the stream of the method asked for on buffers of the format it needs. -/
theorem State.Chosen.enc_cases :
    (st.enc = 0 ∧ st.srcBytes = s.rawPack) ∨
      (st.enc ≠ 0 ∧ st.enc = s.regs.cfgEnc.toNat ∧ s.formatAOk ∧ (s.regs.cfgEnc.toNat = 1 → s.formatBOk)) := by
  have hrun (k : Nat) (hm : s.encMethod = k) (hk : k ≠ 0) :
      k ≠ 0 ∧ k = s.regs.cfgEnc.toNat ∧ s.formatAOk ∧ (s.regs.cfgEnc.toNat = 1 → s.formatBOk) := by
    obtain ⟨hcfg, hf⟩ := State.encMethod_ne_zero (hm ▸ hk)
    exact ⟨hk, hm.symm.trans hcfg, hf⟩
  cases h with
  | raw => exact .inl ⟨rfl, rfl⟩
  | diff hm => exact .inr (hrun 1 hm (by decide))
  | trle hm => exact .inr (hrun 2 hm (by decide))
  | quadtree hm => exact .inr (hrun 3 hm (by decide))

theorem State.Chosen.enc_le : st.enc ≤ 3 := by
  cases h with
  | raw => exact Nat.zero_le 3
  | diff => exact Nat.le_add_left 1 2
  | trle => exact Nat.le_succ 2
  | quadtree => exact Nat.le_refl 3

theorem State.Chosen.of_diff (he : st.enc = 1) :
    st.srcBytes = diffEnc (s.grid s.areaA) (s.grid s.areaB) ∧ st.srcBytes.length < s.rawSize := by
  cases h with
  | diff hm hlen => exact ⟨rfl, hlen⟩
  | raw | trle | quadtree => cases he

theorem State.Chosen.of_trle (he : st.enc = 2) :
    (st.srcBytes, st.sess) = trleEnc (s.grid s.areaA) s.regs.rectW.toNat s.regs.rectH.toNat s.reuseEn := by
  cases h with
  | trle hm r hr => exact hr
  | raw | diff | quadtree => cases he

theorem State.Chosen.of_quadtree (he : st.enc = 3) :
    qtEnc (s.grid s.areaA) s.regs.rectW.toNat s.regs.rectH.toNat = .stream st.srcBytes := by
  cases h with
  | quadtree hm src hq => exact hq
  | raw | diff | trle => cases he

/-- Only the tile stream has a session (R219). -/
theorem State.Chosen.sess_eq_nil (he : st.enc ≠ 2) : st.sess = [] := by
  cases h with
  | trle => exact absurd rfl he
  | raw | diff | quadtree => rfl

end

/-! ### Step 4 (R222, R226) -/

/-- The methods of the port by their tags (30_encoding R76). -/
def portMethods : List (Nat × ComprMethod) := [(1, .lz4), (2, .zstd), (3, .zlib), (4, .bzip2)]

theorem mem_portMethods {tag : Nat} {m : ComprMethod} :
    (tag, m) ∈ portMethods ↔ tag ≠ 0 ∧ tag ≤ 4 ∧ comprMethod tag = m := by
  simp only [portMethods, List.mem_cons, Prod.mk.injEq, List.not_mem_nil, or_false]
  constructor
  · rintro (⟨rfl, rfl⟩ | ⟨rfl, rfl⟩ | ⟨rfl, rfl⟩ | ⟨rfl, rfl⟩)
    all_goals exact ⟨by decide, by decide, rfl⟩
  · rintro ⟨h0, h4, rfl⟩
    obtain rfl | rfl | rfl | rfl : tag = 1 ∨ tag = 2 ∨ tag = 3 ∨ tag = 4 := by omega
    · exact .inl ⟨rfl, rfl⟩
    · exact .inr (.inl ⟨rfl, rfl⟩)
    · exact .inr (.inr (.inl ⟨rfl, rfl⟩))
    · exact .inr (.inr (.inr ⟨rfl, rfl⟩))

theorem compressStep_zero (src : List Byte) (level : Word) : compressStep 0 src level = .ok (src, 0) := rfl

section
variable {tag : Nat} {m : ComprMethod} {src c : List Byte} {level : Word} (hm : (tag, m) ∈ portMethods)
include hm

theorem compressStep_error (h : Config.compress m src level = none) :
    compressStep tag src level = .error ⟨.compressor, 1⟩ := by
  obtain ⟨h0, -, rfl⟩ := mem_portMethods.1 hm
  exact (if_neg h0).trans (by rw [h])

theorem compressStep_answer (h : Config.compress m src level = some c) :
    compressStep tag src level = .ok (if src.length ≤ c.length then (src, 0) else (c, tag)) := by
  obtain ⟨h0, -, rfl⟩ := mem_portMethods.1 hm
  exact (if_neg h0).trans (by rw [h]; rfl)

end

/-- All that step 4 can answer: the source itself, or a shorter answer of the port. -/
theorem compressStep_cases {tag : Nat} {src payload : List Byte} {level : Word} {compr : Nat}
    (h : compressStep tag src level = .ok (payload, compr)) :
    (compr = 0 ∧ payload = src) ∨ (compr = tag ∧ tag ≠ 0 ∧ payload.length < src.length ∧
      Config.compress (comprMethod tag) src level = some payload) := by
  by_cases h0 : tag = 0
  · subst h0
    cases h
    exact .inl ⟨rfl, rfl⟩
  · have hstep := (if_neg h0).symm.trans h
    rcases hport : Config.compress (comprMethod tag) src level with _ | c <;> rw [hport] at hstep
    · cases hstep
    · have hpair := Except.ok.inj hstep
      split at hpair
      · cases hpair
        exact .inl ⟨rfl, rfl⟩
      · cases hpair
        exact .inr ⟨rfl, h0, Nat.lt_of_not_le ‹_›, rfl⟩

end Sys2Proof.Machine
end

section
/-! SUPPORT. `SEL.ENC` (45_selector R223, R231): its launch, what it does with the payload of step 4, and the wire
record in memory. -/

namespace Sys2Proof.Machine

/-! ### The launch -/

/-- The diff method runs with a buffer B that fits and is buffer A or shares no byte with it (70_reset R290). -/
def State.prevFits (s : State) : Prop :=
  s.encMethod = 1 → s.areaFits s.areaB Config.pixelBytes ∧
    (s.areaA = s.areaB ∨ ∀ a, ¬ (s.areaA.holds a ∧ s.areaB.holds a))

theorem stopPrev_eq_none {s : State} (h : s.prevFits) : stopPrev s = none := by
  unfold stopPrev
  split
  · obtain ⟨hfits, hapart⟩ := h ‹_›
    refine (stopAreaB_eq_none s).2 ⟨hfits, hapart.imp_right fun hno => Bool.eq_false_iff.2 fun ho => ?_⟩
    obtain ⟨a, hab⟩ := (Area.overlaps_iff _ _).1 ho
    exact hno a hab
  · rfl

/-- A selector launch in the modelled domain runs its operation. -/
theorem command_selEnc_go {s : State} {go : State → State} (w : Word) (hs : s.rawLaunch) (hout : s.outputFits)
    (henc : s.regs.cfgEnc.toNat ≤ 3) (hcompr : s.regs.cfgCompr.toNat ≤ 4) (hprev : s.prevFits)
    (esc : State → Raise → State) :
    command w (fun u => launch u [checkMethods u, checkRect u, checkRaw u] [stopAreaRaw u, stopPrev u, stopOutput u]
      esc go) s = .next (go (s.start w)) := by
  obtain ⟨hf, hrect, hraw, harea⟩ := hs
  rw [command_ready _ _ _ hf, launch_go]
  · simp [(checkMethods_eq_none s).2 ⟨henc, hcompr⟩, (checkRect_eq_none s).2 hrect, (checkRaw_eq_none s).2 hraw]
  · simp [(stopAreaRaw_eq_none s).2 harea, stopPrev_eq_none hprev, (stopOutput_eq_none s).2 hout]

/-! ### The operation -/

/-- The command once step 3 is done: the palette array is dropped and the session is that of the source. -/
def State.sourced (s : State) (sess : List Color) : State := (s.start 0x50).dropPalette.setSession sess

/-- The command at its end: the wire record stored, and the two methods reported. -/
def State.recorded (s : State) (sess : List Color) (enc compr : Nat) (record : List Byte) : State :=
  { ((s.sourced sess).storeOut record) with
    regs := { ((s.sourced sess).storeOut record).regs with
      res0 := BitVec.ofNat 32 enc, res1 := BitVec.ofNat 32 compr } }.complete

theorem State.recorded_eq (s : State) (sess : List Color) (enc compr : Nat) (record : List Byte) :
    s.recorded sess enc compr record = { s with
      str := (s.recorded sess enc compr record).str, lost := (s.recorded sess enc compr record).lost
      pal := [], sess := sess
      regs := { s.regs with
        cmd := 0x50, outLen := BitVec.ofNat 32 record.length, res0 := BitVec.ofNat 32 enc
        res1 := BitVec.ofNat 32 compr }
      status := { s.status with
        done := true, notWorth := false, palOvf := false, sessValid := decide (1 ≤ sess.length) } } := rfl

/-- The record stands in the output buffer, and no other byte has changed. -/
theorem State.recorded_bytes {s : State} (sess : List Color) (enc compr : Nat) {record : List Byte}
    (hfit : record.length ≤ s.regs.outCap.toNat) :
    (s.recorded sess enc compr record).readBytes .str s.regs.outBase.toNat record.length = record ∧
      SameBytes .pix (fun _ => True) s (s.recorded sess enc compr record) ∧
      SameBytes .str (fun a => ¬ s.inOutput a) s (s.recorded sess enc compr record) :=
  State.stored_bytes (u := s.sourced sess) hfit rfl rfl rfl rfl rfl rfl rfl rfl

section
variable {s : State} {st : Structural}

section
variable (hs : s.rawLaunch) (hout : s.outputFits) (henc : s.regs.cfgEnc.toNat ≤ 3)
  (hcompr : s.regs.cfgCompr.toNat ≤ 4) (hprev : s.prevFits) (hst : s.structural = .ok st)
include hs hout henc hcompr hprev hst

/-- Step 4 fails. -/
theorem exec_selEnc_error {r : Raise} (hpay : s.payload st.srcBytes = .error r) :
    exec .selEnc s = .next ((s.sourced st.sess).raiseEncode r) := by
  refine (command_selEnc_go 0x50 hs hout henc hcompr hprev _).trans (congrArg _ ?_)
  have hst' : (s.start 0x50).structural = .ok st := hst
  have hpay' : (s.start 0x50).payload st.srcBytes = .error r := hpay
  simp only [hst', hpay']
  rfl

/-- The record of a payload that step 4 gives is stored if it fits. -/
theorem exec_selEnc_fits {payload : List Byte} {compr : Nat} (hpay : s.payload st.srcBytes = .ok (payload, compr))
    (hfit : (wireRecord st.enc compr st.srcBytes.length payload).length ≤ s.regs.outCap.toNat) :
    exec .selEnc s =
      .next (s.recorded st.sess st.enc compr (wireRecord st.enc compr st.srcBytes.length payload)) := by
  refine (command_selEnc_go 0x50 hs hout henc hcompr hprev _).trans (congrArg _ ?_)
  have hst' : (s.start 0x50).structural = .ok st := hst
  have hpay' : (s.start 0x50).payload st.srcBytes = .ok (payload, compr) := hpay
  simp only [hst', hpay']
  exact State.writeOut_fits (s.sourced st.sess) _ _ hfit

end

/-- A selector command that ends without a fault has stored the record of a payload that step 4 gave. -/
theorem exec_selEnc_inv {t : State} (hready : s.status.fault = false) (hst : s.structural = .ok st)
    (h : exec .selEnc s = .next t) (hok : t.status.fault = false) :
    s.regs.cfgCompr.toNat ≤ 4 ∧ ∃ payload compr, s.payload st.srcBytes = .ok (payload, compr) ∧
      (wireRecord st.enc compr st.srcBytes.length payload).length ≤ s.regs.outCap.toNat ∧
      t = s.recorded st.sess st.enc compr (wireRecord st.enc compr st.srcBytes.length payload) := by
  have hraised {u : State} {r : Raise} (ht : t = u.raiseEncode r) : False := by
    rw [ht] at hok
    cases hok
  have hst' : (s.start 0x50).structural = .ok st := hst
  rw [show exec .selEnc s = execSelEnc s from rfl, execSelEnc, command_ready _ _ _ hready] at h
  rcases launch_cases _ _ _ _ _ _ h with ⟨r, -, ht⟩ | ⟨hchecks, -, ht⟩
  · exact (hraised ht).elim
  · have hmethods : checkMethods s = none := hchecks _ (List.mem_cons_self ..)
    refine ⟨((checkMethods_eq_none s).1 hmethods).2, ?_⟩
    rcases hpay : s.payload st.srcBytes with r | ⟨payload, compr⟩
    · have hpay' : (s.start 0x50).payload st.srcBytes = .error r := hpay
      simp only [hst', hpay'] at ht
      exact (hraised ht).elim
    · have hpay' : (s.start 0x50).payload st.srcBytes = .ok (payload, compr) := hpay
      simp only [hst', hpay'] at ht
      rcases State.writeOut_cases (s.sourced st.sess) (wireRecord st.enc compr st.srcBytes.length payload)
        (fun u => { u with regs := { u.regs with
          res0 := BitVec.ofNat 32 st.enc, res1 := BitVec.ofNat 32 compr } }) with ⟨hfit, hw⟩ | ⟨-, hw⟩
      · exact ⟨payload, compr, rfl, hfit, ht.trans hw⟩
      · exact (hraised (ht.trans hw)).elim

end

/-! ### The record (R223) -/

/-- The header's third part stands for the structural methods only. -/
theorem wireRecord_eq {enc : Nat} (compr n : Nat) (payload : List Byte) (henc : enc ≤ 3) :
    wireRecord enc compr n payload =
      be32 Config.wireMagic ++ be16 (BitVec.ofNat 16 enc) ++ be16 (BitVec.ofNat 16 compr) ++
        be32 (BitVec.ofNat 32 payload.length) ++ (if enc = 0 then [] else be32 (BitVec.ofNat 32 n)) ++ payload := by
  have htag : BitVec.ofNat 16 enc = 0 ↔ enc = 0 := by
    rw [← BitVec.toNat_inj, BitVec.toNat_ofNat, Nat.mod_eq_of_lt (by omega)]
    rfl
  rw [wireRecord, wireHdrBytes]
  simp only [htag]

/-! ### The obligations -/

/-- Without a compressor step 4 leaves the source. -/
theorem State.payload_none {s : State} (h : s.regs.cfgCompr = 0) (src : List Byte) : s.payload src = .ok (src, 0) := by
  rw [State.payload, h]
  rfl

/-- Settles O44: step 4 leaves the source (`State.payload_none`), and the record of R223 is stored
(`exec_selEnc_fits`). -/
theorem selEncResult : Obligations.SelEncResult := by
  intro s st rec hs hout henc hcompr hprev hst hrec hfit
  have hle := (State.chosen_of_structural hst).enc_le
  obtain rfl : rec = wireRecord st.enc 0 st.srcBytes.length st.srcBytes := hrec.trans (wireRecord_eq 0 _ _ hle).symm
  have hnone : s.regs.cfgCompr.toNat ≤ 4 := by
    rw [hcompr]
    decide
  have hexec := exec_selEnc_fits hs hout henc hnone hprev hst (State.payload_none hcompr _) hfit
  generalize wireRecord st.enc 0 st.srcBytes.length st.srcBytes = record at *
  exact ⟨_, hexec, State.recorded_eq .., State.recorded_bytes _ _ _ hfit⟩

/-- Settles O45, step by step: what step 3 can produce (`State.Chosen`), what step 4 can answer (`compressStep_cases`),
and the command with a port method (`exec_selEnc_error`, `exec_selEnc_fits`). -/
theorem selPolicy : Obligations.SelPolicy := by
  refine ⟨fun s => ?_, fun tag src payload level compr h => ?_, compressStep_zero, fun tag m src level hm => ?_,
    fun s st m hs hout henc hm hprev hst hlen => ?_⟩
  · obtain ⟨st, hst, hc⟩ := s.structural_chosen
    have hcases := hc.enc_cases
    refine ⟨st, hst, hcases.imp And.left fun h => h.2.1, fun h0 => ?_, fun hf => ?_, fun h1 hb => ?_, hc.of_diff,
      hc.of_quadtree, hc.of_trle, hc.sess_eq_nil, fun hf => ⟨fun h2 => ?_, fun src h3 hq => ?_, fun h1 hb hlen => ?_⟩⟩
    · exact .inr (hcases.elim And.right fun h => absurd h0 h.1)
    · refine hcases.elim And.left fun ⟨_, _, hok, _⟩ => ?_
      exact hf.elim (absurd (s.formatAOk_iff.1 hok).1) (absurd hok.2)
    · refine hcases.elim And.left fun ⟨_, _, _, hok⟩ => ?_
      obtain ⟨hvalid, hstride⟩ := hok h1
      exact hb.elim (fun h => absurd (hvalid.symm.trans h) (by decide)) (absurd hstride)
    · have hm : s.encMethod = 2 := (State.encMethod_eq hf fun h1 => by omega).trans h2
      rw [← Except.ok.inj ((State.structural_trle hm rfl).symm.trans hst)]
    · have hm : s.encMethod = 3 := (State.encMethod_eq hf fun h1 => by omega).trans h3
      rw [← Except.ok.inj ((State.structural_stream hm hq).symm.trans hst)]
      exact ⟨rfl, rfl⟩
    · have hm : s.encMethod = 1 := (State.encMethod_eq hf fun _ => hb).trans h1
      rw [← Except.ok.inj ((State.structural_diff hm).symm.trans hst), if_neg (Nat.not_le.2 hlen)]
  · rcases compressStep_cases h with ⟨rfl, rfl⟩ | ⟨rfl, h0, hshort, -⟩
    · exact ⟨Nat.le_refl _, .inl ⟨rfl, rfl⟩⟩
    · exact ⟨hshort.le, .inr ⟨rfl, h0, hshort⟩⟩
  · refine ⟨compressStep_error hm, fun c hc => ⟨fun hshort => ?_, fun hlong => ?_⟩⟩
    · rw [compressStep_answer hm hc, if_neg (Nat.not_le.2 hshort)]
    · rw [compressStep_answer hm hc, if_pos hlong]
  · have hpay := s.payload_eq st.srcBytes hlen
    have hcompr := (mem_portMethods.1 hm).2.1
    refine ⟨fun hnone => ?_, fun payload rec compr hstep hrec hfit => ?_⟩
    · have herror := hpay.trans (compressStep_error hm hnone)
      exact ⟨_, exec_selEnc_error hs hout henc hcompr hprev hst herror, rfl, rfl, rfl⟩
    · have hle := (State.chosen_of_structural hst).enc_le
      obtain rfl := hrec.trans (wireRecord_eq compr _ _ hle).symm
      have hexec := exec_selEnc_fits hs hout henc hcompr hprev hst (hpay.trans hstep) hfit
      generalize wireRecord st.enc compr st.srcBytes.length payload = record at *
      obtain ⟨hbytes, -⟩ := State.recorded_bytes (s := s) st.sess st.enc compr hfit
      exact ⟨_, hexec, rfl, hs.1, hbytes, rfl, rfl, rfl⟩

end Sys2Proof.Machine
end

section
/-! SUPPORT. `SEL.DEC` of what `SEL.ENC` stored (45_selector R224, R227, R232): the record read back is the one written,
its payload gives the source, and the decoder of the source restores the colours. -/

namespace Sys2Proof.Machine

/-! ### The record read back -/

theorem wireRecord_eq_wireRecordOf (enc compr : Nat) (src payload : List Byte) :
    wireRecord enc compr src.length payload = wireRecordOf (BitVec.ofNat 16 enc) (BitVec.ofNat 16 compr) payload src :=
  wireRecordOf_eq (BitVec.ofNat 16 enc) (BitVec.ofNat 16 compr) payload src

theorem wireRecordOf_length (e c : BitVec 16) (payload src : List Byte) :
    (wireRecordOf e c payload src).length = wireHdrLen e + payload.length := by
  rw [wireRecordOf, List.length_append, wireHdrBytes_length]

/-- What the registers of the command's end point at is the record. -/
theorem State.recorded_output {s : State} (sess : List Color) (enc compr : Nat) {record : List Byte}
    (hfit : record.length ≤ s.regs.outCap.toNat) :
    (s.recorded sess enc compr record).readBytes .str (s.recorded sess enc compr record).regs.outBase.toNat
      (s.recorded sess enc compr record).regs.outLen.toNat = record := by
  obtain ⟨hbytes, -⟩ := State.recorded_bytes (s := s) sess enc compr hfit
  have hlen : (BitVec.ofNat 32 record.length).toNat = record.length :=
    Nat.mod_eq_of_lt (hfit.trans_lt s.regs.outCap.isLt)
  have hout : (s.recorded sess enc compr record).regs.outLen.toNat = record.length := hlen
  rw [hout]
  exact hbytes

/-- A tag of 16 bits as a register holds it. -/
theorem setWidth_ofNat_tag {n : Nat} (h : n < 2 ^ 16) : (BitVec.ofNat 16 n).setWidth 32 = BitVec.ofNat 32 n := by
  rw [← BitVec.toNat_inj, BitVec.toNat_setWidth, BitVec.toNat_ofNat, BitVec.toNat_ofNat, Nat.mod_eq_of_lt h]

/-! ### The payload and the source (R224, R227) -/

/-- What step 4 answers, the decoder turns back into the source: it is the source, or the compressor inverts it. -/
theorem unpacks_of_compressStep {tag : Nat} {src payload : List Byte} {level : Word} {compr : Nat}
    (hport : tag = 0 ∨ Config.CompressorInverse) (htag : tag ≤ 4)
    (h : compressStep tag src level = .ok (payload, compr)) : Unpacks (BitVec.ofNat 16 compr) payload src := by
  rcases compressStep_cases h with ⟨rfl, rfl⟩ | ⟨rfl, h0, -, hanswer⟩
  · exact .inl ⟨rfl, rfl⟩
  · have hinverse := hport.resolve_left h0
    have hmem : (compr, comprMethod compr) ∈ portMethods := mem_portMethods.2 ⟨h0, htag, rfl⟩
    exact .inr ⟨_, List.mem_map_of_mem (f := fun p : Nat × ComprMethod => (BitVec.ofNat 16 p.1, p.2)) hmem,
      hinverse _ _ _ _ hanswer⟩

theorem compr_le_of_compressStep {tag : Nat} {src payload : List Byte} {level : Word} {compr : Nat}
    (h : compressStep tag src level = .ok (payload, compr)) : compr ≤ tag := by
  rcases compressStep_cases h with ⟨rfl, -⟩ | ⟨rfl, -⟩
  · exact Nat.zero_le _
  · exact Nat.le_refl _

/-- The stream of a structural method codes the picture. -/
theorem State.Chosen.codesGrid {s : State} {st : Structural} {prev : List Color} (h : s.Chosen st) (h0 : st.enc ≠ 0)
    (hprev : st.enc = 1 → prev = s.grid s.areaB) :
    CodesGrid (BitVec.ofNat 16 st.enc) st.srcBytes (s.grid s.areaA) prev s.regs.rectW.toNat s.regs.rectH.toNat
      st.sess := by
  cases h with
  | raw => exact absurd rfl h0
  | diff => exact .inl ⟨rfl, by rw [hprev rfl], rfl⟩
  | trle hm r hr => exact .inr (.inl ⟨rfl, _, hr⟩)
  | quadtree hm src hq => exact .inr (.inr ⟨rfl, hq, rfl⟩)

/-! ### The decoding -/

/-- A launch of a structural codec is a launch of a raw copy of the same rectangle. -/
theorem State.rawLaunch_of_codec {s : State} (h : s.codecLaunch) : s.rawLaunch := by
  obtain ⟨hready, hrect, hformat, harea⟩ := h
  have hbpp : s.regs.pixaBpp.toNat = 4 := hformat.1
  refine ⟨hready, hrect, ⟨by omega, ?_⟩, ?_⟩
  · rw [State.rawSize, hbpp]
    exact hrect.2.2
  · rw [s.areaRaw_eq_areaA hformat, hbpp]
    exact harea

/-- Two rectangles of one size with the same bytes have the same colours. -/
theorem State.grid_eq_of_bytes {s u : State} {r q : Area} (hw : u.regs.rectW = s.regs.rectW)
    (hh : u.regs.rectH = s.regs.rectH)
    (h : ∀ row o, row < s.regs.rectH.toNat → o < s.regs.rectW.toNat * 4 →
      u.byte .pix (r.row row + o) = s.byte .pix (q.row row + o)) : u.grid r = s.grid q := by
  rw [State.grid, State.grid, hw, hh]
  refine List.flatMap_congr fun j hj => List.map_congr_left fun i hi => congrArg (fun bs => color (fromPix32 bs)) ?_
  refine List.map_congr_left fun b hb => ?_
  have hi' := List.mem_range.1 hi
  have hb' : b < 4 := List.mem_range.1 hb
  have hbyte := h j (i * 4 + b) (List.mem_range.1 hj) (by omega)
  rwa [← Nat.add_assoc, ← Nat.add_assoc] at hbyte

/-- `SEL.DEC` of a record ends well, reports the record's length and methods, and leaves this picture. -/
structure State.Restores (u v : State) (e c : BitVec 16) (payload : List Byte) (grid : List Color) : Prop where
  exec : exec .selDec u = .next v
  done : v.status.done = true
  fault : v.status.fault = false
  inUsed : v.regs.inUsed = BitVec.ofNat 32 (wireHdrLen e + payload.length)
  res0 : v.regs.res0 = e.setWidth 32
  res1 : v.regs.res1 = c.setWidth 32
  grid : v.grid v.areaA = grid

section
variable {u : State} {c : BitVec 16} {payload : List Byte} (hu : u.decodeLaunch)
include hu

/-- Without a structural method the picture's bytes come back. -/
theorem exec_selDec_restores_raw {s : State} (hf : s.formatAOk) (hw : u.regs.rectW = s.regs.rectW)
    (hh : u.regs.rectH = s.regs.rectH) (hinp : u.input = wireRecordOf 0 c payload s.rawPack)
    (hc : Unpacks c payload s.rawPack) : ∃ v, u.Restores v 0 c payload (s.grid s.areaA) := by
  obtain ⟨hcodec, hin⟩ := hu
  have ⟨hready, _, hfu, _⟩ := hcodec
  have hbpp : u.regs.pixaBpp = s.regs.pixaBpp :=
    (u.formatAOk_iff.1 hfu).1.trans (s.formatAOk_iff.1 hf).1.symm
  have hsrc : s.rawPack.length = u.rawSize := by rw [State.rawPack_length, State.rawSize, State.rawSize, hw, hh, hbpp]
  obtain ⟨v, hv, heq, hbytes, -⟩ := exec_selDec_raw (State.rawLaunch_of_codec hcodec) hin
    (hinp.trans (List.append_nil _).symm) hc hsrc
  have hregs := congrArg State.regs heq
  have hstatus := congrArg State.status heq
  have harea : v.areaA = u.areaRaw := by
    rw [u.areaRaw_eq_areaA hfu, State.areaA, State.area, hregs]
    rfl
  refine ⟨v, hv, by rw [hstatus], by rw [hstatus]; exact hready, by rw [hregs]; rfl, by rw [hregs]; rfl, by rw [hregs],
    ?_⟩
  rw [harea, ← s.areaRaw_eq_areaA hf]
  refine State.grid_eq_of_bytes (by rw [hregs]; exact hw) (by rw [hregs]; exact hh) fun row o hrow ho => ?_
  have hlen : s.areaRaw.rowLen = s.regs.rectW.toNat * 4 := congrArg (s.regs.rectW.toNat * ·) hf.1
  have hbyte := hbytes row o (hh ▸ hrow) (by rw [hw, hfu.1]; exact ho)
  rw [← State.areaRaw_row_add, hw, hbpp] at hbyte
  exact hbyte.trans (s.rawPack_getD hrow (hlen ▸ ho))

/-- A structural method's stream gives the picture it codes. -/
theorem exec_selDec_restores_grid {e : BitVec 16} {src : List Byte} {grid sess : List Color}
    (hinp : u.input = wireRecordOf e c payload src) (hsrc : src.length < 2 ^ 32) (hc : Unpacks c payload src)
    (hgrid : grid.length = u.regs.rectW.toNat * u.regs.rectH.toNat)
    (hcodes : CodesGrid e src grid (u.grid u.areaA) u.regs.rectW.toNat u.regs.rectH.toNat sess) :
    ∃ v, u.Restores v e c payload grid := by
  obtain ⟨hcodec, hin⟩ := hu
  have ⟨hready, _, hfu, _⟩ := hcodec
  obtain ⟨v, hv, heq, hpicture, -⟩ := exec_selDec_grid (State.rawLaunch_of_codec hcodec) hin
    (hinp.trans (List.append_nil _).symm) hsrc hc hfu hgrid hcodes
  have hregs := congrArg State.regs heq
  have hstatus := congrArg State.status heq
  have harea : v.areaA = u.areaA := by
    rw [State.areaA, State.area, hregs]
    rfl
  have hhdr : wireHdrLen e = 16 := by
    rcases hcodes.tag with rfl | rfl | rfl
    all_goals rfl
  refine ⟨v, hv, by rw [hstatus], by rw [hstatus]; exact hready, by rw [hregs, hhdr], by rw [hregs], by rw [hregs], ?_⟩
  rw [harea, hpicture]

end

/-- Settles O46: a command that ends without a fault has stored a record (`exec_selEnc_inv`), the record's payload gives
the source (`unpacks_of_compressStep`), and the source its picture, as raw bytes (`exec_selDec_restores_raw`) or through
the decoder of its method (`exec_selDec_restores_grid`). -/
theorem selRoundTrip : Obligations.SelRoundTrip := by
  intro s t u st hport hs hexec hok hst hlen hu hw hh hinp hprev
  have ⟨⟨hready, _, hf, _⟩, _⟩ := hs
  have hchosen := State.chosen_of_structural hst
  obtain ⟨htag, payload, compr, hpay, hfit, ht⟩ := exec_selEnc_inv hready hst hexec hok
  rw [s.payload_eq _ hlen] at hpay
  have hunpacks := unpacks_of_compressStep (hport.imp_left fun h => by rw [h]; rfl) htag hpay
  have hcompr := compr_le_of_compressStep hpay
  have henc := hchosen.enc_le
  rw [wireRecord_eq_wireRecordOf] at hfit ht
  have hread := State.recorded_output st.sess st.enc compr hfit
  rw [← ht, ← hinp] at hread
  have hrestores : ∃ v, u.Restores v (BitVec.ofNat 16 st.enc) (BitVec.ofNat 16 compr) payload (s.grid s.areaA) := by
    rcases hchosen.enc_cases with ⟨h0, hraw⟩ | ⟨h0, -⟩
    · rw [h0, hraw] at hread
      rw [hraw] at hunpacks
      rw [h0]
      exact exec_selDec_restores_raw hu hf hw hh hread hunpacks
    · refine exec_selDec_restores_grid hu hread hlen hunpacks ?_ (sess := st.sess) ?_
      · rw [State.grid_length, hw, hh]
      · rw [hw, hh]
        exact hchosen.codesGrid h0 hprev
  obtain ⟨v, hv⟩ := hrestores
  have hregs := congrArg State.regs ht
  refine ⟨v, hv.exec, hv.done, hv.fault, ?_, ?_, ?_, hv.grid⟩
  · rw [hv.inUsed, ← wireRecordOf_length, hregs]
    rfl
  · rw [hv.res0, setWidth_ofNat_tag (by omega), hregs]
    rfl
  · rw [hv.res1, setWidth_ofNat_tag (by omega), hregs]
    rfl

end Sys2Proof.Machine
end

section
/-! SUPPORT. Taking a fault (O9), and a machine in which one stands (O6 to O8): its codes, the words that are no
command, and the transactions that change nothing of it (60_exceptions R250, R257, R264, R265). -/

namespace Sys2Proof.Machine

/-! ### The entry (R250, R264) -/

/-- The causes in the order of R250. -/
def FaultCode.all : List FaultCode :=
  [.illegalCmd, .rect, .format, .outCap, .palArg, .bsState, .bsCount, .bsOverflow, .bsUnderflow, .trunc, .length,
    .index, .run, .noPalette, .leaf, .diffRange, .diffCount, .magic, .method, .compressor, .qtInternal]

/-- The register `FAULT` holds the number itself. -/
theorem FaultCode.toNat_word (c : FaultCode) : (BitVec.ofNat 32 c.number).toNat = c.number := by
  have := c.number_range
  rw [BitVec.toNat_ofNat]
  omega

theorem FaultCode.all_number (c : FaultCode) : FaultCode.all[c.number - 1]? = some c := by
  cases c <;> rfl

/-- Settles O9: the fields of `State.raise`, and the number of each cause (`FaultCode.all_number`). -/
theorem faultEntry : Obligations.FaultEntry := by
  intro s r
  refine ⟨rfl, rfl, sat32_toNat_eq_min r.info, rfl, ?_, r.code.word_range.1⟩
  show FaultCode.all[(BitVec.ofNat 32 r.code.number).toNat - 1]? = some r.code
  rw [r.code.toNat_word, r.code.all_number]

/-! ### Writes to `CMD` (R257, R265) -/

theorem decode_cmd (w : Word) : decode .cmd (.word 32 w.toNat) = decodeCommand w := by
  simp [decode, w.isLt]

/-- A write of a word that is the code of no command. -/
theorem step_write_illegal {s : State} {w : Word} {rest : List HostAction} (hd : s.dec = none)
    (hh : s.host = .write .cmd w :: rest) (hw : ∀ i : Instr, i.isCommand = true → encode i ≠ .word 32 w.toNat) :
    step s = .next (illegalCommand w { s with host := rest }) := by
  have hdec : decode .cmd (.word 32 w.toNat) = .error (.illegalCommand w) := by
    rw [decode_cmd]
    rcases decodeCommand_exact w with ⟨i, hi, henc, -⟩ | ⟨-, herr⟩
    · exact absurd henc (hw i hi)
    · exact herr
  simp only [step_host s _ rest hd hh, hostTransaction, writeCmd, hdec, Fetched.outcome]

/-- Settles O6: the word is rejected (`step_write_illegal`), and the fault is that of R257. -/
theorem illegalCommandFaults : Obligations.IllegalCommandFaults := by
  intro s w rest hd hh hf hw
  have hill : illegalCommand w { s with host := rest } =
      ({ s with host := rest }.start w).raise ⟨.illegalCmd, w.toNat⟩ := if_neg (by simp [hf])
  rw [step_write_illegal hd hh hw, hill, State.start_raise, sat32_toNat]
  rfl

/-- While a fault stands no command runs: each stands in the frame of `command`, which tests the flag first (10_state
R25). -/
theorem exec_faulted {s : State} {i : Instr} (hf : s.status.fault = true) (hi : i.isCommand = true) :
    exec i s = .next s := by
  cases i
  case nop | bswInit | bswPut | bswFin | bsrInit | bsrGet | bsrFin | palBuild | palLookup | palGet | tileEnc | tileDec
    | trleEnc | trleDec | trleRst | qtEnc | qtDec | diffEnc | diffDec | rawPack | rawUnpack | selEnc | selDec =>
    exact if_pos hf
  all_goals simp [Instr.isCommand, commandTable] at hi

/-- While a fault stands a write to `CMD` is used up and does nothing. -/
theorem step_write_cmd_faulted {s : State} {w : Word} {rest : List HostAction} (hf : s.status.fault = true)
    (hd : s.dec = none) (hh : s.host = .write .cmd w :: rest) : step s = .next { s with host := rest } := by
  rcases decodeCommand_exact w with ⟨i, hi, -, hdec⟩ | ⟨hw, -⟩
  · rw [(step_write_run s w rest i hd).1 hh ((decode_cmd w).trans hdec)]
    exact exec_faulted hf hi
  · rw [step_write_illegal hd hh hw, illegalCommand, if_pos hf]

/-- Settles O7: writes to `CMD` do nothing, the other registers take their words, and the reset leaves the state. -/
theorem faultedCommandsIgnored : Obligations.FaultedCommandsIgnored := by
  intro s hf
  refine ⟨fun i => exec_faulted hf, fun w rest => step_write_cmd_faulted hf, fun r v rest hd hh hr => ?_,
    fun ign => ⟨_, rfl, rfl⟩⟩
  rw [List.mem_cons, List.mem_cons, not_or, not_or] at hr
  obtain ⟨hcmd, hctrl, hro⟩ := hr
  refine ⟨_, step_write_reg s r v rest hd hh hcmd hctrl, ?_, rfl⟩
  rw [State.readReg_hostWriteReg _ r r v hcmd hctrl, if_pos ⟨rfl, hro⟩]

/-! ### What keeps a fault (R265, R268) -/

/-- The flags, the code and the detail stay. -/
def State.KeepsFault (s t : State) : Prop :=
  t.status = s.status ∧ t.regs.fault = s.regs.fault ∧ t.regs.faultInfo = s.regs.faultInfo

theorem step_write_keepsFault {s t : State} {r : Reg} {w : Word} {rest : List HostAction} (hd : s.dec = none)
    (hf : s.status.fault = true) (hh : s.host = .write r w :: rest) (hreset : r = .ctrl → w.getLsbD 0 = false)
    (h : step s = .next t) : s.KeepsFault t := by
  by_cases hcmd : r = .cmd
  · subst hcmd
    cases (step_write_cmd_faulted hf hd hh).symm.trans h
    exact ⟨rfl, rfl, rfl⟩
  by_cases hctrl : r = .ctrl
  · subst hctrl
    cases (step_write_ctrl_clear s w rest hd hh (hreset rfl)).symm.trans h
    exact ⟨rfl, rfl, rfl⟩
  · cases (step_write_reg s r w rest hd hh hcmd hctrl).symm.trans h
    exact ⟨rfl, s.regs.hostWrite_fault w r⟩

/-- Settles O8, transaction by transaction: register writes by `step_write_keepsFault`, byte stores and the idle step
leave the registers alone. -/
theorem onlyResetLeavesFault : Obligations.OnlyResetLeavesFault := by
  intro s t hd hf hreset h
  show s.KeepsFault t
  rcases hh : s.host with _ | ⟨a, rest⟩
  · cases (step_idle s hd hh).symm.trans h
    exact ⟨rfl, rfl, rfl⟩
  cases a with
  | write r w => exact step_write_keepsFault hd hf hh (fun hr => hreset w rest (hr ▸ hh)) h
  | storePix a b | storeStr a b =>
    cases (step_host s _ rest hd hh).symm.trans h
    exact ⟨rfl, rfl, rfl⟩

end Sys2Proof.Machine
end

section
/-! SUPPORT. The operand checks (60_exceptions R258, R259, R263): which checks each command makes, what each raises, and
that the first that fails ends the command before any launch is stopped (O10; log 7). -/

namespace Sys2Proof.Machine

/-! ### What a check raises -/

theorem raiseIf_code {c : Bool} {code : FaultCode} {info : Nat} {r : Raise} (h : raiseIf c code info = some r) :
    r.code = code := by rw [(raiseIf_eq_some _ _ _ _ h).2]

theorem raiseIf_pos {c : Bool} (hc : c = true) (code : FaultCode) (info : Nat) :
    raiseIf c code info = some ⟨code, info⟩ := if_pos hc

theorem raiseIf_neg {c : Bool} (hc : c = false) (code : FaultCode) (info : Nat) : raiseIf c code info = none :=
  (raiseIf_eq_none c code info).2 hc

section
variable {s : State} {r : Raise}

theorem checkRect_code (h : checkRect s = some r) : r.code = .rect := by
  have hmem := firstSome_mem _ _ h
  simp only [List.mem_cons, List.not_mem_nil, or_false] at hmem
  rcases hmem with h | h | h <;> exact raiseIf_code h.symm

theorem checkFormatA_code (h : checkFormatA s = some r) : r.code = .format := by
  have hmem := firstSome_mem _ _ h
  simp only [List.mem_cons, List.not_mem_nil, or_false] at hmem
  rcases hmem with h | h <;> exact raiseIf_code h.symm

theorem checkFormatB_code (h : checkFormatB s = some r) : r.code = .format := by
  have hmem := firstSome_mem _ _ h
  simp only [List.mem_cons, List.not_mem_nil, or_false] at hmem
  rcases hmem with h | h <;> exact raiseIf_code h.symm

theorem checkRaw_code (h : checkRaw s = some r) : r.code = .format ∨ r.code = .rect := by
  have hmem := firstSome_mem _ _ h
  simp only [List.mem_cons, List.not_mem_nil, or_false] at hmem
  exact hmem.imp (fun h => raiseIf_code h.symm) fun h => raiseIf_code h.symm

theorem checkMethods_code (h : checkMethods s = some r) : r.code = .method := by
  have hmem := firstSome_mem _ _ h
  simp only [List.mem_cons, List.not_mem_nil, or_false] at hmem
  rcases hmem with h | h <;> exact raiseIf_code h.symm

end

/-! ### When a check fails (R258, R259, 42_tile R160, 45_selector R221) -/

section
variable {s : State}

theorem checkRect_width (hw : s.regs.rectW = 0) : checkRect s = some ⟨.rect, 1⟩ := by
  rw [checkRect, raiseIf_pos (beq_iff_eq.2 hw), firstSome_cons]

theorem checkRect_height (hw : s.regs.rectW ≠ 0) (hh : s.regs.rectH = 0) : checkRect s = some ⟨.rect, 2⟩ := by
  rw [checkRect, raiseIf_neg (beq_eq_false_iff_ne.2 hw), raiseIf_pos (beq_iff_eq.2 hh)]
  rfl

theorem checkRect_size (hw : s.regs.rectW ≠ 0) (hh : s.regs.rectH ≠ 0)
    (hsize : 2 ^ 32 - 1 < s.regs.rectW.toNat * s.regs.rectH.toNat * 4) : checkRect s = some ⟨.rect, 3⟩ := by
  rw [checkRect, raiseIf_neg (beq_eq_false_iff_ne.2 hw), raiseIf_neg (beq_eq_false_iff_ne.2 hh),
    raiseIf_pos (c := decide (Config.maxRectBytes < _ * Config.pixelBytes)) (decide_eq_true hsize)]
  rfl

theorem pixaBpp_toNat_eq (s : State) : s.regs.pixaBpp.toNat = Config.pixelBytes ↔ s.regs.pixaBpp = 4 := by
  rw [← BitVec.toNat_inj]
  rfl

theorem checkFormatA_bpp (hbpp : s.regs.pixaBpp ≠ 4) : checkFormatA s = some ⟨.format, 1⟩ := by
  rw [checkFormatA, raiseIf_pos (bne_iff_ne.2 (mt (pixaBpp_toNat_eq s).1 hbpp)), firstSome_cons]

theorem checkFormatA_stride (hbpp : s.regs.pixaBpp = 4) (hstride : s.regs.pixaStride.toNat % 4 ≠ 0) :
    checkFormatA s = some ⟨.format, 2⟩ := by
  rw [checkFormatA, raiseIf_neg (bne_eq_false_iff_eq.2 ((pixaBpp_toNat_eq s).2 hbpp)),
    raiseIf_pos (bne_iff_ne.2 hstride)]
  rfl

theorem checkFormatB_valid (hv : s.regs.pixbValid.getLsbD 0 = false) : checkFormatB s = some ⟨.format, 3⟩ := by
  rw [checkFormatB, raiseIf_pos (by rw [State.prevValid, hv]; rfl), firstSome_cons]

theorem checkFormatB_stride (hv : s.regs.pixbValid.getLsbD 0 = true) (hstride : s.regs.pixbStride.toNat % 4 ≠ 0) :
    checkFormatB s = some ⟨.format, 4⟩ := by
  rw [checkFormatB, raiseIf_neg (by rw [State.prevValid, hv]; rfl), raiseIf_pos (bne_iff_ne.2 hstride)]
  rfl

theorem checkRaw_bpp (hbpp : s.regs.pixaBpp = 0) : checkRaw s = some ⟨.format, 1⟩ := by
  rw [checkRaw, raiseIf_pos (beq_iff_eq.2 hbpp), firstSome_cons]

theorem checkRaw_size (hbpp : s.regs.pixaBpp ≠ 0) (hsize : 2 ^ 32 - 1 < s.rawSize) :
    checkRaw s = some ⟨.rect, 3⟩ := by
  rw [checkRaw, raiseIf_neg (beq_eq_false_iff_ne.2 hbpp),
    raiseIf_pos (c := decide (Config.maxRectBytes < _)) (decide_eq_true hsize)]
  rfl

theorem checkTileSide_side (h : 64 < s.regs.rectW.toNat ∨ 64 < s.regs.rectH.toNat) :
    checkTileSide s = some ⟨.rect, 4⟩ :=
  raiseIf_pos (by rwa [Bool.or_eq_true, decide_eq_true_eq, decide_eq_true_eq]) _ _

end

/-! ### The checks of each command -/

/-- The operand checks of a command on its rectangle, its formats and its method registers, in the order it makes
them. -/
def operandChecks (i : Instr) (s : State) : List (Option Raise) :=
  match i with
  | .palBuild => [checkRect s, checkFormatA s, checkMaxColors s]
  | .tileEnc | .tileDec => [checkRect s, checkFormatA s, checkTileSide s]
  | .trleEnc | .trleDec | .qtEnc | .qtDec | .diffDec => [checkRect s, checkFormatA s]
  | .diffEnc => [checkRect s, checkFormatA s, checkFormatB s]
  | .rawPack | .rawUnpack | .selDec => [checkRect s, checkRaw s]
  | .selEnc => [checkMethods s, checkRect s, checkRaw s]
  | _ => []

/-- The fault a state ends in. -/
def State.Raised (t : State) (r : Raise) : Prop :=
  t.status.fault = true ∧ t.regs.fault = BitVec.ofNat 32 r.code.number ∧ t.regs.faultInfo = sat32 r.info

/-- A launch takes the first fault of its checks, whatever its stops say (R263; log 7). -/
theorem launch_raises {s : State} {checks : List (Option Raise)} {r : Raise} (h : firstSome checks = some r)
    (stops : List (Option Stop)) (esc : State → Raise → State) (go : State → State) :
    launch s checks stops esc go = .next (esc s r) := by
  simp only [launch, h]

/-- A command whose checks fail ends in the fault of the first of them. -/
theorem exec_raises {s : State} {i : Instr} {r : Raise} (hf : s.status.fault = false)
    (h : firstSome (operandChecks i s) = some r) : ∃ t, exec i s = .next t ∧ t.Raised r := by
  cases i
  case palBuild | tileEnc | tileDec | trleEnc | trleDec | qtEnc | qtDec | diffEnc | diffDec | rawPack | rawUnpack
    | selEnc | selDec =>
    dsimp only [exec]
    exact ⟨_, (command_ready _ _ s hf).trans (launch_raises h _ _ _), rfl, rfl, rfl⟩
  all_goals cases h

/-- The commands that need a structural format (R258). -/
def structuralCommands : List Instr :=
  [.palBuild, .tileEnc, .tileDec, .trleEnc, .trleDec, .qtEnc, .qtDec, .diffEnc, .diffDec]

/-- The commands that copy raw bytes, behind no other check (45_selector R221). -/
def rawCommands : List Instr := [.rawPack, .rawUnpack, .selDec]

theorem operandChecks_structural {i : Instr} (hi : i ∈ structuralCommands) (s : State) :
    ∃ more, operandChecks i s = checkRect s :: checkFormatA s :: more := by
  simp only [structuralCommands, List.mem_cons, List.not_mem_nil, or_false] at hi
  rcases hi with rfl | rfl | rfl | rfl | rfl | rfl | rfl | rfl | rfl <;> exact ⟨_, rfl⟩

theorem firstSome_operandChecks_raw {s : State} {i : Instr}
    (hi : i ∈ rawCommands ∨ (i = .selEnc ∧ s.regs.cfgEnc.toNat ≤ 3 ∧ s.regs.cfgCompr.toNat ≤ 4)) :
    firstSome (operandChecks i s) = firstSome [checkRect s, checkRaw s] := by
  rcases hi with hi | ⟨rfl, hmethods⟩
  · simp only [rawCommands, List.mem_cons, List.not_mem_nil, or_false] at hi
    rcases hi with rfl | rfl | rfl <;> rfl
  · rw [operandChecks, (checkMethods_eq_none s).2 hmethods]
    rfl

section
variable {s : State} {i : Instr} {r : Raise} (hf : s.status.fault = false)
include hf

theorem exec_raises_rect (hi : i ∈ structuralCommands ++ rawCommands ∨
      (i = .selEnc ∧ s.regs.cfgEnc.toNat ≤ 3 ∧ s.regs.cfgCompr.toNat ≤ 4))
    (h : checkRect s = some r) : ∃ t, exec i s = .next t ∧ t.Raised r := by
  refine exec_raises hf ?_
  rw [List.mem_append, or_assoc] at hi
  rcases hi with hi | hi
  · obtain ⟨more, hc⟩ := operandChecks_structural hi s
    rw [hc, h, firstSome_cons]
  · rw [firstSome_operandChecks_raw hi, h, firstSome_cons]

theorem exec_raises_formatA (hi : i ∈ structuralCommands) (hrect : s.rectOk) (h : checkFormatA s = some r) :
    ∃ t, exec i s = .next t ∧ t.Raised r := by
  obtain ⟨more, hc⟩ := operandChecks_structural hi s
  refine exec_raises hf ?_
  rw [hc, (checkRect_eq_none s).2 hrect, h]
  rfl

theorem exec_raises_raw
    (hi : i ∈ rawCommands ∨ (i = .selEnc ∧ s.regs.cfgEnc.toNat ≤ 3 ∧ s.regs.cfgCompr.toNat ≤ 4)) (hrect : s.rectOk)
    (h : checkRaw s = some r) : ∃ t, exec i s = .next t ∧ t.Raised r := by
  refine exec_raises hf ?_
  rw [firstSome_operandChecks_raw hi, (checkRect_eq_none s).2 hrect, h]
  rfl

theorem exec_raises_tileSide (hi : i ∈ [Instr.tileEnc, .tileDec]) (hrect : s.rectOk) (hformat : s.formatAOk)
    (h : checkTileSide s = some r) : ∃ t, exec i s = .next t ∧ t.Raised r := by
  have hc : operandChecks i s = [checkRect s, checkFormatA s, checkTileSide s] := by
    rw [List.mem_pair] at hi
    rcases hi with rfl | rfl <;> rfl
  refine exec_raises hf ?_
  rw [hc, (checkRect_eq_none s).2 hrect, (checkFormatA_eq_none s).2 hformat, h]
  rfl

theorem exec_raises_formatB (hrect : s.rectOk) (hformat : s.formatAOk) (h : checkFormatB s = some r) :
    ∃ t, exec .diffEnc s = .next t ∧ t.Raised r := by
  refine exec_raises hf ?_
  rw [operandChecks, (checkRect_eq_none s).2 hrect, (checkFormatA_eq_none s).2 hformat, h]
  rfl

end

/-- Settles O10: each check that fails behind checks that pass (`exec_raises_rect` and those after it), with the values
for which it does. -/
theorem rectAndFormatFaults : Obligations.RectAndFormatFaults := by
  refine ⟨fun s i hf hi => ⟨fun hw => ?_, fun hw hh => ?_, fun hw hh hsize => ?_⟩,
    fun s i hf hrect hi => ⟨fun hbpp => ?_, fun hbpp hstride => ?_⟩, fun s i hf hrect hformat hi hside => ?_,
    fun s hf hrect hformat => ⟨fun hv => ?_, fun hv hstride => ?_⟩,
    fun s i hf hrect hi => ⟨fun hbpp => ?_, fun hbpp hsize => ?_⟩⟩
  · exact exec_raises_rect hf hi (checkRect_width hw)
  · exact exec_raises_rect hf hi (checkRect_height hw hh)
  · exact exec_raises_rect hf hi (checkRect_size hw hh hsize)
  · exact exec_raises_formatA hf hi hrect (checkFormatA_bpp hbpp)
  · exact exec_raises_formatA hf hi hrect (checkFormatA_stride hbpp hstride)
  · exact exec_raises_tileSide hf hi hrect hformat (checkTileSide_side hside)
  · exact exec_raises_formatB hf hrect hformat (checkFormatB_valid hv)
  · exact exec_raises_formatB hf hrect hformat (checkFormatB_stride hv hstride)
  · exact exec_raises_raw hf hi hrect (checkRaw_bpp hbpp)
  · exact exec_raises_raw hf hi hrect (checkRaw_size hbpp hsize)

end Sys2Proof.Machine
end

section
/-! SUPPORT. The faults a decoding can raise (60_exceptions R271): every position belongs to one part of the stream
formats, every kind of command reads some parts, and a token of a part raises that part's faults only. -/

namespace Sys2Proof.Machine

/-! ### The parts of the stream formats -/

/-- The formats a decoder reads: the wire record, the raw payload, the tile stream, the quadtree container and the diff
stream. -/
inductive Part where
  | record
  | payload
  | tiles
  | tree
  | words

/-- The part a position belongs to; none where the decoding has ended. -/
def Pos.part : Pos → Option Part
  | .wire | .enc | .compr => some .record
  | .raw => some .payload
  | .tile | .palette _ _ | .rawPixel | .plain | .rle | .runLen _ _ _ | .packed _ => some .tiles
  | .qt | .split _ _ _ | .leaf _ _ _ => some .tree
  | .diff => some .words
  | .fin | .raised _ => none

/-- The parts a command reads. -/
def DecKind.parts : DecKind → List Part
  | .tile | .trle => [.tiles]
  | .qt => [.tree]
  | .diff => [.words]
  | .raw => [.payload]
  | .sel => [.record, .payload, .tiles, .tree, .words]

/-- What the tokens of a part raise (42_tile R158, 43_quadtree R186 to R188, 44_diff R207, 45_selector R224). -/
def Part.faults : Part → List FaultCode
  | .record => [.trunc, .magic, .method, .format, .length, .compressor]
  | .payload => [.trunc]
  | .tiles => [.trunc, .noPalette, .index, .run]
  | .tree => [.trunc, .bsUnderflow, .leaf, .index, .length]
  | .words => [.length, .diffRange, .diffCount]

/-- What the stream of a command can raise: the faults of its parts, and the end check of 42_tile R159, which `TILE.DEC`
does not make (R161). -/
def DecKind.faults (k : DecKind) : List FaultCode :=
  k.parts.flatMap Part.faults ++ if k = .trle then [.length] else []

theorem DecKind.mem_faults {k : DecKind} {q : Part} {c : FaultCode} (hq : q ∈ k.parts) (hc : c ∈ q.faults) :
    c ∈ k.faults := List.mem_append_left _ (List.mem_flatMap.2 ⟨q, hq, hc⟩)

theorem DecKind.length_mem_faults {k : DecKind} (hk : k ≠ .tile) (hq : Part.tiles ∈ k.parts) :
    FaultCode.length ∈ k.faults := by
  cases k with
  | tile => exact absurd rfl hk
  | trle | sel => decide
  | qt | diff | raw => simp [DecKind.parts] at hq

/-- The command that reads a wire record reads every part. -/
theorem DecKind.mem_parts_of_record {k : DecKind} (h : Part.record ∈ k.parts) (q : Part) : q ∈ k.parts := by
  cases k with
  | sel => cases q <;> simp [DecKind.parts]
  | _ => simp [DecKind.parts] at h

/-! ### Where the cursors of a command can stand -/

/-- The position is of a part that the command reads, and a fault is one of its stream's. -/
structure Dec.Listed (d : Dec) : Prop where
  part : ∀ q, d.pos.part = some q → q ∈ d.kind.parts
  fault : ∀ r, d.pos = .raised r → r.code ∈ d.kind.faults

theorem Dec.Listed.at {d : Dec} {q : Part} (hp : d.pos.part = some q) (hq : q ∈ d.kind.parts) : d.Listed := by
  refine ⟨fun q' h => ?_, fun r h => ?_⟩
  · cases hp.symm.trans h
    exact hq
  · rw [h] at hp
    cases hp

theorem Dec.Listed.fin {d : Dec} (hp : d.pos = .fin) : d.Listed := by
  refine ⟨fun q h => ?_, fun r h => ?_⟩
  · rw [hp] at h
    cases h
  · cases hp.symm.trans h

theorem Dec.Listed.raised {d : Dec} {r : Raise} (hp : d.pos = .raised r) (hr : r.code ∈ d.kind.faults) : d.Listed := by
  refine ⟨fun q h => ?_, fun r' h => ?_⟩
  · rw [hp] at h
    cases h
  · rw [hp] at h
    cases h
    exact hr

/-- A fault of a part that the command reads. -/
theorem Dec.Listed.raise {d : Dec} {q : Part} (hq : q ∈ d.kind.parts) (c : FaultCode) (info : Nat) (hc : c ∈ q.faults) :
    (d.raise c info).Listed := .raised rfl (DecKind.mem_faults hq hc)

theorem Dec.Listed.need {d : Dec} {q : Part} (hq : q ∈ d.kind.parts) (hc : .trunc ∈ q.faults) (n : Nat)
    (k : Dec → Dec) (hk : (k d).Listed) : (d.need n k).Listed := by
  unfold Dec.need
  split
  · exact .raise hq _ _ hc
  · exact hk

/-! ### Tiles (42_tile R151 to R159) -/

section
variable {d : Dec} (ht : Part.tiles ∈ d.kind.parts)
include ht

theorem Dec.Listed.nextTile : d.nextTile.Listed := by
  rcases d.nextTile_cases with ⟨-, h⟩ | h | ⟨hk, h⟩ <;> rw [h]
  · exact .at (q := .tiles) rfl ht
  · exact .fin rfl
  · exact .raised rfl (DecKind.length_mem_faults hk ht)

theorem Dec.Listed.endTile : d.endTile.Listed := by
  rcases d.endTile_eq with ⟨w, -, h⟩ | ⟨-, h⟩ <;> rw [h]
  · exact Dec.Listed.nextTile (d := d.drop (d.bodyLen w)) ht
  · exact Dec.Listed.nextTile ht

theorem Dec.Listed.emitRun (hp : d.pos.part = some .tiles) (c : Color) (run : Nat) : (d.emitRun c run).Listed := by
  rcases d.emitRun_cases c run with ⟨-, h⟩ | ⟨e, -, rfl, h⟩ <;> rw [h]
  · exact .raise ht _ _ (by decide)
  · split
    · exact .endTile ht
    · exact .at hp ht

theorem Dec.Listed.startBody (hp : d.pos.part = some .tiles) (rle : Bool) : (d.startBody rle).Listed := by
  rcases d.startBody_cases rle with ⟨-, h⟩ | ⟨-, -, ⟨-, h⟩ | ⟨-, -, h⟩ | ⟨-, -, h⟩⟩ <;> rw [h]
  · exact .at (q := .tiles) rfl ht
  · exact .emitRun ht hp _ _
  · exact .raise ht _ _ (by decide)
  · exact .at (q := .tiles) rfl ht

theorem Dec.Listed.startPalette (h : Byte) (count : Nat) : (d.startPalette h count).Listed :=
  .need (d := { d with hdr := h }) ht (by decide) _ _ (.at (q := .tiles) rfl ht)

theorem Dec.Listed.reuse (hp : d.pos.part = some .tiles) (h : Byte) : (d.reuse h).Listed := by
  unfold Dec.reuse
  split
  · exact .raise (d := { d with hdr := h }) ht _ _ (by decide)
  · exact .startBody (d := { d with hdr := h, pal := d.sess }) ht hp _

theorem Dec.Listed.withIndex (k : Nat) (f : Color → Dec) (hf : ∀ c, (f c).Listed) : (d.withIndex k f).Listed := by
  unfold Dec.withIndex
  split
  · exact hf _
  · exact .raise ht _ _ (by decide)

end

/-! ### The quadtree, the diff stream and the source of a record (43_quadtree R187, R188, 44_diff R207) -/

theorem Dec.Listed.nextNode {d : Dec} (ht : Part.tree ∈ d.kind.parts) : d.nextNode.Listed := by
  rcases d.nextNode_cases with ⟨_, _, _, -, h⟩ | ⟨_, _, _, _, -, h⟩ | ⟨-, h | h | h⟩ <;> rw [h]
  · exact .at (q := .tree) rfl ht
  · exact .at (q := .tree) rfl ht
  · exact .fin rfl
  · exact .raise ht _ _ (by decide)
  · exact .raise ht _ _ (by decide)

theorem Dec.Listed.nextWord {d : Dec} (hw : Part.words ∈ d.kind.parts) : d.nextWord.Listed := by
  rcases d.nextWord_cases with ⟨-, h⟩ | ⟨-, -, h⟩ | ⟨-, -, h⟩ <;> rw [h]
  · exact .at (q := .words) rfl hw
  · exact .fin rfl
  · exact .raise hw _ _ (by decide)

theorem Dec.Listed.startDiff {d : Dec} (hw : Part.words ∈ d.kind.parts) : d.startDiff.Listed := by
  unfold Dec.startDiff
  split
  · exact .raise hw _ _ (by decide)
  · exact .nextWord (d := { d with cursor := 0 }) hw

theorem Dec.Listed.dispatch {d : Dec} (hr : Part.record ∈ d.kind.parts) (src : List Byte) :
    (d.dispatch src).Listed := by
  have hall := DecKind.mem_parts_of_record hr
  unfold Dec.dispatch
  dsimp only
  split_ifs
  · exact .at (q := .payload) rfl (hall _)
  · exact .startDiff (d := { d with inp := src, ip := 0 }) (hall _)
  · exact .at (q := .tiles) rfl (hall _)
  · exact .at (q := .tree) rfl (hall _)

/-! ### One token -/

/-- A token that is expected under a condition. -/
theorem some_of_expected {c : Prop} [Decidable c] {a f : Dec} (h : (if c then some a else none) = some f) :
    c ∧ f = a := by
  split at h
  · exact ⟨‹c›, (Option.some.inj h).symm⟩
  · cases h

/-- The fault of a buffer without a structural format is `E_FORMAT` (45_selector R224). -/
def Dec.FormatFault (d : Dec) : Prop := ∀ r, d.badFormat = some r → r.code = .format

section
variable {d f : Dec} (hd : d.Listed)
include hd

theorem Dec.Listed.parts_of_pos {p : Pos} {q : Part} (hp : d.pos = p) (hq : p.part = some q) : q ∈ d.kind.parts :=
  hd.part q (hp ▸ hq)

theorem Dec.Listed.tileRaw (h : d.tileRaw = some f) : f.Listed := by
  obtain ⟨hp, rfl⟩ := some_of_expected h
  have ht := hd.parts_of_pos hp rfl
  exact .need (d := { d with hdr := 0 }) ht (by decide) _ _ (.at (q := .tiles) rfl ht)

theorem Dec.Listed.palEntry {c : Color} (h : d.palEntry c = some f) : f.Listed := by
  unfold Dec.palEntry at h
  split at h
  · rename_i rle left hp
    cases h
    have ht := hd.parts_of_pos hp rfl
    split
    · exact .startBody (d := { d with pal := d.pal ++ [c], sess := d.pal ++ [c] }) ht (by rw [hp]; rfl) rle
    · exact .at (q := .tiles) rfl ht
  · cases h

/-- A pixel of palette index `k`. -/
theorem Dec.Listed.indexed {k : Nat} {p : Pos} (hq : p.part = some .tiles)
    (h : (if d.pos = p then some (d.withIndex k fun c => d.emitRun c 1) else none) = some f) : f.Listed := by
  obtain ⟨hp, rfl⟩ := some_of_expected h
  have ht := hd.parts_of_pos hp hq
  exact .withIndex ht _ _ fun c => .emitRun ht (by rw [hp, hq]) c 1

theorem Dec.Listed.runN {k : BitVec 7} (h : d.runN k = some f) : f.Listed := by
  obtain ⟨hp, rfl⟩ := some_of_expected h
  have ht := hd.parts_of_pos hp rfl
  exact .withIndex ht _ _ fun c => .at (q := .tiles) rfl ht

theorem Dec.Listed.runLenCont (h : d.runLenCont = some f) : f.Listed := by
  unfold Dec.runLenCont at h
  split at h
  · rename_i hp
    cases h
    exact .at (q := .tiles) rfl (hd.parts_of_pos hp rfl)
  · cases h

theorem Dec.Listed.runLenFinal {b : Byte} (h : d.runLenFinal b = some f) : f.Listed := by
  unfold Dec.runLenFinal at h
  split at h
  · rename_i plain c extra hp
    cases h
    refine .emitRun (d := { d with pos := if plain then .plain else .rle }) (hd.parts_of_pos hp rfl) ?_ c _
    cases plain <;> rfl
  · cases h

theorem Dec.Listed.qtBlob {pal : List Word} {lc : Word} {cs ss : List Byte} (h : d.qtBlob pal lc cs ss = some f) :
    f.Listed := by
  obtain ⟨hp, rfl⟩ := some_of_expected h
  exact .nextNode (hd.parts_of_pos hp rfl)

theorem Dec.Listed.split0 (h : d.split0 = some f) : f.Listed := by
  unfold Dec.split0 at h
  split at h
  · rename_i hp
    cases h
    exact .at (q := .tree) rfl (hd.parts_of_pos hp rfl)
  · cases h

theorem Dec.Listed.split1 (h : d.split1 = some f) : f.Listed := by
  unfold Dec.split1 at h
  split at h
  · rename_i hp
    cases h
    exact .nextNode (hd.parts_of_pos hp rfl)
  · cases h

theorem Dec.Listed.qtColor {b : Nat} {v : Word} (h : d.qtColor b v = some f) : f.Listed := by
  unfold Dec.qtColor at h
  split at h
  · rename_i hp
    have ht := hd.parts_of_pos hp rfl
    obtain ⟨-, rfl⟩ := some_of_expected h
    split
    · exact .nextNode ht
    · exact .raise ht _ _ (by decide)
  · cases h

theorem Dec.Listed.diffW {gap : Byte} {c : Color} (h : d.diffW gap c = some f) : f.Listed := by
  obtain ⟨hp, rfl⟩ := some_of_expected h
  have hw := hd.parts_of_pos hp rfl
  dsimp only
  split_ifs
  · exact .raise hw _ _ (by decide)
  · exact Dec.Listed.raise (q := .words) (by exact hw) _ _ (by decide)
  · exact .nextWord hw

theorem Dec.Listed.encTag {tag : BitVec 16} (hb : d.FormatFault) (h : d.encTag tag = some f) : f.Listed := by
  obtain ⟨⟨hp, -⟩, rfl⟩ := some_of_expected h
  have hr := hd.parts_of_pos hp rfl
  split
  · exact .at (q := .record) rfl hr
  · split
    · rename_i r hbad
      refine .raised rfl (DecKind.mem_faults hr ?_)
      rw [hb r hbad]
      decide
    · exact .at (q := .record) rfl hr

theorem Dec.Listed.comprNone (h : d.comprNone = some f) : f.Listed := by
  obtain ⟨⟨hp, -⟩, rfl⟩ := some_of_expected h
  have hr := hd.parts_of_pos hp rfl
  refine .need hr (by decide) _ _ ?_
  split
  · exact .raise hr _ _ (by decide)
  · exact .dispatch hr _

theorem Dec.Listed.comprTag {tag : BitVec 16} {m : ComprMethod} (h : d.comprTag tag m = some f) : f.Listed := by
  obtain ⟨⟨hp, -⟩, rfl⟩ := some_of_expected h
  have hr := hd.parts_of_pos hp rfl
  refine .need hr (by decide) _ _ ?_
  split
  · exact .raise hr _ _ (by decide)
  · split
    · exact .raise hr _ _ (by decide)
    · exact .dispatch hr _

/-- A token moves the cursors inside the parts that the command reads, or raises one of their faults. -/
theorem Dec.Listed.apply (hb : d.FormatFault) {i : Instr} (h : d.apply i = some f) : f.Listed := by
  cases i
  case wireHdr | tilePlainRle | plainRun =>
    obtain ⟨hp, rfl⟩ := some_of_expected h
    exact .at rfl (hd.parts_of_pos hp rfl)
  case encNone | encDiff | encTrle | encQuadtree => exact hd.encTag hb h
  case comprNone => exact hd.comprNone h
  case comprLz4 | comprZstd | comprZlib | comprBzip2 => exact hd.comprTag h
  case rawPayload =>
    obtain ⟨-, rfl⟩ := some_of_expected h
    exact .fin rfl
  case tileRaw => exact hd.tileRaw h
  case tileReusePacked | tileReuseRle =>
    obtain ⟨hp, rfl⟩ := some_of_expected h
    exact .reuse (hd.parts_of_pos hp rfl) (by rw [hp]; rfl) _
  case tileSolid | tilePacked | tilePalRleLow | tilePalRle =>
    obtain ⟨hp, rfl⟩ := some_of_expected h
    exact .startPalette (hd.parts_of_pos hp rfl) _ _
  case palEntry => exact hd.palEntry h
  case rawPixel =>
    obtain ⟨hp, rfl⟩ := some_of_expected h
    exact .emitRun (hd.parts_of_pos hp rfl) (by rw [hp]; rfl) _ _
  case packedIndex | run1 => exact hd.indexed rfl h
  case runN => exact hd.runN h
  case runLenCont => exact hd.runLenCont h
  case runLenFinal => exact hd.runLenFinal h
  case qtBlob => exact hd.qtBlob h
  case split0 => exact hd.split0 h
  case split1 => exact hd.split1 h
  case qtColor => exact hd.qtColor h
  case diffW => exact hd.diffW h
  all_goals cases h

end

/-! ### Reading a token -/

theorem ofWidth_error {n m v : Nat} {i : Instr} {q : Reject} (h : ofWidth n m v i = .error q) : q = .wrongShape := by
  unfold ofWidth at h
  split at h <;> cases h
  rfl

theorem takeAt_error {bs : List Byte} {off n : Nat} {q : Reject} (h : takeAt bs off n = .error q) :
    (rejectRaise q).code = .trunc := by
  unfold takeAt at h
  split at h <;> cases h
  rfl

theorem decodeEncTag_error {e : BitVec 16} {q : Reject} (h : decodeEncTag e = .error q) :
    (rejectRaise q).code = .method := by
  unfold decodeEncTag at h
  split_ifs at h
  cases h
  rfl

theorem decodeComprTag_error {c : BitVec 16} {q : Reject} (h : decodeComprTag c = .error q) :
    (rejectRaise q).code = .method := by
  unfold decodeComprTag at h
  split_ifs at h
  cases h
  rfl

theorem decode_packed_error {w v : Nat} {q : Reject} (h : decode (.packed w) (.word w v) = .error q) :
    (rejectRaise q).code = .trunc := by
  rw [decode] at h
  split at h
  · rw [ofWidth_error h]
    rfl
  · cases h
    rfl

theorem decode_qtColor_error {b v : Nat} {q : Reject} (h : decode (.qtColor b) (.word b v) = .error q) :
    (rejectRaise q).code = .trunc := by
  rw [decode] at h
  split at h
  · rw [ofWidth_error h]
    rfl
  · cases h
    rfl

theorem decode_split_error {v : Nat} {q : Reject} (h : decode .split (.word 1 v) = .error q) :
    (rejectRaise q).code = .trunc := by
  rw [ofWidth_error h]
  rfl

theorem decode_rawBody_error {n : Nat} {bs : List Byte} {q : Reject} (h : decode (.rawBody n) (.bytes bs) = .error q) :
    (rejectRaise q).code = .trunc := by
  rw [decode] at h
  split at h <;> cases h
  rfl

/-- A sequence of reads is rejected where its first read is, or behind it. -/
theorem bind_error {α β : Type} {x : Except Reject α} {f : α → Except Reject β} {q : Reject}
    (h : x >>= f = .error q) : x = .error q ∨ ∃ a, f a = .error q := by
  cases x with
  | error e =>
    cases h
    exact .inl rfl
  | ok a => exact .inr ⟨a, h⟩

/-- A wire header is cut short, has another marker, or names an unassigned method (45_selector R224). -/
theorem parseWire_error {bs : List Byte} {q : Reject} (h : parseWire bs = .error q) :
    (rejectRaise q).code ∈ Part.record.faults := by
  have htrunc {off n : Nat} (ht : takeAt bs off n = .error q) :
      (rejectRaise q).code ∈ Part.record.faults := by
    rw [takeAt_error ht]
    decide
  unfold parseWire at h
  rcases bind_error h with h | ⟨magic, h⟩
  · exact htrunc h
  dsimp only at h
  split at h
  · cases h
    simp [rejectRaise, Part.faults]
  rcases bind_error h with h | ⟨e, h⟩
  · exact htrunc h
  rcases bind_error h with h | ⟨c, h⟩
  · exact htrunc h
  split_ifs at h
  · cases h
    simp [rejectRaise, Part.faults]
  · cases h
    simp [rejectRaise, Part.faults]
  all_goals rcases bind_error h with h | ⟨complen, h⟩
  · exact htrunc h
  · cases h
  · exact htrunc h
  · rcases bind_error h with h | ⟨srclen, h⟩
    · exact htrunc h
    · cases h

/-- A quadtree container is cut short (43_quadtree R186). -/
theorem parseQt_error {bs : List Byte} {q : Reject} (h : parseQt bs = .error q) : (rejectRaise q).code = .trunc := by
  unfold parseQt at h
  rcases bind_error h with h | ⟨n, h⟩
  · exact takeAt_error h
  rcases bind_error h with h | ⟨pal, h⟩
  · exact takeAt_error h
  rcases bind_error h with h | ⟨leaves, h⟩
  · exact takeAt_error h
  rcases bind_error h with h | ⟨cs, h⟩
  · exact takeAt_error h
  · cases h

/-- All that reading bits can raise (40_bitstream R107). -/
theorem brGet_error {budget p n : Nat} {byteAt : Nat → Byte} {r : Raise} (h : brGet budget byteAt p n = .error r) :
    (32 < n ∧ r.code = .bsCount) ∨ (n ≤ 32 ∧ 8 * budget < p + n ∧ r.code = .bsUnderflow) := by
  unfold brGet at h
  split at h
  · cases h
    exact .inl ⟨‹_›, rfl⟩
  · rename_i hn
    split at h <;> cases h
    exact .inr ⟨Nat.not_lt.1 hn, ‹_›, rfl⟩

/-! ### Where the streams stand -/

/-- What keeps a running decoder from asking for bits or words that are not there: the tile has pixels to come, a packed
body as many bits as they need, and a diff stream stands at a whole word. -/
structure Dec.Aligned (d : Dec) : Prop where
  room : d.made < d.npix
  packed : ∀ w, d.pos = .packed w → w ≤ 4 ∧ d.bitpos ≤ w * d.made
  words : d.pos = .diff → d.inp.length % 4 = 0 ∧ d.inp ≠ []

/-- Positions that are neither a packed body nor a diff word. -/
theorem Dec.Aligned.of_pos {d : Dec} (hroom : d.made < d.npix) (hp : ∀ w, d.pos ≠ .packed w) (hw : d.pos ≠ .diff) :
    d.Aligned := ⟨hroom, fun w h => absurd h (hp w), fun h => absurd h hw⟩

theorem Dec.not_packed_of_inTile {d : Dec} (h : d.pos.inTile = true) (w : Nat) : d.pos ≠ .packed w :=
  fun hp => by rw [hp] at h; cases h

theorem Dec.not_diff_of_inTile {d : Dec} (h : d.pos.inTile = true) : d.pos ≠ .diff :=
  fun hp => by rw [hp] at h; cases h

/-- A tile of the rectangle has a pixel. -/
theorem Dec.npix_pos {d : Dec} (ht : d.tile < tileCount d.w d.h) : 0 < d.npix := by
  have := List.length_pos_of_ne_nil (tilePixels_ne_nil [] ht)
  rwa [tilePixels_length] at this

theorem Dec.nextTile_aligned {d : Dec} (hr : d.nextTile.running = true) : d.nextTile.Aligned := by
  rcases d.nextTile_cases with ⟨ht, h⟩ | h | ⟨-, h⟩ <;> rw [h] at hr ⊢
  · exact .of_pos (Dec.npix_pos (d := { d with tile := d.tile + 1, made := 0, pos := .tile }) ht)
      (fun _ => Pos.noConfusion) Pos.noConfusion
  · cases hr
  · cases hr

theorem Dec.endTile_aligned {d : Dec} (hr : d.endTile.running = true) : d.endTile.Aligned := by
  rcases d.endTile_eq with ⟨w, -, h⟩ | ⟨-, h⟩ <;> rw [h] at hr ⊢ <;> exact Dec.nextTile_aligned hr

/-- Behind some pixels of a tile, whose bits were all read. -/
theorem Dec.emitRun_aligned {d : Dec} {c : Color} {run : Nat}
    (hp : ∀ w, d.pos = .packed w → w ≤ 4 ∧ d.bitpos ≤ w * (d.made + run)) (hw : d.pos ≠ .diff)
    (hr : (d.emitRun c run).running = true) : (d.emitRun c run).Aligned := by
  rcases d.emitRun_cases c run with ⟨-, h⟩ | ⟨e, hm, rfl, h⟩ <;> rw [h] at hr ⊢
  · cases hr
  · split at hr
    · rw [if_pos ‹_›]
      exact Dec.endTile_aligned hr
    · rename_i hne
      rw [if_neg hne]
      exact ⟨Nat.lt_of_le_of_ne hm hne, hp, fun h => absurd h hw⟩

theorem tileWidth_le {n : Nat} (h : n ≤ Config.tilePackedMax) : tileWidth n ≤ 4 := by
  unfold tileWidth
  split_ifs <;> omega

theorem Dec.startBody_aligned {d : Dec} {rle : Bool} (hroom : d.made < d.npix) (ht : d.pos.inTile = true)
    (hr : (d.startBody rle).running = true) : (d.startBody rle).Aligned := by
  rcases d.startBody_cases rle with ⟨-, h⟩ | ⟨-, h16, ⟨-, h⟩ | ⟨-, -, h⟩ | ⟨-, -, h⟩⟩ <;> rw [h] at hr ⊢
  · exact .of_pos hroom (fun _ => Pos.noConfusion) Pos.noConfusion
  · exact Dec.emitRun_aligned (fun w hp => absurd hp (d.not_packed_of_inTile ht w)) (d.not_diff_of_inTile ht) hr
  · cases hr
  · refine ⟨hroom, fun w hp => ?_, Pos.noConfusion⟩
    cases hp
    exact ⟨tileWidth_le h16, Nat.zero_le _⟩

theorem Dec.nextNode_aligned {d : Dec} (hroom : d.made < d.npix) (hr : d.nextNode.running = true) :
    d.nextNode.Aligned := by
  rcases d.nextNode_cases with ⟨_, _, _, -, h⟩ | ⟨_, _, _, _, -, h⟩ | ⟨-, h | h | h⟩ <;> rw [h] at hr ⊢
  · exact .of_pos hroom (fun _ => Pos.noConfusion) Pos.noConfusion
  · exact .of_pos hroom (fun _ => Pos.noConfusion) Pos.noConfusion
  all_goals cases hr

theorem Dec.nextWord_aligned {d : Dec} (hroom : d.made < d.npix) (h4 : d.inp.length % 4 = 0)
    (hr : d.nextWord.running = true) : d.nextWord.Aligned := by
  rcases d.nextWord_cases with ⟨hne, h⟩ | ⟨-, -, h⟩ | ⟨-, -, h⟩ <;> rw [h] at hr ⊢
  · exact ⟨hroom, fun _ => Pos.noConfusion, fun _ => ⟨h4, hne⟩⟩
  all_goals cases hr

theorem Dec.startDiff_aligned {d : Dec} (hroom : d.made < d.npix) (hr : d.startDiff.running = true) :
    d.startDiff.Aligned := by
  unfold Dec.startDiff at hr ⊢
  split at hr
  · cases hr
  · rename_i h4
    rw [if_neg h4]
    exact Dec.nextWord_aligned (d := { d with cursor := 0 }) hroom (not_not.1 h4) hr

theorem Dec.dispatch_aligned {d : Dec} {src : List Byte} (hroom : d.made < d.npix)
    (hr : (d.dispatch src).running = true) : (d.dispatch src).Aligned := by
  unfold Dec.dispatch at hr ⊢
  dsimp only at hr ⊢
  split_ifs at hr ⊢
  · exact .of_pos hroom (fun _ => Pos.noConfusion) Pos.noConfusion
  · exact Dec.startDiff_aligned (d := { d with inp := src, ip := 0 }) hroom hr
  · exact .of_pos hroom (fun _ => Pos.noConfusion) Pos.noConfusion
  · exact .of_pos hroom (fun _ => Pos.noConfusion) Pos.noConfusion

/-- A token that is not the last leaves the streams as the next one needs them. -/
theorem Dec.Move.aligned {d f : Dec} (h : d.Move f) (hd : d.Aligned) (hr : f.running = true) : f.Aligned := by
  cases h with
  | fault e r hk => cases hr
  | rawPayload bytes hp => cases hr
  | wireHdr | encTag | palette | palEntry | split0 =>
    exact .of_pos hd.room (fun _ => Pos.noConfusion) Pos.noConfusion
  | comprTag src hp => exact Dec.dispatch_aligned hd.room hr
  | read n h p hp hn hl hq hq' =>
    exact .of_pos hd.room (Dec.not_packed_of_inTile (d := { d with pos := p }) hq)
      (Dec.not_diff_of_inTile (d := { d with pos := p }) hq)
  | reuse h rle hp hl => exact Dec.startBody_aligned hd.room (by show d.pos.inTile = true; rw [hp]; rfl) hr
  | lastEntry c rle left hp hl => exact Dec.startBody_aligned hd.room rfl hr
  | pixels n p c run hp hn hl hq hq' =>
    refine Dec.emitRun_aligned (fun w hp => ?_) (Dec.not_diff_of_inTile (d := { d with pos := p }) hq) hr
    exact absurd hp (Dec.not_packed_of_inTile (d := { d with pos := p }) hq w)
  | packedIndex w c hp =>
    obtain ⟨hw, hbits⟩ := hd.packed w hp
    refine Dec.emitRun_aligned (fun w' hp' => ?_) (by show d.pos ≠ .diff; rw [hp]; exact Pos.noConfusion) hr
    cases hp.symm.trans hp'
    exact ⟨hw, by rw [Nat.mul_succ]; exact Nat.add_le_add_right hbits w⟩
  | qtBlob | split1 | qtColor => exact Dec.nextNode_aligned hd.room hr
  | diffW c k hp hl hc =>
    refine Dec.nextWord_aligned hd.room ?_ hr
    have h4 := (hd.words hp).1
    show (d.inp.drop 4).length % 4 = 0
    rw [List.length_drop]
    omega

/-! ### The fault of reading a token -/

/-- What fetching finds: a fault of the stream, or a token, the cursors standing where they stood. -/
def Dec.Finds (d : Dec) : Option Instr × Dec → Prop
  | (none, e) => e.Listed
  | (some _, e) => e.pos = d.pos ∧ e.operands = d.operands

section
variable {d : Dec} {q : Part} (hq : q ∈ d.kind.parts)
include hq

/-- A token read whole, whose rejection is a fault of the part. -/
theorem Dec.Finds.fetched (n b sp : Nat) {x : Except Reject Instr}
    (hx : ∀ e, x = .error e → (rejectRaise e).code ∈ q.faults) : d.Finds ((d.past n b sp).fetched x) := by
  cases x with
  | ok i => exact ⟨rfl, rfl⟩
  | error e => exact .raised rfl (DecKind.mem_faults hq (hx e rfl))

theorem Dec.Finds.fetchByte (hc : .trunc ∈ q.faults) {ch : Channel} (f : Byte → Instr)
    (hch : ∀ b : Byte, Sys2Proof.decode ch (.word 8 b.toNat) = .ok (f b)) : d.Finds (d.fetchByte ch) := by
  unfold Dec.fetchByte
  split
  · rw [hch]
    exact .fetched hq 1 0 0 fun e h => by cases h
  · exact Dec.Listed.raise hq _ _ hc

theorem Dec.Finds.fetchColor (hc : .trunc ∈ q.faults) {ch : Channel} (f : Color → Instr)
    (hch : ∀ c : Color, Sys2Proof.decode ch (.word Config.colorBits c.toNat) = .ok (f c)) :
    d.Finds (d.fetchColor ch) := by
  unfold Dec.fetchColor
  split
  · exact Dec.Listed.raise hq _ _ hc
  · rw [hch]
    exact .fetched hq 3 0 0 fun e h => by cases h

theorem Dec.Finds.fetchBits {n budget : Nat} {ch : Channel}
    (hbits : ∀ r, d.getBits 0 budget d.bitpos n = .error r → r.code ∈ q.faults)
    (hch : ∀ v e, Sys2Proof.decode ch (.word n v) = .error e → (rejectRaise e).code ∈ q.faults) :
    d.Finds (d.fetchBits n budget ch) := by
  unfold Dec.fetchBits
  split
  · exact .fetched hq 0 n 0 (hch _)
  · rename_i r hr
    exact Dec.Listed.raised rfl (DecKind.mem_faults hq (hbits r hr))

end

theorem qtColorBits_le (n : Nat) : qtColorBits n ≤ 32 := by
  rw [qtColorBits, qtWidth_eq]
  split_ifs <;> decide

/-- What the decoder finds wherever it stands in a stream of its own. -/
theorem Dec.fetch_finds {d : Dec} (hd : d.Listed) (ha : d.Aligned) (hr : d.running = true) : d.Finds d.fetch := by
  unfold Dec.fetch
  split
  case h_1 hp => exact .fetched (hd.parts_of_pos hp rfl) _ 0 0 fun e h => parseWire_error h
  case h_2 hp => exact .fetched (hd.parts_of_pos hp rfl) 0 0 0 fun e h => by rw [decodeEncTag_error h]; decide
  case h_3 hp => exact .fetched (hd.parts_of_pos hp rfl) 0 0 0 fun e h => by rw [decodeComprTag_error h]; decide
  case h_4 hp =>
    have hq := hd.parts_of_pos hp rfl
    split
    · exact Dec.Listed.raise hq _ _ (by decide)
    · exact .fetched hq d.rawSize 0 0 fun e h => by rw [decode_rawBody_error h]; decide
  case h_5 hp => exact .fetchByte (hd.parts_of_pos hp rfl) (by decide) _ decode_tileHdr
  case h_6 hp => exact .fetchColor (hd.parts_of_pos hp rfl) (by decide) _ decode_palEntry
  case h_7 hp => exact .fetchColor (hd.parts_of_pos hp rfl) (by decide) _ decode_rawPixel
  case h_8 hp => exact .fetchColor (hd.parts_of_pos hp rfl) (by decide) _ decode_plainRun
  case h_9 hp => exact .fetchByte (hd.parts_of_pos hp rfl) (by decide) _ decode_runToken
  case h_10 hp => exact .fetchByte (hd.parts_of_pos hp rfl) (by decide) _ decode_runLen
  case h_11 w hp =>
    obtain ⟨hw, hbits⟩ := ha.packed w hp
    refine .fetchBits (hd.parts_of_pos hp rfl) (fun r h => ?_) fun v e h => by rw [decode_packed_error h]; decide
    rcases brGet_error h with ⟨hn, -⟩ | ⟨-, hlow, -⟩
    · omega
    · have hroom : w * d.made + w ≤ w * d.npix := Nat.mul_le_mul_left w ha.room
      have hbody : w * d.npix ≤ 8 * d.bodyLen w := le_ceilDiv_mul _
      omega
  case h_12 hp => exact .fetched (hd.parts_of_pos hp rfl) 0 0 0 fun e h => by rw [parseQt_error h]; decide
  case h_13 hp =>
    have hq := hd.parts_of_pos hp rfl
    unfold Dec.fetchSplit
    split
    · exact .fetched hq 0 0 1 fun e h => by rw [decode_split_error h]; decide
    · rename_i r hbits
      refine Dec.Listed.raised rfl (DecKind.mem_faults hq ?_)
      rcases brGet_error hbits with ⟨hn, -⟩ | ⟨-, -, hcode⟩
      · omega
      · rw [hcode]
        decide
  case h_14 hp =>
    have hq := hd.parts_of_pos hp rfl
    split
    · exact Dec.Listed.raise hq _ _ (by decide)
    · refine .fetchBits hq (fun r h => ?_) fun v e h => by rw [decode_qtColor_error h]; decide
      rcases brGet_error h with ⟨hn, -⟩ | ⟨-, -, hcode⟩
      · exact absurd hn (Nat.not_lt.2 (qtColorBits_le _))
      · rw [hcode]
        decide
  case h_15 hp =>
    obtain ⟨h4, hne⟩ := ha.words hp
    have := List.length_pos_of_ne_nil hne
    rw [if_neg (by omega), decode_diff]
    exact .fetched (hd.parts_of_pos hp rfl) 4 0 0 fun e h => by cases h
  case h_16 hp => simp [Dec.running, hp] at hr
  case h_17 hp => simp [Dec.running, hp] at hr

/-! ### A whole decoding -/

/-- A decoding on its way: it stands in its own stream, and the streams stand as its next token needs them. -/
structure Dec.OnCourse (d : Dec) : Prop where
  listed : d.Listed
  format : d.FormatFault
  aligned : d.running = true → d.Aligned

theorem Dec.formatFault_of_operands {d e : Dec} (h : e.operands = d.operands) (hd : d.FormatFault) : e.FormatFault := by
  rw [Dec.FormatFault, Dec.badFormat_of_operands h]
  exact hd

theorem Dec.kind_of_operands {d e : Dec} (h : e.operands = d.operands) : e.kind = d.kind := congrArg (·.1) h

theorem Dec.Listed.of_pos {d e : Dec} (h : e.operands = d.operands) (hp : e.pos = d.pos) (hd : d.Listed) :
    e.Listed := by
  refine ⟨fun q hq => ?_, fun r hr => ?_⟩
  · rw [Dec.kind_of_operands h]
    exact hd.part q (hp ▸ hq)
  · rw [Dec.kind_of_operands h]
    exact hd.fault r (hp ▸ hr)

theorem Dec.OnCourse.next_listed {d : Dec} (hd : d.OnCourse) (hr : d.running = true) : d.next.Listed := by
  have hf := Dec.fetch_finds hd.listed (hd.aligned hr) hr
  rcases hfetch : d.fetch with ⟨_ | i, e⟩ <;> rw [hfetch] at hf
  · rwa [d.next_of_fetch_none e hfetch]
  · obtain ⟨hpos, hops⟩ := hf
    have he : e.Listed := hd.listed.of_pos hops hpos
    rw [d.next_of_fetch_some e i hfetch]
    cases happly : e.apply i with
    | none => exact he
    | some f => exact he.apply (Dec.formatFault_of_operands hops hd.format) happly

theorem Dec.OnCourse.next {d : Dec} (hd : d.OnCourse) (hr : d.running = true) (hm : d.Move d.next) :
    d.next.OnCourse :=
  ⟨hd.next_listed hr, Dec.formatFault_of_operands hm.operands_eq hd.format, hm.aligned (hd.aligned hr)⟩

/-- What every token of a decoding keeps holds all through it (as `Dec.run_induct`, for the next token itself). -/
theorem Dec.run_next_induct {P : Dec → Prop} (hP : ∀ d : Dec, d.running = true → d.Move d.next → P d → P d.next)
    (n : Nat) (d : Dec) (hn : d.NoSplitZero) (hd : P d) : P (Dec.run n d) := by
  induction n generalizing d with
  | zero => exact hd
  | succ n ih =>
    cases hr : d.running
    · rwa [Dec.run_stopped _ d hr]
    · have hm := d.next_move hr hn
      rw [Dec.run_succ_running n d hr]
      exact ih d.next hm.not_split_zero (hP d hr hm hd)

theorem Dec.OnCourse.decode {d : Dec} (hd : d.OnCourse) (hn : d.NoSplitZero) : d.decode.OnCourse :=
  have hnext (d : Dec) (hr : d.running = true) (hm : d.Move d.next) (hd : d.OnCourse) : d.next.OnCourse := hd.next hr hm
  Dec.run_next_induct hnext _ _ (Dec.run_noSplitZero 3 d hn) (Dec.run_next_induct hnext 3 d hn hd)

/-- A decoding raises only what its command's stream can raise. -/
theorem Dec.OnCourse.decode_raised {d : Dec} (hd : d.OnCourse) (hn : d.NoSplitZero) {r : Raise}
    (hr : d.decode.pos = .raised r) : r.code ∈ d.kind.faults := by
  have := (hd.decode hn).listed.fault r hr
  rwa [Dec.kind_of_operands (d.decode_operands hn)] at this

theorem State.begin_formatFault (s : State) (kind : DecKind) : (s.begin kind).FormatFault :=
  fun _ h => checkFormatA_code h

theorem State.begin_room {s : State} (hrect : s.rectOk) (kind : DecKind) :
    (s.begin kind).made < (s.begin kind).npix := Dec.npix_pos (s.begin_inRect kind hrect).1

/-- The cursors of a command stand at the start of its stream. -/
theorem State.begin_onCourse {s : State} (hrect : s.rectOk) {kind : DecKind} (hk : kind ≠ .diff) :
    (s.begin kind).OnCourse := by
  have hroom := State.begin_room hrect kind
  refine ⟨?_, s.begin_formatFault kind, fun _ => .of_pos hroom ?_ ?_⟩
  · cases kind <;> exact .at rfl (List.mem_cons_self ..)
  · intro w
    cases kind <;> exact Pos.noConfusion
  · cases kind
    case diff => exact absurd rfl hk
    all_goals exact Pos.noConfusion

theorem State.begin_startDiff_onCourse {s : State} (hrect : s.rectOk) : (s.begin .diff).startDiff.OnCourse :=
  ⟨.startDiff (List.mem_cons_self ..),
    Dec.formatFault_of_operands (congrArg Prod.fst (Dec.startDiff_kept _)) (s.begin_formatFault .diff),
    Dec.startDiff_aligned (State.begin_room hrect .diff)⟩

end Sys2Proof.Machine
end

section
/-! SUPPORT. The fault matrix (60_exceptions R271): the codes each command can raise, from its operand checks
(`operandChecks_code`), the end of its operation, and the stream of its decoder (`Dec.OnCourse.decode_raised`). -/

namespace Sys2Proof.Machine

/-! ### The codes of a command -/

/-- What a command can raise (R271); `E_QT_INTERNAL`, which the matrix gives in parentheses, never is (43_quadtree
R183). -/
def commandFaults : Instr → List FaultCode
  | .bswInit => [.outCap]
  | .bswPut => [.bsState, .bsCount, .bsOverflow]
  | .bswFin | .bsrFin => [.bsState]
  | .bsrGet => [.bsState, .bsCount, .bsUnderflow]
  | .palBuild => [.rect, .format, .palArg]
  | .palGet => [.palArg]
  | .tileEnc | .trleEnc | .qtEnc | .diffEnc | .rawPack => [.rect, .format, .outCap]
  | .tileDec => [.rect, .format] ++ DecKind.faults .tile
  | .trleDec => [.rect, .format] ++ DecKind.faults .trle
  | .qtDec => [.rect, .format] ++ DecKind.faults .qt
  | .diffDec => [.rect, .format] ++ DecKind.faults .diff
  | .rawUnpack => [.rect, .format] ++ DecKind.faults .raw
  | .selDec => [.rect, .format] ++ DecKind.faults .sel
  | .selEnc => [.method, .rect, .format, .compressor, .outCap]
  | _ => []

theorem operandChecks_code {i : Instr} {s : State} {r : Raise} (h : some r ∈ operandChecks i s) :
    r.code ∈ commandFaults i := by
  have hrect (h : some r = checkRect s) : r.code = .rect := checkRect_code h.symm
  have hformat (h : some r = checkFormatA s) : r.code = .format := checkFormatA_code h.symm
  cases i <;> simp only [operandChecks, List.mem_cons, List.not_mem_nil, or_false] at h
  case trleEnc | trleDec | qtEnc | qtDec | diffDec =>
    rcases h with h | h
    · simp [commandFaults, hrect h]
    · simp [commandFaults, hformat h]
  case palBuild | tileEnc | tileDec =>
    rcases h with h | h | h
    · simp [commandFaults, hrect h]
    · simp [commandFaults, hformat h]
    · simp [commandFaults, raiseIf_code h.symm]
  case diffEnc =>
    rcases h with h | h | h
    · simp [commandFaults, hrect h]
    · simp [commandFaults, hformat h]
    · simp [commandFaults, checkFormatB_code h.symm]
  case rawPack | rawUnpack | selDec =>
    rcases h with h | h
    · simp [commandFaults, hrect h]
    · rcases checkRaw_code h.symm with h | h <;> simp [commandFaults, h]
  case selEnc =>
    rcases h with h | h | h
    · simp [commandFaults, checkMethods_code h.symm]
    · simp [commandFaults, hrect h]
    · rcases checkRaw_code h.symm with h | h <;> simp [commandFaults, h]

/-- A fault that stands in a state has one of these codes. -/
def State.RaisesIn (t : State) (codes : List FaultCode) : Prop :=
  t.status.fault = true → ∃ c ∈ codes, t.regs.fault = BitVec.ofNat 32 c.number

theorem State.raisesIn_of_ready {t : State} {codes : List FaultCode} (h : t.status.fault = false) : t.RaisesIn codes :=
  fun hf => by rw [h] at hf; cases hf

/-- A state that took a fault: `State.raise` and the ends built on it. -/
theorem State.raisesIn_of_code {t : State} {codes : List FaultCode} {c : FaultCode} (hc : c ∈ codes)
    (h : t.regs.fault = BitVec.ofNat 32 c.number := by rfl) : t.RaisesIn codes := fun _ => ⟨c, hc, h⟩

/-! ### The ends of a command -/

theorem State.writeOut_raisesIn {u : State} {codes : List FaultCode} (hu : u.status.fault = false)
    (hc : .outCap ∈ codes) (bytes : List Byte) (after : State → State)
    (hafter : (after (u.storeOut bytes)).status.fault = (u.storeOut bytes).status.fault) :
    (u.writeOut bytes after).RaisesIn codes := by
  rcases u.writeOut_cases bytes after with ⟨-, h⟩ | ⟨-, h⟩ <;> rw [h]
  · exact State.raisesIn_of_ready (hafter.trans hu)
  · exact State.raisesIn_of_code hc

theorem State.flush_status (s : State) (d : Dec) : (s.flush d).status = s.status := by rw [State.flush_pix]

theorem State.decoded_fault (s : State) (d : Dec) : (s.decoded d).status.fault = s.status.fault := by
  cases hk : d.kind <;> simp only [State.decoded, hk] <;> rfl

/-- A decoder that ends raises what its cursors stand at. -/
theorem State.settle_raisesIn {u : State} {d : Dec} {codes : List FaultCode} (hu : u.status.fault = false)
    (hend : d.running = false) (hd : ∀ r, d.pos = .raised r → r.code ∈ codes) : (u.settle d).RaisesIn codes := by
  unfold Dec.running at hend
  split at hend
  · rename_i hp
    rw [State.settle_fin u d hp]
    refine State.raisesIn_of_ready ((State.decoded_fault _ d).trans ?_)
    rw [State.flush_status, hu]
  · rename_i r hp
    rw [State.settle_raised u d r hp]
    exact State.raisesIn_of_code (hd r hp)
  · cases hend

theorem State.runDecoder_raisesIn {u : State} {d : Dec} {codes : List FaultCode} (hu : u.status.fault = false)
    (hd : d.OnCourse) (hn : d.NoSplitZero) (hcodes : d.kind.faults ⊆ codes) : (u.runDecoder d).RaisesIn codes :=
  State.settle_raisesIn hu (d.decode_ends hn) fun _ hr => hcodes (hd.decode_raised hn hr)

/-! ### What an operation raises by itself -/

/-- All that writing bits can raise (40_bitstream R102). -/
theorem bwPut_code {budget value n : Nat} {bits : List Bool} {r : Raise} (h : bwPut budget bits value n = .error r) :
    r.code = .bsCount ∨ r.code = .bsOverflow := by
  unfold bwPut at h
  split_ifs at h
  · cases h
    exact .inl rfl
  · cases h
    exact .inr rfl

theorem compressStep_code {tag : Nat} {src : List Byte} {level : Word} {r : Raise}
    (h : compressStep tag src level = .error r) : r.code = .compressor := by
  unfold compressStep at h
  split at h
  · cases h
  · split at h <;> cases h
    rfl

/-- All that step 4 can raise (45_selector R222; log 25). -/
theorem State.payload_code {u : State} {src : List Byte} {r : Raise} (h : u.payload src = .error r) :
    r.code = .compressor ∨ r.code = .rect := by
  unfold State.payload at h
  split at h
  · rename_i hstep
    cases h
    exact .inl (compressStep_code hstep)
  · split at h
    · rename_i hsource
      cases h
      split at hsource
      · cases hsource
      · exact .inr (raiseIf_code hsource)
    · cases h

/-! ### The frame of a command -/

section
variable {s t : State} {codes : List FaultCode} (hf : s.status.fault = false)
include hf

theorem command_next_raisesIn {w : Word} {go : State → State} (h : command w (fun u => .next (go u)) s = .next t)
    (hgo : ∀ u : State, u.status.fault = false → (go u).RaisesIn codes) : t.RaisesIn codes := by
  rw [command_ready _ _ s hf] at h
  cases h
  exact hgo (s.start w) hf

theorem command_launch_raisesIn {w : Word} {checks : State → List (Option Raise)} {stops : State → List (Option Stop)}
    {esc : State → Raise → State} {go : State → State}
    (h : command w (fun u => launch u (checks u) (stops u) esc go) s = .next t)
    (hchecks : ∀ u r, some r ∈ checks u → r.code ∈ codes) (hesc : ∀ u r, r.code ∈ codes → (esc u r).RaisesIn codes)
    (hgo : ∀ u : State, u.status.fault = false → (∀ x ∈ checks u, x = none) → (go u).RaisesIn codes) :
    t.RaisesIn codes := by
  rw [command_ready _ _ s hf] at h
  rcases launch_cases _ _ _ _ _ _ h with ⟨r, hr, rfl⟩ | ⟨hc, -, rfl⟩
  · exact hesc _ r (hchecks _ r (firstSome_mem _ r hr))
  · exact hgo _ hf hc

/-! ### Commands that raise nothing, bit streams and palettes -/

theorem execNop_raisesIn (h : execNop s = .next t) : t.RaisesIn (commandFaults .nop) :=
  command_next_raisesIn hf h fun _ hu => State.raisesIn_of_ready hu

theorem execTrleRst_raisesIn (h : execTrleRst s = .next t) : t.RaisesIn (commandFaults .trleRst) :=
  command_next_raisesIn hf h fun _ hu => State.raisesIn_of_ready hu

theorem execBswInit_raisesIn (h : execBswInit s = .next t) : t.RaisesIn (commandFaults .bswInit) := by
  refine command_launch_raisesIn hf h (fun u r hr => ?_) (fun _ _ hr => State.raisesIn_of_code hr) fun u hu _ =>
    State.raisesIn_of_ready hu
  rw [List.mem_singleton] at hr
  rw [raiseIf_code hr.symm]
  decide

theorem execBswPut_raisesIn (h : execBswPut s = .next t) : t.RaisesIn (commandFaults .bswPut) := by
  refine command_next_raisesIn hf h fun u hu => ?_
  split
  · exact State.raisesIn_of_code (c := .bsState) (by decide)
  · split
    · rename_i r hr
      exact State.raisesIn_of_code (c := r.code) (by rcases bwPut_code hr with h | h <;> rw [h] <;> decide)
    · exact State.raisesIn_of_ready hu

theorem execBswFin_raisesIn (h : execBswFin s = .next t) : t.RaisesIn (commandFaults .bswFin) := by
  refine command_next_raisesIn hf h fun u hu => ?_
  split
  · exact State.raisesIn_of_code (c := .bsState) (by decide)
  · exact State.raisesIn_of_ready hu

theorem execBsrGet_raisesIn (h : execBsrGet s = .next t) : t.RaisesIn (commandFaults .bsrGet) := by
  refine command_next_raisesIn hf h fun u hu => ?_
  split
  · exact State.raisesIn_of_code (c := .bsState) (by decide)
  · split
    · rename_i r hr
      exact State.raisesIn_of_code (c := r.code)
        (by rcases brGet_error hr with ⟨-, h⟩ | ⟨-, -, h⟩ <;> rw [h] <;> decide)
    · exact State.raisesIn_of_ready hu

theorem execBsrFin_raisesIn (h : execBsrFin s = .next t) : t.RaisesIn (commandFaults .bsrFin) := by
  refine command_next_raisesIn hf h fun u hu => ?_
  split
  · exact State.raisesIn_of_code (c := .bsState) (by decide)
  · exact State.raisesIn_of_ready hu

theorem execBsrInit_raisesIn (h : execBsrInit s = .next t) : t.RaisesIn (commandFaults .bsrInit) :=
  command_launch_raisesIn hf h (fun _ _ hr => absurd hr List.not_mem_nil) (fun _ _ hr => State.raisesIn_of_code hr)
    fun _ hu _ => State.raisesIn_of_ready hu

theorem execPalBuild_raisesIn (h : execPalBuild s = .next t) : t.RaisesIn (commandFaults .palBuild) :=
  command_launch_raisesIn hf h (fun _ _ => operandChecks_code (i := .palBuild))
    (fun _ _ hr => State.raisesIn_of_code hr) fun _ hu _ => State.raisesIn_of_ready hu

theorem execPalLookup_raisesIn (h : execPalLookup s = .next t) : t.RaisesIn (commandFaults .palLookup) := by
  refine command_next_raisesIn hf h fun u hu => ?_
  split
  · exact State.raisesIn_of_ready hu
  · exact State.raisesIn_of_ready hu

theorem execPalGet_raisesIn (h : execPalGet s = .next t) : t.RaisesIn (commandFaults .palGet) := by
  refine command_next_raisesIn hf h fun u hu => ?_
  split
  · exact State.raisesIn_of_ready hu
  · exact State.raisesIn_of_code (c := .palArg) (by decide)

/-! ### Encoders -/

/-- An encoding command raises the faults of its checks and those of its operation. -/
theorem command_encode_raisesIn {i : Instr} {w : Word} {stops : State → List (Option Stop)} {go : State → State}
    (h : command w (fun u => launch u (operandChecks i u) (stops u) State.raiseEncode go) s = .next t)
    (hgo : ∀ u : State, u.status.fault = false → (go u).RaisesIn (commandFaults i)) :
    t.RaisesIn (commandFaults i) :=
  command_launch_raisesIn hf h (fun _ _ => operandChecks_code) (fun _ _ hr => State.raisesIn_of_code hr)
    fun u hu _ => hgo u hu

theorem execTileEnc_raisesIn (h : execTileEnc s = .next t) : t.RaisesIn (commandFaults .tileEnc) :=
  command_encode_raisesIn (i := .tileEnc) hf h fun u hu =>
    State.writeOut_raisesIn (u := u.dropPalette) hu (by decide) _ _ rfl

theorem execTrleEnc_raisesIn (h : execTrleEnc s = .next t) : t.RaisesIn (commandFaults .trleEnc) :=
  command_encode_raisesIn (i := .trleEnc) hf h fun u hu =>
    State.writeOut_raisesIn (u := u.dropPalette.setSession _) hu (by decide) _ _ rfl

theorem execDiffEnc_raisesIn (h : execDiffEnc s = .next t) : t.RaisesIn (commandFaults .diffEnc) :=
  command_encode_raisesIn (i := .diffEnc) hf h fun _ hu => State.writeOut_raisesIn hu (by decide) _ _ rfl

theorem execRawPack_raisesIn (h : execRawPack s = .next t) : t.RaisesIn (commandFaults .rawPack) :=
  command_encode_raisesIn (i := .rawPack) hf h fun _ hu => State.writeOut_raisesIn hu (by decide) _ _ rfl

theorem execQtEnc_raisesIn (h : execQtEnc s = .next t) : t.RaisesIn (commandFaults .qtEnc) := by
  refine command_encode_raisesIn (i := .qtEnc) hf h fun u hu => ?_
  dsimp only
  split
  · rename_i r hq
    exact absurd hq ((qtSelfCheckDead _ _ _).1 r)
  · exact State.raisesIn_of_ready hu
  · exact State.writeOut_raisesIn (by exact hu) (by decide) _ _ rfl

theorem execSelEnc_raisesIn (h : execSelEnc s = .next t) : t.RaisesIn (commandFaults .selEnc) := by
  refine command_encode_raisesIn (i := .selEnc) hf h fun u hu => ?_
  obtain ⟨st, hst, -⟩ := u.structural_chosen
  rw [hst]
  dsimp only
  split
  · rename_i r hr
    exact State.raisesIn_of_code (c := r.code) (by rcases State.payload_code hr with h | h <;> rw [h] <;> decide)
  · exact State.writeOut_raisesIn (u := u.dropPalette.setSession st.sess) hu (by decide) _ _ rfl

/-! ### Decoders -/

/-- A decoding command raises the faults of its checks and those of its stream. -/
theorem command_decode_raisesIn {i : Instr} {w : Word} {more : State → List (Option Raise)}
    {stops : State → List (Option Stop)} {area : State → Area} {start : State → Dec}
    (hi : ∀ u, operandChecks i u = checkRect u :: more u)
    (h : command w (fun u => launch u (checkRect u :: more u) (stops u) (fun u r => u.raiseDecode (area u) r)
      fun u => u.runDecoder (start u)) s = .next t)
    (hstart : ∀ u : State, u.rectOk → (start u).OnCourse) (hn : ∀ u, (start u).NoSplitZero)
    (hcodes : ∀ u, (start u).kind.faults ⊆ commandFaults i) : t.RaisesIn (commandFaults i) := by
  refine command_launch_raisesIn hf h (fun u r hr => operandChecks_code (s := u) (hi u ▸ hr))
    (fun _ _ hr => State.raisesIn_of_code hr) fun u hu hc => ?_
  have hrect := (checkRect_eq_none u).1 (hc _ (List.mem_cons_self ..))
  exact State.runDecoder_raisesIn hu (hstart u hrect) (hn u) (hcodes u)

theorem execTileDec_raisesIn (h : execTileDec s = .next t) : t.RaisesIn (commandFaults .tileDec) :=
  command_decode_raisesIn (i := .tileDec) hf (fun _ => rfl) h (fun _ hr => State.begin_onCourse hr (by decide))
    (fun u => u.begin_noSplitZero _) fun _ => List.subset_append_right _ _

theorem execTrleDec_raisesIn (h : execTrleDec s = .next t) : t.RaisesIn (commandFaults .trleDec) :=
  command_decode_raisesIn (i := .trleDec) hf (fun _ => rfl) h (fun _ hr => State.begin_onCourse hr (by decide))
    (fun u => u.begin_noSplitZero _) fun _ => List.subset_append_right _ _

theorem execQtDec_raisesIn (h : execQtDec s = .next t) : t.RaisesIn (commandFaults .qtDec) :=
  command_decode_raisesIn (i := .qtDec) hf (fun _ => rfl) h (fun _ hr => State.begin_onCourse hr (by decide))
    (fun u => u.begin_noSplitZero _) fun _ => List.subset_append_right _ _

theorem execDiffDec_raisesIn (h : execDiffDec s = .next t) : t.RaisesIn (commandFaults .diffDec) := by
  refine command_decode_raisesIn (i := .diffDec) hf (fun _ => rfl) h (fun _ hr => State.begin_startDiff_onCourse hr)
    (fun _ => Dec.startDiff_noSplitZero _) fun u => ?_
  rw [Dec.kind_of_operands (congrArg Prod.fst (Dec.startDiff_kept (u.begin .diff)))]
  exact List.subset_append_right _ _

theorem execRawUnpack_raisesIn (h : execRawUnpack s = .next t) : t.RaisesIn (commandFaults .rawUnpack) :=
  command_decode_raisesIn (i := .rawUnpack) hf (fun _ => rfl) h (fun _ hr => State.begin_onCourse hr (by decide))
    (fun u => u.begin_noSplitZero _) fun _ => List.subset_append_right _ _

theorem execSelDec_raisesIn (h : execSelDec s = .next t) : t.RaisesIn (commandFaults .selDec) :=
  command_decode_raisesIn (i := .selDec) hf (fun _ => rfl) h (fun _ hr => State.begin_onCourse hr (by decide))
    (fun u => u.begin_noSplitZero _) fun _ => List.subset_append_right _ _

/-! ### The matrix -/

/-- Every command, from every state with no fault set. -/
theorem exec_raisesIn {i : Instr} (hi : i.isCommand = true) (h : exec i s = .next t) :
    t.RaisesIn (commandFaults i) := by
  cases i
  case nop => exact execNop_raisesIn hf h
  case bswInit => exact execBswInit_raisesIn hf h
  case bswPut => exact execBswPut_raisesIn hf h
  case bswFin => exact execBswFin_raisesIn hf h
  case bsrInit => exact execBsrInit_raisesIn hf h
  case bsrGet => exact execBsrGet_raisesIn hf h
  case bsrFin => exact execBsrFin_raisesIn hf h
  case palBuild => exact execPalBuild_raisesIn hf h
  case palLookup => exact execPalLookup_raisesIn hf h
  case palGet => exact execPalGet_raisesIn hf h
  case tileEnc => exact execTileEnc_raisesIn hf h
  case tileDec => exact execTileDec_raisesIn hf h
  case trleEnc => exact execTrleEnc_raisesIn hf h
  case trleDec => exact execTrleDec_raisesIn hf h
  case trleRst => exact execTrleRst_raisesIn hf h
  case qtEnc => exact execQtEnc_raisesIn hf h
  case qtDec => exact execQtDec_raisesIn hf h
  case diffEnc => exact execDiffEnc_raisesIn hf h
  case diffDec => exact execDiffDec_raisesIn hf h
  case rawPack => exact execRawPack_raisesIn hf h
  case rawUnpack => exact execRawUnpack_raisesIn hf h
  case selEnc => exact execSelEnc_raisesIn hf h
  case selDec => exact execSelDec_raisesIn hf h
  all_goals simp [Instr.isCommand, commandTable] at hi

end

/-- Settles O11: a command raises what `commandFaults` lists (`exec_raisesIn`), which the matrix lists too; a word that
is no command raises `E_ILLEGAL_CMD` (`illegalCommandFaults`). -/
theorem faultMatrix : Obligations.FaultMatrix := by
  intro i codes s t hmem
  have hrow : i.isCommand = true ∧ ∀ c ∈ commandFaults i, c.number ∈ codes := by
    refine (?_ : ∀ p ∈ _, Instr.isCommand p.1 = true ∧ ∀ c ∈ commandFaults p.1, c.number ∈ p.2) (i, codes) hmem
    decide
  obtain ⟨hi, hcodes⟩ := hrow
  refine ⟨fun hf h hfault => ?_, fun w rest hd hf hh hw h => ?_⟩
  · obtain ⟨c, hc, hreg⟩ := exec_raisesIn hf hi h hfault
    rw [hreg, c.toNat_word]
    exact hcodes c hc
  · cases (illegalCommandFaults s w rest hd hh hf hw).symm.trans h
    rfl

end Sys2Proof.Machine
end

section
/-! SUPPORT. Reset and power-up (70_reset R280), and the end of every decoding (70_reset R297): the reset write answers
`State.resetBlock`, whose fields are those of `State.reset` but for the memories, and `State.reset` meets the
invariant. -/

namespace Sys2Proof.Machine

/-! ### The block after the reset write (R280, 10_state R28) -/

theorem exec_reset (ign : BitVec 31) (s : State) : exec (.reset ign) s = .next s.resetBlock := rfl

@[simp] theorem State.resetBlock_regs (s : State) : s.resetBlock.regs = State.reset.regs := rfl
@[simp] theorem State.resetBlock_status (s : State) : s.resetBlock.status = State.reset.status := rfl
@[simp] theorem State.resetBlock_pal (s : State) : s.resetBlock.pal = [] := rfl
@[simp] theorem State.resetBlock_sess (s : State) : s.resetBlock.sess = [] := rfl
@[simp] theorem State.resetBlock_dec (s : State) : s.resetBlock.dec = none := rfl

/-- The memories stay, and with `lost` so do the free values of unlisted bytes (log 29). -/
@[simp] theorem State.resetBlock_byte (s : State) (sp : Space) (a : Nat) : s.resetBlock.byte sp a = s.byte sp a :=
  State.byte_eq s s.resetBlock rfl rfl rfl sp a

/-- A read depends on the registers and the flags alone. -/
theorem State.readReg_congr {s t : State} (hregs : t.regs = s.regs) (hstatus : t.status = s.status) (r : Reg) :
    t.readReg r = s.readReg r := by
  cases r
  case status => exact congrArg Status.word hstatus
  all_goals simp only [State.readReg, hregs]

/-! ### The block after power-up (R280, 10_state R36) -/

@[simp] theorem Status.word_zero : Status.zero.word = 0 := rfl

theorem State.reset_readReg (r : Reg) : State.reset.readReg r = 0 := by
  cases r
  case status => exact Status.word_zero
  all_goals rfl

theorem State.resetBlock_readReg (s : State) (r : Reg) : s.resetBlock.readReg r = 0 :=
  (State.readReg_congr s.resetBlock_regs s.resetBlock_status r).trans (State.reset_readReg r)

theorem State.reset_faultInv : State.reset.faultInv := ⟨fun _ => ⟨rfl, rfl⟩, fun hf => by cases hf⟩

theorem State.reset_sessionInv : State.reset.sessionInv := ⟨rfl, Nat.zero_le _⟩

theorem State.reset_contextInv : State.reset.contextInv := ⟨Nat.zero_le _, Nat.zero_le _⟩

theorem State.reset_inv : State.reset.Inv := by
  obtain ⟨hpix, hstr⟩ := State.reset_wf
  exact ⟨hpix, hstr, State.reset_faultInv, State.reset_sessionInv, State.reset_contextInv, List.nodup_nil,
    State.decInv_of_none rfl⟩

theorem State.reset_quiet : State.reset.Quiet := ⟨rfl, rfl, rfl, Nat.zero_le _⟩

/-! ### The obligations -/

/-- Settles O38: no decoding starts at a split bit of level 0, and from every other position each token lowers
`Dec.weight`, which the loop's bound covers (`Dec.decode_ends`). -/
theorem decodersTerminate : Obligations.DecodersTerminate := fun s kind =>
  ⟨Dec.decode_ends _ (s.begin_noSplitZero kind), Dec.decode_ends _ (Dec.startDiff_noSplitZero _)⟩

/-- Settles O12: the reset write answers `State.resetBlock`, which reads as the block after power-up. -/
theorem resetClearsBlock : Obligations.ResetClearsBlock := by
  refine ⟨fun s ign => ⟨s.resetBlock, exec_reset ign s, s.resetBlock_readReg, s.resetBlock_pal, s.resetBlock_sess,
    ?_, ?_, s.resetBlock_dec, s.resetBlock_byte⟩, State.reset_readReg, rfl, rfl, rfl, rfl⟩
  · exact congrArg Status.bswOpen s.resetBlock_status
  · exact congrArg Status.bsrOpen s.resetBlock_status

/-- Settles O58: at reset no fault stands and the memories, the palette, the session and both contexts are empty. -/
theorem invAtReset : Obligations.InvAtReset := ⟨State.reset_inv, State.reset_quiet⟩

end Sys2Proof.Machine
end
